-- ==== Sys2Proof/Word.lean ====
section
/-! DEFINITION. The word types of the Rezwal 4016 and the index types of its units (spec/00_scope.md, part constants). -/

namespace Sys2Proof

/-- A byte of a frame, a register or a ring. -/
abbrev Byte := BitVec 8
/-- A 16-bit field: a tag, a port, a bus word. -/
abbrev Half := BitVec 16
/-- A 32-bit wrapping counter, position or time base value. -/
abbrev Word := BitVec 32

/-- Slot 0 to 3. -/
abbrev SlotId := Fin 4
/-- Transfer channel and request line 0 to 5. -/
abbrev ChanId := Fin 6
/-- Interrupt line 0 to 11 of a slot. -/
abbrev LineId := Fin 12
/-- Interrupt input by source number, slot × 12 + line. -/
abbrev InputId := Fin 48
/-- Window id 0 to 31. -/
abbrev WindowId := Fin 32
/-- Staging page 0 to 127. -/
abbrev PageId := Fin 128
/-- Timing class 0 to 3. -/
abbrev ClassId := Fin 4

end Sys2Proof
end

