-- ==== Sys2Proof/Syntax.lean ====
section
/-! DEFINITION. The commands of the Rezwal 4016: one constructor for each row of spec/opcode_table.json. A request
carries its tag and the fields of its payload as chapter 10 lays them out, raw, at their frame widths; an event
carries what the outside decides (log 1 and log 8). -/

namespace Sys2Proof

/-- The two inbound pipes (section 9.1). -/
inductive Pipe where
  | command | stream
deriving DecidableEq, Repr

/-- What the card of a cycle's target puts on SD15–SD0 when they are sampled: a level for each line, and which lines it
drives (R19, log 8). -/
structure CardData where
  levels : Half
  driven : Half
deriving DecidableEq, Repr

/-- Request fields of IO_READ, IO_WRITE, MEM_READ and MEM_WRITE (section 10.5), less the data of a write. -/
structure AccessFields where
  routing : Byte
  slot    : Byte
  address : Word
  width   : Byte
  step    : Byte
  count   : Half
deriving DecidableEq, Repr

/-- Request fields of PAIR_WRITE and PAIR_READ, less the data of a write. -/
structure PairFields where
  routing   : Byte
  slot      : Byte
  indexPort : Half
  indexByte : Byte
  dataPort  : Half
  width     : Byte
deriving DecidableEq, Repr

/-- Request fields of POLL. -/
structure PollFields where
  routing  : Byte
  slot     : Byte
  space    : Byte
  address  : Word
  width    : Byte
  mask     : Half
  wanted   : Half
  sense    : Byte
  interval : Half
  timeout  : Word
deriving DecidableEq, Repr

/-- The window record of MAP_ADD (section 10.3). -/
structure WindowFields where
  id     : Byte
  slot   : Byte
  space  : Byte
  base   : Word
  size   : Word
  width  : Byte
  cls    : Byte
  shadow : Byte
  source : Byte
deriving DecidableEq, Repr

/-- Request fields of CH_CONFIGURE after the channel. -/
structure ConfigureFields where
  slot        : Byte
  direction   : Byte
  service     : Byte
  cls         : Byte
  blockLength : Word
  autoReload  : Byte
  sizeCode    : Byte
  mark        : Word
  markNotices : Byte
  policy      : Byte
  fill        : Half
deriving DecidableEq, Repr

/-- Request fields of INT_CONFIGURE after the slot and the line. -/
structure InputFields where
  mode     : Byte
  polarity : Byte
  filter   : Byte
  mask     : Byte
  wake     : Byte
deriving DecidableEq, Repr

/-- The commands. -/
inductive Instr where
  -- link events
  | partPowerOn
  | linkUp
  | linkReset
  | frameReceive (pipe : Pipe) (bytes : List Byte)
  | frameTake (pipe : Pipe)
  | frameTransmit
  | frameSent
  | noticeAdmission
  -- clock
  | setClock (tag target : Half)
  | park (tag : Half)
  | wake (tag : Half)
  | clockStop (tag : Half)
  | startingEnd
  | retuneEnd
  -- slot bus
  | refreshTick
  | setTiming (tag : Half) (cls ioWs memWs : Byte)
  | setReadyLimit (tag : Half) (limit : Byte)
  | setRefresh (tag : Half) (interval : Byte)
  | busStatus (tag : Half)
  | cycleEnd (extension : Nat) (card : CardData)
  | readyTimeout
  -- slot power
  | currentMeasurement (draw : Vector Nat 4)
  | cooldownEnd (slot : SlotId)
  | poweringEnd (slot : SlotId)
  | resettingEnd (slot : SlotId)
  | slotResetEnd (slot : SlotId)
  | powerOn (tag : Half) (slot : Byte)
  | powerOff (tag : Half) (slot : Byte)
  | isolate (tag : Half) (slot : Byte)
  | connect (tag : Half) (slot : Byte)
  | slotReset (tag : Half) (slot width : Byte)
  | setLimit (tag : Half) (slot : Byte) (limit : Half)
  | slotStatus (tag : Half) (slot : Byte)
  -- resource map
  | mapAdd (tag : Half) (fields : WindowFields)
  | mapRemove (tag : Half) (id : Byte)
  | mapList (tag : Half)
  | shadowRead (tag port : Half) (indexPresent index : Byte)
  | shadowClear (tag : Half) (idPresent id : Byte)
  -- accesses
  | ioRead (tag : Half) (fields : AccessFields)
  | ioWrite (tag : Half) (fields : AccessFields) (data : List Byte)
  | memRead (tag : Half) (fields : AccessFields)
  | memWrite (tag : Half) (fields : AccessFields) (data : List Byte)
  | pairWrite (tag : Half) (fields : PairFields) (data : List Byte)
  | pairRead (tag : Half) (fields : PairFields)
  | poll (tag : Half) (fields : PollFields)
  | pollIntervalEnd
  | cancel (tag target : Half)
  -- transfer channels
  | chConfigure (tag : Half) (channel : Byte) (fields : ConfigureFields)
  | chArm (tag : Half) (channel : Byte)
  | chPause (tag : Half) (channel : Byte)
  | chResume (tag : Half) (channel : Byte)
  | chClear (tag : Half) (channel : Byte)
  | chRelease (tag : Half) (channel : Byte)
  | chStatus (tag : Half) (channel : Byte)
  | trqAssert (slot : SlotId) (line : ChanId)
  | trqDeassert (slot : SlotId) (line : ChanId)
  -- staging rings
  | ringWrite (tag : Half) (channel : Byte) (data : List Byte)
  | ringRead (tag : Half) (channel : Byte) (largest : Half)
  -- interrupt capture
  | irlChange (slot : SlotId) (line : LineId) (high : Bool)
  | irlFilterChange (slot : SlotId) (line : LineId)
  | intConfigure (tag : Half) (slot line : Byte) (fields : InputFields)
  | intMask (tag : Half) (slot line mask : Byte)
  | intStatus (tag : Half) (slot : Byte)
  | intAck (tag : Half) (slot line : Byte)
  -- link requests and the time base
  | info (tag : Half)
  | resetPart (tag : Half)
  | timeBaseAdvance
deriving DecidableEq, Repr

end Sys2Proof
end

