-- ==== Sys2Proof/WellFormed.lean ====
section
/-! DEFINITION. What makes a command well formed beyond its types: the data of a request fits the payload its kind
allows (R189), and an extension fits the largest ready limit (R24). -/

namespace Sys2Proof

/-- The largest ready limit in BCLK, floor(255 × 48 / 5) (R24). -/
def largestReadyLimit : Nat := 255 * 48 / 5

/-- The command can be sent: its data has a length R189 allows, or its extension a length R24 allows. -/
def Instr.wellFormed : Instr → Bool
  | .ioWrite _ _ data => decide (data.length ≤ 1024)
  | .memWrite _ _ data => decide (data.length ≤ 1024)
  | .pairWrite _ _ data => decide (data.length = 1) || decide (data.length = 2)
  | .ringWrite _ _ data => decide (data.length ≤ 1024)
  | .cycleEnd extension _ => decide (extension ≤ largestReadyLimit)
  | .partPowerOn | .linkUp | .linkReset | .frameReceive _ _ | .frameTake _ | .frameTransmit
  | .frameSent | .noticeAdmission | .setClock _ _ | .park _ | .wake _ | .clockStop _
  | .startingEnd | .retuneEnd | .refreshTick | .setTiming _ _ _ _ | .setReadyLimit _ _
  | .setRefresh _ _ | .busStatus _ | .readyTimeout | .currentMeasurement _ | .cooldownEnd _
  | .poweringEnd _ | .resettingEnd _ | .slotResetEnd _ | .powerOn _ _ | .powerOff _ _
  | .isolate _ _ | .connect _ _ | .slotReset _ _ _ | .setLimit _ _ _ | .slotStatus _ _
  | .mapAdd _ _ | .mapRemove _ _ | .mapList _ | .shadowRead _ _ _ _ | .shadowClear _ _ _
  | .ioRead _ _ | .memRead _ _ | .pairRead _ _ | .poll _ _ | .pollIntervalEnd | .cancel _ _
  | .chConfigure _ _ _ | .chArm _ _ | .chPause _ _ | .chResume _ _ | .chClear _ _
  | .chRelease _ _ | .chStatus _ _ | .trqAssert _ _ | .trqDeassert _ _ | .ringRead _ _ _
  | .irlChange _ _ _ | .irlFilterChange _ _ | .intConfigure _ _ _ _ | .intMask _ _ _ _
  | .intStatus _ _ | .intAck _ _ _ | .info _ | .resetPart _ | .timeBaseAdvance => true

end Sys2Proof
end

