-- ==== Sys2Proof/Decode.lean ====
section
/-! DEFINITION. The block has no processor's decoder and spec/opcode_table.json gives bits to no row, so no word
spells a command. What a FRAME spells is decoded by Machine/Frames.lean, from the layouts of chapter 10. -/

namespace Sys2Proof

/-- The command a word of the opcode table spells: the table gives no row any bits, so none. -/
def decodeTableWord (_nbits _w : Nat) : Option Instr := none

end Sys2Proof
end

