-- ==== Sys2Proof/Machine/Bytes.lean ====
section
/-! DEFINITION. Little-endian fields of frames (spec/00_scope.md, 'Byte order'; spec/10_frame_and_record_formats.md). -/

namespace Sys2Proof.Machine

open Sys2Proof

/-- The value v as a field of n bytes, the least significant byte first. -/
def le : Nat → Nat → List Byte
  | 0, _ => []
  | n + 1, v => BitVec.ofNat 8 v :: le n (v / 256)

/-- The number that a field of bytes spells, the least significant byte first. -/
def unle : List Byte → Nat
  | [] => 0
  | b :: bs => b.toNat + 256 * unle bs

/-- The number in the field of n bytes at an offset of a payload. -/
def field (payload : List Byte) (offset n : Nat) : Nat := unle ((payload.drop offset).take n)

/-- A one-byte field of a payload. -/
def byteAt (payload : List Byte) (offset : Nat) : Byte := BitVec.ofNat 8 (field payload offset 1)
/-- A two-byte field of a payload. -/
def halfAt (payload : List Byte) (offset : Nat) : Half := BitVec.ofNat 16 (field payload offset 2)
/-- A four-byte field of a payload. -/
def wordAt (payload : List Byte) (offset : Nat) : Word := BitVec.ofNat 32 (field payload offset 4)

/-- A yes or no as a byte (section 10.3). -/
def yesNo (b : Bool) : Byte := if b then 1 else 0

/-- A field of n zero bytes. -/
def zeros (n : Nat) : List Byte := List.replicate n 0

/-- The low byte of a bus word, on SD7–SD0. -/
def lowByte (h : Half) : Byte := h.setWidth 8
/-- The high byte of a bus word, on SD15–SD8. -/
def highByte (h : Half) : Byte := (h >>> 8).setWidth 8
/-- A bus word from its low and its high byte. -/
def joinBytes (lo hi : Byte) : Half := hi ++ lo

end Sys2Proof.Machine
end

