-- ==== Sys2Proof/Config.lean ====
section
/-! DEFINITION. The part constants of spec/00_scope.md, the fixed times of the chapters, and the free values
(log 10, log 11 and log 20). -/

namespace Sys2Proof.Config

/-- R180: the part code INFO reports. -/
def partCode : Nat := 0x4016
/-- R180: the revision INFO reports. -/
def revision : Nat := 1
/-- R172: frames an intake queue holds. -/
def intakeDepth : Nat := 16
/-- R176: places of the reply queue. -/
def replyPlaces : Nat := 16
/-- R177: places of the notice queue. -/
def noticePlaces : Nat := 48
/-- R81: entries of the Shadow List. -/
def shadowEntries : Nat := 256
/-- R187: the largest frame payload. -/
def maxPayload : Nat := 1040
/-- R34: transfers of one DEMAND burst. -/
def burstLimit : Nat := 16
/-- R29: the largest refresh debt. -/
def maxDebt : Nat := 4
/-- R16: reference periods in one advance of the time base. -/
def periodsPerMicrosecond : Nat := 48
/-- R4: STARTING in reference periods (200 µs). -/
def startingPeriods : Nat := 9600
/-- R4: the settling part of RETUNING in reference periods (50 µs). -/
def settlingPeriods : Nat := 2400
/-- R53: POWERING in µs. -/
def poweringTime : Nat := 2000
/-- R53: RESETTING of the power-on sequence in µs. -/
def resettingTime : Nat := 5000
/-- R47: the cooldown after a trip in µs. -/
def cooldownTime : Nat := 500000
/-- R44: advances of the time base between two measurements. -/
def measurePeriod : Nat := 10
/-- R44: the reading that stands for 4000 mA or more. -/
def saturatedReading : Nat := 4000
/-- R53: a card is PRESENT from this current up. -/
def presenceCurrent : Nat := 20
/-- Chapter 7: pages of the staging storage. -/
def stagingPages : Nat := 128
/-- Chapter 7: bytes of a staging page. -/
def pageBytes : Nat := 1024
/-- R144, R146: bytes of one ring request. -/
def ringRequestBytes : Nat := 1024
/-- R90: data bytes of one access. -/
def accessBytes : Nat := 1024

/-- The n-th free level of a TRQ line whose slot has its rails open (log 10): the line floats, and the spec
states no level. -/
opaque floatingTrq : Nat → Bool
/-- The n-th free final value of a POLL refused for its width (log 11): the spec states none. -/
opaque refusedPollValue : Nat → BitVec 16
/-- The n-th free length in BCLK of a cycle cut by a trip (log 20): how far it had run is timing that the model leaves
out. -/
opaque cutLength : Nat → Nat

end Sys2Proof.Config
end

