-- ==== Sys2Proof/Machine/State.lean ====
section
/-! DEFINITION. The state of the Rezwal 4016, block by block as the chapters' head tables list it, with the values
after power-on. Plain data throughout. -/

namespace Sys2Proof.Machine

open Sys2Proof

/-! ## Bus Clock Unit (chapter 1) -/

/-- What BCLK is doing (section 1.4). -/
inductive ClockState where
  | stopped | starting | run | retuning | parked
deriving DecidableEq, Repr

/-- A clock request taken and not yet answered (R5). A SET_CLOCK keeps the target it echoes and the error and flag
it computed. -/
inductive ClockReply where
  | setClock (target error : Half) (clamped : Bool)
  | wake
  | park
  | clockStop
deriving DecidableEq, Repr

/-- A request that waits for the cycle in flight (R10, R15). -/
inductive ClockWait where
  | park | clockStop
deriving DecidableEq, Repr

/-- The one CLOCK_WOKE record (R12, R13). -/
inductive WokeRecord where
  | empty
  | held (slot : SlotId) (line : LineId) (time : Word)
  | raised (slot : SlotId) (line : LineId) (time : Word)
deriving DecidableEq, Repr

/-- State of the Bus Clock Unit. -/
structure Bcu where
  clock      : ClockState := .stopped
  /-- D, 5 to 12 (R1). -/
  divider    : Nat := 12
  pendingDivider : Option Nat := none
  deferred   : Option ClockReply := none
  waiting    : Option ClockWait := none
  /-- Reference periods left of STARTING, or of the settling part of RETUNING (R4; log 7). -/
  settling   : Option Nat := none
  timeBase   : Word := 0
  woke       : WokeRecord := .empty
deriving DecidableEq, Repr

/-! ## Slot Bus Controller (chapter 2) -/

/-- The cycle kinds of the fault record, in code order (section 2.9). -/
inductive CycleKind where
  | ioByteRead | ioByteWrite | ioWordRead | ioWordWrite
  | memByteRead | memByteWrite | memWordRead | memWordWrite
  | transferOut | transferIn | refresh
deriving DecidableEq, Repr

/-- The address spaces of the slot bus. -/
inductive Space where
  | io | mem
deriving DecidableEq, Repr

/-- Who holds the grant in force (R32). -/
inductive Holder where
  | ae
  | channel (n : ChanId)
  | refresh
deriving DecidableEq, Repr

/-- The kind of a transfer, fixed when its cycle begins (R119): real, or a fill (OUT) or a drop (IN). -/
inductive TransferKind where
  | real | filler
deriving DecidableEq, Repr

/-- The cycle on the bus, with all that is fixed when it begins (R19, R22, R24, R119). -/
structure Cycle where
  kind      : CycleKind
  /-- The target slot of an IO, MEM or transfer cycle. -/
  target    : Option SlotId
  /-- The slots whose bus switches are closed (R19). -/
  connected : Vector Bool 4
  /-- Port or memory address; 0 for a transfer; the row for a refresh (R21). -/
  address   : Nat
  /-- What a write or an OUT transfer drives on SD15–SD0. -/
  driven    : Half
  /-- Base length plus wait states, in BCLK (R22). -/
  length    : Nat
  /-- The ready limit L in BCLK (R24). -/
  limit     : Nat
  eob       : Bool
  transfer  : TransferKind
  /-- A slot-direct cycle, which may connect an ISOLATED slot (R49). -/
  direct    : Bool
deriving DecidableEq, Repr

/-- How a cycle ended (R27). -/
inductive CycleOutcome where
  | done | timedOut | cut | refused
deriving DecidableEq, Repr

/-- The result the cycle engine hands its requester (R27). -/
structure CycleResult where
  outcome : CycleOutcome
  data    : Half
  slot    : Option SlotId
  length  : Nat
deriving DecidableEq, Repr

/-- Wait states of one timing class (R22). -/
structure TimingClass where
  ioWs  : Nat
  memWs : Nat
deriving DecidableEq, Repr

/-- What ended a faulted cycle (section 2.9). -/
inductive FaultKind where
  | readyTimeout | slotLost
deriving DecidableEq, Repr

/-- The last fault of a slot (section 2.9). -/
structure LastFault where
  kind    : FaultKind
  time    : Word
  cycle   : CycleKind
  space   : Option Space
  /-- Address, channel number or row. -/
  address : Nat
deriving DecidableEq, Repr

/-- The fault record and the BUS_FAULT record of one slot (R35, R36). -/
structure FaultRecord where
  count  : Word := 0
  last   : Option LastFault := none
  raised : Bool := false
deriving DecidableEq, Repr

/-- State of the Slot Bus Controller. The bus is FREE exactly when `holder` is absent. -/
structure Sbc where
  holder     : Option Holder := none
  burst      : Nat := 0
  cycle      : Option Cycle := none
  timing     : Vector TimingClass 4 := #v[⟨0, 0⟩, ⟨1, 1⟩, ⟨2, 2⟩, ⟨4, 4⟩]
  readyLimit : Nat := 16
  interval   : Nat := 15
  countdown  : Nat := 0
  /-- The countdown has reached 0 and its tick has not been taken (log 6). -/
  tickDue    : Bool := false
  debt       : Nat := 0
  slips      : Word := 0
  row        : Byte := 0
  faults     : Vector FaultRecord 4 := Vector.replicate 4 {}
  /-- The result handed last (R27; the model's own field, log 20). -/
  lastResult : Option CycleResult := none
deriving DecidableEq, Repr

/-! ## Slot Power Manager (chapter 3) -/

/-- Where a slot stands in its power and connection life (section 3.1). -/
inductive SlotState where
  | off | powering | resetting | enabled | isolated | fault
deriving DecidableEq, Repr

/-- The kinds of trip (R45, R46). -/
inductive TripKind where
  | soft | hard
deriving DecidableEq, Repr

/-- The last trip of a slot (R47). -/
structure Trip where
  kind    : TripKind
  time    : Word
  current : Nat
deriving DecidableEq, Repr

/-- A slot request taken and not yet answered (R51). A SLOT_RESET keeps the width taken and its flag. -/
inductive SlotReply where
  | powerOn
  | powerOff
  | isolate
  | slotReset (width : Nat) (clamped : Bool)
deriving DecidableEq, Repr

/-- An orderly change that waits for the cycle that connects its slot (R50). -/
inductive SlotChange where
  | powerOff
  | isolate
  | slotReset (width : Nat)
deriving DecidableEq, Repr

/-- A timed part of a slot's life and the µs left of it (R53, R59). -/
inductive SlotSequence where
  | powering (left : Nat)
  | powerOnReset (left : Nat)
  | slotReset (left : Nat)
deriving DecidableEq, Repr

/-- The two states a SLOT_RESET returns to (R58). -/
inductive ReturnState where
  | enabled | isolated
deriving DecidableEq, Repr

/-- One slot record (chapter 3 head table). -/
structure Slot where
  state       : SlotState := .off
  returnState : ReturnState := .enabled
  limit       : Nat := 2000
  current     : Nat := 0
  peak        : Nat := 0
  present     : Bool := false
  lastTrip    : Option Trip := none
  /-- µs of cooldown left; absent when inactive, and a count of 0 counts as inactive (R48, log 6). -/
  cooldown    : Option Nat := none
  softRun     : Nat := 0
  deferred    : Option SlotReply := none
  waiting     : Option SlotChange := none
  sequence    : Option SlotSequence := none
  faultRaised : Bool := false
deriving DecidableEq, Repr

/-- The measurement period shared by the slots (R44). -/
structure Measure where
  /-- Advances of the time base since the last tenth. -/
  count : Nat := 0
  /-- A tenth advance has come and its measurement has not been taken (log 6). -/
  due   : Bool := false
deriving DecidableEq, Repr

/-! ## Resource Map (chapter 4) -/

/-- An ACTIVE window record (section 4.1). -/
structure Window where
  slot       : SlotId
  space      : Space
  base       : Nat
  size       : Nat
  /-- Width 16. -/
  wide       : Bool
  cls        : ClassId
  shadow     : Bool
  /-- Read source SHADOW. -/
  fromShadow : Bool
deriving DecidableEq, Repr

/-- An entry of the Shadow List (section 4.7). -/
structure ShadowEntry where
  port   : Half
  index  : Option Byte
  value  : Byte
  window : WindowId
deriving DecidableEq, Repr

/-- State of the Resource Map. -/
structure Rmap where
  windows : Vector (Option Window) 32 := Vector.replicate 32 none
  /-- Oldest first (R81). -/
  shadow  : List ShadowEntry := []
deriving DecidableEq, Repr

/-! ## Access Engine (chapter 5) -/

/-- What AE is doing with the command in progress (chapter 5 head table). ROUTING begins and ends inside one event. -/
inductive AePhase where
  | idle | routing | waiting | running | interval
deriving DecidableEq, Repr

/-- A single or string access (section 5.2). -/
structure StringAccess where
  write     : Bool
  space     : Space
  /-- The slot of a DIRECT access; absent for MAPPED. -/
  direct    : Option SlotId
  address   : Nat
  wide      : Bool
  increment : Bool
  count     : Nat
  data      : List Byte
deriving DecidableEq, Repr

/-- A paired access (section 5.4). -/
structure PairAccess where
  write     : Bool
  direct    : Option SlotId
  indexPort : Half
  indexByte : Byte
  dataPort  : Half
  wide      : Bool
  data      : List Byte
deriving DecidableEq, Repr

/-- A POLL, its interval and timeout as taken (R99). -/
structure PollAccess where
  space    : Space
  direct   : Option SlotId
  address  : Nat
  wide     : Bool
  mask     : Half
  wanted   : Half
  notEqual : Bool
  interval : Nat
  timeout  : Nat
  clamped  : Bool
deriving DecidableEq, Repr

/-- The access command in progress (R89). -/
inductive Access where
  | string (a : StringAccess)
  | pair (a : PairAccess)
  | poll (a : PollAccess)
deriving DecidableEq, Repr

/-- The byte positions of a unit that a cycle serves (R78). -/
inductive UnitPart where
  | low | high | word
deriving DecidableEq, Repr

/-- One bus cycle of a routed unit (R77, R78, R80), with the Shadow List entries its write records (R82, R83). -/
structure CyclePlan where
  slot    : SlotId
  kind    : CycleKind
  address : Nat
  driven  : Half
  cls     : ClassId
  direct  : Bool
  part    : UnitPart
  records : List ShadowEntry
deriving DecidableEq, Repr

/-- A routed unit: the cycles it still needs, the value built so far and its flags (R79, R93). -/
structure AccessUnit where
  /-- A read whose bytes join the read data (a POLL's value becomes the last value instead). -/
  read     : Bool
  wide     : Bool
  cycles   : List CyclePlan
  value    : Half
  unmapped : Bool
  miss     : Bool
  timedOut : Bool
deriving DecidableEq, Repr

/-- State of the Access Engine. -/
structure Ae where
  phase      : AePhase := .idle
  command    : Option Access := none
  /-- Index of the unit of a string access now carried out (R91); 0 in a PAIR or a POLL (DESIGN CHOICE, log 30). -/
  unit       : Nat := 0
  /-- The units of the present routing that have not ended. -/
  units      : List AccessUnit := []
  done       : Nat := 0
  timedOut   : Nat := 0
  unmapped   : Nat := 0
  misses     : Nat := 0
  readData   : List Byte := []
  cancelTaken : Bool := false
  pollStart  : Option Word := none
  lastValue  : Option Half := none
  /-- The time base value at the POLL's last decision (R100). -/
  decidedAt  : Word := 0
deriving DecidableEq, Repr

/-! ## Transfer Engine (chapter 6) -/

/-- Channel states (section 6.2). -/
inductive ChannelState where
  | free | ready | running | paused | halted | ended
deriving DecidableEq, Repr

/-- OUT moves ring data to the card, IN moves card data to the ring. -/
inductive Direction where
  | out | into
deriving DecidableEq, Repr

/-- What a request meets when an OUT ring lacks data (HOLD, STALL) or an IN ring lacks room (DROP, HALT). -/
inductive Policy where
  | hold | stall | drop | halt
deriving DecidableEq, Repr

/-- Why a channel entered HALTED. -/
inductive HaltCause where
  | none | overrun | slotLost | slotReset | busTimeout
deriving DecidableEq, Repr

/-- The seven channel events (section 6.10). -/
structure EventSet where
  blockEnd : Bool := false
  ended    : Bool := false
  underrun : Bool := false
  overrun  : Bool := false
  halted   : Bool := false
  lowMark  : Bool := false
  highMark : Bool := false
deriving DecidableEq, Repr

/-- A channel's notice record (section 6.1, R130). -/
structure ChannelNotice where
  raised  : Bool := false
  events  : EventSet := {}
  stalled : Bool := false
deriving DecidableEq, Repr

/-- The run of pages of a ring: 2^code pages from `first` (R135). -/
structure Ring where
  first : Nat
  code  : Nat
deriving DecidableEq, Repr

/-- One channel context (section 6.1). -/
structure Channel where
  state       : ChannelState := .free
  slot        : SlotId := 0
  direction   : Direction := .out
  /-- DEMAND service. -/
  demand      : Bool := false
  cls         : ClassId := 0
  blockLength : Nat := 1
  remaining   : Nat := 0
  autoReload  : Bool := false
  ring        : Option Ring := none
  put         : Word := 0
  take        : Word := 0
  mark        : Nat := 0
  markNotices : Bool := false
  markArmed   : Bool := false
  policy      : Policy := .hold
  fill        : Half := 0
  lastDelivered : Half := 0
  transfers   : Word := 0
  blocksEnded : Word := 0
  lastBlockEnd : Word := 0
  underruns   : Word := 0
  overruns    : Word := 0
  cause       : HaltCause := .none
  underrunEpisode : Bool := false
  stallEpisode    : Bool := false
  overrunEpisode  : Bool := false
  notice      : ChannelNotice := {}
  /-- A CH_PAUSE or a link reset waits for the transfer boundary (R113, R134). -/
  pauseWaits  : Bool := false
  /-- A CH_RELEASE waits for the transfer boundary (R116). -/
  releaseWaits : Bool := false
deriving DecidableEq, Repr

/-! ## Staging Memory (chapter 7) -/

/-- Bytes by address, addresses strictly rising, no listed byte 0 (log 18). -/
abbrev Memory := List Host.Cell

/-- State of the Staging Memory; the rings stand in the channel contexts. -/
structure Stm where
  /-- The page map (R135). -/
  pages : Vector (Option ChanId) 128 := Vector.replicate 128 none
  bytes : Memory := []
deriving DecidableEq, Repr

/-! ## Interrupt Capture Unit (chapter 8) -/

/-- Whether and how an input captures. -/
inductive InputMode where
  | off | edge | level
deriving DecidableEq, Repr

/-- Where an input stands in its capture cycle. -/
inductive InputState where
  | idle | pending | notified
deriving DecidableEq, Repr

/-- One entry of a snapshot (R159). -/
structure SnapshotEntry where
  channel   : ChanId
  state     : ChannelState
  remaining : Nat
  transfers : Word
  level     : Nat
deriving DecidableEq, Repr

/-- One input record (section 8.1). -/
structure Input where
  mode        : InputMode := .off
  /-- Polarity LOW: a low line counts as active. -/
  activeLow   : Bool := false
  filter      : Fin 4 := 0
  mask        : Bool := true
  wake        : Bool := false
  state       : InputState := .idle
  /-- The filtered level is ACTIVE. -/
  active      : Bool := false
  run         : Nat := 0
  /-- The N-th differing sample has come and its change has not been taken (log 6). -/
  changeDue   : Bool := false
  captureTime : Word := 0
  snapshot    : List SnapshotEntry := []
  again       : Bool := false
  againTime   : Word := 0
  lost        : Nat := 0
  repeated    : Bool := false
  queued      : Bool := false
deriving DecidableEq, Repr

/-! ## Message Link (chapter 9) -/

/-- A frame the part sends (R187). -/
structure Frame where
  kind    : Byte
  status  : Byte
  tag     : Half
  payload : List Byte
deriving DecidableEq, Repr

/-- A request taken on a pipe. `claim` is lost at a link reset (R184). -/
structure Request where
  kind  : Byte
  tag   : Half
  claim : Bool
deriving DecidableEq, Repr

/-- A notice in the queue; an INTERRUPT notice names its input, since it can be withdrawn (R161). -/
structure Notice where
  input : Option InputId
  frame : Frame
deriving DecidableEq, Repr

/-- The two classes of frame on the report pipe (R179). -/
inductive FrameClass where
  | reply | notice
deriving DecidableEq, Repr

/-- State of the Message Link. The reply queue is the replies made, in order of completion, and behind them the
open reservations (R176). -/
structure Ml where
  up        : Bool := false
  commandIn : List (List Byte) := []
  streamIn  : List (List Byte) := []
  command   : Option Request := none
  stream    : Option Request := none
  replies   : List Frame := []
  reserved  : Nat := 0
  notices   : List Notice := []
  sending   : Option Frame := none
  lastClass : FrameClass := .notice
  resetPending : Bool := false
deriving DecidableEq, Repr

/-! ## The cards' lines and the whole part -/

/-- The levels the cards drive (section 2.1; log 9): TRQ asserted by slot × 6 + line, IRL high by slot × 12 + line. -/
structure Cards where
  trq : Vector Bool 24 := Vector.replicate 24 false
  irl : Vector Bool 48 := Vector.replicate 48 false
deriving DecidableEq, Repr

/-- The state of the part, with the queue of waiting commands. -/
structure State where
  bcu       : Bcu := {}
  sbc       : Sbc := {}
  slots     : Vector Slot 4 := Vector.replicate 4 {}
  measure   : Measure := {}
  rmap      : Rmap := {}
  ae        : Ae := {}
  chans     : Vector Channel 6 := Vector.replicate 6 {}
  /-- The deferred CH_PAUSE or CH_RELEASE reply, by its channel (R109). -/
  chanReply : Option ChanId := none
  stm       : Stm := {}
  inputs    : Vector Input 48 := Vector.replicate 48 {}
  ml        : Ml := {}
  cards     : Cards := {}
  /-- Index of the next free value (log 12). -/
  free      : Nat := 0
  /-- The commands that wait, first in, first out. -/
  pending   : List Instr := []
deriving DecidableEq, Repr

/-- The part after power-on, before any command (R17, R41, R64, R88, R105, R133, R152, R169, R186). -/
def State.reset : State := {}

/-- Reasons for a step to stop with a fault. There is none: the part answers every request and takes every event,
and reports bus faults and trips in its own records and notices (log 22). -/
inductive Fault where
deriving DecidableEq, Repr

/-- Reasons for a step to be refused. -/
inductive Refusal where
  /-- Raised by exec for a command that has no meaning yet. No arm raises it: every command has its meaning. Safe: a
  refused step proves nothing about the part. -/
  | notModelled (mnemonic : String)
deriving DecidableEq, Repr

end Sys2Proof.Machine
end

