-- ==== Sys2Proof/Machine/Operands.lean ====
section
/-! DEFINITION. The codes of the enumerated fields, read and written (section 10.3, R188), and the status codes
(section 10.4). -/

namespace Sys2Proof.Machine

open Sys2Proof

/-! ## Status codes (section 10.4) -/

/-- The statuses a reply can carry. -/
inductive Status where
  | ok | partialOk | matched | timeout | cancelled
  | badKind | wrongPipe | badLength | badArg | badAlign | overlap | inUse | noWindow | noChannel
  | noSpace | wrongDirection
  | busy | notReady | noClock | parked | cooldown | faulted | halted | notNotified
  | nothingToCancel | notCancellable
deriving DecidableEq, Repr

/-- The code of a status. -/
def Status.code : Status → Byte
  | .ok => 0x00 | .partialOk => 0x01 | .matched => 0x02 | .timeout => 0x03 | .cancelled => 0x04
  | .badKind => 0x10 | .wrongPipe => 0x11 | .badLength => 0x12 | .badArg => 0x13
  | .badAlign => 0x14 | .overlap => 0x15 | .inUse => 0x16 | .noWindow => 0x17
  | .noChannel => 0x18 | .noSpace => 0x19 | .wrongDirection => 0x1A
  | .busy => 0x20 | .notReady => 0x21 | .noClock => 0x22 | .parked => 0x23 | .cooldown => 0x24
  | .faulted => 0x25 | .halted => 0x26 | .notNotified => 0x27 | .nothingToCancel => 0x28
  | .notCancellable => 0x29

/-! ## Codes written (section 10.3) -/

def ClockState.code : ClockState → Byte
  | .stopped => 0 | .starting => 1 | .run => 2 | .retuning => 3 | .parked => 4

def SlotState.code : SlotState → Byte
  | .off => 0 | .powering => 1 | .resetting => 2 | .enabled => 3 | .isolated => 4 | .fault => 5

/-- A return state is a slot state (section 10.3, 'slot state, return state'). -/
def ReturnState.slotState : ReturnState → SlotState
  | .enabled => .enabled | .isolated => .isolated

def TripKind.code : TripKind → Byte
  | .soft => 1 | .hard => 2

def FaultKind.code : FaultKind → Byte
  | .readyTimeout => 1 | .slotLost => 2

def CycleKind.code : CycleKind → Byte
  | .ioByteRead => 0 | .ioByteWrite => 1 | .ioWordRead => 2 | .ioWordWrite => 3
  | .memByteRead => 4 | .memByteWrite => 5 | .memWordRead => 6 | .memWordWrite => 7
  | .transferOut => 8 | .transferIn => 9 | .refresh => 10

def Space.code : Space → Byte
  | .io => 0 | .mem => 1

/-- The space byte of a fault record, NONE for a transfer or refresh cycle. -/
def spaceOrNone : Option Space → Byte
  | some s => s.code
  | none => 2

def Direction.code : Direction → Byte
  | .out => 0 | .into => 1

def Policy.code : Policy → Byte
  | .hold => 0 | .stall => 1 | .drop => 2 | .halt => 3

def ChannelState.code : ChannelState → Byte
  | .free => 0 | .ready => 1 | .running => 2 | .paused => 3 | .halted => 4 | .ended => 5

def HaltCause.code : HaltCause → Byte
  | .none => 0 | .overrun => 1 | .slotLost => 2 | .slotReset => 3 | .busTimeout => 4

def InputMode.code : InputMode → Byte
  | .off => 0 | .edge => 1 | .level => 2

def InputState.code : InputState → Byte
  | .idle => 0 | .pending => 1 | .notified => 2

/-- A width byte holds the value 8 or 16 itself. -/
def widthCode (wide : Bool) : Byte := if wide then 16 else 8

/-! ## Codes read: none where the byte names no member of its set (R188) -/

/-- A yes/no or on/off byte. -/
def readFlag (b : Byte) : Option Bool :=
  if b = 0 then some false else if b = 1 then some true else none

/-- A width byte: whether the width is 16. -/
def readWidth (b : Byte) : Option Bool :=
  if b = 8 then some false else if b = 16 then some true else none

def readSpace (b : Byte) : Option Space :=
  if b = 0 then some .io else if b = 1 then some .mem else none

def readDirection (b : Byte) : Option Direction :=
  if b = 0 then some .out else if b = 1 then some .into else none

def readPolicy (b : Byte) : Option Policy :=
  if b = 0 then some .hold else if b = 1 then some .stall
  else if b = 2 then some .drop else if b = 3 then some .halt else none

def readMode (b : Byte) : Option InputMode :=
  if b = 0 then some .off else if b = 1 then some .edge else if b = 2 then some .level else none

/-- A number below n, for slots, channels, lines, windows, classes and filter codes. -/
def readIndex (n : Nat) (b : Byte) : Option (Fin n) :=
  if h : b.toNat < n then some ⟨b.toNat, h⟩ else none

/-- Routing and slot of an access: MAPPED ignores the slot byte, DIRECT names a slot (R90, R188). -/
def readRouting (routing slot : Byte) : Option (Option SlotId) :=
  if routing = 0 then some none
  else if routing = 1 then (readIndex 4 slot).map some
  else none

/-! ## Address spaces -/

/-- The number of addresses of a space. -/
def Space.size : Space → Nat
  | .io => 0x10000 | .mem => 0x1000000

/-- Bytes of a width. -/
def widthBytes (wide : Bool) : Nat := if wide then 2 else 1

/-- All ones of a width (spec/00_scope.md, 'Undriven data'). -/
def allOnes (wide : Bool) : Half := if wide then 0xFFFF else 0x00FF

/-- The source number of an interrupt input, slot × 12 + line (chapter 8). -/
def inputId (slot : SlotId) (line : LineId) : InputId := ⟨slot.val * 12 + line.val, by omega⟩

/-- The slot of an interrupt input. -/
def inputSlot (i : InputId) : SlotId := ⟨i.val / 12, by omega⟩

/-- The line of an interrupt input. -/
def inputLine (i : InputId) : LineId := ⟨i.val % 12, by omega⟩

/-- The place of a slot's TRQ line in the cards' lines. -/
def trqIndex (slot : SlotId) (line : ChanId) : Fin 24 := ⟨slot.val * 6 + line.val, by omega⟩

end Sys2Proof.Machine
end

