-- ==== Sys2Proof/Machine/Flags.lean ====
section
/-! DEFINITION. The bit-coded bytes of section 10.3: reply flags, event set and episode flags. Undefined bits are
sent as 0 (R188). -/

namespace Sys2Proof.Machine

open Sys2Proof

/-- The byte with the given bits, bit 0 first. -/
def bitsByte : List Bool → Byte
  | [] => 0
  | b :: bs => (bitsByte bs <<< 1) ||| yesNo b

/-- Reply flags: bit 0 is CLAMPED. -/
def replyFlags (clamped : Bool) : Byte := bitsByte [clamped]

/-- The event set byte, with the stalled flag in bit 7. -/
def eventByte (e : EventSet) (stalled : Bool) : Byte :=
  bitsByte [e.blockEnd, e.ended, e.underrun, e.overrun, e.halted, e.lowMark, e.highMark, stalled]

/-- The episode flags byte. -/
def episodeByte (c : Channel) : Byte :=
  bitsByte [c.underrunEpisode, c.stallEpisode, c.overrunEpisode]

end Sys2Proof.Machine
end

