-- ==== Sys2Proof/Machine/Ops.lean ====
section
/-! DEFINITION. Reading and updating the state by block, staging memory (R141), ring arithmetic (R140) and the making
of replies (R175, R176). -/

namespace Sys2Proof.Machine

open Sys2Proof

/-! ## Blocks and units of the state -/

def State.updBcu (s : State) (f : Bcu → Bcu) : State := { s with bcu := f s.bcu }
def State.updSbc (s : State) (f : Sbc → Sbc) : State := { s with sbc := f s.sbc }
def State.updRmap (s : State) (f : Rmap → Rmap) : State := { s with rmap := f s.rmap }
def State.updAe (s : State) (f : Ae → Ae) : State := { s with ae := f s.ae }
def State.updStm (s : State) (f : Stm → Stm) : State := { s with stm := f s.stm }
def State.updMl (s : State) (f : Ml → Ml) : State := { s with ml := f s.ml }
def State.updCards (s : State) (f : Cards → Cards) : State := { s with cards := f s.cards }
def State.updMeasure (s : State) (f : Measure → Measure) : State := { s with measure := f s.measure }
def State.setChanReply (s : State) (r : Option ChanId) : State := { s with chanReply := r }

/-- The record of a slot. -/
def State.slot (s : State) (i : SlotId) : Slot := s.slots[i]
def State.modSlot (s : State) (i : SlotId) (f : Slot → Slot) : State :=
  { s with slots := s.slots.set i (f s.slots[i]) }

/-- The context of a channel. -/
def State.chan (s : State) (n : ChanId) : Channel := s.chans[n]
def State.modChan (s : State) (n : ChanId) (f : Channel → Channel) : State :=
  { s with chans := s.chans.set n (f s.chans[n]) }

/-- The record of an interrupt input. -/
def State.input (s : State) (i : InputId) : Input := s.inputs[i]
def State.modInput (s : State) (i : InputId) (f : Input → Input) : State :=
  { s with inputs := s.inputs.set i (f s.inputs[i]) }

/-- The fault record of a slot. -/
def State.faultRecord (s : State) (i : SlotId) : FaultRecord := s.sbc.faults[i]
def State.modFault (s : State) (i : SlotId) (f : FaultRecord → FaultRecord) : State :=
  s.updSbc fun b => { b with faults := b.faults.set i (f b.faults[i]) }

/-- Whether a card asserts TRQn of a slot. -/
def State.trq (s : State) (slot : SlotId) (line : ChanId) : Bool := s.cards.trq[trqIndex slot line]
/-- Whether an interrupt line is high. -/
def State.irlHigh (s : State) (i : InputId) : Bool := s.cards.irl[i]

/-- The same update for every slot, in slot order. -/
def forSlots (f : SlotId → State → State) (s : State) : State :=
  (List.finRange 4).foldl (fun s i => f i s) s
/-- The same update for every channel, in channel order. -/
def forChans (f : ChanId → State → State) (s : State) : State :=
  (List.finRange 6).foldl (fun s n => f n s) s
/-- The same update for every input, in order of source number. -/
def forInputs (f : InputId → State → State) (s : State) : State :=
  (List.finRange 48).foldl (fun s i => f i s) s

/-! ## Staging storage -/

/-- What an unlisted byte of the staging storage reads as (log 18; not observable, chapter 7 head table). -/
def unwrittenByte : Byte := 0

/-- The byte at an address. -/
def Memory.read : Memory → Nat → Byte
  | [], _ => unwrittenByte
  | (a, b) :: m, x => if a = x then b else Memory.read m x

/-- The storage with one byte written, in canonical form again. -/
def Memory.write : Memory → Nat → Byte → Memory
  | [], x, v => if v = unwrittenByte then [] else [(x, v)]
  | (a, b) :: m, x, v =>
    if x < a then (if v = unwrittenByte then (a, b) :: m else (x, v) :: (a, b) :: m)
    else if x = a then (if v = unwrittenByte then m else (x, v) :: m)
    else (a, b) :: Memory.write m x v

/-- The canonical form: addresses strictly rising from `low` up, and no listed byte that an unlisted one reads as. -/
def Memory.wfFrom : Nat → Memory → Bool
  | _, [] => true
  | low, (a, b) :: m => decide (low ≤ a) && decide (b ≠ unwrittenByte) && Memory.wfFrom (a + 1) m

/-- The canonical form of the storage. -/
def Memory.wf (m : Memory) : Bool := Memory.wfFrom 0 m

/-! ## Rings (R140, R141) -/

/-- The width w of a channel in bytes (section 6.1). -/
def chanWidth (n : ChanId) : Nat := if n.val < 4 then 1 else 2

/-- Pages of a ring. -/
def Ring.pages (r : Ring) : Nat := 2 ^ r.code

/-- Bytes of a channel's ring, 0 while it is absent. -/
def Channel.ringSize (c : Channel) : Nat :=
  match c.ring with
  | some r => Config.pageBytes * r.pages
  | none => 0

/-- The level, (put − take) modulo 2^32. -/
def Channel.level (c : Channel) : Nat := (c.put - c.take).toNat

/-- The free space of a channel's ring. -/
def Channel.freeSpace (c : Channel) : Nat := c.ringSize - c.level

/-- The storage address of the ring byte with position p (R141). -/
def Channel.address (c : Channel) (p : Word) : Nat :=
  match c.ring with
  | some r => Config.pageBytes * r.first + p.toNat % (Config.pageBytes * r.pages)
  | none => 0

/-- Store bytes at positions p, p + 1 and onward of a channel's ring. -/
def storeRing (c : Channel) : Word → List Byte → Memory → Memory
  | _, [], m => m
  | p, b :: bs, m => storeRing c (p + 1) bs (Memory.write m (c.address p) b)

/-- The n bytes at positions p, p + 1 and onward of a channel's ring. -/
def loadRing (c : Channel) (m : Memory) : Nat → Word → List Byte
  | 0, _ => []
  | n + 1, p => Memory.read m (c.address p) :: loadRing c m n (p + 1)

/-! ## Replies (R175, R176) -/

/-- The reply frame of a request (R187): its kind plus 0x80, its tag. -/
def replyFrame (r : Request) (status : Status) (payload : List Byte) : Frame :=
  ⟨r.kind + 0x80, status.code, r.tag, payload⟩

/-- The reply queue after a request completes: its reservation becomes a reply behind those already made (R176). A
request whose claim a link reset removed makes no reply (R184). -/
def Ml.complete (m : Ml) (r : Request) (status : Status) (payload : List Byte) : Ml :=
  if r.claim then
    { m with replies := m.replies ++ [replyFrame r status payload], reserved := m.reserved - 1 }
  else m

/-- Complete the command in progress with a reply. -/
def State.replyCommand (s : State) (status : Status) (payload : List Byte) : State :=
  match s.ml.command with
  | some r => s.updMl fun m => { m.complete r status payload with command := none }
  | none => s

/-- Complete the stream-pipe request in progress with a reply. -/
def State.replyStream (s : State) (status : Status) (payload : List Byte) : State :=
  match s.ml.stream with
  | some r => s.updMl fun m => { m.complete r status payload with stream := none }
  | none => s

/-- Whether the command in progress has lost its claim to a reply (R184). -/
def State.claimLost (s : State) : Bool :=
  match s.ml.command with
  | some r => !r.claim
  | none => false

/-- The clock is RUN and no PARK or CLOCK_STOP waits for the bus: the arbiter may grant (R4). -/
def State.grantsAllowed (s : State) : Bool :=
  s.bcu.clock == .run && s.bcu.waiting == none

/-- The slot is connected by the cycle in flight (R19). -/
def State.connects (s : State) (i : SlotId) : Bool :=
  match s.sbc.cycle with
  | some c => c.connected[i]
  | none => false

/-- A transfer cycle of the channel is on the bus. -/
def State.transferring (s : State) (n : ChanId) : Bool :=
  s.sbc.cycle.isSome && s.sbc.holder == some (.channel n)

end Sys2Proof.Machine
end

