-- ==== Sys2Proof/Machine/Reports.lean ====
section
/-! DEFINITION. The shared records of section 10.3 and the rest of the reply payloads that several rules use. An
identifier that names nothing is echoed and the rest of its record is 0 (R190, log 17). -/

namespace Sys2Proof.Machine

open Sys2Proof

/-- The achieved clock A, floor(48,000,000 / D) Hz (section 1.1). -/
def achievedClock (divider : Nat) : Nat := 48000000 / divider

/-- The ready limit L = floor(T × 48 / D) in BCLK (R24). -/
def readyLimitPeriods (limit divider : Nat) : Nat := limit * 48 / divider

/-- Clock report: clock state, D, A (R5). -/
def State.clockReport (s : State) : List Byte :=
  [s.bcu.clock.code, BitVec.ofNat 8 s.bcu.divider] ++ le 4 (achievedClock s.bcu.divider)

/-- Trip record; absent is sent as zeros (R188). -/
def tripRecord : Option Trip → List Byte
  | some t => [t.kind.code] ++ le 4 t.time.toNat ++ le 2 t.current
  | none => zeros 7

/-- Last fault; absent is sent as zeros (R188). -/
def lastFaultRecord : Option LastFault → List Byte
  | some f => [f.kind.code] ++ le 4 f.time.toNat ++ [f.cycle.code, spaceOrNone f.space] ++ le 4 f.address
  | none => zeros 11

/-- Slot report: slot, state, presence, current (R51). -/
def State.slotReport (s : State) (i : SlotId) : List Byte :=
  let t := s.slot i
  [BitVec.ofNat 8 i.val, t.state.code, yesNo t.present] ++ le 2 t.current

/-- µs of cooldown left, 0 when inactive (section 10.5). -/
def Slot.cooldownLeft (t : Slot) : Nat := t.cooldown.getD 0

/-- Payload of a POWER_ON, POWER_OFF, ISOLATE or CONNECT reply. -/
def State.slotReply (s : State) (i : SlotId) : List Byte :=
  s.slotReport i ++ tripRecord (s.slot i).lastTrip ++ le 4 (s.slot i).cooldownLeft

/-- The hard threshold after POWERING, min(2 × limit, 4000) mA (R46). -/
def hardThreshold (limit : Nat) : Nat := min (2 * limit) Config.saturatedReading

/-- Channel report: channel, state, halt cause, remaining, level (R109). -/
def State.channelReport (s : State) (n : ChanId) : List Byte :=
  let c := s.chan n
  [BitVec.ofNat 8 n.val, c.state.code, c.cause.code] ++ le 4 c.remaining ++ le 4 c.level

/-- First page and size code of a channel, 0xFF while its ring is absent (R188). -/
def ringReport : Option Ring → List Byte
  | some r => [BitVec.ofNat 8 r.first, BitVec.ofNat 8 r.code]
  | none => [0xFF, 0xFF]

/-- Input report: slot, line, state, mask, lost count (R162). -/
def State.inputReport (s : State) (slot : SlotId) (line : LineId) : List Byte :=
  let x := s.input (inputId slot line)
  [BitVec.ofNat 8 slot.val, BitVec.ofNat 8 line.val, x.state.code, yesNo x.mask] ++ le 2 x.lost

/-- Window record of an ACTIVE window (section 10.3). -/
def windowRecord (id : WindowId) (w : Window) : List Byte :=
  [BitVec.ofNat 8 id.val, BitVec.ofNat 8 w.slot.val, w.space.code] ++ le 4 w.base ++ le 4 w.size ++
    [widthCode w.wide, BitVec.ofNat 8 w.cls.val, yesNo w.shadow, yesNo w.fromShadow]

/-- Snapshot entry (section 10.3). -/
def snapshotRecord (e : SnapshotEntry) : List Byte :=
  [BitVec.ofNat 8 e.channel.val, e.state.code] ++ le 4 e.remaining ++ le 4 e.transfers.toNat ++ le 4 e.level

/-- Access counts: units done, timed out, UNMAPPED, shadow misses (section 10.3). -/
def Ae.counts (a : Ae) : List Byte :=
  le 4 a.done ++ le 4 a.timedOut ++ le 4 a.unmapped ++ le 4 a.misses

end Sys2Proof.Machine
end

