-- ==== Sys2Proof/Machine/Routing.lean ====
section
/-! DEFINITION. What the Resource Map does for an access: routing a unit (R73 to R80) and keeping the Shadow List
(R81 to R87). -/

namespace Sys2Proof.Machine

open Sys2Proof

/-! ## The window table -/

/-- A window claims the addresses from base to base + size − 1 of its space (section 4.1). -/
def Window.claims (w : Window) (space : Space) (address : Nat) : Bool :=
  w.space == space && decide (w.base ≤ address) && decide (address < w.base + w.size)

/-- The ACTIVE window that claims an address, with its id; by R69 there is at most one. -/
def Rmap.lookup (m : Rmap) (space : Space) (address : Nat) : Option (WindowId × Window) :=
  (List.finRange 32).findSome? fun i =>
    match m.windows[i] with
    | some w => if w.claims space address then some (i, w) else none
    | none => none

/-! ## The Shadow List -/

/-- The entry has the key port and index (section 4.7). -/
def ShadowEntry.hasKey (e : ShadowEntry) (port : Half) (index : Option Byte) : Bool :=
  e.port == port && e.index == index

/-- The entry with a key (R85). -/
def Rmap.shadowFind (m : Rmap) (port : Half) (index : Option Byte) : Option ShadowEntry :=
  m.shadow.find? fun e => e.hasKey port index

/-- Recording a byte under a key: the entry moves to, or joins at, the newest end; a full list loses its oldest entry
to a new key (R84). -/
def recordShadow (list : List ShadowEntry) (e : ShadowEntry) : List ShadowEntry :=
  if list.any fun x => x.hasKey e.port e.index then
    list.filter (fun x => !x.hasKey e.port e.index) ++ [e]
  else if list.length < Config.shadowEntries then list ++ [e]
  else list.drop 1 ++ [e]

/-- The entry's window is ACTIVE, has shadow ON and claims the entry's port (R81). R82's 'still ACTIVE' is read so
(log 28). -/
def Rmap.keeps (m : Rmap) (e : ShadowEntry) : Bool :=
  match m.windows[e.window] with
  | some w => w.shadow && w.claims .io e.port.toNat
  | none => false

/-- A performed write cycle changes the Shadow List, low byte first, for windows that are still ACTIVE as routed (R82,
R83). -/
def Rmap.recordAll (m : Rmap) (entries : List ShadowEntry) : Rmap :=
  entries.foldl (fun m e => if m.keeps e then { m with shadow := recordShadow m.shadow e } else m) m

/-- The entries left when those of one window are removed (R71, R86). -/
def Rmap.dropWindow (m : Rmap) (id : WindowId) : Rmap :=
  { m with shadow := m.shadow.filter fun e => e.window != id }

/-- A clear for a slot removes the entries of every window routed to it (R87). -/
def Rmap.clearSlot (m : Rmap) (slot : SlotId) : Rmap :=
  { m with shadow := m.shadow.filter fun e =>
      match m.windows[e.window] with
      | some w => w.slot != slot
      | none => true }

/-! ## Routing -/

/-- The answer for one byte position (R73). -/
inductive Answer where
  | float
  | notReady
  | shadow (value : Byte) (hit : Bool)
  | cycle (id : WindowId) (w : Window)
deriving DecidableEq, Repr

/-- R73 to R77: the answer for the byte position at an address. `index` is the index byte of a PAIR_READ's data
access. -/
def State.routePosition (s : State) (space : Space) (address : Nat) (read : Bool) (index : Option Byte) : Answer :=
  match s.rmap.lookup space address with
  | none => .float
  | some (id, w) =>
    if (s.slot w.slot).state ≠ .enabled then .notReady
    else if read && w.fromShadow then
      match s.rmap.shadowFind (BitVec.ofNat 16 address) index with
      | some e => .shadow e.value true
      | none => .shadow 0xFF false
    else .cycle id w

/-- The cycle kind of an IO or MEM cycle. -/
def cycleKind (space : Space) (wide write : Bool) : CycleKind :=
  match space, wide, write with
  | .io, false, false => .ioByteRead
  | .io, false, true => .ioByteWrite
  | .io, true, false => .ioWordRead
  | .io, true, true => .ioWordWrite
  | .mem, false, false => .memByteRead
  | .mem, false, true => .memByteWrite
  | .mem, true, false => .memWordRead
  | .mem, true, true => .memWordWrite

/-- The next address of a space, wrapping (R78). -/
def nextAddress (space : Space) (address : Nat) : Nat := (address + 1) % space.size

/-- What a unit asks for: a read, or a write of the bytes given; `index` keys its shadow reads or records (R76, R83). -/
structure UnitRequest where
  space   : Space
  address : Nat
  wide    : Bool
  write   : Bool
  value   : Half
  index   : Option Byte
deriving DecidableEq, Repr

/-- The Shadow List entry a write of one byte through a window records (R82, R83). -/
def UnitRequest.record (u : UnitRequest) (id : WindowId) (w : Window) (address : Nat) (value : Byte) :
    List ShadowEntry :=
  if u.write && w.shadow then [⟨BitVec.ofNat 16 address, u.index, value, id⟩] else []

/-- One byte position as a byte cycle, where its answer is one (R77, R78). -/
def UnitRequest.byteCycle (u : UnitRequest) (address : Nat) (value : Byte) (part : UnitPart) : Answer → List CyclePlan
  | .cycle id w => [{
      slot := w.slot, kind := cycleKind u.space false u.write, address := address, driven := joinBytes value 0,
      cls := w.cls, direct := false, part := part, records := u.record id w address value }]
  | _ => []

/-- The byte a position contributes before any cycle runs: a shadow value, or 0xFF (R74, R76, R79). -/
def Answer.byte : Answer → Byte
  | .shadow v _ => v
  | _ => 0xFF

/-- A FLOAT position earns UNMAPPED (R74). -/
def Answer.isFloat : Answer → Bool
  | .float => true
  | _ => false

/-- A missed shadow read earns MISS (R76). -/
def Answer.isMiss : Answer → Bool
  | .shadow _ hit => !hit
  | _ => false

/-- Route a MAPPED unit (R73, R75, R78); none when a position answers NOT_READY. -/
def State.routeMapped (s : State) (u : UnitRequest) : Option AccessUnit :=
  let lo := s.routePosition u.space u.address (!u.write) u.index
  let unitOf (cycles : List CyclePlan) (answers : List Answer) (value : Half) : AccessUnit :=
    { read := !u.write, wide := u.wide, cycles := cycles, value := value,
      unmapped := answers.any Answer.isFloat, miss := answers.any Answer.isMiss, timedOut := false }
  let one :=
    if lo = .notReady then none
    else some (unitOf (u.byteCycle u.address (lowByte u.value) .low lo) [lo] (joinBytes lo.byte 0))
  let split :=
    let next := nextAddress u.space u.address
    let hi := s.routePosition u.space next (!u.write) u.index
    if lo = .notReady ∨ hi = .notReady then none
    else some (unitOf
      (u.byteCycle u.address (lowByte u.value) .low lo ++ u.byteCycle next (highByte u.value) .high hi)
      [lo, hi] (joinBytes lo.byte hi.byte))
  if !u.wide then one
  else
    match lo with
    | .cycle id w =>
      if u.address % 2 = 0 ∧ w.wide then
        some (unitOf [{
          slot := w.slot, kind := cycleKind u.space true u.write, address := u.address, driven := u.value,
          cls := w.cls, direct := false, part := .word,
          records := u.record id w u.address (lowByte u.value) ++
            u.record id w (nextAddress u.space u.address) (highByte u.value) }] [lo] 0xFFFF)
      else split
    | _ => split

/-- Route a slot-direct unit (R80); none when the slot is neither ENABLED nor ISOLATED. -/
def State.routeDirect (s : State) (slot : SlotId) (u : UnitRequest) : Option AccessUnit :=
  let plan (address : Nat) (wide : Bool) (driven : Half) (part : UnitPart) : CyclePlan :=
    { slot := slot, kind := cycleKind u.space wide u.write, address := address, driven := driven,
      cls := 3, direct := true, part := part, records := [] }
  let cycles :=
    if !u.wide then [plan u.address false (joinBytes (lowByte u.value) 0) .low]
    else if u.address % 2 = 0 then [plan u.address true u.value .word]
    else [plan u.address false (joinBytes (lowByte u.value) 0) .low,
          plan (nextAddress u.space u.address) false (joinBytes (highByte u.value) 0) .high]
  if (s.slot slot).state = .enabled ∨ (s.slot slot).state = .isolated then
    some { read := !u.write, wide := u.wide, cycles := cycles, value := if u.wide then 0xFFFF else 0x00FF,
           unmapped := false, miss := false, timedOut := false }
  else none

/-- Route a unit, MAPPED or DIRECT (R92). -/
def State.routeUnit (s : State) (direct : Option SlotId) (u : UnitRequest) : Option AccessUnit :=
  match direct with
  | none => s.routeMapped u
  | some slot => s.routeDirect slot u

end Sys2Proof.Machine
end

