-- ==== Sys2Proof/Machine/AccessRun.lean ====
section
/-! DEFINITION. How the Access Engine carries out a command: routing its units, ending them and making the reply
(R89 to R103). The bus cycles themselves are in Machine/Engine.lean. -/

namespace Sys2Proof.Machine

open Sys2Proof

/-! ## Units (R91, R92, R96, R99) -/

/-- The address of unit k of a single or string access (R91). -/
def StringAccess.unitAddress (a : StringAccess) (k : Nat) : Nat :=
  if a.increment then (a.address + k * widthBytes a.wide) % a.space.size else a.address

/-- The value unit k of a write carries (R91). -/
def StringAccess.unitValue (a : StringAccess) (k : Nat) : Half :=
  if a.wide then joinBytes (a.data.getD (2 * k) 0) (a.data.getD (2 * k + 1) 0) else joinBytes (a.data.getD k 0) 0

/-- What unit k of a single or string access asks for. -/
def StringAccess.unitRequest (a : StringAccess) (k : Nat) : UnitRequest :=
  { space := a.space, address := a.unitAddress k, wide := a.wide, write := a.write,
    value := a.unitValue k, index := none }

/-- The index write of a PAIR: a plain byte write (R96). -/
def PairAccess.indexUnit (a : PairAccess) : UnitRequest :=
  { space := .io, address := a.indexPort.toNat, wide := false, write := true,
    value := joinBytes a.indexByte 0, index := none }

/-- The data access of a PAIR, keyed by its index byte (R83, R96). -/
def PairAccess.dataUnit (a : PairAccess) : UnitRequest :=
  { space := .io, address := a.dataPort.toNat, wide := a.wide, write := a.write,
    value := joinBytes (a.data.getD 0 0) (a.data.getD 1 0), index := some a.indexByte }

/-- One read of a POLL. -/
def PollAccess.readUnit (a : PollAccess) : UnitRequest :=
  { space := a.space, address := a.address, wide := a.wide, write := false, value := 0, index := none }

/-- The bytes of a read value, low byte first (R93). -/
def valueBytes (wide : Bool) (v : Half) : List Byte := if wide then [lowByte v, highByte v] else [lowByte v]

/-- A unit is done: the counts rise, and a read's value joins the read data, or becomes a POLL's last value (R93,
R99). -/
def Ae.unitDone (a : Ae) (u : AccessUnit) : Ae :=
  let a := { a with
    done := a.done + 1
    timedOut := a.timedOut + (if u.timedOut then 1 else 0)
    unmapped := a.unmapped + (if u.unmapped then 1 else 0)
    misses := a.misses + (if u.miss then 1 else 0) }
  match a.command with
  | some (.poll _) => { a with lastValue := some u.value }
  | _ => if u.read then { a with readData := a.readData ++ valueBytes u.wide u.value } else a

/-- The leading units that need no further cycle are done (R92). -/
def closeUnits : List AccessUnit → Ae → Ae
  | [], a => { a with units := [] }
  | u :: us, a => if u.cycles.isEmpty then closeUnits us (a.unitDone u) else { a with units := u :: us }

/-! ## The reply (R95, R97, R101, R103) -/

/-- Elapsed time of a POLL, modulo 2^32; 0 if no read was routed (R100, R101). -/
def State.pollElapsed (s : State) : Nat :=
  match s.ae.pollStart with
  | some t => (s.bcu.timeBase - t).toNat
  | none => 0

/-- The final value of a POLL: the last value, or all ones of its width (R101). -/
def Ae.finalValue (a : Ae) (wide : Bool) : Half := a.lastValue.getD (allOnes wide)

/-- The payload of the command's reply. -/
def State.accessPayload (s : State) : List Byte :=
  match s.ae.command with
  | some (.poll p) =>
    s.ae.counts ++ [replyFlags p.clamped] ++ le 2 (s.ae.finalValue p.wide).toNat ++ le 4 s.pollElapsed
  | _ => s.ae.counts ++ s.ae.readData

/-- The command ends with a status: its reply is made, then the reply OK of a CANCEL that waited for it (R103), and
AE is IDLE. Without a claim neither is answered (R106). -/
def State.endAccess (s : State) (status : Status) : State :=
  let tag := match s.ml.command with
    | some r => r.tag
    | none => 0
  let t := s.replyCommand status s.accessPayload
  let t := if s.ae.cancelTaken then t.replyStream .ok (le 2 tag.toNat) else t
  t.updAe fun _ => {}

/-! ## Going on (R92, R96, R99, R100) -/

/-- Begin the units of a single or string access, `left` of them still to do: each is routed in turn, and one that
needs no cycle is done at once (R92). -/
def runString (a : StringAccess) : Nat → State → State
  | 0, s => s.endAccess .ok
  | left + 1, s =>
    let k := a.count - (left + 1)
    match s.routeUnit a.direct (a.unitRequest k) with
    | none => s.endAccess .notReady
    | some u =>
      if u.cycles.isEmpty then
        runString a left (s.updAe fun e => { (e.unitDone u) with unit := k + 1 })
      else s.updAe fun e => { e with phase := .waiting, unit := k, units := [u] }

/-- Route both units of a PAIR before the bus is asked for (R96); a unit that needs no cycle is done (log 15). The unit
index stays 0 while either unit runs: the units list says which unit is next (DESIGN CHOICE, log 30). -/
def runPair (a : PairAccess) (s : State) : State :=
  match s.routeUnit a.direct a.indexUnit, s.routeUnit a.direct a.dataUnit with
  | some u, some v =>
    let t := s.updAe (closeUnits [u, v])
    if t.ae.units.isEmpty then t.endAccess .ok else t.updAe fun e => { e with phase := .waiting }
  | _, _ => s.endAccess .notReady

/-- The condition of a POLL holds for a read value (R99, R100). -/
def PollAccess.met (a : PollAccess) (v : Half) : Bool :=
  let mask := if a.wide then a.mask else a.mask &&& 0x00FF
  (v &&& mask == a.wanted &&& mask) != a.notEqual

/-- The decision after a read (R100): MATCH, TIMEOUT, or INTERVAL from this time base value. -/
def decidePoll (a : PollAccess) (s : State) : State :=
  if a.met (s.ae.finalValue a.wide) then s.endAccess .matched
  else if a.timeout ≤ s.pollElapsed then s.endAccess .timeout
  else s.updAe fun e => { e with phase := .interval, units := [], decidedAt := s.bcu.timeBase }

/-- The next read of a POLL is routed (R99). A read that needs no cycle is done and decided at once.
The unit index stays 0 through every read (DESIGN CHOICE, log 30). -/
def runPoll (a : PollAccess) (s : State) : State :=
  let s := s.updAe fun e => { e with pollStart := some (e.pollStart.getD s.bcu.timeBase) }
  match s.routeUnit a.direct a.readUnit with
  | none => s.endAccess .notReady
  | some u =>
    if u.cycles.isEmpty then decidePoll a (s.updAe fun e => e.unitDone u)
    else s.updAe fun e => { e with phase := .waiting, units := [u] }

/-- After a read that ended on the bus: decide, and with interval 0 route the next read at once (R100; log 13). -/
def continuePoll (a : PollAccess) (s : State) : State :=
  let t := decidePoll a s
  if t.ae.phase = .interval ∧ a.interval = 0 then runPoll a t else t

/-- The first unit of the command is begun (R89). -/
def State.beginAccess (s : State) (a : Access) : State :=
  let s := s.updAe fun _ => { phase := .routing, command := some a }
  match a with
  | .string x => runString x x.count s
  | .pair x => runPair x s
  | .poll x => runPoll x s

/-- A unit boundary after a grant (R92, R97, R100, R103, R106): a command without its claim ends, a cancelled one ends
CANCELLED, and any other goes on. -/
def State.accessBoundary (s : State) : State :=
  if s.claimLost then s.endAccess .ok
  else if s.ae.cancelTaken then s.endAccess .cancelled
  else
    match s.ae.command with
    | some (.string x) =>
      runString x (x.count - (s.ae.unit + 1)) s
    | some (.pair _) => s.endAccess .ok
    | some (.poll x) => continuePoll x s
    | none => s

end Sys2Proof.Machine
end

