-- ==== Sys2Proof/Machine/Admission.lean ====
section
/-! DEFINITION. The building of notices and their admission to the notice queue (R13, R36, R63, R131, R160, R177,
R178). -/

namespace Sys2Proof.Machine

open Sys2Proof

/-- A notice frame: status 0 and tag 0 (R187). -/
def noticeFrame (kind : Byte) (payload : List Byte) : Frame := ⟨kind, 0, 0, payload⟩

/-- The link is UP and the notice queue has a free place (R178). -/
def Ml.admits (m : Ml) : Bool := m.up && decide (m.notices.length < Config.noticePlaces)

/-- A notice joins the queue at its tail (R177). -/
def Ml.enqueueNotice (m : Ml) (n : Notice) : Ml := { m with notices := m.notices ++ [n] }

/-- The INTERRUPT notice of an input (R160, section 10.5). -/
def State.interruptNotice (s : State) (i : InputId) : Notice :=
  let x := s.input i
  ⟨some i, noticeFrame 0xE0
    ([BitVec.ofNat 8 (inputSlot i).val, BitVec.ofNat 8 (inputLine i).val] ++ le 4 x.captureTime.toNat ++
      le 2 x.lost ++ [yesNo x.repeated, BitVec.ofNat 8 x.snapshot.length] ++
      x.snapshot.flatMap snapshotRecord)⟩

/-- An input's offer is admitted (R160). -/
def State.admitInput (s : State) (i : InputId) : State :=
  if s.ml.admits && (s.input i).state == .pending && !(s.input i).mask then
    (s.updMl fun m => m.enqueueNotice (s.interruptNotice i)).modInput i
      fun x => { x with state := .notified, queued := true, lost := 0 }
  else s

/-- The SLOT_FAULT notice of a slot (R63). -/
def State.slotFaultNotice (s : State) (i : SlotId) : Notice :=
  let t := s.slot i
  ⟨none, noticeFrame 0xE1 ([BitVec.ofNat 8 i.val] ++ tripRecord t.lastTrip ++ le 2 t.limit ++ [t.state.code])⟩

/-- A RAISED SLOT_FAULT record is admitted (R63). -/
def State.admitSlotFault (s : State) (i : SlotId) : State :=
  if s.ml.admits && (s.slot i).faultRaised then
    (s.updMl fun m => m.enqueueNotice (s.slotFaultNotice i)).modSlot i fun t => { t with faultRaised := false }
  else s

/-- The BUS_FAULT notice of a slot (R36). -/
def State.busFaultNotice (s : State) (i : SlotId) : Notice :=
  let r := s.faultRecord i
  ⟨none, noticeFrame 0xE2 ([BitVec.ofNat 8 i.val] ++ le 4 r.count.toNat ++ lastFaultRecord r.last)⟩

/-- A RAISED BUS_FAULT record is admitted (R36). -/
def State.admitBusFault (s : State) (i : SlotId) : State :=
  if s.ml.admits && (s.faultRecord i).raised then
    (s.updMl fun m => m.enqueueNotice (s.busFaultNotice i)).modFault i fun r => { r with raised := false }
  else s

/-- The CHANNEL notice of a channel (R131). -/
def State.channelNotice (s : State) (n : ChanId) : Notice :=
  let c := s.chan n
  ⟨none, noticeFrame 0xE3
    ([BitVec.ofNat 8 n.val, eventByte c.notice.events c.notice.stalled, c.state.code, c.cause.code] ++
      le 4 c.remaining ++ le 4 c.transfers.toNat ++ le 4 c.blocksEnded.toNat ++ le 4 c.underruns.toNat ++
      le 4 c.overruns.toNat ++ le 4 c.level ++ le 4 c.lastBlockEnd.toNat)⟩

/-- A RAISED channel record is admitted and becomes EMPTY (R131). -/
def State.admitChannel (s : State) (n : ChanId) : State :=
  if s.ml.admits && (s.chan n).notice.raised then
    (s.updMl fun m => m.enqueueNotice (s.channelNotice n)).modChan n fun c => { c with notice := {} }
  else s

/-- A raised CLOCK_WOKE record is admitted (R13). -/
def State.admitWoke (s : State) : State :=
  match s.bcu.woke with
  | .raised slot line time =>
    if s.ml.admits then
      (s.updMl fun m => m.enqueueNotice ⟨none, noticeFrame 0xE4
        ([BitVec.ofNat 8 slot.val, BitVec.ofNat 8 line.val] ++ le 4 time.toNat)⟩).updBcu
        fun b => { b with woke := .empty }
    else s
  | _ => s

/-- Admission: one offered record for each free place, in class order and within a class by source number (R178). -/
def State.admitOffers (s : State) : State :=
  ((((s |> forInputs fun i s => s.admitInput i) |> forSlots fun i s => s.admitSlotFault i)
    |> forSlots fun i s => s.admitBusFault i) |> forChans fun n s => s.admitChannel n).admitWoke

end Sys2Proof.Machine
end

