-- ==== Sys2Proof/Machine/Capture.lean ====
section
/-! DEFINITION. What the Interrupt Capture Unit does to an input: watching, filtering, capturing, waking, withdrawing
and releasing (R154 to R161, R167, R168). -/

namespace Sys2Proof.Machine

open Sys2Proof

/-- An input is watched while its mode is not OFF and its slot is ENABLED (R154). -/
def State.watched (s : State) (i : InputId) : Bool :=
  (s.input i).mode != .off && (s.slot (inputSlot i)).state == .enabled

/-- The level of an input's line judged against its polarity: whether it counts as active. -/
def State.lineActive (s : State) (i : InputId) : Bool :=
  s.irlHigh i != (s.input i).activeLow

/-- Samples a change needs (R155): 2 for filter code 1, 4 for codes 2 and 3. -/
def Input.samples (x : Input) : Nat := if x.filter = 1 then 2 else 4

/-- The channels bound to a slot and not FREE, in channel order, with their figures (R117, R159). -/
def State.takeSnapshot (s : State) (slot : SlotId) : List SnapshotEntry :=
  (List.finRange 6).filterMap fun n =>
    let c := s.chan n
    if c.slot = slot ∧ c.state ≠ .free then
      some ⟨n, c.state, c.remaining, c.transfers, c.level⟩
    else none

/-- A capture: PENDING with a capture time and a snapshot (R157, R158, R163). -/
def State.capture (s : State) (i : InputId) (time : Word) (repeated : Bool) : State :=
  s.modInput i fun x => { x with
    state := .pending, captureTime := time, snapshot := s.takeSnapshot (inputSlot i), repeated := repeated }

/-- The lost count saturates at 65535 (R157). -/
def Input.loseEdge (x : Input) : Input := { x with lost := if x.lost < 65535 then x.lost + 1 else x.lost }

/-- What an activation does to an input's record (R157 for EDGE, R158 for LEVEL). -/
def State.applyActivation (s : State) (i : InputId) : State :=
  let x := s.input i
  match x.mode, x.state with
  | .off, _ => s
  | .edge, .idle => s.capture i s.bcu.timeBase false
  | .edge, .pending => s.modInput i Input.loseEdge
  | .edge, .notified =>
    if x.again then s.modInput i Input.loseEdge
    else s.modInput i fun x => { x with again := true, againTime := s.bcu.timeBase }
  | .level, .idle => s.capture i s.bcu.timeBase false
  | .level, _ => s

/-- An input is eligible to wake (R168). -/
def State.wakeEligible (s : State) (i : InputId) : Bool :=
  (s.input i).wake && !(s.input i).mask && s.watched i && (s.input i).filter == 0

/-- A wake request taken in PARKED (R12): D 12, STARTING, and the CLOCK_WOKE record held. -/
def State.wakeRequest (s : State) (slot : SlotId) (line : LineId) : State :=
  if s.bcu.clock = .parked then
    s.updBcu fun b => { b with
      divider := 12, clock := .starting, settling := some Config.startingPeriods,
      woke := .held slot line b.timeBase }
  else s

/-- An activation, with the wake it asks for in PARKED (R168). -/
def State.activation (s : State) (i : InputId) : State :=
  let t := s.applyActivation i
  if s.wakeEligible i && s.bcu.clock == .parked then t.wakeRequest (inputSlot i) (inputLine i) else t

/-- A counted change: the filtered level takes the new value, and a change to ACTIVE is an activation (R155). -/
def State.countChange (s : State) (i : InputId) (active : Bool) : State :=
  let t := s.modInput i fun x => { x with active := active, run := 0, changeDue := false }
  if active then t.activation i else t

/-- Watching begins: the filtered level is the line's level, and a LEVEL input found active captures (R154, R158). -/
def State.beginWatch (s : State) (i : InputId) : State :=
  if s.watched i then
    let t := s.modInput i fun x => { x with active := s.lineActive i, run := 0, changeDue := false }
    if (t.input i).mode = .level ∧ (t.input i).active ∧ (t.input i).state = .idle then
      t.capture i t.bcu.timeBase false
    else t
  else s

/-- A notice of the input still in the queue is removed from its place (R161, R177). -/
def State.withdraw (s : State) (i : InputId) : State :=
  if (s.input i).queued then
    (s.updMl fun m => { m with notices := m.notices.filter fun n => n.input != some i }).modInput i
      fun x => { x with queued := false }
  else s

/-- An input of a slot that leaves ENABLED: IDLE, unwatched, its captures and queued notice gone (R167). -/
def State.releaseInput (s : State) (i : InputId) : State :=
  (s.withdraw i).modInput i fun x => { x with
    state := .idle, active := false, run := 0, changeDue := false,
    again := false, againTime := 0, lost := 0, repeated := false, snapshot := [] }

/-- The same for the twelve inputs of a slot, when its announcement is taken (R167). -/
def State.releaseSlotInputs (s : State) (slot : SlotId) : State :=
  forInputs (fun i s => if inputSlot i = slot then s.releaseInput i else s) s

/-- Every configured input of a slot that enters ENABLED begins to be watched (R154). -/
def State.watchSlot (s : State) (slot : SlotId) : State :=
  forInputs (fun i s => if inputSlot i = slot then s.beginWatch i else s) s

/-- Sampling is suspended: the run of every filtered input becomes 0, and no change of it counts (R156). -/
def State.suspendSampling (s : State) : State :=
  forInputs (fun i s =>
    if (s.input i).filter ≠ 0 then s.modInput i fun x => { x with run := 0, changeDue := false } else s) s

/-- One sample of a filtered line at an advance of the time base (R155). The N-th differing sample makes the change
due; IRL_FILTER_CHANGE takes it (log 6). -/
def State.sampleInput (s : State) (i : InputId) : State :=
  let x := s.input i
  if s.watched i && x.filter != 0 && !x.changeDue then
    if s.lineActive i = x.active then s.modInput i fun x => { x with run := 0 }
    else if x.run < x.samples - 1 then s.modInput i fun x => { x with run := x.run + 1 }
    else s.modInput i fun x => { x with changeDue := true }
  else s

/-- Sampling runs in RUN and RETUNING (R156). -/
def State.sampleInputs (s : State) : State :=
  if s.bcu.clock = .run ∨ s.bcu.clock = .retuning then forInputs (fun i s => s.sampleInput i) s else s

end Sys2Proof.Machine
end

