-- ==== Sys2Proof/Machine/Transfer.lean ====
section
/-! DEFINITION. What the Transfer Engine does to a channel: its request for the bus, the application of a transfer,
underrun, overrun, halts, marks, events and transfer boundaries (R118 to R130, R134, R148), and the placing and
freeing of rings (R135 to R139). -/

namespace Sys2Proof.Machine

open Sys2Proof

/-- The channel events (section 6.10). -/
inductive ChannelEvent where
  | blockEnd | ended | underrun | overrun | halted | lowMark | highMark
deriving DecidableEq, Repr

/-- The event set with an event in it; an event already there is not repeated (R130). -/
def EventSet.add (e : EventSet) : ChannelEvent → EventSet
  | .blockEnd => { e with blockEnd := true }
  | .ended => { e with ended := true }
  | .underrun => { e with underrun := true }
  | .overrun => { e with overrun := true }
  | .halted => { e with halted := true }
  | .lowMark => { e with lowMark := true }
  | .highMark => { e with highMark := true }

/-- An event is raised: it joins the channel's notice record, which is RAISED (R130). -/
def Channel.raise (c : Channel) (e : ChannelEvent) : Channel :=
  { c with notice := { c.notice with raised := true, events := c.notice.events.add e } }

/-- A stall raises UNDERRUN with the stalled flag (R123, R130). -/
def Channel.raiseStall (c : Channel) : Channel :=
  let c := c.raise .underrun
  { c with notice := { c.notice with stalled := true } }

/-- The channel becomes HALTED with a cause, and HALTED is raised (R125, R126, R128). -/
def Channel.haltWith (c : Channel) (cause : HaltCause) : Channel :=
  { c with state := .halted, cause := cause }.raise .halted

/-- A channel is able to act: an OUT ring holds a transfer or the policy is HOLD, an IN ring has room or the policy
is DROP (R118). -/
def Channel.able (c : Channel) (w : Nat) : Bool :=
  match c.direction with
  | .out => decide (w ≤ c.level) || c.policy == .hold
  | .into => decide (w ≤ c.freeSpace) || c.policy == .drop

/-- The channel is RUNNING, its slot ENABLED and TRQn of that slot asserted. -/
def State.cardAsks (s : State) (n : ChanId) : Bool :=
  (s.chan n).state == .running && (s.slot (s.chan n).slot).state == .enabled && s.trq (s.chan n).slot n

/-- The channel's request for the bus stands (R118). -/
def State.chanRequests (s : State) (n : ChanId) : Bool :=
  s.cardAsks n && (s.chan n).able (chanWidth n)

/-- A stall comes to be in progress, or an IN channel under HALT meets a request without room (R123, R125). -/
def State.serveChannel (s : State) (n : ChanId) : State :=
  let c := s.chan n
  if s.cardAsks n && !c.able (chanWidth n) then
    match c.direction with
    | .out => if c.stallEpisode then s else s.modChan n fun c => { c with stallEpisode := true }.raiseStall
    | .into => s.modChan n fun c => c.haltWith .overrun
  else s

/-- The same for the six channels. -/
def State.serveChannels (s : State) : State := forChans (fun n s => s.serveChannel n) s

/-! ## Applying a transfer (R120, R121, R129) -/

/-- The mark check after a real transfer (R129). -/
def Channel.checkMark (c : Channel) : Channel :=
  if c.markNotices && c.markArmed then
    match c.direction with
    | .out => if c.level ≤ c.mark then { c with markArmed := false }.raise .lowMark else c
    | .into => if c.mark ≤ c.level then { c with markArmed := false }.raise .highMark else c
  else c

/-- Host ring traffic that leaves the level beyond the mark arms it again (R148). -/
def Channel.rearmMark (c : Channel) : Channel :=
  match c.direction with
  | .out => if c.mark < c.level then { c with markArmed := true } else c
  | .into => if c.level < c.mark then { c with markArmed := true } else c

/-- One transfer of the block is counted, and the block ends when remaining reaches 0 (R120, R121). -/
def Channel.countTransfer (c : Channel) : Channel :=
  let c := { c with transfers := c.transfers + 1, remaining := c.remaining - 1 }
  if c.remaining = 0 then
    let c := { c with blocksEnded := c.blocksEnded + 1, lastBlockEnd := c.transfers }
    if c.autoReload then { c with remaining := c.blockLength }.raise .blockEnd
    else { c with state := .ended }.raise .ended
  else c

/-- The first fill of an episode raises UNDERRUN (R123). -/
def Channel.countFill (c : Channel) : Channel :=
  let c := { c with underruns := c.underruns + 1 }
  if c.underrunEpisode then c else { c with underrunEpisode := true }.raise .underrun

/-- The first drop of an episode raises OVERRUN (R124). -/
def Channel.countDrop (c : Channel) : Channel :=
  let c := { c with overruns := c.overruns + 1 }
  if c.overrunEpisode then c else { c with overrunEpisode := true }.raise .overrun

/-- What a DONE transfer does to the channel's context (R120, R121, R129). -/
def Channel.applyTransfer (c : Channel) (w : Nat) (kind : TransferKind) (driven : Half) : Channel :=
  match kind, c.direction with
  | .real, .out =>
    { c with take := c.take + BitVec.ofNat 32 w, lastDelivered := driven,
             underrunEpisode := false, stallEpisode := false }.countTransfer.checkMark
  | .real, .into =>
    { c with put := c.put + BitVec.ofNat 32 w, overrunEpisode := false }.countTransfer.checkMark
  | .filler, .out => c.countFill.countTransfer
  | .filler, .into => c.countDrop.countTransfer

/-- The bytes an IN transfer stores, low byte first (R108, R120). -/
def transferBytes (n : ChanId) (sampled : Half) : List Byte :=
  if chanWidth n = 1 then [lowByte sampled] else [lowByte sampled, highByte sampled]

/-- A transfer cycle of channel n ended DONE: its data is stored, if it is a real IN transfer, and its context is
changed (R120). -/
def State.applyTransfer (s : State) (n : ChanId) (kind : TransferKind) (driven sampled : Half) : State :=
  let c := s.chan n
  let t := match kind, c.direction with
    | .real, .into =>
      s.updStm fun m => { m with bytes := storeRing c c.put (transferBytes n sampled) m.bytes }
    | _, _ => s
  t.modChan n fun c => c.applyTransfer (chanWidth n) kind driven

/-- What the next transfer cycle of the channel drives and which kind it is (R119). -/
def State.nextTransfer (s : State) (n : ChanId) : TransferKind × Half :=
  let c := s.chan n
  let w := chanWidth n
  match c.direction with
  | .out =>
    if w ≤ c.level then
      match loadRing c s.stm.bytes w c.take with
      | [lo] => (.real, joinBytes lo 0)
      | [lo, hi] => (.real, joinBytes lo hi)
      | _ => (.real, 0)
    else (.filler, c.lastDelivered)
  | .into => if w ≤ c.freeSpace then (.real, 0) else (.filler, 0)

/-! ## Rings in the page map (R135 to R139) -/

/-- Every page from a start on, n of them, is FREE or owned by the channel (R136). -/
def Stm.usable (m : Stm) (owner : ChanId) (start n : Nat) : Bool :=
  (List.finRange 128).all fun p =>
    decide (p.val < start) || decide (start + n ≤ p.val) || m.pages[p] == none || m.pages[p] == some owner

/-- The lowest usable start for a ring of 2^code pages (R136). -/
def Stm.findRun (m : Stm) (owner : ChanId) (code : Nat) : Option Nat :=
  (List.range (Config.stagingPages - 2 ^ code + 1)).find? fun start => m.usable owner start (2 ^ code)

/-- The pages of a run become the owner's, and the owner's other pages FREE (R137). -/
def Stm.place (m : Stm) (owner : ChanId) (start n : Nat) : Stm :=
  { m with pages := Vector.ofFn fun p : PageId =>
      if start ≤ p.val ∧ p.val < start + n then some owner
      else if m.pages[p] = some owner then none else m.pages[p] }

/-- Every page of the owner becomes FREE (R139). -/
def Stm.release (m : Stm) (owner : ChanId) : Stm :=
  { m with pages := Vector.ofFn fun p : PageId => if m.pages[p] = some owner then none else m.pages[p] }

/-- CH_RELEASE takes effect: the channel is FREE with its power-on values, and its pages are FREE (R116, R139). -/
def State.releaseChannel (s : State) (n : ChanId) : State :=
  (s.updStm fun m => m.release n).modChan n fun _ => {}

/-! ## Transfer boundaries (R113, R116, R134) -/

/-- A deferred CH_PAUSE or CH_RELEASE reply is sent with the channel as it then stands. -/
def State.answerChannel (s : State) (n : ChanId) : State :=
  if s.chanReply = some n then
    let t := s.setChanReply none
    t.replyCommand .ok (t.channelReport n)
  else s

/-- At a transfer boundary of the channel a waiting release is made, and a waiting pause takes a RUNNING channel to
PAUSED. A release that waits beside a pause is made first, which the spec leaves open (DEDUCED, log 29). -/
def State.chanBoundary (s : State) (n : ChanId) : State :=
  if s.transferring n then s
  else if (s.chan n).releaseWaits then (s.releaseChannel n).answerChannel n
  else if (s.chan n).pauseWaits then
    (s.modChan n fun c =>
      { c with pauseWaits := false, state := if c.state = .running then .paused else c.state }).answerChannel n
  else s

/-- The same for the six channels. -/
def State.chanBoundaries (s : State) : State := forChans (fun n s => s.chanBoundary n) s

/-- The announcement that a slot has left ENABLED halts its RUNNING and PAUSED channels (R128). -/
def State.haltSlotChannels (s : State) (slot : SlotId) (cause : HaltCause) : State :=
  forChans (fun n s =>
    if (s.chan n).slot = slot ∧ ((s.chan n).state = .running ∨ (s.chan n).state = .paused) then
      s.modChan n fun c => c.haltWith cause
    else s) s

end Sys2Proof.Machine
end

