-- ==== Sys2Proof/Machine/SlotLife.lean ====
section
/-! DEFINITION. The one way a slot changes its state, with the announcements that go with it (R43, R45, R62), the
replies of slot requests (R51) and the orderly changes (R50, R55, R56, R59). -/

namespace Sys2Proof.Machine

open Sys2Proof

/-- The slot request's deferred reply is sent, with the statuses of R47, R53, R55, R56 and R59. A SLOT_RESET reply
carries the width taken and CLAMPED, whatever its status (R58, log 17). -/
def State.answerSlot (s : State) (i : SlotId) (status : Status) : State :=
  match (s.slot i).deferred with
  | none => s
  | some r =>
    let t := s.modSlot i fun x => { x with deferred := none }
    match r with
    | .slotReset width clamped =>
      t.replyCommand status
        (t.slotReply i ++ [BitVec.ofNat 8 width, replyFlags clamped])
    | _ => t.replyCommand status (t.slotReply i)

/-- The cause announced when a slot leaves ENABLED for a state (R62). -/
def leaveCause (new : SlotState) : HaltCause := if new = .resetting then .slotReset else .slotLost

/-- A slot enters a state from another: the soft run is 0 (R45), and the announcements of R62 are made in the same
event: to the Transfer Engine and the Interrupt Capture Unit when the slot leaves ENABLED, to the Resource Map when it
enters RESETTING, OFF or FAULT. On entering ENABLED its inputs begin to be watched (R154). -/
def State.enterState (s : State) (i : SlotId) (new : SlotState) : State :=
  let old := (s.slot i).state
  let s := s.modSlot i fun t => { t with state := new, softRun := 0 }
  let s := if old = .enabled ∧ new ≠ .enabled then (s.haltSlotChannels i (leaveCause new)).releaseSlotInputs i else s
  let s := if new = .resetting ∨ new = .off ∨ new = .fault then s.updRmap fun m => m.clearSlot i else s
  if new = .enabled ∧ old ≠ .enabled then s.watchSlot i else s

/-- An orderly change is made (R50): R55 for POWER_OFF, R56 for ISOLATE, R59 for SLOT_RESET. -/
def State.makeChange (s : State) (i : SlotId) (change : SlotChange) : State :=
  let s := s.modSlot i fun t => { t with waiting := none }
  match change with
  | .powerOff => (s.enterState i .off).answerSlot i .ok
  | .isolate => (s.enterState i .isolated).answerSlot i .ok
  | .slotReset width =>
    (s.enterState i .resetting).modSlot i fun t => { t with sequence := some (.slotReset (width * 1000)) }

/-- A waiting orderly change is made once no cycle in flight connects its slot (R50). -/
def State.slotBoundary (s : State) (i : SlotId) : State :=
  match (s.slot i).waiting with
  | some change => if s.connects i then s else s.makeChange i change
  | none => s

/-- The same for the four slots. -/
def State.slotBoundaries (s : State) : State := forSlots (fun i s => s.slotBoundary i) s

end Sys2Proof.Machine
end

