-- ==== Sys2Proof/Machine/Engine.lean ====
section
/-! DEFINITION. The cycle engine and the arbiter (R19 to R36), the clock's waits for a free bus (R8, R10, R15), trips
(R47), and what an event does once its own effect is made (log 14). -/

namespace Sys2Proof.Machine

open Sys2Proof

/-! ## Cycles begin (R19 to R24) -/

/-- Wait states a cycle kind takes from a timing class (R22). -/
def CycleKind.waitStates (k : CycleKind) (t : TimingClass) : Nat :=
  match k with
  | .ioByteRead | .ioByteWrite | .ioWordRead | .ioWordWrite | .transferOut | .transferIn => t.ioWs
  | .memByteRead | .memByteWrite | .memWordRead | .memWordWrite => t.memWs
  | .refresh => 0

/-- Base length of a cycle kind in BCLK (R22). -/
def CycleKind.baseLength : CycleKind → Nat
  | .ioByteRead | .ioByteWrite | .memByteRead | .memByteWrite => 6
  | .ioWordRead | .ioWordWrite | .memWordRead | .memWordWrite => 3
  | .transferOut | .transferIn => 5
  | .refresh => 4

/-- An IO or MEM cycle carries a word (R21). -/
def CycleKind.wide : CycleKind → Bool
  | .ioWordRead | .ioWordWrite | .memWordRead | .memWordWrite => true
  | .ioByteRead | .ioByteWrite | .memByteRead | .memByteWrite | .transferOut | .transferIn | .refresh => false

/-- The cycle reads from the card. -/
def CycleKind.reads : CycleKind → Bool
  | .ioByteRead | .ioWordRead | .memByteRead | .memWordRead | .transferIn => true
  | .ioByteWrite | .ioWordWrite | .memByteWrite | .memWordWrite | .transferOut | .refresh => false

/-- The cycle in flight carries a word: a transfer does on channels 4 and 5 (R21, R108). -/
def State.cycleWide (s : State) (k : CycleKind) : Bool :=
  match s.sbc.holder with
  | some (.channel n) => chanWidth n == 2
  | _ => k.wide

/-- SD15–SD0 as the engine samples them: a line that the connected card drives reads as driven, any other as one
(R19). -/
def Cycle.dataLines (c : Cycle) (card : CardData) : Half :=
  match c.target with
  | some i => if c.connected[i] then card.levels ||| ~~~card.driven else 0xFFFF
  | none => 0xFFFF

/-- The data of a result: the sampled lanes of the cycle's width for a read, 0 for a write (R21, R27). -/
def State.resultData (s : State) (k : CycleKind) (sampled : Half) : Half :=
  if k.reads then sampled &&& allOnes (s.cycleWide k) else 0

/-- Only the given slot is connected (R19). -/
def onlySlot (i : SlotId) : Vector Bool 4 := Vector.ofFn fun j => decide (j = i)

/-- A cycle of a kind and a class that begins now: its length and ready limit are fixed (R22, R24). -/
def State.newCycle (s : State) (kind : CycleKind) (cls : ClassId) (target : Option SlotId)
    (connected : Vector Bool 4) (address : Nat) (driven : Half) : Cycle :=
  { kind := kind, target := target, connected := connected, address := address, driven := driven,
    length := kind.baseLength + kind.waitStates s.sbc.timing[cls],
    limit := readyLimitPeriods s.sbc.readyLimit s.bcu.divider, eob := false, transfer := .real, direct := false }

/-- The slot may be connected by an IO or MEM cycle: ENABLED, or ISOLATED for a slot-direct one (R49). -/
def State.mayConnect (s : State) (i : SlotId) (direct : Bool) : Bool :=
  (s.slot i).state == .enabled || (direct && (s.slot i).state == .isolated)

/-- The grant ends: no holder, burst count 0, the bus FREE (R32). -/
def State.freeBus (s : State) : State :=
  s.updSbc fun b => { b with holder := none, burst := 0, cycle := none }

/-- The engine hands a result (R27). -/
def State.handResult (s : State) (r : CycleResult) : State := s.updSbc fun b => { b with lastResult := some r }

/-- A refresh cycle begins: every ENABLED slot is connected, the row counter is driven (R30). -/
def State.beginRefresh (s : State) : State :=
  let c := s.newCycle .refresh 0 none (Vector.ofFn fun i => (s.slot i).state == .enabled) s.sbc.row.toNat 0
  s.updSbc fun b => { b with holder := some .refresh, cycle := some c }

/-- A transfer cycle of a channel begins: its kind, data and EOB are fixed (R119). -/
def State.beginTransfer (s : State) (n : ChanId) : State :=
  let c := s.chan n
  let (kind, driven) := s.nextTransfer n
  let cycleOf := s.newCycle (if c.direction = .out then .transferOut else .transferIn) c.cls (some c.slot)
    (onlySlot c.slot) 0 driven
  s.updSbc fun b => { b with
    holder := some (.channel n),
    cycle := some { cycleOf with eob := decide (c.remaining = 1), transfer := kind } }

/-- The next cycle of AE's grant begins, or is REFUSED when its slot may not be connected: the bus is FREE and the
access stops NOT_READY (R20, R94). -/
def State.beginAccessCycle (s : State) : State :=
  match s.ae.units.head?.bind fun u => u.cycles.head? with
  | none => s.freeBus
  | some p =>
    if s.mayConnect p.slot p.direct then
      let c := s.newCycle p.kind p.cls (some p.slot) (onlySlot p.slot) p.address p.driven
      (s.updSbc fun b => { b with holder := some .ae, cycle := some { c with direct := p.direct } }).updAe
        fun a => { a with phase := .running }
    else
      ((s.freeBus).handResult ⟨.refused, 0, some p.slot, 0⟩).endAccess .notReady

/-! ## Arbitration (R31, R32) -/

/-- The first standing request in the arbiter's order (R32). -/
def State.firstRequest (s : State) : Option Holder :=
  if Config.maxDebt ≤ s.sbc.debt then some .refresh
  else
    match (List.finRange 6).find? s.chanRequests with
    | some n => some (.channel n)
    | none =>
      if 1 ≤ s.sbc.debt then some .refresh
      else if s.ae.phase = .waiting then some .ae
      else none

/-- Whenever the bus is FREE and a grant is allowed, it goes to the first standing request (R4, R32). -/
def State.arbitrate (s : State) : State :=
  if s.sbc.holder = none ∧ s.grantsAllowed then
    match s.firstRequest with
    | none => s
    | some .refresh => s.beginRefresh
    | some (.channel n) => s.beginTransfer n
    | some .ae => s.beginAccessCycle
  else s

/-! ## The clock and a free bus (R8, R10, R15) -/

/-- Once the bus is FREE a retune begins to settle, and a waiting PARK or CLOCK_STOP is carried out. -/
def State.clockBoundary (s : State) : State :=
  if s.sbc.holder ≠ none then s
  else
    match s.bcu.clock, s.bcu.waiting with
    | .retuning, _ =>
      if s.bcu.settling = none then
        s.updBcu fun b => { b with settling := some Config.settlingPeriods }
      else s
    | .run, some w =>
      let s := (s.updBcu fun b => { b with
        clock := if w = .park then .parked else .stopped, waiting := none }).suspendSampling
      if s.bcu.deferred = none then s
      else (s.updBcu fun b => { b with deferred := none }).replyCommand .ok s.clockReport
    | _, _ => s

/-! ## What follows in the same event (log 14) -/

/-- Once an event's own effect is made: transfer boundaries, slot changes, stalls and overrun halts, the clock's
waits, arbitration, admission. -/
def State.settle (s : State) : State :=
  s.chanBoundaries.slotBoundaries.serveChannels.clockBoundary.arbitrate.admitOffers

/-! ## Cycles end (R25 to R27, R30, R34) -/

/-- A fault is recorded for a slot and its BUS_FAULT record raised (R35, R36). -/
def State.recordFault (s : State) (i : SlotId) (kind : FaultKind) (c : Cycle) : State :=
  let space := match c.kind with
    | .ioByteRead | .ioByteWrite | .ioWordRead | .ioWordWrite => some Space.io
    | .memByteRead | .memByteWrite | .memWordRead | .memWordWrite => some Space.mem
    | .transferOut | .transferIn | .refresh => none
  let address := match s.sbc.holder with
    | some (.channel n) => n.val
    | _ => c.address
  s.modFault i fun r => {
    count := r.count + 1, last := some ⟨kind, s.bcu.timeBase, c.kind, space, address⟩, raised := true }

/-- The value of the unit in flight with a cycle's data in its part (R79). -/
def AccessUnit.merge (u : AccessUnit) (part : UnitPart) (data : Half) : Half :=
  match part with
  | .word => data
  | .low => joinBytes (lowByte data) (highByte u.value)
  | .high => joinBytes (lowByte u.value) (lowByte data)

/-- AE takes the result of a cycle that ran: the Shadow List is changed for a write, the cycle leaves its unit, and
units without further cycles are done (R82, R92, R93). -/
def State.takeAccessResult (s : State) (timedOut : Bool) (data : Half) : State :=
  match s.ae.units with
  | u :: us =>
    match u.cycles with
    | p :: ps =>
      let u' : AccessUnit := { u with
        cycles := ps, value := if u.read then u.merge p.part data else u.value, timedOut := u.timedOut || timedOut }
      (s.updRmap fun m => m.recordAll p.records).updAe (closeUnits (u' :: us))
    | [] => s
  | [] => s

/-- The requester takes the result of a cycle that ended at its full length or timed out (R27). The cycle is off the
bus, the grant still in force. A transfer is applied, and the stall or overrun halt that it leaves behind comes with it
(R113, R123, R125, R134). -/
def State.takeResult (s : State) (c : Cycle) (timedOut : Bool) (data : Half) : State :=
  match s.sbc.holder with
  | some .refresh =>
    s.updSbc fun b => { b with row := b.row + 1, debt := b.debt - 1 }
  | some (.channel n) =>
    let t := s.updSbc fun b => { b with burst := b.burst + 1 }
    if timedOut then t.modChan n fun x => x.haltWith .busTimeout
    else (t.applyTransfer n c.transfer c.driven data).serveChannel n
  | some .ae => s.takeAccessResult timedOut data
  | none => s

/-- A DEMAND burst goes on (R34, R122). A slot that left ENABLED ends it, and no REFUSED is handed (log 26). -/
def State.burstContinues (s : State) (n : ChanId) : Bool :=
  (s.chan n).demand && decide (s.sbc.burst < Config.burstLimit) && s.chanRequests n &&
    decide (s.sbc.debt < Config.maxDebt) && s.grantsAllowed

/-- The grant goes on with its next cycle, or ends (R33, R34). -/
def State.continueGrant (s : State) : State :=
  match s.sbc.holder with
  | some (.channel n) => if s.burstContinues n then s.beginTransfer n else s.freeBus
  | some .ae => if s.ae.units.isEmpty then s.freeBus.accessBoundary else s.beginAccessCycle
  | _ => s.freeBus

/-- A cycle ends with DONE or TIMED_OUT: the result is handed, transfer boundaries and orderly slot changes follow,
then the grant goes on or the bus is FREE (R27, R50, R113). -/
def State.finishCycle (s : State) (c : Cycle) (timedOut : Bool) (data : Half) (length : Nat) : State :=
  let s := s.updSbc fun b => { b with cycle := none }
  let s := s.handResult ⟨if timedOut then .timedOut else .done, data, c.target, length⟩
  ((s.takeResult c timedOut data).chanBoundaries.slotBoundaries).continueGrant.settle

/-! ## Trips (R26, R47) -/

/-- A trip opens a slot that the cycle in flight connects (R26): a refresh goes on without it, any other cycle is cut,
its grant ends, and an access stops NOT_READY. -/
def State.cutCycle (s : State) (i : SlotId) : State :=
  match s.sbc.cycle with
  | none => s
  | some c =>
    if c.connected[i] then
      let s := s.recordFault i .slotLost c
      if c.kind = .refresh then
        s.updSbc fun b => { b with cycle := some { c with connected := c.connected.set i false } }
      else
        let ae := s.sbc.holder = some .ae
        let result : CycleResult := ⟨.cut, s.resultData c.kind 0xFFFF, some i, Config.cutLength s.free⟩
        let s := { s.freeBus.handResult result with free := s.free + 1 }
        if ae then s.endAccess .notReady else s
    else s

/-- A slot trips (R47). A deferred POWER_ON, ISOLATE or SLOT_RESET is answered FAULTED, and a waiting POWER_OFF takes
the slot on to OFF (R54, R55, R56, R59), also where it waited for a refresh, which goes on without the slot (log 27). -/
def State.trip (s : State) (i : SlotId) (kind : TripKind) (reading : Nat) : State :=
  let s := s.cutCycle i
  let s := s.enterState i .fault
  let powerOff := (s.slot i).waiting = some .powerOff
  let s := s.modSlot i fun t => { t with
    lastTrip := some ⟨kind, s.bcu.timeBase, reading⟩, cooldown := some Config.cooldownTime,
    faultRaised := true, sequence := none, waiting := none }
  if powerOff then (s.enterState i .off).answerSlot i .ok else s.answerSlot i .faulted

/-- A reading above a threshold; 4000 counts as above 4000 mA (R44). -/
def readingAbove (reading threshold : Nat) : Bool :=
  decide (threshold < reading) || decide (Config.saturatedReading ≤ reading)

/-- The reading of a slot: rounded down to 10 mA, saturated at 4000, 0 with the rails open (R44). -/
def Slot.reading (t : Slot) (draw : Nat) : Nat :=
  if t.state = .off ∨ t.state = .fault then 0 else min (draw / 10 * 10) Config.saturatedReading

/-- One slot is measured, and trips if its reading demands it (R44, R45, R46). -/
def State.measureSlot (s : State) (i : SlotId) (draw : Nat) : State :=
  let r := (s.slot i).reading draw
  let s := s.modSlot i fun t => { t with current := r, peak := max t.peak r }
  let t := s.slot i
  match t.state with
  | .off | .fault => s
  | .powering => if readingAbove r Config.saturatedReading then s.trip i .hard r else s
  | .resetting | .enabled | .isolated =>
    if readingAbove r (hardThreshold t.limit) then s.trip i .hard r
    else if t.limit < r then
      if 10 ≤ t.softRun then s.trip i .soft r
      else s.modSlot i fun t => { t with softRun := t.softRun + 1 }
    else s.modSlot i fun t => { t with softRun := 0 }

end Sys2Proof.Machine
end

