-- ==== Sys2Proof/Machine/Frames.lean ====
section
/-! DEFINITION. The request kinds: their codes, pipes and allowed payload lengths (sections 10.2, 10.5, R189), the frame
that each request command spells, and how a pipe takes a frame (R172 to R175). -/

namespace Sys2Proof.Machine

open Sys2Proof

/-- Pipe and least and greatest payload length of a request kind; none for a code that is no request kind (section
10.2, R189). -/
def requestKind (kind : Byte) : Option (Pipe × Nat × Nat) :=
  match kind.toNat with
  | 0x10 => some (.command, 2, 2)
  | 0x11 => some (.command, 0, 0)
  | 0x12 => some (.command, 0, 0)
  | 0x13 => some (.command, 0, 0)
  | 0x18 => some (.command, 3, 3)
  | 0x19 => some (.command, 1, 1)
  | 0x1A => some (.command, 1, 1)
  | 0x1B => some (.command, 0, 0)
  | 0x20 => some (.command, 1, 1)
  | 0x21 => some (.command, 1, 1)
  | 0x22 => some (.command, 1, 1)
  | 0x23 => some (.command, 1, 1)
  | 0x24 => some (.command, 2, 2)
  | 0x25 => some (.command, 3, 3)
  | 0x26 => some (.command, 1, 1)
  | 0x28 => some (.command, 15, 15)
  | 0x29 => some (.command, 1, 1)
  | 0x2A => some (.command, 0, 0)
  | 0x2B => some (.command, 4, 4)
  | 0x2C => some (.command, 2, 2)
  | 0x30 => some (.command, 10, 10)
  | 0x31 => some (.command, 10, 1034)
  | 0x32 => some (.command, 10, 10)
  | 0x33 => some (.command, 10, 1034)
  | 0x34 => some (.command, 9, 10)
  | 0x35 => some (.command, 8, 8)
  | 0x36 => some (.command, 19, 19)
  | 0x38 => some (.command, 19, 19)
  | 0x39 => some (.command, 1, 1)
  | 0x3A => some (.command, 1, 1)
  | 0x3B => some (.command, 1, 1)
  | 0x3C => some (.command, 1, 1)
  | 0x3D => some (.command, 1, 1)
  | 0x3E => some (.command, 1, 1)
  | 0x40 => some (.command, 7, 7)
  | 0x41 => some (.command, 3, 3)
  | 0x42 => some (.command, 1, 1)
  | 0x48 => some (.command, 0, 0)
  | 0x49 => some (.command, 0, 0)
  | 0x68 => some (.stream, 1, 1025)
  | 0x69 => some (.stream, 3, 3)
  | 0x6A => some (.stream, 2, 2)
  | 0x6B => some (.stream, 2, 2)
  | _ => none

/-! ## Payloads of requests (section 10.5) -/

/-- Payload of IO_READ, IO_WRITE, MEM_READ and MEM_WRITE before the data. -/
def accessBytes (f : AccessFields) : List Byte :=
  [f.routing, f.slot] ++ le 4 f.address.toNat ++ [f.width, f.step] ++ le 2 f.count.toNat

/-- Payload of PAIR_WRITE and PAIR_READ before the data. -/
def pairBytes (f : PairFields) : List Byte :=
  [f.routing, f.slot] ++ le 2 f.indexPort.toNat ++ [f.indexByte] ++ le 2 f.dataPort.toNat ++ [f.width]

/-- Payload of POLL. -/
def pollBytes (f : PollFields) : List Byte :=
  [f.routing, f.slot, f.space] ++ le 4 f.address.toNat ++ [f.width] ++ le 2 f.mask.toNat ++
    le 2 f.wanted.toNat ++ [f.sense] ++ le 2 f.interval.toNat ++ le 4 f.timeout.toNat

/-- Window record as a request carries it. -/
def windowBytes (f : WindowFields) : List Byte :=
  [f.id, f.slot, f.space] ++ le 4 f.base.toNat ++ le 4 f.size.toNat ++ [f.width, f.cls, f.shadow, f.source]

/-- Payload of CH_CONFIGURE after the channel. -/
def configureBytes (f : ConfigureFields) : List Byte :=
  [f.slot, f.direction, f.service, f.cls] ++ le 4 f.blockLength.toNat ++ [f.autoReload, f.sizeCode] ++
    le 4 f.mark.toNat ++ [f.markNotices, f.policy] ++ le 2 f.fill.toNat

/-- Payload of INT_CONFIGURE after the slot and the line. -/
def inputBytes (f : InputFields) : List Byte := [f.mode, f.polarity, f.filter, f.mask, f.wake]

/-- The fields of an access request. -/
def readAccess (p : List Byte) : AccessFields :=
  ⟨byteAt p 0, byteAt p 1, wordAt p 2, byteAt p 6, byteAt p 7, halfAt p 8⟩

/-- The fields of a PAIR request. -/
def readPair (p : List Byte) : PairFields :=
  ⟨byteAt p 0, byteAt p 1, halfAt p 2, byteAt p 4, halfAt p 5, byteAt p 7⟩

/-- The fields of a POLL. -/
def readPoll (p : List Byte) : PollFields :=
  ⟨byteAt p 0, byteAt p 1, byteAt p 2, wordAt p 3, byteAt p 7, halfAt p 8, halfAt p 10, byteAt p 12,
    halfAt p 13, wordAt p 15⟩

/-- The window record of a MAP_ADD. -/
def readWindow (p : List Byte) : WindowFields :=
  ⟨byteAt p 0, byteAt p 1, byteAt p 2, wordAt p 3, wordAt p 7, byteAt p 11, byteAt p 12, byteAt p 13, byteAt p 14⟩

/-- The fields of a CH_CONFIGURE after the channel. -/
def readConfigure (p : List Byte) : ConfigureFields :=
  ⟨byteAt p 1, byteAt p 2, byteAt p 3, byteAt p 4, wordAt p 5, byteAt p 9, byteAt p 10, wordAt p 11,
    byteAt p 15, byteAt p 16, halfAt p 17⟩

/-- The fields of an INT_CONFIGURE after the slot and the line. -/
def readInput (p : List Byte) : InputFields := ⟨byteAt p 2, byteAt p 3, byteAt p 4, byteAt p 5, byteAt p 6⟩

/-! ## The frame a request command spells -/

/-- Kind, tag and payload of a request command; none for an event. -/
def requestOf : Instr → Option (Byte × Half × List Byte)
  | .setClock tag t => some (0x10, tag, le 2 t.toNat)
  | .park tag => some (0x11, tag, [])
  | .wake tag => some (0x12, tag, [])
  | .clockStop tag => some (0x13, tag, [])
  | .setTiming tag cls io mem => some (0x18, tag, [cls, io, mem])
  | .setReadyLimit tag t => some (0x19, tag, [t])
  | .setRefresh tag i => some (0x1A, tag, [i])
  | .busStatus tag => some (0x1B, tag, [])
  | .powerOn tag slot => some (0x20, tag, [slot])
  | .powerOff tag slot => some (0x21, tag, [slot])
  | .isolate tag slot => some (0x22, tag, [slot])
  | .connect tag slot => some (0x23, tag, [slot])
  | .slotReset tag slot width => some (0x24, tag, [slot, width])
  | .setLimit tag slot limit => some (0x25, tag, [slot] ++ le 2 limit.toNat)
  | .slotStatus tag slot => some (0x26, tag, [slot])
  | .mapAdd tag f => some (0x28, tag, windowBytes f)
  | .mapRemove tag id => some (0x29, tag, [id])
  | .mapList tag => some (0x2A, tag, [])
  | .shadowRead tag port present index => some (0x2B, tag, le 2 port.toNat ++ [present, index])
  | .shadowClear tag present id => some (0x2C, tag, [present, id])
  | .ioRead tag f => some (0x30, tag, accessBytes f)
  | .ioWrite tag f data => some (0x31, tag, accessBytes f ++ data)
  | .memRead tag f => some (0x32, tag, accessBytes f)
  | .memWrite tag f data => some (0x33, tag, accessBytes f ++ data)
  | .pairWrite tag f data => some (0x34, tag, pairBytes f ++ data)
  | .pairRead tag f => some (0x35, tag, pairBytes f)
  | .poll tag f => some (0x36, tag, pollBytes f)
  | .chConfigure tag ch f => some (0x38, tag, [ch] ++ configureBytes f)
  | .chArm tag ch => some (0x39, tag, [ch])
  | .chPause tag ch => some (0x3A, tag, [ch])
  | .chResume tag ch => some (0x3B, tag, [ch])
  | .chClear tag ch => some (0x3C, tag, [ch])
  | .chRelease tag ch => some (0x3D, tag, [ch])
  | .chStatus tag ch => some (0x3E, tag, [ch])
  | .intConfigure tag slot line f => some (0x40, tag, [slot, line] ++ inputBytes f)
  | .intMask tag slot line mask => some (0x41, tag, [slot, line, mask])
  | .intStatus tag slot => some (0x42, tag, [slot])
  | .info tag => some (0x48, tag, [])
  | .resetPart tag => some (0x49, tag, [])
  | .ringWrite tag ch data => some (0x68, tag, [ch] ++ data)
  | .ringRead tag ch largest => some (0x69, tag, [ch] ++ le 2 largest.toNat)
  | .intAck tag slot line => some (0x6A, tag, [slot, line])
  | .cancel tag target => some (0x6B, tag, le 2 target.toNat)
  | .partPowerOn | .linkUp | .linkReset | .frameReceive _ _ | .frameTake _ | .frameTransmit
  | .frameSent | .noticeAdmission | .startingEnd | .retuneEnd | .refreshTick | .cycleEnd _ _
  | .readyTimeout | .currentMeasurement _ | .cooldownEnd _ | .poweringEnd _ | .resettingEnd _
  | .slotResetEnd _ | .pollIntervalEnd | .trqAssert _ _ | .trqDeassert _ _ | .irlChange _ _ _
  | .irlFilterChange _ _ | .timeBaseAdvance => none

/-- The bytes of a frame: the six header bytes (kind, status, tag, payload length), then the payload (section 10.1). -/
def frameBytes (kind status : Byte) (tag : Half) (payload : List Byte) : List Byte :=
  [kind, status] ++ le 2 tag.toNat ++ le 2 payload.length ++ payload

/-- The bytes of a request frame; its status byte is not examined, and 0 is sent (R187). -/
def requestBytes (kind : Byte) (tag : Half) (payload : List Byte) : List Byte := frameBytes kind 0 tag payload

/-- The bytes in which the part sends a frame (R187). -/
def Frame.bytes (f : Frame) : List Byte := frameBytes f.kind f.status f.tag f.payload

/-- What the report pipe carries: the bytes of the frame in transmission (R179, R187). -/
def Ml.reportPipe (m : Ml) : Option (List Byte) := m.sending.map Frame.bytes

/-! ## Intake (R172, R173) -/

/-- The intake queue of a pipe. -/
def Ml.intake (m : Ml) : Pipe → List (List Byte)
  | .command => m.commandIn
  | .stream => m.streamIn

/-- The same state with another intake queue on a pipe. -/
def Ml.setIntake (m : Ml) (p : Pipe) (frames : List (List Byte)) : Ml :=
  match p with
  | .command => { m with commandIn := frames }
  | .stream => { m with streamIn := frames }

/-- The request in progress on a pipe. -/
def Ml.inProgress (m : Ml) : Pipe → Option Request
  | .command => m.command
  | .stream => m.stream

/-- The same state with a request in progress on a pipe. -/
def Ml.setInProgress (m : Ml) (p : Pipe) (r : Option Request) : Ml :=
  match p with
  | .command => { m with command := r }
  | .stream => { m with stream := r }

/-- A pipe may take a frame (R173). -/
def Ml.canTake (m : Ml) (p : Pipe) : Bool :=
  m.up && (m.inProgress p).isNone && decide (m.replies.length + m.reserved < Config.replyPlaces) && !m.resetPending

/-- A transfer is received while the link is UP and the queue has room; otherwise the host is answered NAK and
retries (R171, R172). -/
def Ml.receive (m : Ml) (p : Pipe) (bytes : List Byte) : Ml :=
  if m.up && decide ((m.intake p).length < Config.intakeDepth) then m.setIntake p (m.intake p ++ [bytes]) else m

/-! ## Taking a frame (R174, R175) -/

/-- A reply made in the event in which its frame is taken, without an owner: its reserved place is filled at once. -/
def State.replyAtOnce (s : State) (f : Frame) : State := s.updMl fun m => { m with replies := m.replies ++ [f] }

/-- A validated request is handed to its owner: it is in progress on its pipe and its reply place is reserved (R173,
R175). -/
def State.beginRequest (s : State) (p : Pipe) (kind : Byte) (tag : Half) : State :=
  s.updMl fun m => { m.setInProgress p (some ⟨kind, tag, true⟩) with reserved := m.reserved + 1 }

/-- Checks 3 and 4 of R174 on a known kind, then the hand-over to the owner's `handle`. -/
def State.takeRequest (s : State) (p : Pipe) (kind : Byte) (tag : Half) (declared : Nat) (payload : List Byte)
    (handle : State → State) : State :=
  match requestKind kind with
  | none => s.replyAtOnce ⟨0xF0, Status.badKind.code, tag, [kind]⟩
  | some (pipe, least, most) =>
    if pipe ≠ p then s.replyAtOnce ⟨kind + 0x80, Status.wrongPipe.code, tag, []⟩
    else if declared ≠ payload.length ∨ Config.maxPayload < payload.length ∨
        payload.length < least ∨ most < payload.length then
      s.replyAtOnce ⟨kind + 0x80, Status.badLength.code, tag, []⟩
    else handle (s.beginRequest p kind tag)

/-- A request command: its frame is offered to its pipe. A pipe that can take a frame and holds none takes it in this
event and `handle` is what its owner does; otherwise it joins the intake queue, or is answered NAK (log 1). -/
def State.offer (s : State) (p : Pipe) (kind : Byte) (tag : Half) (payload : List Byte) (handle : State → State) :
    State :=
  if s.ml.canTake p && (s.ml.intake p).isEmpty then
    s.takeRequest p kind tag payload.length payload handle
  else s.updMl fun m => m.receive p (requestBytes kind tag payload)

end Sys2Proof.Machine
end

