-- ==== Sys2Proof/Machine/Accesses.lean ====
section
/-! DEFINITION. The access requests and CANCEL (chapter 5): IO_READ, IO_WRITE, MEM_READ, MEM_WRITE, PAIR_WRITE,
PAIR_READ, POLL, POLL_INTERVAL_END, CANCEL. -/

namespace Sys2Proof.Machine

open Sys2Proof

/-! ## Checks on a request (R90) -/

/-- The single or string access a request asks for, where every field lies in its range (R90 check 1). -/
def readAccessFields (write : Bool) (space : Space) (f : AccessFields) (data : List Byte) : Option StringAccess := do
  let direct ← readRouting f.routing f.slot
  let wide ← readWidth f.width
  let increment ← readFlag f.step
  if f.address.toNat < space.size then
    some ⟨write, space, direct, f.address.toNat, wide, increment, f.count.toNat, data⟩
  else none

/-- The count and the data of an access fit the byte limit and each other (R90 check 2). -/
def StringAccess.lengthOk (a : StringAccess) : Bool :=
  decide (a.count ≠ 0) && decide (a.count * widthBytes a.wide ≤ Config.accessBytes) &&
    (!a.write || a.data.length == a.count * widthBytes a.wide)

/-- The paired access a request asks for (R90 check 1). -/
def readPairFields (write : Bool) (f : PairFields) (data : List Byte) : Option PairAccess := do
  let direct ← readRouting f.routing f.slot
  let wide ← readWidth f.width
  some ⟨write, direct, f.indexPort, f.indexByte, f.dataPort, wide, data⟩

/-- The data of a PAIR_WRITE fits its width (R90 check 2). -/
def PairAccess.lengthOk (a : PairAccess) : Bool := !a.write || a.data.length == widthBytes a.wide

/-- The POLL a request asks for, with its interval and timeout as taken (R90 check 1, R99). -/
def readPollFields (f : PollFields) : Option PollAccess := do
  let direct ← readRouting f.routing f.slot
  let space ← readSpace f.space
  let wide ← readWidth f.width
  let notEqual ← readFlag f.sense
  if f.address.toNat < space.size then
    some ⟨space, direct, f.address.toNat, wide, f.mask, f.wanted, notEqual, min f.interval.toNat 1000,
      min f.timeout.toNat 1000000, decide (1000 < f.interval.toNat) || decide (1000000 < f.timeout.toNat)⟩
  else none

/-- The clock check (R90 check 3): the status that refuses an access, or none. -/
def State.clockRefusal (s : State) : Option Status :=
  match s.bcu.clock, s.bcu.waiting with
  | .parked, _ => some .parked
  | .run, none => none
  | .run, some .park => some .parked
  | .run, some .clockStop => some .noClock
  | .stopped, _ | .starting, _ | .retuning, _ => some .noClock

/-! ## Requests taken -/

/-- Reply to a refused single, string or paired access: every count 0 and no data (R90). -/
def State.refuseAccess (s : State) (status : Status) : State := s.replyCommand status (zeros 16)

/-- An access that passed the field and length checks meets the clock check and begins (R89, R90). -/
def State.startAccess (s : State) (a : Access) : State :=
  match s.clockRefusal with
  | some status => s.refuseAccess status
  | none => (s.beginAccess a).settle

/-- IO_READ, IO_WRITE, MEM_READ or MEM_WRITE is taken (R90, R92). -/
def stringTaken (write : Bool) (space : Space) (f : AccessFields) (data : List Byte) (s : State) : State :=
  match readAccessFields write space f data with
  | none => s.refuseAccess .badArg
  | some a => if a.lengthOk then s.startAccess (.string a) else s.refuseAccess .badLength

/-- PAIR_WRITE or PAIR_READ is taken (R90, R96). -/
def pairTaken (write : Bool) (f : PairFields) (data : List Byte) (s : State) : State :=
  match readPairFields write f data with
  | none => s.refuseAccess .badArg
  | some a => if a.lengthOk then s.startAccess (.pair a) else s.refuseAccess .badLength

/-- Reply to a refused POLL: counts 0, flags 0, the final value all ones of the width, elapsed 0 (R90, R101, R190). A
width that is neither 8 nor 16 has no such value, and a free one is sent (log 11). -/
def State.refusePoll (s : State) (width : Byte) (status : Status) : State :=
  let (value, next) := match readWidth width with
    | some wide => (allOnes wide, s.free)
    | none => (Config.refusedPollValue s.free, s.free + 1)
  { s.replyCommand status (zeros 17 ++ le 2 value.toNat ++ le 4 0) with free := next }

/-- POLL is taken (R90, R99). -/
def pollTaken (f : PollFields) (s : State) : State :=
  match readPollFields f with
  | none => s.refusePoll f.width .badArg
  | some a =>
    match s.clockRefusal with
    | some status => s.refusePoll f.width status
    | none => (s.beginAccess (.poll a)).settle

/-- CANCEL can reach a string access (count above 1) or a POLL (R102). -/
def Access.cancellable : Access → Bool
  | .string a => decide (1 < a.count)
  | .pair _ => false
  | .poll _ => true

/-- CANCEL is taken (R102, R103). Outside RUNNING the command ends at once. -/
def cancelTaken (target : Half) (s : State) : State :=
  let echo := le 2 target.toNat
  match s.ml.command with
  | none => s.replyStream .nothingToCancel echo
  | some r =>
    if r.claim ∧ r.tag = target then
      match s.ae.command with
      | none => s.replyStream .notCancellable echo
      | some a =>
        if a.cancellable then
          let t := s.updAe fun e => { e with cancelTaken := true }
          if t.ae.phase = .running then t else t.endAccess .cancelled
        else s.replyStream .notCancellable echo
    else s.replyStream .nothingToCancel echo

/-! ## Events -/

/-- POLL_INTERVAL_END, due when the time base has advanced by the interval since the decision (R100). -/
def pollIntervalEnds (s : State) : State :=
  match s.ae.phase, s.ae.command with
  | .interval, some (.poll a) =>
    if a.interval ≤ (s.bcu.timeBase - s.ae.decidedAt).toNat then (runPoll a s).settle else s
  | _, _ => s

/-! ## Meanings -/

def execIoRead (tag : Half) (fields : AccessFields) (s : State) : Host.Outcome State Fault Refusal :=
  .next (s.offer .command 0x30 tag (accessBytes fields) (stringTaken false .io fields []))

def execIoWrite (tag : Half) (fields : AccessFields) (data : List Byte) (s : State) :
    Host.Outcome State Fault Refusal :=
  .next (s.offer .command 0x31 tag (accessBytes fields ++ data) (stringTaken true .io fields data))

def execMemRead (tag : Half) (fields : AccessFields) (s : State) : Host.Outcome State Fault Refusal :=
  .next (s.offer .command 0x32 tag (accessBytes fields) (stringTaken false .mem fields []))

def execMemWrite (tag : Half) (fields : AccessFields) (data : List Byte) (s : State) :
    Host.Outcome State Fault Refusal :=
  .next (s.offer .command 0x33 tag (accessBytes fields ++ data) (stringTaken true .mem fields data))

def execPairWrite (tag : Half) (fields : PairFields) (data : List Byte) (s : State) :
    Host.Outcome State Fault Refusal :=
  .next (s.offer .command 0x34 tag (pairBytes fields ++ data) (pairTaken true fields data))

def execPairRead (tag : Half) (fields : PairFields) (s : State) : Host.Outcome State Fault Refusal :=
  .next (s.offer .command 0x35 tag (pairBytes fields) (pairTaken false fields []))

def execPoll (tag : Half) (fields : PollFields) (s : State) : Host.Outcome State Fault Refusal :=
  .next (s.offer .command 0x36 tag (pollBytes fields) (pollTaken fields))

def execPollIntervalEnd (s : State) : Host.Outcome State Fault Refusal := .next (pollIntervalEnds s)

def execCancel (tag target : Half) (s : State) : Host.Outcome State Fault Refusal :=
  .next (s.offer .stream 0x6B tag (le 2 target.toNat) (cancelTaken target))

end Sys2Proof.Machine
end

