-- ==== Sys2Proof/Machine/Bus.lean ====
section
/-! DEFINITION. The slot bus requests and events (chapter 2): SET_TIMING, SET_READY_LIMIT, SET_REFRESH, BUS_STATUS,
REFRESH_TICK, CYCLE_END, READY_TIMEOUT. -/

namespace Sys2Proof.Machine

open Sys2Proof

/-! ## Requests taken -/

/-- The class and its wait states, as a SET_TIMING reply gives them. -/
def TimingClass.bytes (t : TimingClass) : List Byte := [BitVec.ofNat 8 t.ioWs, BitVec.ofNat 8 t.memWs]

/-- SET_TIMING is taken (R37). A refusal carries the values in force; a class above 3 has none, and 0 is sent (R190). -/
def setTimingTaken (cls ioWs memWs : Byte) (s : State) : State :=
  match readIndex 4 cls with
  | none => s.replyCommand .badArg ([cls] ++ zeros 2)
  | some k =>
    if 15 < ioWs.toNat ∨ 15 < memWs.toNat then s.replyCommand .badArg ([cls] ++ s.sbc.timing[k].bytes)
    else
      let t := s.updSbc fun b => { b with timing := b.timing.set k ⟨ioWs.toNat, memWs.toNat⟩ }
      t.replyCommand .ok ([cls] ++ t.sbc.timing[k].bytes)

/-- SET_READY_LIMIT is taken (R38): 0 is taken as 1. -/
def setReadyLimitTaken (limit : Byte) (s : State) : State :=
  let s := s.updSbc fun b => { b with readyLimit := max 1 limit.toNat }
  s.replyCommand .ok ([BitVec.ofNat 8 s.sbc.readyLimit] ++
    le 2 (readyLimitPeriods s.sbc.readyLimit s.bcu.divider) ++ [replyFlags (decide (limit = 0))])

/-- SET_REFRESH is taken (R39): 64 and above are taken as 63. A countdown that is not running is set at once. -/
def setRefreshTaken (interval : Byte) (s : State) : State :=
  let taken := min 63 interval.toNat
  let s := s.updSbc fun b => { b with
    interval := taken, countdown := if b.countdown = 0 ∧ ¬ b.tickDue then taken else b.countdown }
  s.replyCommand .ok [BitVec.ofNat 8 s.sbc.interval, replyFlags (decide (63 < interval.toNat))]

/-- Payload of a BUS_STATUS reply (R40, section 10.5). -/
def State.busStatusPayload (s : State) : List Byte :=
  s.clockReport ++ [BitVec.ofNat 8 s.sbc.interval, BitVec.ofNat 8 s.sbc.debt] ++ le 4 s.sbc.slips.toNat ++
    [s.sbc.row, BitVec.ofNat 8 s.sbc.readyLimit] ++ le 2 (readyLimitPeriods s.sbc.readyLimit s.bcu.divider) ++
    s.sbc.timing.toList.flatMap TimingClass.bytes ++ s.sbc.faults.toList.flatMap fun r => le 4 r.count.toNat

/-- BUS_STATUS is taken (R40). -/
def busStatusTaken (s : State) : State := s.replyCommand .ok s.busStatusPayload

/-! ## Events -/

/-- A refresh tick (R29): it adds to the debt, or to the slips at debt 4. -/
def Sbc.tick (b : Sbc) : Sbc :=
  let b := { b with tickDue := false, countdown := b.interval }
  if b.debt < Config.maxDebt then { b with debt := b.debt + 1 } else { b with slips := b.slips + 1 }

/-- REFRESH_TICK, due when the countdown has reached 0 in RUN or RETUNING (R28, R29, R39). -/
def refreshTicks (s : State) : State :=
  if s.sbc.tickDue ∧ (s.bcu.clock = .run ∨ s.bcu.clock = .retuning) then (s.updSbc Sbc.tick).settle else s

/-- CYCLE_END: the cycle in flight ends with CRDY high after an extension of at most its ready limit, none for a
refresh (R23, R27). The lines are sampled as the target's card drives them (R19). -/
def cycleEnds (extension : Nat) (card : CardData) (s : State) : State :=
  match s.sbc.cycle with
  | none => s
  | some c =>
    if extension ≤ (if c.kind = .refresh then 0 else c.limit) then
      s.finishCycle c false (s.resultData c.kind (c.dataLines card)) (c.length + extension)
    else s

/-- READY_TIMEOUT: the cycle in flight reaches its ready limit with CRDY low (R25). A refresh samples no CRDY (R23). -/
def readyTimesOut (s : State) : State :=
  match s.sbc.cycle, s.sbc.cycle.bind (·.target) with
  | some c, some i =>
    (s.recordFault i .readyTimeout c).finishCycle c true (s.resultData c.kind 0xFFFF) (c.length + c.limit)
  | _, _ => s

/-! ## Meanings -/

def execRefreshTick (s : State) : Host.Outcome State Fault Refusal := .next (refreshTicks s)

def execSetTiming (tag : Half) (cls ioWs memWs : Byte) (s : State) : Host.Outcome State Fault Refusal :=
  .next (s.offer .command 0x18 tag [cls, ioWs, memWs] (setTimingTaken cls ioWs memWs))

def execSetReadyLimit (tag : Half) (limit : Byte) (s : State) : Host.Outcome State Fault Refusal :=
  .next (s.offer .command 0x19 tag [limit] (setReadyLimitTaken limit))

def execSetRefresh (tag : Half) (interval : Byte) (s : State) : Host.Outcome State Fault Refusal :=
  .next (s.offer .command 0x1A tag [interval] (setRefreshTaken interval))

def execBusStatus (tag : Half) (s : State) : Host.Outcome State Fault Refusal :=
  .next (s.offer .command 0x1B tag [] busStatusTaken)

def execCycleEnd (extension : Nat) (card : CardData) (s : State) : Host.Outcome State Fault Refusal :=
  .next (cycleEnds extension card s)

def execReadyTimeout (s : State) : Host.Outcome State Fault Refusal := .next (readyTimesOut s)

end Sys2Proof.Machine
end

