-- ==== Sys2Proof/Machine/Channels.lean ====
section
/-! DEFINITION. The channel requests and the card's request lines (chapter 6): CH_CONFIGURE, CH_ARM, CH_PAUSE,
CH_RESUME, CH_CLEAR, CH_RELEASE, CH_STATUS, TRQ_ASSERT, TRQ_DEASSERT. -/

namespace Sys2Proof.Machine

open Sys2Proof

/-! ## Requests taken -/

/-- A channel request that names a channel above 5 is refused with BAD_ARG; the channel is echoed and the rest of the
reply, n more bytes, is 0 (R109, R190, log 17). -/
def State.withChan (s : State) (channel : Byte) (n : Nat) (f : ChanId → State) : State :=
  match readIndex 6 channel with
  | some c => f c
  | none => s.replyCommand .badArg ([channel] ++ zeros n)

/-- The policy belongs to the direction (R110). -/
def Policy.fits (p : Policy) (d : Direction) : Bool :=
  match p, d with
  | .hold, .out | .stall, .out | .drop, .into | .halt, .into => true
  | .hold, .into | .stall, .into | .drop, .out | .halt, .out => false

/-- The context a CH_CONFIGURE asks for, less its ring's place, where every field lies in its range (R110 check 2): the
fields given, the mark as given, and the values R111 sets. The size code comes with it. -/
def readConfigureFields (n : ChanId) (f : ConfigureFields) : Option (Channel × Nat) := do
  let slot ← readIndex 4 f.slot
  let direction ← readDirection f.direction
  let demand ← readFlag f.service
  let cls ← readIndex 4 f.cls
  let autoReload ← readFlag f.autoReload
  let code ← readIndex 7 f.sizeCode
  let markNotices ← readFlag f.markNotices
  let policy ← readPolicy f.policy
  let block := f.blockLength.toNat
  if 1 ≤ block ∧ block ≤ 65536 ∧ policy.fits direction ∧ (chanWidth n = 2 ∨ f.fill.toNat ≤ 0xFF) then
    some ({
      state := .ready, slot := slot, direction := direction, demand := demand, cls := cls,
      blockLength := block, remaining := block, autoReload := autoReload, mark := f.mark.toNat,
      markNotices := markNotices, markArmed := true, policy := policy, fill := f.fill, lastDelivered := f.fill },
      code.val)
  else none

/-- Bytes of a ring with a size code (section 6.3). -/
def ringBytes (code : Nat) : Nat := Config.pageBytes * 2 ^ code

/-- Payload of a CH_CONFIGURE reply: the channel, its ring and mark as they stand (R111, R190). -/
def State.configurePayload (s : State) (n : ChanId) (clamped : Bool) : List Byte :=
  s.channelReport n ++ ringReport (s.chan n).ring ++ le 4 (s.chan n).mark ++ [replyFlags clamped]

/-- CH_CONFIGURE is taken (R110, R111, R136 to R138). The mark is clamped, and CLAMPED set in the reply, by check 3 of
R110: a NO_SPACE refusal, check 4, carries that flag, and the refusals before check 3 carry it clear (R190, log 17). -/
def chConfigureTaken (channel : Byte) (f : ConfigureFields) (s : State) : State :=
  s.withChan channel 17 fun n =>
    let c := s.chan n
    if c.state = .running ∨ c.state = .paused then s.replyCommand .busy (s.configurePayload n false)
    else
      match readConfigureFields n f with
      | none => s.replyCommand .badArg (s.configurePayload n false)
      | some (new, code) =>
        let clamped := decide (ringBytes code < new.mark)
        match s.stm.findRun n code with
        | none => s.replyCommand .noSpace (s.configurePayload n clamped)
        | some start =>
          let t := (s.updStm fun m => m.place n start (2 ^ code)).modChan n fun _ =>
            { new with ring := some ⟨start, code⟩, mark := min new.mark (ringBytes code) }
          t.replyCommand .ok (t.configurePayload n clamped)

/-- The clock and slot checks of CH_ARM (R112). -/
def State.armRefusal (s : State) (slot : SlotId) : Option Status :=
  if s.bcu.clock = .stopped ∨ s.bcu.waiting = some .clockStop then some .noClock
  else if s.bcu.clock = .parked ∨ s.bcu.waiting = some .park then some .parked
  else if (s.slot slot).state ≠ .enabled then some .notReady
  else none

/-- CH_ARM is taken (R112). The reply stands before any stall or halt that the armed channel meets (log 14). -/
def chArmTaken (channel : Byte) (s : State) : State :=
  s.withChan channel 10 fun n =>
    let c := s.chan n
    match c.state with
    | .free => s.replyCommand .noChannel (s.channelReport n)
    | .running => s.replyCommand .ok (s.channelReport n)
    | .paused => s.replyCommand .busy (s.channelReport n)
    | .halted => s.replyCommand .halted (s.channelReport n)
    | .ready | .ended =>
      match s.armRefusal c.slot with
      | some status => s.replyCommand status (s.channelReport n)
      | none =>
        let t := s.modChan n fun c => { c with
          state := .running, remaining := if c.state = .ended then c.blockLength else c.remaining }
        (t.replyCommand .ok (t.channelReport n)).settle

/-- CH_PAUSE is taken (R113). -/
def chPauseTaken (channel : Byte) (s : State) : State :=
  s.withChan channel 10 fun n =>
    match (s.chan n).state with
    | .free => s.replyCommand .noChannel (s.channelReport n)
    | .running => ((s.modChan n fun c => { c with pauseWaits := true }).setChanReply (some n)).settle
    | .ready | .paused | .halted | .ended => s.replyCommand .ok (s.channelReport n)

/-- CH_RESUME is taken (R114). -/
def chResumeTaken (channel : Byte) (s : State) : State :=
  s.withChan channel 10 fun n =>
    match (s.chan n).state with
    | .free => s.replyCommand .noChannel (s.channelReport n)
    | .paused =>
      if s.bcu.clock = .parked ∨ s.bcu.waiting = some .park then s.replyCommand .parked (s.channelReport n)
      else if s.bcu.clock = .stopped then s.replyCommand .noClock (s.channelReport n)
      else
        let t := s.modChan n fun c => { c with state := .running }
        (t.replyCommand .ok (t.channelReport n)).settle
    | .ready | .running | .halted | .ended => s.replyCommand .ok (s.channelReport n)

/-- CH_CLEAR is taken (R115). -/
def chClearTaken (channel : Byte) (s : State) : State :=
  s.withChan channel 10 fun n =>
    if (s.chan n).state = .halted then
      let t := s.modChan n fun c => { c with
        state := .ready, cause := .none, underrunEpisode := false, stallEpisode := false, overrunEpisode := false }
      t.replyCommand .ok (t.channelReport n)
    else s.replyCommand .ok (s.channelReport n)

/-- CH_RELEASE is taken (R116). -/
def chReleaseTaken (channel : Byte) (s : State) : State :=
  s.withChan channel 10 fun n =>
    if (s.chan n).state = .free then s.replyCommand .ok (s.channelReport n)
    else ((s.modChan n fun c => { c with releaseWaits := true }).setChanReply (some n)).settle

/-- The level of TRQn that CH_STATUS reports (R117). The line of a slot whose rails are open floats, and its level is
free (R43, log 10). -/
def State.trqReport (s : State) (n : ChanId) : Bool × Nat :=
  let slot := (s.chan n).slot
  if (s.slot slot).state = .off ∨ (s.slot slot).state = .fault then (Config.floatingTrq s.free, s.free + 1)
  else (s.trq slot n, s.free)

/-- Payload of a CH_STATUS reply (R117, section 10.5). -/
def State.chStatusPayload (s : State) (n : ChanId) : List Byte :=
  let c := s.chan n
  s.channelReport n ++ [BitVec.ofNat 8 c.slot.val, c.direction.code, yesNo c.demand, BitVec.ofNat 8 c.cls.val] ++
    le 4 c.blockLength ++ [yesNo c.autoReload] ++ ringReport c.ring ++ le 4 c.put.toNat ++ le 4 c.take.toNat ++
    le 4 c.mark ++ [yesNo c.markNotices, yesNo c.markArmed, c.policy.code] ++ le 2 c.fill.toNat ++
    le 2 c.lastDelivered.toNat ++ le 4 c.transfers.toNat ++ le 4 c.blocksEnded.toNat ++
    le 4 c.lastBlockEnd.toNat ++ le 4 c.underruns.toNat ++ le 4 c.overruns.toNat ++
    [episodeByte c, yesNo c.notice.raised, eventByte c.notice.events c.notice.stalled, yesNo (s.trqReport n).1]

/-- CH_STATUS is taken (R117). -/
def chStatusTaken (channel : Byte) (s : State) : State :=
  s.withChan channel 64 fun n =>
    { s.replyCommand .ok (s.chStatusPayload n) with free := (s.trqReport n).2 }

/-! ## Events -/

/-- TRQ_ASSERT: a card asserts TRQn of its slot (R118). -/
def trqAsserts (slot : SlotId) (line : ChanId) (s : State) : State :=
  (s.updCards fun c => { c with trq := c.trq.set (trqIndex slot line) true }).settle

/-- TRQ_DEASSERT: a card drops TRQn, and the channel's request for the bus no longer stands (R31). -/
def trqDeasserts (slot : SlotId) (line : ChanId) (s : State) : State :=
  s.updCards fun c => { c with trq := c.trq.set (trqIndex slot line) false }

/-! ## Meanings -/

def execChConfigure (tag : Half) (channel : Byte) (fields : ConfigureFields) (s : State) :
    Host.Outcome State Fault Refusal :=
  .next (s.offer .command 0x38 tag ([channel] ++ configureBytes fields) (chConfigureTaken channel fields))

def execChArm (tag : Half) (channel : Byte) (s : State) : Host.Outcome State Fault Refusal :=
  .next (s.offer .command 0x39 tag [channel] (chArmTaken channel))

def execChPause (tag : Half) (channel : Byte) (s : State) : Host.Outcome State Fault Refusal :=
  .next (s.offer .command 0x3A tag [channel] (chPauseTaken channel))

def execChResume (tag : Half) (channel : Byte) (s : State) : Host.Outcome State Fault Refusal :=
  .next (s.offer .command 0x3B tag [channel] (chResumeTaken channel))

def execChClear (tag : Half) (channel : Byte) (s : State) : Host.Outcome State Fault Refusal :=
  .next (s.offer .command 0x3C tag [channel] (chClearTaken channel))

def execChRelease (tag : Half) (channel : Byte) (s : State) : Host.Outcome State Fault Refusal :=
  .next (s.offer .command 0x3D tag [channel] (chReleaseTaken channel))

def execChStatus (tag : Half) (channel : Byte) (s : State) : Host.Outcome State Fault Refusal :=
  .next (s.offer .command 0x3E tag [channel] (chStatusTaken channel))

def execTrqAssert (slot : SlotId) (line : ChanId) (s : State) : Host.Outcome State Fault Refusal :=
  .next (trqAsserts slot line s)

def execTrqDeassert (slot : SlotId) (line : ChanId) (s : State) : Host.Outcome State Fault Refusal :=
  .next (trqDeasserts slot line s)

end Sys2Proof.Machine
end

