-- ==== Sys2Proof/Machine/Clock.lean ====
section
/-! DEFINITION. The clock requests and events (chapter 1): SET_CLOCK, PARK, WAKE, CLOCK_STOP, STARTING_END,
RETUNE_END, and TIME_BASE_ADVANCE. -/

namespace Sys2Proof.Machine

open Sys2Proof

/-! ## The divider computation (R2, R3) -/

/-- The nearest divider D0 = floor((96,000 + t) / (2t)) (R2). -/
def nearestDivider (t : Nat) : Nat := (96000 + t) / (2 * t)

/-- The divider clamped to 5..12 (R2). -/
def clampDivider (d : Nat) : Nat := max 5 (min 12 d)

/-- An integer quotient rounded to the nearest integer, exact halves away from zero (R3). -/
def roundHalfAway (num : Int) (den : Nat) : Int :=
  if 0 ≤ num then (((2 * num.natAbs + den) / (2 * den) : Nat) : Int)
  else -(((2 * num.natAbs + den) / (2 * den) : Nat) : Int)

/-- The error E in hundredths of a percent, 10000 × (A − 1000t) / (1000t), saturated at 32767 (R3). -/
def clockError (t divider : Nat) : Half :=
  let e := roundHalfAway (10000 * ((achievedClock divider : Int) - 1000 * (t : Int))) (1000 * t)
  BitVec.ofInt 16 (min e 32767)

/-- Payload of a SET_CLOCK reply (section 10.5). -/
def State.setClockPayload (s : State) (target error : Half) (clamped : Bool) : List Byte :=
  s.clockReport ++ le 2 target.toNat ++ le 2 error.toNat ++ [replyFlags clamped]

/-- A refused SET_CLOCK: E 0, CLAMPED clear (R5). -/
def State.refuseSetClock (s : State) (target : Half) (status : Status) : State :=
  s.replyCommand status (s.setClockPayload target 0 false)

/-! ## Requests taken -/

/-- SET_CLOCK is taken (R6 to R9). -/
def setClockTaken (target : Half) (s : State) : State :=
  let t := target.toNat
  let divider := clampDivider (nearestDivider t)
  let clamped := decide (divider ≠ nearestDivider t)
  let error := clockError t divider
  let deferred := some (ClockReply.setClock target error clamped)
  if t = 0 then s.refuseSetClock target .badArg
  else
    match s.bcu.clock with
    | .stopped =>
      s.updBcu fun b => { b with
        divider := divider, clock := .starting, settling := some Config.startingPeriods, deferred := deferred }
    | .run =>
      if s.bcu.waiting ≠ none then s.refuseSetClock target .busy
      else if divider = s.bcu.divider then s.replyCommand .ok (s.setClockPayload target error clamped)
      else
        (s.updBcu fun b => { b with
          pendingDivider := some divider, clock := .retuning, settling := none, deferred := deferred }).settle
    | .starting | .retuning => s.refuseSetClock target .busy
    | .parked => s.refuseSetClock target .parked

/-- PARK is taken (R10). -/
def parkTaken (s : State) : State :=
  match s.bcu.clock with
  | .run =>
    if s.bcu.waiting ≠ none ∨ s.chans.toList.any (fun c => c.state == .running) then
      s.replyCommand .busy s.clockReport
    else (s.updBcu fun b => { b with waiting := some .park, deferred := some .park }).settle
  | .parked => s.replyCommand .ok s.clockReport
  | .stopped => s.replyCommand .noClock s.clockReport
  | .starting | .retuning => s.replyCommand .busy s.clockReport

/-- WAKE is taken (R11). -/
def wakeTaken (s : State) : State :=
  match s.bcu.clock with
  | .parked =>
    s.updBcu fun b => { b with
      divider := 12, clock := .starting, settling := some Config.startingPeriods, deferred := some .wake }
  | .starting => s.updBcu fun b => { b with deferred := some .wake }
  | .run | .retuning | .stopped => s.replyCommand .ok s.clockReport

/-- Every slot is OFF (R15). -/
def State.allSlotsOff (s : State) : Bool := s.slots.toList.all fun t => t.state == .off

/-- CLOCK_STOP is taken (R15). -/
def clockStopTaken (s : State) : State :=
  match s.bcu.clock with
  | .run =>
    if s.bcu.waiting ≠ none ∨ ¬ s.allSlotsOff then s.replyCommand .busy s.clockReport
    else (s.updBcu fun b => { b with waiting := some .clockStop, deferred := some .clockStop }).settle
  | .parked =>
    if s.allSlotsOff then
      let t := s.updBcu fun b => { b with clock := .stopped }
      t.replyCommand .ok t.clockReport
    else s.replyCommand .busy s.clockReport
  | .stopped => s.replyCommand .ok s.clockReport
  | .starting | .retuning => s.replyCommand .busy s.clockReport

/-! ## Events -/

/-- A deferred SET_CLOCK or WAKE reply is sent on reaching RUN (R6, R8, R11, R14). A WAKE taken in the STARTING of a
SET_CLOCK reports the D then in force (log 25). -/
def State.answerClock (s : State) : State :=
  let t := s.updBcu fun b => { b with deferred := none }
  match s.bcu.deferred with
  | some (.setClock target error clamped) => t.replyCommand .ok (t.setClockPayload target error clamped)
  | some _ => t.replyCommand .ok t.clockReport
  | none => t

/-- A held CLOCK_WOKE record is raised (R13, R14). -/
def WokeRecord.raise : WokeRecord → WokeRecord
  | .held slot line time => .raised slot line time
  | r => r

/-- STARTING_END, due 200 µs after STARTING was entered (R14): RUN, the debt 0, the countdown at I (R28, R29). -/
def startingEnds (s : State) : State :=
  if s.bcu.clock = .starting ∧ s.bcu.settling = some 0 then
    ((s.updBcu fun b => { b with clock := .run, settling := none, woke := b.woke.raise }).updSbc
      fun b => { b with debt := 0, countdown := b.interval, tickDue := false }).answerClock.settle
  else s

/-- RETUNE_END, due 50 µs after the settling began (R8): the pending D is in force. -/
def retuneEnds (s : State) : State :=
  if s.bcu.clock = .retuning ∧ s.bcu.settling = some 0 then
    (s.updBcu fun b => { b with
      clock := .run, settling := none, divider := b.pendingDivider.getD b.divider,
      pendingDivider := none }).answerClock.settle
  else s

/-- The refresh countdown at an advance (R28): it runs in RUN and RETUNING while above 0, and makes a tick due at 0. -/
def Sbc.advance (b : Sbc) (runs : Bool) : Sbc :=
  if runs && decide (0 < b.countdown) then
    { b with countdown := b.countdown - 1, tickDue := b.tickDue || b.countdown == 1 }
  else b

/-- A slot's timed sequence one µs on (R53, R59). -/
def SlotSequence.advance : SlotSequence → SlotSequence
  | .powering left => .powering (left - 1)
  | .powerOnReset left => .powerOnReset (left - 1)
  | .slotReset left => .slotReset (left - 1)

/-- A slot's cooldown and sequence one µs on (R48, R53, R59). -/
def Slot.advance (t : Slot) : Slot :=
  { t with cooldown := t.cooldown.map (· - 1), sequence := t.sequence.map SlotSequence.advance }

/-- Every tenth advance makes a measurement due (R44). -/
def Measure.advance (m : Measure) : Measure :=
  if m.count + 1 = Config.measurePeriod then { count := 0, due := true } else { m with count := m.count + 1 }

/-- TIME_BASE_ADVANCE (R16): 48 reference periods pass. The time base rises by 1, the settling time, the refresh
countdown, the cooldowns and the slots' sequences run on, a tenth advance makes a measurement due, and the filtered
lines are sampled (R155). What becomes due is taken by its own event (log 6). -/
def timeBaseAdvances (s : State) : State :=
  let runs := s.bcu.clock == .run || s.bcu.clock == .retuning
  let t := s.updBcu fun b => { b with
    timeBase := b.timeBase + 1, settling := b.settling.map (· - Config.periodsPerMicrosecond) }
  let t := t.updSbc fun b => b.advance runs
  let t := forSlots (fun i s => s.modSlot i Slot.advance) t
  (t.updMeasure Measure.advance).sampleInputs

/-! ## Meanings -/

def execSetClock (tag target : Half) (s : State) : Host.Outcome State Fault Refusal :=
  .next (s.offer .command 0x10 tag (le 2 target.toNat) (setClockTaken target))

def execPark (tag : Half) (s : State) : Host.Outcome State Fault Refusal :=
  .next (s.offer .command 0x11 tag [] parkTaken)

def execWake (tag : Half) (s : State) : Host.Outcome State Fault Refusal :=
  .next (s.offer .command 0x12 tag [] wakeTaken)

def execClockStop (tag : Half) (s : State) : Host.Outcome State Fault Refusal :=
  .next (s.offer .command 0x13 tag [] clockStopTaken)

def execStartingEnd (s : State) : Host.Outcome State Fault Refusal := .next (startingEnds s)

def execRetuneEnd (s : State) : Host.Outcome State Fault Refusal := .next (retuneEnds s)

def execTimeBaseAdvance (s : State) : Host.Outcome State Fault Refusal := .next (timeBaseAdvances s)

end Sys2Proof.Machine
end

