-- ==== Sys2Proof/Machine/Interrupts.lean ====
section
/-! DEFINITION. The interrupt requests and the interrupt lines (chapter 8): INT_CONFIGURE, INT_MASK, INT_STATUS,
INT_ACK, IRL_CHANGE, IRL_FILTER_CHANGE. -/

namespace Sys2Proof.Machine

open Sys2Proof

/-- The slot and the line a request names (R162). -/
def readInputName (slot line : Byte) : Option (SlotId × LineId) := do
  let i ← readIndex 4 slot
  let l ← readIndex 12 line
  some (i, l)

/-- The configuration an INT_CONFIGURE asks for, where every field names a member of its set and wake goes with filter
code 0 (R162, R164). The other fields are as R164 sets them. -/
def readInputFields (f : InputFields) : Option Input := do
  let mode ← readMode f.mode
  let activeLow ← readFlag f.polarity
  let filter ← readIndex 4 f.filter
  let mask ← readFlag f.mask
  let wake ← readFlag f.wake
  if wake ∧ filter ≠ 0 then none
  else some { mode := mode, activeLow := activeLow, filter := filter, mask := mask, wake := wake }

/-- Payload of an INT_CONFIGURE reply: the record as it stands (R164). -/
def State.intConfigurePayload (s : State) (slot : SlotId) (line : LineId) : List Byte :=
  let x := s.input (inputId slot line)
  s.inputReport slot line ++
    [x.mode.code, yesNo x.activeLow, BitVec.ofNat 8 x.filter.val, yesNo x.wake]

/-! ## Requests taken -/

/-- INT_CONFIGURE is taken (R162, R164). -/
def intConfigureTaken (slot line : Byte) (f : InputFields) (s : State) : State :=
  match readInputName slot line with
  | none => s.replyCommand .badArg ([slot, line] ++ zeros 8)
  | some (i, l) =>
    match readInputFields f with
    | none => s.replyCommand .badArg (s.intConfigurePayload i l)
    | some new =>
      let t := ((s.withdraw (inputId i l)).modInput (inputId i l) fun _ => new).beginWatch (inputId i l)
      (t.replyCommand .ok (t.intConfigurePayload i l)).admitOffers

/-- INT_MASK is taken (R162, R165). -/
def intMaskTaken (slot line mask : Byte) (s : State) : State :=
  match readInputName slot line with
  | none => s.replyCommand .badArg ([slot, line] ++ zeros 4)
  | some (i, l) =>
    match readFlag mask with
    | none => s.replyCommand .badArg (s.inputReport i l)
    | some m =>
      let t := s.modInput (inputId i l) fun x => { x with mask := m }
      (t.replyCommand .ok (t.inputReport i l)).admitOffers

/-- One input record of an INT_STATUS reply (section 10.5); the filtered level of an unwatched input is INACTIVE
(R166). -/
def State.inputRecord (s : State) (i : InputId) : List Byte :=
  let x := s.input i
  [x.mode.code, yesNo x.activeLow, BitVec.ofNat 8 x.filter.val, yesNo x.mask, yesNo x.wake, x.state.code,
    yesNo (s.watched i && x.active)] ++ le 4 x.captureTime.toNat ++ [yesNo x.again] ++ le 4 x.againTime.toNat ++
    le 2 x.lost ++ [yesNo x.repeated, yesNo x.queued, BitVec.ofNat 8 x.snapshot.length]

/-- INT_STATUS is taken (R162, R166). -/
def intStatusTaken (slot : Byte) (s : State) : State :=
  match readIndex 4 slot with
  | none => s.replyCommand .badArg ([slot] ++ zeros 253)
  | some i =>
    s.replyCommand .ok ([slot, (s.slot i).state.code] ++
      (List.finRange 12).flatMap fun l => s.inputRecord (inputId i l))

/-- What an INT_ACK does to a NOTIFIED input, its queued notice withdrawn (R163). -/
def State.acknowledge (s : State) (i : InputId) : State :=
  let x := s.input i
  let t := s.withdraw i
  if x.mode = .edge ∧ x.again then
    (t.capture i x.againTime true).modInput i fun x => { x with again := false, againTime := 0 }
  else if x.mode = .level ∧ x.active then t.capture i s.bcu.timeBase false
  else t.modInput i fun x => { x with state := .idle, snapshot := [], repeated := false }

/-- INT_ACK is taken (R162, R163). -/
def intAckTaken (slot line : Byte) (s : State) : State :=
  match readInputName slot line with
  | none => s.replyStream .badArg ([slot, line] ++ zeros 4)
  | some (i, l) =>
    if (s.input (inputId i l)).state = .notified then
      let t := s.acknowledge (inputId i l)
      (t.replyStream .ok (t.inputReport i l)).admitOffers
    else s.replyStream .notNotified (s.inputReport i l)

/-! ## Events -/

/-- IRL_CHANGE: a card drives a line to a level. A change of a watched line with filter code 0 counts at once (R155);
a filtered line is sampled at the next advances, and an unwatched one is disregarded (R154, log 9). -/
def irlChanges (slot : SlotId) (line : LineId) (high : Bool) (s : State) : State :=
  let i := inputId slot line
  let t := s.updCards fun c => { c with irl := c.irl.set i high }
  if t.watched i && (t.input i).filter == 0 && t.lineActive i != (t.input i).active then
    (t.countChange i (t.lineActive i)).admitOffers
  else t

/-- IRL_FILTER_CHANGE, due at the N-th consecutive differing sample of a filtered line: the change counts (R155). -/
def irlFilterChanges (slot : SlotId) (line : LineId) (s : State) : State :=
  let i := inputId slot line
  if (s.input i).changeDue ∧ s.watched i then (s.countChange i (!(s.input i).active)).admitOffers else s

/-! ## Meanings -/

def execIrlChange (slot : SlotId) (line : LineId) (high : Bool) (s : State) : Host.Outcome State Fault Refusal :=
  .next (irlChanges slot line high s)

def execIrlFilterChange (slot : SlotId) (line : LineId) (s : State) : Host.Outcome State Fault Refusal :=
  .next (irlFilterChanges slot line s)

def execIntConfigure (tag : Half) (slot line : Byte) (fields : InputFields) (s : State) :
    Host.Outcome State Fault Refusal :=
  .next (s.offer .command 0x40 tag ([slot, line] ++ inputBytes fields) (intConfigureTaken slot line fields))

def execIntMask (tag : Half) (slot line mask : Byte) (s : State) : Host.Outcome State Fault Refusal :=
  .next (s.offer .command 0x41 tag [slot, line, mask] (intMaskTaken slot line mask))

def execIntStatus (tag : Half) (slot : Byte) (s : State) : Host.Outcome State Fault Refusal :=
  .next (s.offer .command 0x42 tag [slot] (intStatusTaken slot))

def execIntAck (tag : Half) (slot line : Byte) (s : State) : Host.Outcome State Fault Refusal :=
  .next (s.offer .stream 0x6A tag [slot, line] (intAckTaken slot line))

end Sys2Proof.Machine
end

