-- ==== Sys2Proof/Machine/Map.lean ====
section
/-! DEFINITION. The Resource Map requests (chapter 4): MAP_ADD, MAP_REMOVE, MAP_LIST, SHADOW_READ, SHADOW_CLEAR. -/

namespace Sys2Proof.Machine

open Sys2Proof

/-- The id names an ACTIVE record (R67). -/
def Rmap.activeId (m : Rmap) (id : Byte) : Option (WindowId × Window) :=
  (readIndex 32 id).bind fun i => (m.windows[i]).map fun w => (i, w)

/-- The number is one of 2^lo, …, 2^hi. -/
def powerBetween (lo hi n : Nat) : Bool := (List.range (hi + 1)).any fun k => decide (lo ≤ k) && n == 2 ^ k

/-- The sizes a space allows: 1 to 1024 for IO, 2 KiB to 128 KiB for MEM, powers of two (section 4.1). -/
def sizeAllowed (space : Space) (size : Nat) : Bool :=
  match space with
  | .io => powerBetween 0 10 size
  | .mem => powerBetween 11 17 size

/-- The window a MAP_ADD gives, with its id, where every field lies in its range and the fields agree (R68). -/
def readWindowFields (f : WindowFields) : Option (WindowId × Window) := do
  let id ← readIndex 32 f.id
  let slot ← readIndex 4 f.slot
  let space ← readSpace f.space
  let wide ← readWidth f.width
  let cls ← readIndex 4 f.cls
  let shadow ← readFlag f.shadow
  let fromShadow ← readFlag f.source
  if f.base.toNat < space.size ∧ sizeAllowed space f.size.toNat ∧ ¬ (wide ∧ f.size.toNat = 1) ∧
      ¬ (shadow ∧ space = .mem) ∧ ¬ (fromShadow ∧ ¬ shadow) then
    some (id, ⟨slot, space, f.base.toNat, f.size.toNat, wide, cls, shadow, fromShadow⟩)
  else none

/-- Two windows of one space claim an address in common (R69). -/
def Window.overlaps (v w : Window) : Bool :=
  v.space == w.space && decide (v.base < w.base + w.size) && decide (w.base < v.base + v.size)

/-- The lowest id of an ACTIVE window that overlaps a new one (R69). -/
def Rmap.conflict (m : Rmap) (w : Window) : Option WindowId :=
  (List.finRange 32).find? fun i =>
    match m.windows[i] with
    | some v => v.overlaps w
    | none => false

/-- MAP_ADD is taken (R67 to R70): IN_USE, BAD_ARG, BAD_ALIGN, OVERLAP, then the record is entered. -/
def mapAddTaken (f : WindowFields) (s : State) : State :=
  if (s.rmap.activeId f.id).isSome then s.replyCommand .inUse (windowBytes f ++ [0xFF])
  else
    match readWindowFields f with
    | none => s.replyCommand .badArg (windowBytes f ++ [0xFF])
    | some (id, w) =>
      if w.base % w.size ≠ 0 then s.replyCommand .badAlign (windowBytes f ++ [0xFF])
      else
        match s.rmap.conflict w with
        | some other => s.replyCommand .overlap (windowBytes f ++ [BitVec.ofNat 8 other.val])
        | none =>
          (s.updRmap fun m => { m with windows := m.windows.set id (some w) }).replyCommand .ok
            (windowBytes f ++ [0xFF])

/-- Entries whose window id is the id. -/
def Rmap.entriesOf (m : Rmap) (id : WindowId) : Nat := (m.shadow.filter fun e => e.window == id).length

/-- MAP_REMOVE is taken (R71). -/
def mapRemoveTaken (id : Byte) (s : State) : State :=
  match readIndex 32 id with
  | none => s.replyCommand .badArg ([id] ++ le 2 0)
  | some i =>
    match s.rmap.windows[i] with
    | none => s.replyCommand .noWindow ([id] ++ le 2 0)
    | some _ =>
      (s.updRmap fun m => { m.dropWindow i with windows := m.windows.set i none }).replyCommand .ok
        ([id] ++ le 2 (s.rmap.entriesOf i))

/-- The ACTIVE windows with their ids, in id order. -/
def Rmap.active (m : Rmap) : List (WindowId × Window) :=
  (List.finRange 32).filterMap fun i => (m.windows[i]).map fun w => (i, w)

/-- Payload of a MAP_LIST reply (R72, section 10.5). -/
def Rmap.listPayload (m : Rmap) : List Byte :=
  le 1 m.active.length ++ le 2 m.shadow.length ++
    m.active.flatMap fun p => windowRecord p.1 p.2 ++ le 2 (m.entriesOf p.1)

/-- MAP_LIST is taken (R72). -/
def mapListTaken (s : State) : State := s.replyCommand .ok s.rmap.listPayload

/-- SHADOW_READ is taken (R85): HIT with the value and window id, or MISS with 0xFF and window id 0xFF (R188). An
index-present byte that is neither 0 nor 1 is refused (R188); it names no key, and the rest of the reply is a miss. -/
def shadowReadTaken (port : Half) (present index : Byte) (s : State) : State :=
  let echo := le 2 port.toNat ++ [present, index]
  match readFlag present with
  | none => s.replyCommand .badArg (echo ++ [0, 0xFF, 0xFF])
  | some p =>
    match s.rmap.shadowFind port (if p then some index else none) with
    | some e => s.replyCommand .ok (echo ++ [1, e.value, BitVec.ofNat 8 e.window.val])
    | none => s.replyCommand .ok (echo ++ [0, 0xFF, 0xFF])

/-- A refused SHADOW_CLEAR: no entry removed, and the entries that remain (R190). -/
def State.refuseShadowClear (s : State) (status : Status) : State :=
  s.replyCommand status (le 2 0 ++ le 2 s.rmap.shadow.length)

/-- The reply of a SHADOW_CLEAR that left the list as it is now. -/
def State.answerShadowClear (s : State) (before : Nat) : State :=
  s.replyCommand .ok (le 2 (before - s.rmap.shadow.length) ++ le 2 s.rmap.shadow.length)

/-- SHADOW_CLEAR is taken (R86). -/
def shadowClearTaken (present id : Byte) (s : State) : State :=
  match readFlag present with
  | none => s.refuseShadowClear .badArg
  | some false => (s.updRmap fun m => { m with shadow := [] }).answerShadowClear s.rmap.shadow.length
  | some true =>
    match readIndex 32 id with
    | none => s.refuseShadowClear .badArg
    | some i =>
      match s.rmap.windows[i] with
      | none => s.refuseShadowClear .noWindow
      | some _ => (s.updRmap fun m => m.dropWindow i).answerShadowClear s.rmap.shadow.length

/-! ## Meanings -/

def execMapAdd (tag : Half) (fields : WindowFields) (s : State) : Host.Outcome State Fault Refusal :=
  .next (s.offer .command 0x28 tag (windowBytes fields) (mapAddTaken fields))

def execMapRemove (tag : Half) (id : Byte) (s : State) : Host.Outcome State Fault Refusal :=
  .next (s.offer .command 0x29 tag [id] (mapRemoveTaken id))

def execMapList (tag : Half) (s : State) : Host.Outcome State Fault Refusal :=
  .next (s.offer .command 0x2A tag [] mapListTaken)

def execShadowRead (tag port : Half) (indexPresent index : Byte) (s : State) : Host.Outcome State Fault Refusal :=
  .next (s.offer .command 0x2B tag (le 2 port.toNat ++ [indexPresent, index])
    (shadowReadTaken port indexPresent index))

def execShadowClear (tag : Half) (idPresent id : Byte) (s : State) : Host.Outcome State Fault Refusal :=
  .next (s.offer .command 0x2C tag [idPresent, id] (shadowClearTaken idPresent id))

end Sys2Proof.Machine
end

