-- ==== Sys2Proof/Machine/Power.lean ====
section
/-! DEFINITION. The slot requests and events (chapter 3): POWER_ON, POWER_OFF, ISOLATE, CONNECT, SLOT_RESET,
SET_LIMIT, SLOT_STATUS, CURRENT_MEASUREMENT, COOLDOWN_END, POWERING_END, RESETTING_END, SLOT_RESET_END. -/

namespace Sys2Proof.Machine

open Sys2Proof

/-! ## Requests taken -/

/-- A slot request that names a slot above 3 is refused with BAD_ARG; the slot is echoed and the rest of the reply,
n more bytes, is 0 (R51, R190, log 17). -/
def State.withSlot (s : State) (slot : Byte) (n : Nat) (f : SlotId → State) : State :=
  match readIndex 4 slot with
  | some i => f i
  | none => s.replyCommand .badArg ([slot] ++ zeros n)

/-- POWER_ON is taken (R52, R53). -/
def powerOnTaken (slot : Byte) (s : State) : State :=
  s.withSlot slot 15 fun i =>
    let t := s.slot i
    match t.state with
    | .fault => s.replyCommand .faulted (s.slotReply i)
    | .powering | .resetting | .enabled | .isolated => s.replyCommand .ok (s.slotReply i)
    | .off =>
      if 0 < t.cooldownLeft then s.replyCommand .cooldown (s.slotReply i)
      else if s.bcu.clock ≠ .run ∨ s.bcu.waiting = some .clockStop then s.replyCommand .noClock (s.slotReply i)
      else (s.enterState i .powering).modSlot i fun t => { t with
        peak := 0, deferred := some .powerOn, sequence := some (.powering Config.poweringTime) }

/-- POWER_OFF is taken (R50, R55). -/
def powerOffTaken (slot : Byte) (s : State) : State :=
  s.withSlot slot 15 fun i =>
    let t := s.slot i
    if t.waiting ≠ none then s.replyCommand .busy (s.slotReply i)
    else
      match t.state with
      | .enabled | .isolated =>
        (s.modSlot i fun t => { t with waiting := some .powerOff, deferred := some .powerOff }).settle
      | .powering | .resetting | .fault =>
        let u := (s.enterState i .off).modSlot i fun t => { t with sequence := none }
        u.replyCommand .ok (u.slotReply i)
      | .off => s.replyCommand .ok (s.slotReply i)

/-- ISOLATE is taken (R50, R56). -/
def isolateTaken (slot : Byte) (s : State) : State :=
  s.withSlot slot 15 fun i =>
    let t := s.slot i
    if t.waiting ≠ none then s.replyCommand .busy (s.slotReply i)
    else
      match t.state with
      | .enabled => (s.modSlot i fun t => { t with waiting := some .isolate, deferred := some .isolate }).settle
      | .isolated => s.replyCommand .ok (s.slotReply i)
      | .off | .powering | .resetting | .fault => s.replyCommand .notReady (s.slotReply i)

/-- CONNECT is taken (R57). -/
def connectTaken (slot : Byte) (s : State) : State :=
  s.withSlot slot 15 fun i =>
    match (s.slot i).state with
    | .isolated =>
      let t := s.enterState i .enabled
      (t.replyCommand .ok (t.slotReply i)).admitOffers
    | .enabled => s.replyCommand .ok (s.slotReply i)
    | .off | .powering | .resetting | .fault => s.replyCommand .notReady (s.slotReply i)

/-- The width a SLOT_RESET takes: 0 is taken as 1 (R58). -/
def resetWidth (width : Byte) : Nat := max 1 width.toNat

/-- The width taken and CLAMPED, as every SLOT_RESET reply carries them: R58 takes the width before its checks. -/
def resetFields (width : Byte) : List Byte := [BitVec.ofNat 8 (resetWidth width), replyFlags (decide (width = 0))]

/-- A refused SLOT_RESET reports the slot, the width taken and CLAMPED (R58, log 17). -/
def State.refuseReset (s : State) (i : SlotId) (width : Byte) (status : Status) : State :=
  s.replyCommand status (s.slotReply i ++ resetFields width)

/-- SLOT_RESET is taken (R50, R58, R59; BUSY first, log 16). -/
def slotResetTaken (slot width : Byte) (s : State) : State :=
  match readIndex 4 slot with
  | none => s.replyCommand .badArg ([slot] ++ zeros 15 ++ resetFields width)
  | some i =>
    let t := s.slot i
    if t.waiting ≠ none then s.refuseReset i width .busy
    else if s.bcu.clock ≠ .run then s.refuseReset i width .noClock
    else
      match t.state with
      | .enabled | .isolated =>
        (s.modSlot i fun t => { t with
          returnState := if t.state = .isolated then .isolated else .enabled,
          waiting := some (.slotReset (resetWidth width)),
          deferred := some (.slotReset (resetWidth width) (decide (width = 0))) }).settle
      | .off | .powering | .resetting | .fault => s.refuseReset i width .notReady

/-- The limit a SET_LIMIT takes: 100 to 3000, rounded down to a multiple of 50 (R60). -/
def takenLimit (limit : Nat) : Nat :=
  if limit < 100 then 100 else if 3000 < limit then 3000 else limit / 50 * 50

/-- SET_LIMIT is taken (R60). -/
def setLimitTaken (slot : Byte) (limit : Half) (s : State) : State :=
  s.withSlot slot 9 fun i =>
    let taken := takenLimit limit.toNat
    let s := s.modSlot i fun t => { t with limit := taken }
    s.replyCommand .ok (s.slotReport i ++ le 2 taken ++ le 2 (hardThreshold taken) ++
      [replyFlags (decide (taken ≠ limit.toNat))])

/-- Payload of a SLOT_STATUS reply (R61, section 10.5). -/
def State.slotStatusPayload (s : State) (i : SlotId) : List Byte :=
  let t := s.slot i
  let r := s.faultRecord i
  s.slotReport i ++ [t.returnState.slotState.code] ++ le 2 t.limit ++ le 2 t.peak ++ tripRecord t.lastTrip ++
    le 4 t.cooldownLeft ++ le 4 r.count.toNat ++ lastFaultRecord r.last

/-- SLOT_STATUS is taken (R61). -/
def slotStatusTaken (slot : Byte) (s : State) : State :=
  s.withSlot slot 35 fun i => s.replyCommand .ok (s.slotStatusPayload i)

/-! ## Events -/

/-- CURRENT_MEASUREMENT, due on every tenth advance of the time base: the four slots are measured, slot 0 first (R44,
log 19). -/
def measuresCurrents (draw : Vector Nat 4) (s : State) : State :=
  if s.measure.due then
    (forSlots (fun i s => s.measureSlot i draw[i]) (s.updMeasure fun m => { m with due := false })).settle
  else s

/-- COOLDOWN_END, due when the count has reached 0 (R48). -/
def cooldownEnds (i : SlotId) (s : State) : State :=
  if (s.slot i).cooldown = some 0 then s.modSlot i fun t => { t with cooldown := none } else s

/-- POWERING_END, due 2000 µs after POWERING began (R53). -/
def poweringEnds (i : SlotId) (s : State) : State :=
  if (s.slot i).state = .powering ∧ (s.slot i).sequence = some (.powering 0) then
    (s.enterState i .resetting).modSlot i fun t => { t with sequence := some (.powerOnReset Config.resettingTime) }
  else s

/-- RESETTING_END, due 5000 µs into RESETTING of the power-on sequence: presence is decided and the slot is ENABLED
(R53). -/
def resettingEnds (i : SlotId) (s : State) : State :=
  if (s.slot i).state = .resetting ∧ (s.slot i).sequence = some (.powerOnReset 0) then
    (((s.modSlot i fun t => { t with
      sequence := none, present := decide (Config.presenceCurrent ≤ t.current) }).enterState i
        .enabled).answerSlot i .ok).admitOffers
  else s

/-- SLOT_RESET_END, due w ms after the change into RESETTING: the slot returns to where it came from (R59). -/
def slotResetEnds (i : SlotId) (s : State) : State :=
  if (s.slot i).state = .resetting ∧ (s.slot i).sequence = some (.slotReset 0) then
    (((s.modSlot i fun t => { t with sequence := none }).enterState i
      (s.slot i).returnState.slotState).answerSlot i .ok).admitOffers
  else s

/-! ## Meanings -/

def execCurrentMeasurement (draw : Vector Nat 4) (s : State) : Host.Outcome State Fault Refusal :=
  .next (measuresCurrents draw s)

def execCooldownEnd (slot : SlotId) (s : State) : Host.Outcome State Fault Refusal := .next (cooldownEnds slot s)

def execPoweringEnd (slot : SlotId) (s : State) : Host.Outcome State Fault Refusal := .next (poweringEnds slot s)

def execResettingEnd (slot : SlotId) (s : State) : Host.Outcome State Fault Refusal := .next (resettingEnds slot s)

def execSlotResetEnd (slot : SlotId) (s : State) : Host.Outcome State Fault Refusal := .next (slotResetEnds slot s)

def execPowerOn (tag : Half) (slot : Byte) (s : State) : Host.Outcome State Fault Refusal :=
  .next (s.offer .command 0x20 tag [slot] (powerOnTaken slot))

def execPowerOff (tag : Half) (slot : Byte) (s : State) : Host.Outcome State Fault Refusal :=
  .next (s.offer .command 0x21 tag [slot] (powerOffTaken slot))

def execIsolate (tag : Half) (slot : Byte) (s : State) : Host.Outcome State Fault Refusal :=
  .next (s.offer .command 0x22 tag [slot] (isolateTaken slot))

def execConnect (tag : Half) (slot : Byte) (s : State) : Host.Outcome State Fault Refusal :=
  .next (s.offer .command 0x23 tag [slot] (connectTaken slot))

def execSlotReset (tag : Half) (slot width : Byte) (s : State) : Host.Outcome State Fault Refusal :=
  .next (s.offer .command 0x24 tag [slot, width] (slotResetTaken slot width))

def execSetLimit (tag : Half) (slot : Byte) (limit : Half) (s : State) : Host.Outcome State Fault Refusal :=
  .next (s.offer .command 0x25 tag ([slot] ++ le 2 limit.toNat) (setLimitTaken slot limit))

def execSlotStatus (tag : Half) (slot : Byte) (s : State) : Host.Outcome State Fault Refusal :=
  .next (s.offer .command 0x26 tag [slot] (slotStatusTaken slot))

end Sys2Proof.Machine
end

