-- ==== Sys2Proof/Machine/Rings.lean ====
section
/-! DEFINITION. The ring requests (chapter 7): RING_WRITE and RING_READ, on the stream pipe. -/

namespace Sys2Proof.Machine

open Sys2Proof

/-- Payload of a ring reply before the data: channel, count, level (section 10.5). -/
def ringReply (channel : Byte) (count level : Nat) : List Byte := [channel] ++ le 2 count ++ le 4 level

/-- The checks of R143 and R146: the channel names a ring of the direction, or a status that refuses and the level it
reports. -/
def State.ringRefusal (s : State) (channel : Byte) (direction : Direction) : Except (Status × Nat) ChanId :=
  match readIndex 6 channel with
  | none => .error (.badArg, 0)
  | some n =>
    if (s.chan n).state = .free then .error (.noChannel, 0)
    else if (s.chan n).direction ≠ direction then .error (.wrongDirection, (s.chan n).level)
    else .ok n

/-- RING_WRITE is taken (R143 to R145, R148): as many bytes as there is room for are stored and put advances. -/
def ringWriteTaken (channel : Byte) (data : List Byte) (s : State) : State :=
  match s.ringRefusal channel .out with
  | .error (status, level) => s.replyStream status (ringReply channel 0 level)
  | .ok n =>
    let c := s.chan n
    let accepted := min data.length c.freeSpace
    let t := (s.updStm fun m => { m with bytes := storeRing c c.put (data.take accepted) m.bytes }).modChan n
      fun c => { c with put := c.put + BitVec.ofNat 32 accepted }.rearmMark
    (t.replyStream (if accepted = data.length then .ok else .partialOk)
      (ringReply channel accepted (t.chan n).level)).settle

/-- The count a RING_READ returns: at most the largest count, the level and 1024, whole words on a word channel
(R146). -/
def ringReadCount (n : ChanId) (c : Channel) (largest : Nat) : Nat :=
  let k := min (min largest c.level) Config.ringRequestBytes
  if chanWidth n = 2 then k / 2 * 2 else k

/-- RING_READ is taken (R146 to R148): the bytes are returned and take advances. -/
def ringReadTaken (channel : Byte) (largest : Half) (s : State) : State :=
  match s.ringRefusal channel .into with
  | .error (status, level) => s.replyStream status (ringReply channel 0 level)
  | .ok n =>
    let c := s.chan n
    let count := ringReadCount n c largest.toNat
    let t := s.modChan n fun c => { c with take := c.take + BitVec.ofNat 32 count }.rearmMark
    (t.replyStream .ok
      (ringReply channel count (t.chan n).level ++ loadRing c s.stm.bytes count c.take)).settle

/-! ## Meanings -/

def execRingWrite (tag : Half) (channel : Byte) (data : List Byte) (s : State) : Host.Outcome State Fault Refusal :=
  .next (s.offer .stream 0x68 tag ([channel] ++ data) (ringWriteTaken channel data))

def execRingRead (tag : Half) (channel : Byte) (largest : Half) (s : State) : Host.Outcome State Fault Refusal :=
  .next (s.offer .stream 0x69 tag ([channel] ++ le 2 largest.toNat) (ringReadTaken channel largest))

end Sys2Proof.Machine
end

