-- ==== Sys2Proof/Machine/Link.lean ====
section
/-! DEFINITION. The link (chapter 9): PART_POWER_ON, LINK_UP, LINK_RESET, FRAME_RECEIVE, FRAME_TAKE, FRAME_TRANSMIT,
FRAME_SENT, NOTICE_ADMISSION, INFO, RESET_PART. -/

namespace Sys2Proof.Machine

open Sys2Proof

/-! ## Requests taken -/

/-- Payload of an INFO reply (R180). -/
def State.infoPayload (s : State) : List Byte :=
  le 2 Config.partCode ++ le 1 Config.revision ++ [4, 12, 6, 32] ++ le 2 Config.shadowEntries ++
    le 1 Config.stagingPages ++ le 1 Config.intakeDepth ++ le 1 Config.intakeDepth ++ le 4 s.bcu.timeBase.toNat

/-- INFO is taken (R180). -/
def infoTaken (s : State) : State := s.replyCommand .ok s.infoPayload

/-- RESET_PART is taken (R181): its reply is made at its reserved place, reset pending becomes yes, and it remains
the command in progress. -/
def resetPartTaken (s : State) : State :=
  match s.ml.command with
  | some r => s.updMl fun m => { m.complete r .ok [] with resetPending := true }
  | none => s

/-! ## The hand-over of a validated frame (R175) -/

/-- What the owner of a request kind does with a validated payload (sections 9.1, 10.5). -/
def handOver (kind : Byte) (p : List Byte) : State → State :=
  match kind.toNat with
  | 0x10 => setClockTaken (halfAt p 0)
  | 0x11 => parkTaken
  | 0x12 => wakeTaken
  | 0x13 => clockStopTaken
  | 0x18 => setTimingTaken (byteAt p 0) (byteAt p 1) (byteAt p 2)
  | 0x19 => setReadyLimitTaken (byteAt p 0)
  | 0x1A => setRefreshTaken (byteAt p 0)
  | 0x1B => busStatusTaken
  | 0x20 => powerOnTaken (byteAt p 0)
  | 0x21 => powerOffTaken (byteAt p 0)
  | 0x22 => isolateTaken (byteAt p 0)
  | 0x23 => connectTaken (byteAt p 0)
  | 0x24 => slotResetTaken (byteAt p 0) (byteAt p 1)
  | 0x25 => setLimitTaken (byteAt p 0) (halfAt p 1)
  | 0x26 => slotStatusTaken (byteAt p 0)
  | 0x28 => mapAddTaken (readWindow p)
  | 0x29 => mapRemoveTaken (byteAt p 0)
  | 0x2A => mapListTaken
  | 0x2B => shadowReadTaken (halfAt p 0) (byteAt p 2) (byteAt p 3)
  | 0x2C => shadowClearTaken (byteAt p 0) (byteAt p 1)
  | 0x30 => stringTaken false .io (readAccess p) []
  | 0x31 => stringTaken true .io (readAccess p) (p.drop 10)
  | 0x32 => stringTaken false .mem (readAccess p) []
  | 0x33 => stringTaken true .mem (readAccess p) (p.drop 10)
  | 0x34 => pairTaken true (readPair p) (p.drop 8)
  | 0x35 => pairTaken false (readPair p) []
  | 0x36 => pollTaken (readPoll p)
  | 0x38 => chConfigureTaken (byteAt p 0) (readConfigure p)
  | 0x39 => chArmTaken (byteAt p 0)
  | 0x3A => chPauseTaken (byteAt p 0)
  | 0x3B => chResumeTaken (byteAt p 0)
  | 0x3C => chClearTaken (byteAt p 0)
  | 0x3D => chReleaseTaken (byteAt p 0)
  | 0x3E => chStatusTaken (byteAt p 0)
  | 0x40 => intConfigureTaken (byteAt p 0) (byteAt p 1) (readInput p)
  | 0x41 => intMaskTaken (byteAt p 0) (byteAt p 1) (byteAt p 2)
  | 0x42 => intStatusTaken (byteAt p 0)
  | 0x48 => infoTaken
  | 0x49 => resetPartTaken
  | 0x68 => ringWriteTaken (byteAt p 0) (p.drop 1)
  | 0x69 => ringReadTaken (byteAt p 0) (halfAt p 1)
  | 0x6A => intAckTaken (byteAt p 0) (byteAt p 1)
  | 0x6B => cancelTaken (halfAt p 0)
  | _ => id

/-- The bytes of a taken frame are validated and its request handed over (R174, R187). Check 1 is made here; the
others are in `State.takeRequest`. -/
def State.takeBytes (s : State) (p : Pipe) (bytes : List Byte) : State :=
  if bytes.length < 6 then s.replyAtOnce ⟨0xF0, Status.badLength.code, 0, [byteAt bytes 0]⟩
  else
    s.takeRequest p (byteAt bytes 0) (halfAt bytes 2) (field bytes 4 2) (bytes.drop 6)
      (handOver (byteAt bytes 0) (bytes.drop 6))

/-- FRAME_TAKE: the frame at the head of a pipe's intake queue is taken (R173). -/
def frameTakes (p : Pipe) (s : State) : State :=
  match s.ml.intake p with
  | bytes :: rest => if s.ml.canTake p then (s.updMl fun m => m.setIntake p rest).takeBytes p bytes else s
  | [] => s

/-! ## The report pipe (R179) -/

/-- The class of the next frame the report pipe takes, or none. -/
def Ml.nextClass (m : Ml) : Option FrameClass :=
  match m.replies, m.notices with
  | [], [] => none
  | _ :: _, [] => some .reply
  | [], _ :: _ => some .notice
  | _ :: _, _ :: _ => if m.lastClass = .notice then some .reply else some .notice

/-- A frame of a class is taken into transmission from the head of its queue. -/
def Ml.transmit (m : Ml) (c : FrameClass) : Ml :=
  match c, m.replies, m.notices with
  | .reply, f :: rest, _ => { m with sending := some f, replies := rest, lastClass := .reply }
  | .notice, _, n :: rest => { m with sending := some n.frame, notices := rest, lastClass := .notice }
  | _, _, _ => m

/-- An input whose notice is the next to leave the notice queue is no longer queued (R161). -/
def State.unqueue (s : State) : State :=
  match s.ml.notices.head?.bind (·.input) with
  | some i => s.modInput i fun x => { x with queued := false }
  | none => s

/-- FRAME_TRANSMIT: the report pipe takes a frame into transmission, and the place freed is filled at once (R178,
R179). -/
def frameTransmits (s : State) : State :=
  if s.ml.up ∧ s.ml.sending = none then
    match s.ml.nextClass with
    | some .reply => (s.updMl fun m => m.transmit .reply).admitOffers
    | some .notice => (s.unqueue.updMl fun m => m.transmit .notice).admitOffers
    | none => s
  else s

/-! ## Reset events -/

/-- The part with the values after power-on. What stands outside it is kept: the cards' lines, the waiting commands,
the index of the next free value (log 9, log 12). -/
def State.powerOnValues (s : State) : State :=
  { State.reset with cards := s.cards, free := s.free, pending := s.pending }

/-- The reset event of RESET_PART (R182): power-on values, with the link UP. -/
def State.resetEvent (s : State) : State := s.powerOnValues.updMl fun m => { m with up := true }

/-- The frame is the reply to a RESET_PART. -/
def Frame.isResetReply (f : Frame) : Bool := f.kind == 0xC9 && f.status == Status.ok.code

/-- FRAME_SENT: the frame in transmission has left the part (R179); if it is the reply of the RESET_PART that is
pending, the reset event follows (R181). -/
def framesSent (s : State) : State :=
  match s.ml.sending with
  | some f =>
    if s.ml.resetPending && f.isResetReply then s.resetEvent else s.updMl fun m => { m with sending := none }
  | none => s

/-- LINK_UP: the link becomes UP and admission resumes (R171, R178, R185). -/
def linkComesUp (s : State) : State :=
  if s.ml.up then s else (s.updMl fun m => { m with up := true }).admitOffers

/-! ## Link reset (R183, R184) -/

/-- A request in progress without its claim to a reply. -/
def Request.unclaimed (r : Request) : Request := { r with claim := false }

/-- The link's own part of a link reset (R183). -/
def Ml.drop (m : Ml) : Ml :=
  { m with up := false, commandIn := [], streamIn := [], replies := [], reserved := 0, notices := [],
           sending := none, lastClass := .notice, resetPending := false }

/-- The requests in progress at a link reset (R106, R184): an access with a unit in flight runs on to its end without
a reply, and a CANCEL waits with it; any other access ends at once, and any other command is no longer in progress. -/
def State.dropRequests (s : State) : State :=
  if s.ae.phase = .running then
    s.updMl fun m => { m with command := m.command.map Request.unclaimed, stream := m.stream.map Request.unclaimed }
  else (s.updMl fun m => { m with command := none, stream := none }).updAe fun _ => {}

/-- The deferred replies of the other owners become absent (R18, R65, R134). -/
def State.dropDeferred (s : State) : State :=
  forSlots (fun i s => s.modSlot i fun t => { t with deferred := none })
    ((s.updBcu fun b => { b with deferred := none }).setChanReply none)

/-- The RUNNING channels pause at their transfer boundaries (R134). -/
def State.pauseChannels (s : State) : State :=
  (forChans (fun n s =>
    if (s.chan n).state = .running then s.modChan n fun c => { c with pauseWaits := true } else s) s).chanBoundaries

/-- Every NOTIFIED input returns to PENDING (R170). -/
def State.renotify (s : State) : State :=
  forInputs (fun i s =>
    if (s.input i).state = .notified then s.modInput i fun x => { x with state := .pending, queued := false }
    else s) s

/-- LINK_RESET (R183, R184): nothing further while the link is DOWN. -/
def linkResets (s : State) : State :=
  if s.ml.up then (s.updMl Ml.drop).dropRequests.dropDeferred.pauseChannels.renotify else s

/-! ## Meanings -/

def execPartPowerOn (s : State) : Host.Outcome State Fault Refusal := .next s.powerOnValues

def execLinkUp (s : State) : Host.Outcome State Fault Refusal := .next (linkComesUp s)

def execLinkReset (s : State) : Host.Outcome State Fault Refusal := .next (linkResets s)

def execFrameReceive (pipe : Pipe) (bytes : List Byte) (s : State) : Host.Outcome State Fault Refusal :=
  .next (s.updMl fun m => m.receive pipe bytes)

def execFrameTake (pipe : Pipe) (s : State) : Host.Outcome State Fault Refusal := .next (frameTakes pipe s)

def execFrameTransmit (s : State) : Host.Outcome State Fault Refusal := .next (frameTransmits s)

def execFrameSent (s : State) : Host.Outcome State Fault Refusal := .next (framesSent s)

def execNoticeAdmission (s : State) : Host.Outcome State Fault Refusal := .next s.admitOffers

def execInfo (tag : Half) (s : State) : Host.Outcome State Fault Refusal :=
  .next (s.offer .command 0x48 tag [] infoTaken)

def execResetPart (tag : Half) (s : State) : Host.Outcome State Fault Refusal :=
  .next (s.offer .command 0x49 tag [] resetPartTaken)

end Sys2Proof.Machine
end

