-- ==== Sys2Proof/Machine/Signals.lean ====
section
/-! DEFINITION. The pins the part drives, as functions of its state: the per-slot lines (R1, R43, R108, R119) and the
shared lines a connected slot sees (R19, R21). -/

namespace Sys2Proof.Machine

open Sys2Proof

/-- What stands on a line: not driven, or driven to a value. -/
abbrev Drive (α : Type) := Option α

/-- The rails of a slot are closed (R43). -/
def SlotState.railsClosed : SlotState → Bool
  | .powering | .resetting | .enabled | .isolated => true
  | .off | .fault => false

/-! ## Per-slot lines (R43) -/

/-- BCLK runs, at the divider in force: in RUN, and in RETUNING until the settling begins (R1, R8). -/
def Bcu.bclk (b : Bcu) : Option Nat :=
  match b.clock with
  | .run => some b.divider
  | .retuning => if b.settling = none then some b.divider else none
  | .stopped | .starting | .parked => none

/-- BCLK at a slot: not driven with the rails open; otherwise held low, or running at a divider. -/
def State.slotBclk (s : State) (i : SlotId) : Drive (Option Nat) :=
  if (s.slot i).state.railsClosed then some s.bcu.bclk else none

/-- SRST of a slot: asserted in POWERING and RESETTING. -/
def State.srst (s : State) (i : SlotId) : Drive Bool :=
  match (s.slot i).state with
  | .powering | .resetting => some true
  | .enabled | .isolated => some false
  | .off | .fault => none

/-- TAKn of a slot: asserted during a transfer cycle of channel n to it (R21, R108). -/
def State.tak (s : State) (i : SlotId) (n : ChanId) : Drive Bool :=
  if (s.slot i).state.railsClosed then some (s.transferring n && s.connects i) else none

/-- EOB of a slot: asserted during the final transfer of a block to it (R119). -/
def State.eob (s : State) (i : SlotId) : Drive Bool :=
  if (s.slot i).state.railsClosed then
    some (match s.sbc.cycle with
      | some c => c.eob && c.connected[i]
      | none => false)
  else none

/-! ## Shared lines (R21) -/

/-- The strobes. -/
inductive Strobe where
  | ioRd | ioWr | memRd | memWr
deriving DecidableEq, Repr

/-- The strobe of a cycle kind. -/
def CycleKind.strobe : CycleKind → Strobe
  | .ioByteRead | .ioWordRead | .transferIn => .ioRd
  | .ioByteWrite | .ioWordWrite | .transferOut => .ioWr
  | .memByteRead | .memWordRead | .refresh => .memRd
  | .memByteWrite | .memWordWrite => .memWr

/-- What stands on CRDY at a slot: inactive, or what the slot's card drives there, which then reaches the engine. -/
inductive Crdy where
  | inactive | card
deriving DecidableEq, Repr

/-- What a slot sees on the shared lines: with its switches open every strobe, RFSH and CRDY inactive, address and data
undriven (R19). The data lines stand by lane, SD7–SD0 and SD15–SD8. -/
structure SharedLines where
  strobe   : Option Strobe
  rfsh     : Bool
  crdy     : Crdy
  address  : Drive Nat
  dataLow  : Drive Byte
  dataHigh : Drive Byte
deriving DecidableEq, Repr

/-- The idle shared lines. -/
def SharedLines.idle : SharedLines := ⟨none, false, .inactive, none, none, none⟩

/-- The engine drives SD7–SD0 in a write or an OUT transfer. -/
def CycleKind.drives (k : CycleKind) : Bool := !k.reads && k != .refresh

/-- The shared lines as a slot sees them (R19, R21). -/
def State.sharedLines (s : State) (i : SlotId) : SharedLines :=
  match s.sbc.cycle with
  | some c =>
    if c.connected[i] then
      { strobe := some c.kind.strobe, rfsh := decide (c.kind = .refresh), crdy := .card, address := some c.address,
        dataLow := if c.kind.drives then some (lowByte c.driven) else none,
        dataHigh := if c.kind.drives && s.cycleWide c.kind then some (highByte c.driven) else none }
    else SharedLines.idle
  | none => SharedLines.idle

end Sys2Proof.Machine
end

