-- ==== Sys2Proof/Machine/Dispatch.lean ====
section
/-! DEFINITION. The one dispatch: each command to its meaning. -/

namespace Sys2Proof.Machine

open Sys2Proof

def exec (i : Instr) (s : State) : Host.Outcome State Fault Refusal :=
  match i with
  | .partPowerOn => Sys2Proof.Machine.execPartPowerOn s
  | .linkUp => Sys2Proof.Machine.execLinkUp s
  | .linkReset => Sys2Proof.Machine.execLinkReset s
  | .frameReceive pipe bytes => Sys2Proof.Machine.execFrameReceive pipe bytes s
  | .frameTake pipe => Sys2Proof.Machine.execFrameTake pipe s
  | .frameTransmit => Sys2Proof.Machine.execFrameTransmit s
  | .frameSent => Sys2Proof.Machine.execFrameSent s
  | .noticeAdmission => Sys2Proof.Machine.execNoticeAdmission s
  | .setClock tag target => Sys2Proof.Machine.execSetClock tag target s
  | .park tag => Sys2Proof.Machine.execPark tag s
  | .wake tag => Sys2Proof.Machine.execWake tag s
  | .clockStop tag => Sys2Proof.Machine.execClockStop tag s
  | .startingEnd => Sys2Proof.Machine.execStartingEnd s
  | .retuneEnd => Sys2Proof.Machine.execRetuneEnd s
  | .refreshTick => Sys2Proof.Machine.execRefreshTick s
  | .setTiming tag cls ioWs memWs => Sys2Proof.Machine.execSetTiming tag cls ioWs memWs s
  | .setReadyLimit tag limit => Sys2Proof.Machine.execSetReadyLimit tag limit s
  | .setRefresh tag interval => Sys2Proof.Machine.execSetRefresh tag interval s
  | .busStatus tag => Sys2Proof.Machine.execBusStatus tag s
  | .cycleEnd extension card => Sys2Proof.Machine.execCycleEnd extension card s
  | .readyTimeout => Sys2Proof.Machine.execReadyTimeout s
  | .currentMeasurement draw => Sys2Proof.Machine.execCurrentMeasurement draw s
  | .cooldownEnd slot => Sys2Proof.Machine.execCooldownEnd slot s
  | .poweringEnd slot => Sys2Proof.Machine.execPoweringEnd slot s
  | .resettingEnd slot => Sys2Proof.Machine.execResettingEnd slot s
  | .slotResetEnd slot => Sys2Proof.Machine.execSlotResetEnd slot s
  | .powerOn tag slot => Sys2Proof.Machine.execPowerOn tag slot s
  | .powerOff tag slot => Sys2Proof.Machine.execPowerOff tag slot s
  | .isolate tag slot => Sys2Proof.Machine.execIsolate tag slot s
  | .connect tag slot => Sys2Proof.Machine.execConnect tag slot s
  | .slotReset tag slot width => Sys2Proof.Machine.execSlotReset tag slot width s
  | .setLimit tag slot limit => Sys2Proof.Machine.execSetLimit tag slot limit s
  | .slotStatus tag slot => Sys2Proof.Machine.execSlotStatus tag slot s
  | .mapAdd tag fields => Sys2Proof.Machine.execMapAdd tag fields s
  | .mapRemove tag id => Sys2Proof.Machine.execMapRemove tag id s
  | .mapList tag => Sys2Proof.Machine.execMapList tag s
  | .shadowRead tag port indexPresent index => Sys2Proof.Machine.execShadowRead tag port indexPresent index s
  | .shadowClear tag idPresent id => Sys2Proof.Machine.execShadowClear tag idPresent id s
  | .ioRead tag fields => Sys2Proof.Machine.execIoRead tag fields s
  | .ioWrite tag fields data => Sys2Proof.Machine.execIoWrite tag fields data s
  | .memRead tag fields => Sys2Proof.Machine.execMemRead tag fields s
  | .memWrite tag fields data => Sys2Proof.Machine.execMemWrite tag fields data s
  | .pairWrite tag fields data => Sys2Proof.Machine.execPairWrite tag fields data s
  | .pairRead tag fields => Sys2Proof.Machine.execPairRead tag fields s
  | .poll tag fields => Sys2Proof.Machine.execPoll tag fields s
  | .pollIntervalEnd => Sys2Proof.Machine.execPollIntervalEnd s
  | .cancel tag target => Sys2Proof.Machine.execCancel tag target s
  | .chConfigure tag channel fields => Sys2Proof.Machine.execChConfigure tag channel fields s
  | .chArm tag channel => Sys2Proof.Machine.execChArm tag channel s
  | .chPause tag channel => Sys2Proof.Machine.execChPause tag channel s
  | .chResume tag channel => Sys2Proof.Machine.execChResume tag channel s
  | .chClear tag channel => Sys2Proof.Machine.execChClear tag channel s
  | .chRelease tag channel => Sys2Proof.Machine.execChRelease tag channel s
  | .chStatus tag channel => Sys2Proof.Machine.execChStatus tag channel s
  | .trqAssert slot line => Sys2Proof.Machine.execTrqAssert slot line s
  | .trqDeassert slot line => Sys2Proof.Machine.execTrqDeassert slot line s
  | .ringWrite tag channel data => Sys2Proof.Machine.execRingWrite tag channel data s
  | .ringRead tag channel largest => Sys2Proof.Machine.execRingRead tag channel largest s
  | .irlChange slot line high => Sys2Proof.Machine.execIrlChange slot line high s
  | .irlFilterChange slot line => Sys2Proof.Machine.execIrlFilterChange slot line s
  | .intConfigure tag slot line fields => Sys2Proof.Machine.execIntConfigure tag slot line fields s
  | .intMask tag slot line mask => Sys2Proof.Machine.execIntMask tag slot line mask s
  | .intStatus tag slot => Sys2Proof.Machine.execIntStatus tag slot s
  | .intAck tag slot line => Sys2Proof.Machine.execIntAck tag slot line s
  | .info tag => Sys2Proof.Machine.execInfo tag s
  | .resetPart tag => Sys2Proof.Machine.execResetPart tag s
  | .timeBaseAdvance => Sys2Proof.Machine.execTimeBaseAdvance s

end Sys2Proof.Machine
end

