-- ==== Sys2Proof/Safety.lean ====
section
/-! DEFINITION. What counts as a sound state, in the terms the statements use: the ranges the chapters' head tables
give, the rules over the whole part, and the offers that wait for admission. -/

namespace Sys2Proof.Machine

open Sys2Proof

/-! ## Requests -/

/-- A request that arrives on the pipe is taken at once: the pipe may take a frame and holds none (R173, log 1). -/
def State.ready (s : State) (p : Pipe) : Prop := s.ml.canTake p = true ∧ s.ml.intake p = []

/-! ## Offers (R178) -/

/-- The sources of notices. -/
inductive Source where
  | input (i : InputId)
  | slotFault (i : SlotId)
  | busFault (i : SlotId)
  | channel (n : ChanId)
  | woke
deriving DecidableEq, Repr

/-- Every source, in class order and within a class by source number (R178). -/
def allSources : List Source :=
  (List.finRange 48).map .input ++ (List.finRange 4).map .slotFault ++ (List.finRange 4).map .busFault ++
    (List.finRange 6).map .channel ++ [.woke]

/-- The source's record is offered for admission (R13, R36, R63, R130, R160). -/
def State.offers (s : State) : Source → Bool
  | .input i => (s.input i).state == .pending && !(s.input i).mask
  | .slotFault i => (s.slot i).faultRaised
  | .busFault i => (s.faultRecord i).raised
  | .channel n => (s.chan n).notice.raised
  | .woke => match s.bcu.woke with
    | .raised _ _ _ => true
    | _ => false

/-- The notice the source's record makes (section 10.5). -/
def State.noticeOf (s : State) : Source → Notice
  | .input i => s.interruptNotice i
  | .slotFault i => s.slotFaultNotice i
  | .busFault i => s.busFaultNotice i
  | .channel n => s.channelNotice n
  | .woke => match s.bcu.woke with
    | .raised slot line time => ⟨none, noticeFrame 0xE4
        ([BitVec.ofNat 8 slot.val, BitVec.ofNat 8 line.val] ++ le 4 time.toNat)⟩
    | _ => ⟨none, noticeFrame 0xE4 []⟩

/-- The places admission may fill: those free while the link is UP (R178). -/
def State.freePlaces (s : State) : Nat := if s.ml.up then Config.noticePlaces - s.ml.notices.length else 0

/-- The sources that admission takes, in order. -/
def State.admitted (s : State) : List Source := (allSources.filter s.offers).take s.freePlaces

/-! ## Ranges -/

/-- D and the pending D lie between 5 and 12 (R1). -/
structure State.ClockInRange (s : State) : Prop where
  divider : 5 ≤ s.bcu.divider ∧ s.bcu.divider ≤ 12
  pending : ∀ d, s.bcu.pendingDivider = some d → 5 ≤ d ∧ d ≤ 12

/-- The Slot Bus Controller's figures lie in the ranges of the chapter's head table. The burst count reaches 16 only
inside the event that then frees the bus (R34). -/
structure State.BusInRange (s : State) : Prop where
  burst      : s.sbc.burst < 16 ∧ (s.sbc.holder = none → s.sbc.burst = 0)
  debt       : s.sbc.debt ≤ 4
  readyLimit : 1 ≤ s.sbc.readyLimit ∧ s.sbc.readyLimit ≤ 255
  interval   : s.sbc.interval ≤ 63
  countdown  : s.sbc.countdown ≤ 63
  timing     : ∀ k : ClassId, s.sbc.timing[k].ioWs ≤ 15 ∧ s.sbc.timing[k].memWs ≤ 15

/-- The queues hold no more than their places; the replies made and the reservations share theirs (R172, R176, R177). -/
structure State.QueuesInRange (s : State) : Prop where
  replies   : s.ml.replies.length + s.ml.reserved ≤ 16
  commandIn : s.ml.commandIn.length ≤ 16
  streamIn  : s.ml.streamIn.length ≤ 16
  notices   : s.ml.notices.length ≤ 48

/-! ## Replies outstanding -/

/-- Those that can owe the command pipe a reply: the clock, a slot, a channel, an access at work. -/
inductive Debtor where
  | clock
  | slot (i : SlotId)
  | channel
  | access
deriving DecidableEq, Repr

/-- The debtor owes a reply: its deferred reply is present, or the Access Engine is not IDLE (R5, R51, R89, R109). -/
def State.owes (s : State) : Debtor → Prop
  | .clock => s.bcu.deferred ≠ none
  | .slot i => (s.slot i).deferred ≠ none
  | .channel => s.chanReply ≠ none
  | .access => s.ae.phase ≠ .idle

/-- The reply place a request in progress still holds: one while it has its claim (R176, R184). -/
def claimedPlaces (r : Option Request) : Nat :=
  match r with
  | some r => if r.claim then 1 else 0
  | none => 0

/-- At most one debtor owes a reply, and only while its command is in progress; every request in progress with a claim
has its reservation, but for a RESET_PART that has filled its own; the bus is AE's only while AE is RUNNING; an IDLE AE
holds no command (R89, R105, R173, R176, R181). -/
structure State.RepliesSound (s : State) : Prop where
  one      : ∀ d e, s.owes d → s.owes e → d = e
  progress : ∀ d, s.owes d → s.ml.command ≠ none ∧ s.ml.resetPending = false
  places   : (if s.ml.resetPending then 0 else claimedPlaces s.ml.command) + claimedPlaces s.ml.stream ≤ s.ml.reserved
  running  : s.sbc.holder = some .ae → s.ae.phase = .running
  idle     : s.ae.phase = .idle → s.ae.command = none

/-! ## Rules over the whole part -/

/-- Every ACTIVE window's base is a multiple of its size, and no address of a space lies in two of them (R69). -/
structure State.WindowsSound (s : State) : Prop where
  aligned  : ∀ (i : WindowId) (w : Window), s.rmap.windows[i] = some w → w.base % w.size = 0
  disjoint : ∀ (i j : WindowId) (v w : Window), s.rmap.windows[i] = some v → s.rmap.windows[j] = some w →
    i ≠ j → ∀ a : Nat, ¬ (v.claims v.space a = true ∧ w.claims v.space a = true)

/-- The Shadow List holds at most 256 entries, no two with the same port and index, each of an ACTIVE IO window with
shadow ON that claims the entry's port (R81). -/
structure State.ShadowSound (s : State) : Prop where
  atMost  : s.rmap.shadow.length ≤ 256
  keys    : s.rmap.shadow.Pairwise fun a b => ¬ (a.port = b.port ∧ a.index = b.index)
  windows : ∀ e ∈ s.rmap.shadow, ∃ w, s.rmap.windows[e.window] = some w ∧ w.shadow = true ∧
    w.claims .io e.port.toNat = true

/-- The kind is one of an access (R21). -/
def CycleKind.isAccess (k : CycleKind) : Prop := k ≠ .transferOut ∧ k ≠ .transferIn ∧ k ≠ .refresh

/-- The cycle in flight belongs to the grant in force and BCLK runs under it (R4, R8, R19); its kind and target are those
of its holder (R21, R30, R119); an IO, MEM or transfer cycle connects its target alone; and every slot it connects is
ENABLED, or ISOLATED for a slot-direct cycle (R49). -/
structure State.CycleSound (s : State) : Prop where
  held      : s.sbc.cycle.isSome = s.sbc.holder.isSome
  clocked   : s.sbc.cycle ≠ none → s.bcu.bclk = some s.bcu.divider
  planned   : ∀ u ∈ s.ae.units, ∀ p ∈ u.cycles, p.kind.isAccess
  refresh   : ∀ c, s.sbc.cycle = some c → s.sbc.holder = some .refresh →
    c.kind = .refresh ∧ c.target = none ∧ c.eob = false
  transfer  : ∀ c n, s.sbc.cycle = some c → s.sbc.holder = some (.channel n) →
    (c.kind = .transferOut ∨ c.kind = .transferIn) ∧ c.target ≠ none ∧ c.direct = false
  access    : ∀ c, s.sbc.cycle = some c → s.sbc.holder = some .ae →
    c.kind.isAccess ∧ c.target ≠ none ∧ c.eob = false
  only      : ∀ c i, s.sbc.cycle = some c → c.target = some i → ∀ j : SlotId, c.connected[j] = true ↔ j = i
  connected : ∀ c, s.sbc.cycle = some c → ∀ i : SlotId, c.connected[i] = true →
    (s.slot i).state = .enabled ∨ (c.direct = true ∧ c.target = some i ∧ (s.slot i).state = .isolated)

/-- A channel in RUNNING or PAUSED state is bound to a slot in ENABLED state (R128). -/
def State.ChannelsOnEnabledSlots (s : State) : Prop :=
  ∀ n : ChanId, (s.chan n).state = .running ∨ (s.chan n).state = .paused →
    (s.slot (s.chan n).slot).state = .enabled

/-- The channels' figures, rings and pages agree: remaining lies where the state puts it (R121), the level lies between 0
and the ring size (R140), a channel that is not FREE owns exactly the pages of its ring and a FREE one none (R135), and a
transfer cycle on the bus belongs to a RUNNING channel that could make it when it began and still can (R118, R119). -/
structure State.ChannelsSound (s : State) : Prop where
  block    : ∀ n : ChanId, 1 ≤ (s.chan n).blockLength ∧ (s.chan n).remaining ≤ (s.chan n).blockLength
  done     : ∀ n : ChanId, (s.chan n).remaining = 0 ↔ (s.chan n).state = .free ∨ (s.chan n).state = .ended
  free     : ∀ n : ChanId, (s.chan n).state = .free →
    (s.chan n).ring = none ∧ (s.chan n).put = 0 ∧ (s.chan n).take = 0
  ring     : ∀ n : ChanId, (s.chan n).state ≠ .free →
    ∃ r, (s.chan n).ring = some r ∧ r.code ≤ 6 ∧ r.first + 2 ^ r.code ≤ 128
  level    : ∀ n : ChanId, (s.chan n).level ≤ (s.chan n).ringSize
  pages    : ∀ (n : ChanId) (p : PageId), s.stm.pages[p] = some n ↔
    ∃ r, (s.chan n).ring = some r ∧ r.first ≤ p.val ∧ p.val < r.first + 2 ^ r.code
  inFlight : ∀ (n : ChanId) (c : Cycle), s.sbc.holder = some (.channel n) → s.sbc.cycle = some c →
    (s.chan n).state = .running ∧ c.kind ≠ .refresh ∧ c.connected[(s.chan n).slot] = true ∧
    (s.chan n).able (chanWidth n) = true ∧
    (c.transfer = .real → (s.chan n).direction = .out → chanWidth n ≤ (s.chan n).level) ∧
    (c.transfer = .real → (s.chan n).direction = .into → chanWidth n ≤ (s.chan n).freeSpace)

/-- An input has a notice in the queue only in NOTIFIED state, and never more than one (R161); an input whose mode is OFF
is IDLE (R153); the lost count does not pass 65535 (R157). -/
structure State.NoticesSound (s : State) : Prop where
  queued   : ∀ i : InputId, (s.ml.notices.countP fun n => n.input == some i) = if (s.input i).queued then 1 else 0
  notified : ∀ i : InputId, (s.input i).queued = true → (s.input i).state = .notified
  off      : ∀ i : InputId, (s.input i).mode = .off → (s.input i).state = .idle
  lost     : ∀ i : InputId, (s.input i).lost ≤ 65535

/-- The staging storage has its canonical form (log 18). -/
def State.StorageSound (s : State) : Prop := Memory.wf s.stm.bytes = true

end Sys2Proof.Machine
end

