-- ==== Sys2Proof/Certificates/Slice0/Obligations.lean ====
section
/-! DEFINITION. The statements for the provers. Each says in its docstring which rules of the spec it rests on. A clause
that rests on a choice of the model names the log entry. -/

open Sys2Proof Sys2Proof.Machine

/-! ## The queue and the link -/

/-- A step takes the command at the front of the queue and runs it with the queue's rest; on an empty queue the part
idles (the model's choice, log 3). Every command answers a next state in every state (log 22). -/
def Obligations.StepRunsTheFrontCommand : Prop :=
  (∀ (c : Instr) (rest : List Instr) (s : State),
    step { s with pending := c :: rest } = exec c { s with pending := rest }) ∧
  (∀ s : State, s.pending = [] → step s = .next s) ∧
  ∀ (c : Instr) (s : State), ∃ t, exec c s = .next t

/-- A request command that can be sent acts as its frame, laid out as chapter 10 says, does when its pipe takes it
(R173 to R175, R187, R189; log 1). -/
def Obligations.RequestCommandIsItsFrame : Prop :=
  ∀ (i : Instr) (s : State) (p : Pipe) (kind : Byte) (tag : Half) (payload : List Byte) (least most : Nat),
    i.wellFormed = true → requestOf i = some (kind, tag, payload) → requestKind kind = some (p, least, most) →
    s.ready p →
    exec i s = exec (.frameTake p) (s.updMl fun m => m.setIntake p [requestBytes kind tag payload])

/-- FRAME_RECEIVE puts a transfer at the tail of its pipe's intake queue while the link is UP and the queue holds fewer
than 16 frames, and otherwise changes nothing. FRAME_TAKE takes nothing from an empty queue or on a pipe that may take
no frame (log 2). A request command on a pipe that is not ready joins the intake queue as its frame (log 1). R171 to
R173. -/
def Obligations.IntakeHoldsFramesInOrder : Prop :=
  (∀ (s : State) (p : Pipe) (bytes : List Byte), exec (.frameReceive p bytes) s = .next (
    if s.ml.up = true ∧ (s.ml.intake p).length < 16 then
      s.updMl fun m => m.setIntake p (m.intake p ++ [bytes])
    else s)) ∧
  (∀ (s : State) (p : Pipe), s.ml.canTake p = false ∨ s.ml.intake p = [] → exec (.frameTake p) s = .next s) ∧
  (∀ (s : State) (p : Pipe), s.ml.canTake p = true ↔
    s.ml.up = true ∧ s.ml.inProgress p = none ∧ s.ml.replies.length + s.ml.reserved < 16 ∧
      s.ml.resetPending = false) ∧
  ∀ (i : Instr) (s : State) (p : Pipe) (kind : Byte) (tag : Half) (payload : List Byte) (least most : Nat),
    requestOf i = some (kind, tag, payload) → requestKind kind = some (p, least, most) → ¬ s.ready p →
    exec i s = exec (.frameReceive p (requestBytes kind tag payload)) s

/-- A taken frame leaves the intake queue and is validated: header length, kind, pipe, payload length, in this order.
The first check that fails decides the reply, which is made at once and changes nothing else. A frame that passes is
handed to its owner, in progress on its pipe with its reply place reserved. No code of 0x80 or above is a request kind
(R173 to R175, R187). A request that completes leaves its pipe, and its reply, of its kind plus 0x80, its status and its
tag, takes its reserved place behind the replies already made; one that lost its claim makes none (R176, R184, R187). -/
def Obligations.TakenFramesAreValidated : Prop :=
  (∀ (s : State) (p : Pipe) (bytes : List Byte) (rest : List (List Byte)),
    s.ml.canTake p = true → s.ml.intake p = bytes :: rest →
    exec (.frameTake p) s = .next (
      let u := s.updMl fun m => m.setIntake p rest
      let kind := bytes.getD 0 0
      let tag : Half := bytes.getD 3 0 ++ bytes.getD 2 0
      let declared := (bytes.getD 4 0).toNat + 256 * (bytes.getD 5 0).toNat
      let payload := bytes.drop 6
      if bytes.length < 6 then u.replyAtOnce ⟨0xF0, 0x12, 0, [kind]⟩
      else
        match requestKind kind with
        | none => u.replyAtOnce ⟨0xF0, 0x10, tag, [kind]⟩
        | some (q, least, most) =>
          if q ≠ p then u.replyAtOnce ⟨kind + 0x80, 0x11, tag, []⟩
          else if declared = payload.length ∧ payload.length ≤ 1040 ∧ least ≤ payload.length ∧
              payload.length ≤ most then
            handOver kind payload (u.beginRequest p kind tag)
          else u.replyAtOnce ⟨kind + 0x80, 0x12, tag, []⟩)) ∧
  (∀ kind : Byte, 0x80 ≤ kind.toNat → requestKind kind = none) ∧
  ∀ (s : State) (status : Status) (payload : List Byte),
    (s.ml.command = none → s.replyCommand status payload = s) ∧
    (s.ml.stream = none → s.replyStream status payload = s) ∧
    ∀ r : Request,
      let completed : Ml := { s.ml with
        replies := if r.claim = true then s.ml.replies ++ [⟨r.kind + 0x80, status.code, r.tag, payload⟩] else s.ml.replies
        reserved := if r.claim = true then s.ml.reserved - 1 else s.ml.reserved }
      (s.ml.command = some r → s.replyCommand status payload = { s with ml := { completed with command := none } }) ∧
      (s.ml.stream = some r → s.replyStream status payload = { s with ml := { completed with stream := none } })

/-- The report pipe takes a frame when none is in transmission and the link is UP: the head of the only queue that
holds one, or, of two, of the class other than the one sent last. The frame leaves its queue, its class becomes the
last sent, an INTERRUPT notice's input is no longer queued, and admission fills the place freed. Otherwise nothing
changes (log 2). R161, R177 to R179. -/
def Obligations.ReportPipeAlternates : Prop :=
  (∀ (s : State) (f : Frame) (rs : List Frame), s.ml.up = true → s.ml.sending = none → s.ml.replies = f :: rs →
    s.ml.notices = [] ∨ s.ml.lastClass = .notice →
    exec .frameTransmit s = .next
      { s with ml := { s.ml with sending := some f, replies := rs, lastClass := .reply } }.admitOffers) ∧
  (∀ (s : State) (n : Notice) (ns : List Notice), s.ml.up = true → s.ml.sending = none → s.ml.notices = n :: ns →
    s.ml.replies = [] ∨ s.ml.lastClass = .reply →
    exec .frameTransmit s = .next
      ({ (match n.input with
          | some i => s.modInput i fun x => { x with queued := false }
          | none => s) with
        ml := { s.ml with sending := some n.frame, notices := ns, lastClass := .notice } } : State).admitOffers) ∧
  ∀ s : State, s.ml.up = false ∨ s.ml.sending ≠ none ∨ (s.ml.replies = [] ∧ s.ml.notices = []) →
    exec .frameTransmit s = .next s

/-- A frame is sent as its six header bytes, kind, status, tag and payload length with the low byte first, and its
payload, and the length field gives the payload's bytes. The frame in transmission leaves the part. If it is the OK
reply of a pending RESET_PART, known by its kind and status (log 21), the reset event follows: power-on values with the
link UP; the cards' lines, the waiting commands and the free value's index are not the part's registers and are kept
(log 9, log 12). With nothing in transmission FRAME_SENT changes nothing (the model's choice, log 2). R179, R181, R182,
R187. -/
def Obligations.SentFrameLeavesThePart : Prop :=
  (∀ s : State, exec .frameSent s = .next (
    match s.ml.sending with
    | none => s
    | some f =>
      if s.ml.resetPending = true ∧ f.kind = 0xC9 ∧ f.status = 0x00 then
        { State.reset with ml := { up := true }, cards := s.cards, free := s.free, pending := s.pending }
      else { s with ml := { s.ml with sending := none } })) ∧
  (∀ m : Ml, m.sending = none → m.reportPipe = none) ∧
  (∀ (m : Ml) (f : Frame), m.sending = some f → m.reportPipe = some ([f.kind, f.status, f.tag.setWidth 8,
    (f.tag >>> 8).setWidth 8, BitVec.ofNat 8 f.payload.length, BitVec.ofNat 8 (f.payload.length / 256)] ++ f.payload)) ∧
  ∀ f : Frame, f.payload.length ≤ 1040 →
    f.bytes.length = 6 + f.payload.length ∧ f.bytes.drop 6 = f.payload ∧
    (f.bytes.getD 3 0 ++ f.bytes.getD 2 0 : Half) = f.tag ∧
    (f.bytes.getD 4 0).toNat + 256 * (f.bytes.getD 5 0).toNat = f.payload.length

/-- The values every block holds after power-on, by PART_POWER_ON and at reset (R17, R41, R64, R88, R105, R133, R152,
R169, R186; the values of log 7, log 12, log 18, log 20 and log 23 are the model's). PART_POWER_ON keeps what is outside
the part (log 9). -/
def Obligations.PowerOnValuesOfEveryBlock : Prop :=
  (∀ s : State, exec .partPowerOn s = .next
    { State.reset with cards := s.cards, free := s.free, pending := s.pending }) ∧
  State.reset.bcu = ⟨.stopped, 12, none, none, none, none, 0, .empty⟩ ∧
  State.reset.sbc.holder = none ∧ State.reset.sbc.burst = 0 ∧ State.reset.sbc.cycle = none ∧
  State.reset.sbc.timing = #v[⟨0, 0⟩, ⟨1, 1⟩, ⟨2, 2⟩, ⟨4, 4⟩] ∧ State.reset.sbc.readyLimit = 16 ∧
  State.reset.sbc.interval = 15 ∧ State.reset.sbc.countdown = 0 ∧ State.reset.sbc.debt = 0 ∧
  State.reset.sbc.slips = 0 ∧ State.reset.sbc.row = 0 ∧
  (∀ i : SlotId, State.reset.faultRecord i = ⟨0, none, false⟩) ∧
  (∀ i : SlotId, State.reset.slot i =
    ⟨.off, .enabled, 2000, 0, 0, false, none, none, 0, none, none, none, false⟩) ∧
  State.reset.measure = ⟨0, false⟩ ∧
  (∀ i : WindowId, State.reset.rmap.windows[i] = none) ∧ State.reset.rmap.shadow = [] ∧
  State.reset.ae = ⟨.idle, none, 0, [], 0, 0, 0, 0, [], false, none, none, 0⟩ ∧
  (∀ n : ChanId,
    let c := State.reset.chan n
    c.state = .free ∧ c.slot = 0 ∧ c.direction = .out ∧ c.demand = false ∧ c.cls = 0 ∧ c.blockLength = 1 ∧
    c.remaining = 0 ∧ c.autoReload = false ∧ c.ring = none ∧ c.put = 0 ∧ c.take = 0 ∧ c.mark = 0 ∧
    c.markNotices = false ∧ c.markArmed = false ∧ c.policy = .hold ∧ c.fill = 0 ∧ c.lastDelivered = 0 ∧
    c.transfers = 0 ∧ c.blocksEnded = 0 ∧ c.lastBlockEnd = 0 ∧ c.underruns = 0 ∧ c.overruns = 0 ∧
    c.cause = .none ∧ c.underrunEpisode = false ∧ c.stallEpisode = false ∧ c.overrunEpisode = false ∧
    c.notice.raised = false ∧ c.notice.events = ⟨false, false, false, false, false, false, false⟩ ∧
    c.notice.stalled = false ∧ c.pauseWaits = false ∧ c.releaseWaits = false) ∧
  State.reset.chanReply = none ∧
  (∀ p : PageId, State.reset.stm.pages[p] = none) ∧ State.reset.stm.bytes = [] ∧
  (∀ i : InputId, State.reset.input i =
    ⟨.off, false, 0, true, false, .idle, false, 0, false, 0, [], false, 0, 0, false, false⟩) ∧
  State.reset.ml = ⟨false, [], [], none, none, [], 0, [], none, .notice, false⟩

/-- Admission takes offered records in class order, then by source number, one for each free place, while the link is
UP. Each notice is built from its producer's state, joins the queue at its tail, and empties its record: an input
becomes NOTIFIED and queued with lost count 0, the other records become EMPTY. Everything else is kept.
NOTICE_ADMISSION is that admission, and LINK_UP makes the link UP and then admits; on a link that is UP it changes
nothing (the model's choice, log 2). R13, R36, R63, R131, R160, R171, R178,
R185; R185's two clauses on what the host does next are not stated. -/
def Obligations.AdmissionFillsPlacesInClassOrder : Prop :=
  (∀ s : State,
    let t := s.admitOffers
    t.ml = { s.ml with notices := s.ml.notices ++ s.admitted.map s.noticeOf } ∧
    (∀ i : InputId, t.input i =
      if .input i ∈ s.admitted then { s.input i with state := .notified, queued := true, lost := 0 }
      else s.input i) ∧
    (∀ i : SlotId, t.slot i =
      if .slotFault i ∈ s.admitted then { s.slot i with faultRaised := false } else s.slot i) ∧
    (∀ i : SlotId, t.faultRecord i =
      if .busFault i ∈ s.admitted then { s.faultRecord i with raised := false } else s.faultRecord i) ∧
    (∀ n : ChanId, t.chan n =
      if .channel n ∈ s.admitted then { s.chan n with notice := ⟨false, {}, false⟩ } else s.chan n) ∧
    t.bcu = { s.bcu with woke := if .woke ∈ s.admitted then .empty else s.bcu.woke } ∧
    t.sbc = { s.sbc with faults := t.sbc.faults } ∧ t.measure = s.measure ∧ t.rmap = s.rmap ∧ t.ae = s.ae ∧
    t.chanReply = s.chanReply ∧ t.stm = s.stm ∧ t.cards = s.cards ∧ t.free = s.free ∧ t.pending = s.pending) ∧
  (∀ s : State, exec .noticeAdmission s = .next s.admitOffers) ∧
  (∀ s : State, s.ml.up = false → exec .linkUp s = .next { s with ml := { s.ml with up := true } }.admitOffers) ∧
  ∀ s : State, s.ml.up = true → exec .linkUp s = .next s

/-- A link reset empties every queue and makes the link DOWN; an access with a unit in flight runs on without a claim,
and a CANCEL with it, while every other request is no longer in progress, and AE's fields are reset with it (log 23);
every deferred reply becomes absent; RUNNING channels pause, at once or at the end of their cycle in flight, where a
release that waits is still made; NOTIFIED inputs return to PENDING. The clock, the bus, the slots, the windows, the
Shadow List, the rings and the cards' lines are kept. A pause or release that waits for no cycle, which no run reaches,
is made at once. A link reset on a link that is DOWN changes nothing. R18, R42, R65, R106, R134, R170, R183, R184. -/
def Obligations.LinkResetKeepsTheWork : Prop :=
  (∀ s : State, s.ml.up = true →
    let released (n : ChanId) : Prop := s.transferring n = false ∧ (s.chan n).releaseWaits = true
    ∃ t, exec .linkReset s = .next t ∧
      t.ml = { up := false, commandIn := [], streamIn := [],
               command := if s.ae.phase = .running then s.ml.command.map fun r => { r with claim := false } else none,
               stream := if s.ae.phase = .running then s.ml.stream.map fun r => { r with claim := false } else none,
               replies := [], reserved := 0, notices := [], sending := none, lastClass := .notice,
               resetPending := false } ∧
      t.ae = (if s.ae.phase = .running then s.ae else {}) ∧
      t.bcu = { s.bcu with deferred := none } ∧
      (∀ i : SlotId, t.slot i = { s.slot i with deferred := none }) ∧
      t.chanReply = none ∧
      (∀ n : ChanId, t.chan n =
        if s.transferring n = true then
          { s.chan n with pauseWaits := (s.chan n).pauseWaits || decide ((s.chan n).state = .running) }
        else if (s.chan n).releaseWaits = true then State.reset.chan n
        else { s.chan n with
          state := if (s.chan n).state = .running then .paused else (s.chan n).state, pauseWaits := false }) ∧
      t.stm.bytes = s.stm.bytes ∧
      (∀ p : PageId, ((∃ n, s.stm.pages[p] = some n ∧ released n) → t.stm.pages[p] = none) ∧
        ((∀ n, s.stm.pages[p] = some n → ¬ released n) → t.stm.pages[p] = s.stm.pages[p])) ∧
      (∀ i : InputId, t.input i =
        if (s.input i).state = .notified then { s.input i with state := .pending, queued := false } else s.input i) ∧
      t.sbc = s.sbc ∧ t.measure = s.measure ∧ t.rmap = s.rmap ∧ t.cards = s.cards ∧
      t.free = s.free ∧ t.pending = s.pending) ∧
  ∀ s : State, s.ml.up = false → exec .linkReset s = .next s

/-- INFO answers OK with the part's constants and the time base and changes nothing. RESET_PART answers OK at its
reserved place, stays the command in progress and makes reset pending, after which neither pipe takes a frame. R173,
R180, R181, R187. -/
def Obligations.InfoAndResetPartAnswerAtOnce : Prop :=
  (∀ (s : State) (tag : Half), s.ready .command → exec (.info tag) s = .next (
    s.replyAtOnce ⟨0xC8, 0x00, tag,
      [0x16, 0x40, 1, 4, 12, 6, 32, 0x00, 0x01, 128, 16, 16] ++ le 4 s.bcu.timeBase.toNat⟩)) ∧
  (∀ (s : State) (tag : Half), s.ready .command → exec (.resetPart tag) s = .next
    { s with ml := { s.ml with
        command := some ⟨0x49, tag, true⟩, replies := s.ml.replies ++ [⟨0xC9, 0x00, tag, []⟩],
        resetPending := true } }) ∧
  ∀ (s : State) (p : Pipe), s.ml.resetPending = true → exec (.frameTake p) s = .next s

/-! ## The bus clock and the time base -/

/-- SET_CLOCK by the clock state in which it is taken: BAD_ARG for target 0; from STOPPED the divider is set and STARTING
begins (9600 reference periods) with the reply deferred; in RUN an equal divider is answered at once and another begins a
retune, unless a PARK or CLOCK_STOP waits (BUSY); STARTING and RETUNING answer BUSY, PARKED answers PARKED. A refusal
carries E 0 and CLAMPED clear and changes nothing. The settling of a retune, 2400 reference periods, begins in the same
event when the bus is FREE, and else once it is; D stays until it ends. R4 to R9; the settling counts are the model's,
log 7. -/
def Obligations.SetClockByClockState : Prop :=
  ∀ (s : State) (tag target : Half), s.ready .command →
    let t := target.toNat
    let nearest := (96000 + t) / (2 * t)
    let divider := max 5 (min 12 nearest)
    let error := clockError t divider
    let clamped := decide (divider ≠ nearest)
    let refuse (code : Byte) := s.replyAtOnce ⟨0x90, code, tag, s.clockReport ++ le 2 t ++ [0, 0, 0]⟩
    (t ≠ 0 → s.bcu.clock = .run → s.bcu.waiting = none → divider ≠ s.bcu.divider →
      ∃ u : State, exec (.setClock tag target) s = .next u ∧ u.bcu.clock = .retuning ∧
        u.bcu.settling = (if s.sbc.holder = none then some 2400 else none) ∧ u.bcu.divider = s.bcu.divider ∧
        u.bcu.pendingDivider = some divider ∧ u.bcu.deferred = some (.setClock target error clamped)) ∧
    exec (.setClock tag target) s = .next (
      if t = 0 then refuse 0x13
      else
        match s.bcu.clock with
        | .stopped =>
          { s.beginRequest .command 0x10 tag with
            bcu := { s.bcu with divider := divider, clock := .starting, settling := some 9600,
                                deferred := some (.setClock target error clamped) } }
        | .run =>
          if s.bcu.waiting ≠ none then refuse 0x20
          else if divider = s.bcu.divider then
            s.replyAtOnce ⟨0x90, 0x00, tag,
              s.clockReport ++ le 2 t ++ le 2 error.toNat ++ [if clamped then 1 else 0]⟩
          else
            ({ s.beginRequest .command 0x10 tag with
              bcu := { s.bcu with pendingDivider := some divider, clock := .retuning, settling := none,
                                  deferred := some (.setClock target error clamped) } } : State).settle
        | .starting => refuse 0x20
        | .retuning => refuse 0x20
        | .parked => refuse 0x23)

/-- PARK and CLOCK_STOP by the clock state. In RUN they are refused with BUSY while another waits, PARK while a channel is
RUNNING, CLOCK_STOP while a slot is not OFF; otherwise they stop grants and wait, and PARKED or STOPPED is entered in the
same event when the bus is FREE. In PARKED a PARK answers OK and a CLOCK_STOP with every slot OFF enters STOPPED. In
STOPPED a PARK answers NO_CLOCK and a CLOCK_STOP OK. STARTING and RETUNING answer BUSY. What the clock does once the bus
is FREE: a retune settles for 2400 reference periods (log 7); a waiting PARK or CLOCK_STOP enters PARKED or STOPPED,
suspends the sampling of the filtered inputs and sends a deferred reply OK with the new report. R4, R5, R8, R10, R15,
R156. -/
def Obligations.ParkAndClockStopByClockState : Prop :=
  let halted (s : State) (w : ClockWait) : State := { s with
    bcu := { s.bcu with
      clock := (match w with
        | .park => .parked
        | .clockStop => .stopped)
      waiting := none, deferred := none }
    inputs := s.inputs.map fun x => if x.filter = 0 then x else { x with run := 0, changeDue := false } }
  let nothingWaits (s : State) : Prop := s.sbc.holder = none ∧ (∀ i, (s.slot i).waiting = none) ∧
    ∀ n, (s.chan n).pauseWaits = false ∧ (s.chan n).releaseWaits = false
  (∀ s : State, s.sbc.holder = none →
    (s.bcu.clock = .retuning → s.bcu.settling = none →
      s.clockBoundary = { s with bcu := { s.bcu with settling := some 2400 } }) ∧
    ∀ w, s.bcu.clock = .run → s.bcu.waiting = some w → s.clockBoundary =
      if s.bcu.deferred = none then halted s w else (halted s w).replyCommand .ok (halted s w).clockReport) ∧
  (∀ (s : State) (tag : Half), s.ready .command →
    let answer (code : Byte) := s.replyAtOnce ⟨0x91, code, tag, s.clockReport⟩
    let waits : State := { s.beginRequest .command 0x11 tag with
      bcu := { s.bcu with waiting := some .park, deferred := some .park } }
    (s.bcu.clock = .run → s.bcu.waiting ≠ none ∨ (∃ n, (s.chan n).state = .running) →
      exec (.park tag) s = .next (answer 0x20)) ∧
    (s.bcu.clock = .run → s.bcu.waiting = none → (∀ n, (s.chan n).state ≠ .running) →
      exec (.park tag) s = .next waits.settle ∧
      waits.settle.bcu.clock = if s.sbc.holder = none then .parked else .run) ∧
    (s.bcu.clock = .run → s.bcu.waiting = none → (∀ n, (s.chan n).state ≠ .running) → nothingWaits s →
      exec (.park tag) s = .next
        ((halted s .park).replyAtOnce ⟨0x91, 0x00, tag, (halted s .park).clockReport⟩).admitOffers) ∧
    (s.bcu.clock = .parked → exec (.park tag) s = .next (answer 0x00)) ∧
    (s.bcu.clock = .stopped → exec (.park tag) s = .next (answer 0x22)) ∧
    (s.bcu.clock = .starting ∨ s.bcu.clock = .retuning → exec (.park tag) s = .next (answer 0x20))) ∧
  ∀ (s : State) (tag : Half), s.ready .command →
    let answer (u : State) (code : Byte) := u.replyAtOnce ⟨0x93, code, tag, u.clockReport⟩
    let waits : State := { s.beginRequest .command 0x13 tag with
      bcu := { s.bcu with waiting := some .clockStop, deferred := some .clockStop } }
    (s.bcu.clock = .run → s.bcu.waiting ≠ none ∨ (∃ i, (s.slot i).state ≠ .off) →
      exec (.clockStop tag) s = .next (answer s 0x20)) ∧
    (s.bcu.clock = .run → s.bcu.waiting = none → (∀ i, (s.slot i).state = .off) →
      exec (.clockStop tag) s = .next waits.settle ∧
      waits.settle.bcu.clock = if s.sbc.holder = none then .stopped else .run) ∧
    (s.bcu.clock = .run → s.bcu.waiting = none → (∀ i, (s.slot i).state = .off) → nothingWaits s →
      exec (.clockStop tag) s = .next (answer (halted s .clockStop) 0x00).admitOffers) ∧
    (s.bcu.clock = .parked → (∀ i, (s.slot i).state = .off) → exec (.clockStop tag) s = .next
      (answer { s with bcu := { s.bcu with clock := .stopped } } 0x00)) ∧
    (s.bcu.clock = .parked → (∃ i, (s.slot i).state ≠ .off) → exec (.clockStop tag) s = .next (answer s 0x20)) ∧
    (s.bcu.clock = .stopped → exec (.clockStop tag) s = .next (answer s 0x00)) ∧
    (s.bcu.clock = .starting ∨ s.bcu.clock = .retuning → exec (.clockStop tag) s = .next (answer s 0x20))

/-- WAKE by the clock state: from PARKED D becomes 12 and STARTING begins with the reply deferred; in STARTING the reply
is deferred and the 200 µs are not restarted (its report gives the D in force, log 25); in RUN, RETUNING and STOPPED it
answers OK and changes nothing. R5, R11; the settling count is the model's, log 7. -/
def Obligations.WakeByClockState : Prop :=
  ∀ (s : State) (tag : Half), s.ready .command →
    exec (.wake tag) s = .next (
      match s.bcu.clock with
      | .parked =>
        { s.beginRequest .command 0x12 tag with
          bcu := { s.bcu with divider := 12, clock := .starting, settling := some 9600, deferred := some .wake } }
      | .starting =>
        { s.beginRequest .command 0x12 tag with bcu := { s.bcu with deferred := some .wake } }
      | _ => s.replyAtOnce ⟨0x92, 0x00, tag, s.clockReport⟩)

/-- STARTING_END and RETUNE_END, when due, enter RUN and send the deferred reply with status OK: the first sets the debt
to 0 and the countdown to I and raises a held CLOCK_WOKE record, the second puts the pending D in force. A WAKE
deferred in a STARTING that a SET_CLOCK began is answered with the D in force (the model's choice against R11, log 25).
Not due, they change nothing (log 2, log 6). R8, R11, R13, R14, R28, R29. -/
def Obligations.ClockSettlingEnds : Prop :=
  let reply (u : State) (d : Option ClockReply) : State :=
    match d with
    | none => u
    | some (.setClock target error clamped) => u.replyCommand .ok
        (u.clockReport ++ le 2 target.toNat ++ le 2 error.toNat ++ [if clamped then 1 else 0])
    | some _ => u.replyCommand .ok u.clockReport
  (∀ s : State, s.bcu.clock = .starting → s.bcu.settling = some 0 → exec .startingEnd s = .next (reply
    { s with
      bcu := { s.bcu with clock := .run, settling := none, deferred := none,
                          woke := match s.bcu.woke with
                            | .held slot line time => .raised slot line time
                            | w => w }
      sbc := { s.sbc with debt := 0, countdown := s.sbc.interval, tickDue := false } } s.bcu.deferred).settle) ∧
  (∀ s : State, s.bcu.clock ≠ .starting ∨ s.bcu.settling ≠ some 0 → exec .startingEnd s = .next s) ∧
  (∀ (s : State) (d : Nat), s.bcu.clock = .retuning → s.bcu.settling = some 0 → s.bcu.pendingDivider = some d →
    exec .retuneEnd s = .next (reply
      { s with bcu := { s.bcu with clock := .run, settling := none, deferred := none, divider := d,
                                   pendingDivider := none } } s.bcu.deferred).settle) ∧
  ∀ s : State, s.bcu.clock ≠ .retuning ∨ s.bcu.settling ≠ some 0 → exec .retuneEnd s = .next s

/-- One advance of the time base: it rises by 1 modulo 2^32; the settling time falls by 48 reference periods; the refresh
countdown falls by 1 in RUN and RETUNING and makes a tick due at 0; cooldowns and slot sequences fall by 1; every tenth
advance makes a measurement due; in RUN and RETUNING every watched filtered input takes a sample, whose N-th differing
one makes its change due. Nothing else changes. R4, R16, R28, R44, R48, R53, R59, R155, R156; that a due event is taken
by its own command is the model's choice, log 6 and log 7. -/
def Obligations.TimeBaseAdvanceMovesTheTimers : Prop :=
  ∀ s : State, ∃ t, exec .timeBaseAdvance s = .next t ∧
    let runs : Prop := s.bcu.clock = .run ∨ s.bcu.clock = .retuning
    t.bcu = { s.bcu with timeBase := s.bcu.timeBase + 1, settling := s.bcu.settling.map fun n => n - 48 } ∧
    t.sbc = (if runs ∧ 0 < s.sbc.countdown then
      { s.sbc with countdown := s.sbc.countdown - 1,
                   tickDue := s.sbc.tickDue || decide (s.sbc.countdown = 1) } else s.sbc) ∧
    (∀ i : SlotId, t.slot i = { s.slot i with
      cooldown := (s.slot i).cooldown.map fun n => n - 1,
      sequence := (s.slot i).sequence.map fun q => match q with
        | .powering n => .powering (n - 1)
        | .powerOnReset n => .powerOnReset (n - 1)
        | .slotReset n => .slotReset (n - 1) }) ∧
    t.measure = (if s.measure.count + 1 = 10 then ⟨0, true⟩ else ⟨s.measure.count + 1, s.measure.due⟩) ∧
    (∀ i : InputId, t.input i =
      let x := s.input i
      let samples := if x.filter = 1 then 2 else 4
      let differs := (s.irlHigh i != x.activeLow) != x.active
      if runs ∧ x.mode ≠ .off ∧ (s.slot (inputSlot i)).state = .enabled ∧ x.filter ≠ 0 ∧ x.changeDue = false then
        if differs = false then { x with run := 0 }
        else if x.run < samples - 1 then { x with run := x.run + 1 }
        else { x with changeDue := true }
      else x) ∧
    t.rmap = s.rmap ∧ t.ae = s.ae ∧ t.chans = s.chans ∧ t.chanReply = s.chanReply ∧ t.stm = s.stm ∧ t.ml = s.ml ∧
    t.cards = s.cards ∧ t.free = s.free ∧ t.pending = s.pending

/-- R2: for a target from 1 to 65535 kHz, D0 = floor((96,000 + t) / (2t)) is 48,000 / t rounded to the nearest integer,
with the larger of two equally near ones; D0 is at least 1; D is D0 clamped to 5..12 and CLAMPED tells whether that
changed it; a SET_CLOCK taken in STOPPED puts D and CLAMPED into effect, and D's achieved clock, reported with it, is
floor(48,000,000 / D). -/
def Obligations.DividerIsNearestAndClamped : Prop :=
  ∀ (s : State) (tag target : Half), s.ready .command → s.bcu.clock = .stopped → target ≠ 0 →
    ∃ (t : State) (d0 d : Nat) (error : Half) (clamped : Bool),
      exec (.setClock tag target) s = .next t ∧
      d0 = (96000 + target.toNat) / (2 * target.toNat) ∧
      2 * d0 * target.toNat ≤ 96000 + target.toNat ∧ 96000 < (2 * d0 + 1) * target.toNat ∧
      (∀ e : Nat, (48000 - (e * target.toNat : Int)).natAbs ≤ (48000 - (d0 * target.toNat : Int)).natAbs → e ≤ d0) ∧
      1 ≤ d0 ∧
      d = (if d0 < 5 then 5 else if 12 < d0 then 12 else d0) ∧ (clamped = true ↔ d ≠ d0) ∧
      t.bcu.divider = d ∧ t.bcu.deferred = some (.setClock target error clamped) ∧
      t.clockReport = [1, BitVec.ofNat 8 d] ++ le 4 (48000000 / d)

/-- R3: E is 10000 × (A − 1000t) / (1000t) rounded to the nearest integer, exact halves away from zero, and 32767 where
that figure exceeds 32767, which is so exactly for targets of 935 kHz and below, all with a clamped divider. The most
negative E is −8535, reached at t = 65535. A positive E means a faster bus and a negative E a slower one. A refused
SET_CLOCK (target 0) reports E 0 with CLAMPED clear. R5, R6. -/
def Obligations.ClockErrorIsRounded : Prop :=
  (∀ t : Nat, 1 ≤ t → t ≤ 65535 →
    let d0 := (96000 + t) / (2 * t)
    let d := max 5 (min 12 d0)
    let a : Int := (48000000 / d : Nat)
    let e : Int := (clockError t d).toInt
    let exact : Int := 10000 * (a - 1000 * t)
    (935 < t → 2 * (e * (1000 * t) - exact).natAbs ≤ 1000 * t ∧
      (2 * (e * (1000 * t) - exact).natAbs = 1000 * t → exact.natAbs ≤ (e * (1000 * t)).natAbs)) ∧
    (t ≤ 935 → e = 32767 ∧ 2 * 32767 * (1000 * (t : Int)) + 1000 * t < 2 * exact ∧ d ≠ d0) ∧
    -8535 ≤ e ∧ (t = 65535 → e = -8535) ∧ (0 < e → 1000 * (t : Int) < a) ∧ (e < 0 → a < 1000 * (t : Int))) ∧
  ∀ (s : State) (tag : Half), s.ready .command →
    exec (.setClock tag 0) s = .next (s.replyAtOnce ⟨0x90, 0x13, tag, s.clockReport ++ [0, 0, 0, 0, 0]⟩)

/-- The divider stays as it is in every step but these: a SET_CLOCK in STOPPED, the end of a retune, a wake from PARKED
(to 12), the reset event of RESET_PART and power-on (to 12). No step changes the cycle on the bus with it: outside a
reset, a step that changes D leaves a cycle in flight as it was. R1; its clauses on BCLK are functions of this state
(Machine/Signals.lean). -/
def Obligations.DividerChangesOnlyAtItsEvents : Prop :=
  ∀ (c : Instr) (s t : State), exec c s = .next t → t.bcu.divider ≠ s.bcu.divider →
    (s.bcu.clock = .stopped ∧ t.bcu.clock = .starting ∧
      (∃ target : Nat, 1 ≤ target ∧ t.bcu.divider = max 5 (min 12 ((96000 + target) / (2 * target)))) ∧
      ((∃ tag target, c = .setClock tag target) ∨ c = .frameTake .command) ∧ t.sbc = s.sbc) ∨
    (c = .retuneEnd ∧ s.bcu.clock = .retuning ∧ s.bcu.settling = some 0 ∧
      s.bcu.pendingDivider = some t.bcu.divider ∧ (s.sbc.holder ≠ none → t.sbc.cycle = s.sbc.cycle)) ∨
    (s.bcu.clock = .parked ∧ t.bcu.clock = .starting ∧ t.bcu.divider = 12 ∧ t.sbc.cycle = s.sbc.cycle) ∨
    (c = .frameSent ∧ s.ml.resetPending = true ∧ t.bcu.divider = 12) ∨
    (c = .partPowerOn ∧ t.bcu.divider = 12)

/-! ## The slot bus -/

/-- SET_TIMING replaces the two values of its class, 0 to 15 each, and answers OK with them; a class above 3 or a
value above 15 is refused with BAD_ARG and leaves the table (the reply then carries the values in force, 0 for a class
that is none, log 17). Cycles that begin after it, the next of a DEMAND burst among them, take the new wait states; the
cycle in flight is unchanged. R37, R190. -/
def Obligations.SetTimingReplacesOneClass : Prop :=
  (∀ (s : State) (tag : Half) (k : ClassId) (cls io mem : Byte), s.ready .command → cls.toNat = k.val →
    (io.toNat ≤ 15 → mem.toNat ≤ 15 → ∃ t : State,
      exec (.setTiming tag cls io mem) s = .next t ∧
      t = { s with sbc := { s.sbc with timing := s.sbc.timing.set k ⟨io.toNat, mem.toNat⟩ } }.replyAtOnce
        ⟨0x98, 0x00, tag, [cls, io, mem]⟩ ∧
      ∀ (kind : CycleKind) (i : Option SlotId) (v : Vector Bool 4) (a : Nat) (h : Half),
        (t.newCycle kind k i v a h).length = kind.baseLength + kind.waitStates ⟨io.toNat, mem.toNat⟩) ∧
    (15 < io.toNat ∨ 15 < mem.toNat → exec (.setTiming tag cls io mem) s = .next (s.replyAtOnce
      ⟨0x98, 0x13, tag, [cls, BitVec.ofNat 8 s.sbc.timing[k].ioWs, BitVec.ofNat 8 s.sbc.timing[k].memWs]⟩))) ∧
  ∀ (s : State) (tag : Half) (cls io mem : Byte), s.ready .command → 3 < cls.toNat →
    exec (.setTiming tag cls io mem) s = .next (s.replyAtOnce ⟨0x98, 0x13, tag, [cls, 0, 0]⟩)

/-- R38: SET_READY_LIMIT takes 0 as 1 with CLAMPED set, and 1 to 255 as given; the reply carries OK, the T in force, the
L it gives at the D in force, and CLAMPED. The new T gives the ready limit of cycles that begin after it, and the cycle
in flight keeps its own. -/
def Obligations.SetReadyLimitTakesALimit : Prop :=
  ∀ (s : State) (tag : Half) (limit : Byte), s.ready .command →
    ∃ t : State, exec (.setReadyLimit tag limit) s = .next t ∧
      let taken := if limit = 0 then 1 else limit.toNat
      t = { s with sbc := { s.sbc with readyLimit := taken } }.replyAtOnce ⟨0x99, 0x00, tag,
        [BitVec.ofNat 8 taken] ++ le 2 (taken * 48 / s.bcu.divider) ++ [if limit = 0 then 1 else 0]⟩ ∧
      ∀ (kind : CycleKind) (k : ClassId) (i : Option SlotId) (v : Vector Bool 4) (a : Nat) (h : Half),
        (t.newCycle kind k i v a h).limit = taken * 48 / s.bcu.divider

/-- SET_REFRESH takes 64 and above as 63 with CLAMPED set; a countdown above 0 runs on, and one at 0, with no tick due,
is set to the new I at once. REFRESH_TICK, when due in RUN or RETUNING, restarts the countdown at the I in force and adds
1 to the debt, or at debt 4 to the slips; otherwise it changes nothing (log 2, log 6). R28, R29, R39. -/
def Obligations.RefreshSettingAndTicks : Prop :=
  (∀ (s : State) (tag : Half) (interval : Byte), s.ready .command →
    let taken := if 63 < interval.toNat then 63 else interval.toNat
    exec (.setRefresh tag interval) s = .next (
      { s with sbc := { s.sbc with
          interval := taken
          countdown := if s.sbc.countdown = 0 ∧ s.sbc.tickDue = false then taken else s.sbc.countdown } }.replyAtOnce
        ⟨0x9A, 0x00, tag, [BitVec.ofNat 8 taken, if 63 < interval.toNat then 1 else 0]⟩)) ∧
  (∀ s : State, s.sbc.tickDue = true → s.bcu.clock = .run ∨ s.bcu.clock = .retuning →
    exec .refreshTick s = .next (
      { s with sbc := { s.sbc with
          tickDue := false, countdown := s.sbc.interval
          debt := if s.sbc.debt < 4 then s.sbc.debt + 1 else s.sbc.debt
          slips := if s.sbc.debt < 4 then s.sbc.slips else s.sbc.slips + 1 } } : State).settle) ∧
  ∀ s : State, s.sbc.tickDue = false ∨ (s.bcu.clock ≠ .run ∧ s.bcu.clock ≠ .retuning) →
    exec .refreshTick s = .next s

/-- R40: BUS_STATUS answers OK with the clock report, I, the debt, the slips, the row counter, T, L at the D in force, the
four classes and the four fault counts, as they stand, and changes nothing. -/
def Obligations.BusStatusReportsTheBus : Prop :=
  ∀ (s : State) (tag : Half), s.ready .command → exec (.busStatus tag) s = .next (s.replyAtOnce ⟨0x9B, 0x00, tag,
    [s.bcu.clock.code, BitVec.ofNat 8 s.bcu.divider] ++ le 4 (48000000 / s.bcu.divider) ++
    [BitVec.ofNat 8 s.sbc.interval, BitVec.ofNat 8 s.sbc.debt] ++ le 4 s.sbc.slips.toNat ++
    [s.sbc.row, BitVec.ofNat 8 s.sbc.readyLimit] ++ le 2 (s.sbc.readyLimit * 48 / s.bcu.divider) ++
    ((List.finRange 4).flatMap fun k =>
      [BitVec.ofNat 8 s.sbc.timing[k].ioWs, BitVec.ofNat 8 s.sbc.timing[k].memWs]) ++
    (List.finRange 4).flatMap fun i => le 4 (s.faultRecord i).count.toNat⟩)

/-- CYCLE_END, when a cycle is in flight and the extension is within its ready limit (0 for a refresh), hands DONE with
the sampled lanes of a read, a line that the connected card does not drive reading as one, and the length (a write's
data is 0, log 20). A refresh cycle advances the row counter and lowers the debt, and frees the bus. A transfer is
applied and counted in the burst, and the stall or overrun halt it leaves comes with it; the burst then goes on or ends
(log 26). An access takes the result: its cycle leaves the unit in flight, a read byte joins the unit's value, a write's
bytes join the Shadow List, units without further cycles are done, and the grant goes on with the next cycle or ends at
a unit boundary. Waiting pauses and releases and slot changes follow, and the follow-on work last, in the order of log
14; a boundary at which nothing waits changes nothing. Otherwise nothing changes (log 2). R19, R21 to R23, R27, R30,
R33, R34, R50, R79, R82, R92, R113. -/
def Obligations.CycleEndHandsItsResult : Prop :=
  (∀ (s : State) (c : Cycle) (extension : Nat) (card : CardData), s.sbc.cycle = some c →
    extension ≤ (if c.kind = .refresh then 0 else c.limit) →
    let wide := match s.sbc.holder with
      | some (.channel n) => decide (4 ≤ n.val)
      | _ => c.kind.wide
    let lines : Half := match c.target with
      | some i => if c.connected[i] = true then card.levels ||| ~~~card.driven else 0xFFFF
      | none => 0xFFFF
    let data : Half := if c.kind.reads then (if wide then lines else lines &&& 0x00FF) else 0
    let u : State := { s with sbc := { s.sbc with
      cycle := none, lastResult := some ⟨.done, data, c.target, c.length + extension⟩ } }
    (s.sbc.holder = some .refresh → exec (.cycleEnd extension card) s = .next
      ({ u with sbc := { u.sbc with row := u.sbc.row + 1, debt := u.sbc.debt - 1 } } :
        State).chanBoundaries.slotBoundaries.freeBus.settle) ∧
    (∀ n : ChanId, s.sbc.holder = some (.channel n) →
      let v := ((({ u with sbc := { u.sbc with burst := u.sbc.burst + 1 } } : State).applyTransfer n c.transfer c.driven
        data).serveChannel n).chanBoundaries.slotBoundaries
      exec (.cycleEnd extension card) s = .next
        (if v.burstContinues n = true then v.beginTransfer n else v.freeBus).settle) ∧
    (s.sbc.holder = some .ae →
      let v := (u.takeAccessResult false data).chanBoundaries.slotBoundaries
      exec (.cycleEnd extension card) s = .next
        (if v.ae.units = [] then v.freeBus.accessBoundary else v.beginAccessCycle).settle)) ∧
  (∀ (s : State) (timedOut : Bool) (data : Half) (u : AccessUnit) (us : List AccessUnit) (p : CyclePlan)
    (ps : List CyclePlan), s.ae.units = u :: us → u.cycles = p :: ps →
    let value : Half := match p.part with
      | .word => data
      | .low => highByte u.value ++ lowByte data
      | .high => lowByte data ++ lowByte u.value
    s.takeAccessResult timedOut data = { s with
      rmap := s.rmap.recordAll p.records
      ae := closeUnits ({ u with cycles := ps, value := if u.read = true then value else u.value,
                                 timedOut := u.timedOut || timedOut } :: us) s.ae }) ∧
  (∀ s : State, s.settle = s.chanBoundaries.slotBoundaries.serveChannels.clockBoundary.arbitrate.admitOffers ∧
    s.slotBoundaries = (((s.slotBoundary 0).slotBoundary 1).slotBoundary 2).slotBoundary 3 ∧
    s.chanBoundaries =
      (((((s.chanBoundary 0).chanBoundary 1).chanBoundary 2).chanBoundary 3).chanBoundary 4).chanBoundary 5 ∧
    s.freeBus = { s with sbc := { s.sbc with holder := none, burst := 0, cycle := none } }) ∧
  (∀ s : State, (∀ n : ChanId, (s.chan n).pauseWaits = false ∧ (s.chan n).releaseWaits = false) →
    s.chanBoundaries = s) ∧
  (∀ s : State, (∀ i : SlotId, (s.slot i).waiting = none) → s.slotBoundaries = s) ∧
  (∀ s : State, s.sbc.holder ≠ none ∨ (s.bcu.waiting = none ∧ (s.bcu.clock = .retuning → s.bcu.settling ≠ none)) →
    s.clockBoundary = s) ∧
  (∀ (s : State) (n : ChanId), s.burstContinues n = true ↔
    (s.chan n).demand = true ∧ s.sbc.burst < 16 ∧ s.chanRequests n = true ∧ s.sbc.debt < 4 ∧
      s.bcu.clock = .run ∧ s.bcu.waiting = none) ∧
  (∀ (s : State) (extension : Nat) (card : CardData), s.sbc.cycle = none →
    exec (.cycleEnd extension card) s = .next s) ∧
  ∀ (s : State) (c : Cycle) (extension : Nat) (card : CardData), s.sbc.cycle = some c →
    (if c.kind = .refresh then 0 else c.limit) < extension → exec (.cycleEnd extension card) s = .next s

/-- READY_TIMEOUT ends a cycle with a target at base, wait states and ready limit: the slot's fault count rises, its last
fault is this one, its BUS_FAULT record is raised; the result is TIMED_OUT with all ones for a read (0 as a write's
data, log 20); a transfer is not applied and its channel halts BUS_TIMEOUT, an access takes the result as timed out. The
rest follows as at a cycle's end (log 14). Without such a cycle nothing changes (log 2). R23, R25, R27, R35, R36, R126. -/
def Obligations.ReadyTimeoutFaultsTheSlot : Prop :=
  (∀ (s : State) (c : Cycle) (i : SlotId), s.sbc.cycle = some c → c.target = some i →
    let fault : LastFault := ⟨.readyTimeout, s.bcu.timeBase, c.kind,
      (match c.kind with
        | .ioByteRead | .ioByteWrite | .ioWordRead | .ioWordWrite => some .io
        | .memByteRead | .memByteWrite | .memWordRead | .memWordWrite => some .mem
        | .transferOut | .transferIn | .refresh => none),
      (match s.sbc.holder with
        | some (.channel n) => n.val
        | _ => c.address)⟩
    let wide := match s.sbc.holder with
      | some (.channel n) => decide (4 ≤ n.val)
      | _ => c.kind.wide
    let data : Half := if c.kind.reads then (if wide then 0xFFFF else 0x00FF) else 0
    let u : State := { s with sbc := { s.sbc with
      cycle := none, lastResult := some ⟨.timedOut, data, some i, c.length + c.limit⟩
      faults := s.sbc.faults.set i ⟨(s.faultRecord i).count + 1, some fault, true⟩ } }
    (∀ n : ChanId, s.sbc.holder = some (.channel n) → exec .readyTimeout s = .next
      ((({ u with sbc := { u.sbc with burst := u.sbc.burst + 1 } } : State).modChan n fun x =>
        { x with state := .halted, cause := .busTimeout,
                 notice := { x.notice with raised := true, events := { x.notice.events with halted := true } } }
      ).chanBoundaries.slotBoundaries.continueGrant.settle)) ∧
    (s.sbc.holder = some .ae → exec .readyTimeout s = .next
      (u.takeAccessResult true data).chanBoundaries.slotBoundaries.continueGrant.settle)) ∧
  ∀ s : State, s.sbc.cycle = none ∨ (∃ c, s.sbc.cycle = some c ∧ c.target = none) → exec .readyTimeout s = .next s

/-- The arbiter grants only while the bus is FREE, the clock is RUN and nothing waits to stop it, and then to the first
request standing: refresh at debt 4, the lowest-numbered channel, refresh at debt 1 or more, the Access Engine. A
channel asks while it is RUNNING, its slot ENABLED, its TRQn asserted and it can act. The cycle a grant begins: a
refresh connects every ENABLED slot and drives the row; a transfer, real or a fill or drop by the level, connects its
slot, drives address 0 and, for OUT, the ring's bytes at take or last delivered, with EOB when remaining is 1; an access
cycle connects its slot if that is ENABLED, or ISOLATED and the cycle slot-direct, and is REFUSED otherwise (length 0,
log 20), which frees the bus and ends the access NOT_READY. Each takes its base length, the wait states of its class and
the ready limit in force. R4, R19, R20, R22, R24, R30 to R32, R49, R94, R118, R119. -/
def Obligations.ArbiterGrantsInOrder : Prop :=
  let limit (s : State) := s.sbc.readyLimit * 48 / s.bcu.divider
  let only (i : SlotId) : Vector Bool 4 := Vector.ofFn fun j => decide (j = i)
  (∀ s : State, s.beginRefresh = { s with sbc := { s.sbc with
    holder := some .refresh
    cycle := some {
      kind := .refresh, target := none, connected := Vector.ofFn fun i => decide ((s.slot i).state = .enabled)
      address := s.sbc.row.toNat, driven := 0, length := 4, limit := limit s, eob := false, transfer := .real
      direct := false } } }) ∧
  (∀ (s : State) (n : ChanId),
    let c := s.chan n
    let w := if n.val < 4 then 1 else 2
    let out : Prop := c.direction = .out
    let real : Prop := if out then w ≤ c.level else w ≤ c.freeSpace
    let byte (p : Word) := Memory.read s.stm.bytes (c.address p)
    s.beginTransfer n = { s with sbc := { s.sbc with
      holder := some (.channel n)
      cycle := some {
        kind := if out then .transferOut else .transferIn
        target := some c.slot, connected := only c.slot, address := 0
        driven := if ¬ out then 0 else if ¬ real then c.lastDelivered
          else (if n.val < 4 then (0 : Byte) else byte (c.take + 1)) ++ byte c.take
        length := 5 + s.sbc.timing[c.cls].ioWs, limit := limit s, eob := decide (c.remaining = 1)
        transfer := if real then .real else .filler, direct := false } } }) ∧
  (∀ (s : State) (u : AccessUnit) (us : List AccessUnit) (p : CyclePlan) (ps : List CyclePlan),
    s.ae.units = u :: us → u.cycles = p :: ps →
    let connects : Prop := (s.slot p.slot).state = .enabled ∨ (p.direct = true ∧ (s.slot p.slot).state = .isolated)
    let waits := s.sbc.timing[p.cls]
    (connects → s.beginAccessCycle = { s with
      ae := { s.ae with phase := .running }
      sbc := { s.sbc with
        holder := some .ae
        cycle := some {
          kind := p.kind, target := some p.slot, connected := only p.slot, address := p.address, driven := p.driven
          length := match p.kind with
            | .ioByteRead | .ioByteWrite => 6 + waits.ioWs
            | .ioWordRead | .ioWordWrite => 3 + waits.ioWs
            | .memByteRead | .memByteWrite => 6 + waits.memWs
            | .memWordRead | .memWordWrite => 3 + waits.memWs
            | .transferOut | .transferIn => 5 + waits.ioWs
            | .refresh => 4
          limit := limit s, eob := false, transfer := .real, direct := p.direct } } }) ∧
    (¬ connects → s.beginAccessCycle = ({ s with sbc := { s.sbc with
      holder := none, burst := 0, cycle := none, lastResult := some ⟨.refused, 0, some p.slot, 0⟩ } } :
        State).endAccess .notReady)) ∧
  (∀ s : State, s.sbc.holder ≠ none ∨ s.bcu.clock ≠ .run ∨ s.bcu.waiting ≠ none → s.arbitrate = s) ∧
  (∀ s : State, s.sbc.holder = none → s.bcu.clock = .run → s.bcu.waiting = none →
    (4 ≤ s.sbc.debt → s.arbitrate = s.beginRefresh) ∧
    (∀ n : ChanId, s.sbc.debt < 4 → s.chanRequests n = true → (∀ m < n, s.chanRequests m = false) →
      s.arbitrate = s.beginTransfer n) ∧
    (s.sbc.debt < 4 → (∀ n, s.chanRequests n = false) → 1 ≤ s.sbc.debt → s.arbitrate = s.beginRefresh) ∧
    (s.sbc.debt = 0 → (∀ n, s.chanRequests n = false) → s.ae.phase = .waiting →
      s.arbitrate = s.beginAccessCycle) ∧
    (s.sbc.debt = 0 → (∀ n, s.chanRequests n = false) → s.ae.phase ≠ .waiting → s.arbitrate = s)) ∧
  ∀ (s : State) (n : ChanId), s.chanRequests n = true ↔
    (s.chan n).state = .running ∧ (s.slot (s.chan n).slot).state = .enabled ∧ s.trq (s.chan n).slot n = true ∧
      (match (s.chan n).direction with
        | .out => chanWidth n ≤ (s.chan n).level ∨ (s.chan n).policy = .hold
        | .into => chanWidth n ≤ (s.chan n).freeSpace ∨ (s.chan n).policy = .drop)

/-! ## Slot power and isolation -/

/-- POWER_ON by the first check that fails: a slot above 3 gives BAD_ARG (log 17); FAULT gives FAULTED; POWERING,
RESETTING, ENABLED and ISOLATED give OK with no change; OFF with an active cooldown gives COOLDOWN; OFF while the clock
is not RUN or a CLOCK_STOP waits gives NO_CLOCK; otherwise the power-on sequence begins (POWERING, 2000 µs, peak 0, soft
run 0, the return state kept, log 21) and the reply is deferred. Every refusal reports the slot, its last trip and its
cooldown and alters nothing. R51 to R53, R190. -/
def Obligations.PowerOnByTheFirstCheck : Prop :=
  (∀ (s : State) (tag : Half) (i : SlotId) (slot : Byte), s.ready .command → slot.toNat = i.val →
    let left := match (s.slot i).cooldown with
      | some n => n
      | none => 0
    let answer (code : Byte) := s.replyAtOnce ⟨0xA0, code, tag,
      [slot, (s.slot i).state.code, if (s.slot i).present then 1 else 0] ++ le 2 (s.slot i).current ++
        tripRecord (s.slot i).lastTrip ++ le 4 left⟩
    ((s.slot i).state = .fault → exec (.powerOn tag slot) s = .next (answer 0x25)) ∧
    ((s.slot i).state = .powering ∨ (s.slot i).state = .resetting ∨ (s.slot i).state = .enabled ∨
      (s.slot i).state = .isolated → exec (.powerOn tag slot) s = .next (answer 0x00)) ∧
    ((s.slot i).state = .off → 0 < left → exec (.powerOn tag slot) s = .next (answer 0x24)) ∧
    ((s.slot i).state = .off → left = 0 → s.bcu.clock ≠ .run ∨ s.bcu.waiting = some .clockStop →
      exec (.powerOn tag slot) s = .next (answer 0x22)) ∧
    ((s.slot i).state = .off → left = 0 → s.bcu.clock = .run → s.bcu.waiting ≠ some .clockStop →
      exec (.powerOn tag slot) s = .next ((s.beginRequest .command 0x20 tag).modSlot i fun t =>
        { t with state := .powering, softRun := 0, peak := 0, deferred := some .powerOn,
                 sequence := some (.powering 2000) }))) ∧
  ∀ (s : State) (tag : Half) (slot : Byte), s.ready .command → 3 < slot.toNat →
    exec (.powerOn tag slot) s = .next (s.replyAtOnce ⟨0xA0, 0x13, tag, [slot] ++ List.replicate 15 0⟩)

/-- POWER_OFF by the slot's state: BUSY while an orderly change waits; from ENABLED or ISOLATED the change is orderly and
made in the same event when no cycle connects the slot, and waits otherwise; from POWERING, RESETTING and FAULT the slot
is OFF at once; in OFF it answers OK. A slot above 3 is refused with BAD_ARG (log 17). A change that waits stays while a
cycle connects the slot; at its boundary, as after CYCLE_END, the slot enters OFF and the deferred reply, if a link reset
has left one, is sent OK. R50, R51, R55, R65, R190. -/
def Obligations.PowerOffBySlotState : Prop :=
  (∀ (s : State) (tag : Half) (i : SlotId) (slot : Byte), s.ready .command → slot.toNat = i.val →
    let answer (u : State) (code : Byte) := u.replyAtOnce ⟨0xA1, code, tag, u.slotReply i⟩
    let waits := (s.beginRequest .command 0x21 tag).modSlot i fun t =>
      { t with waiting := some .powerOff, deferred := some .powerOff }
    ((s.slot i).waiting ≠ none → exec (.powerOff tag slot) s = .next (answer s 0x20)) ∧
    ((s.slot i).waiting = none → (s.slot i).state = .enabled ∨ (s.slot i).state = .isolated →
      exec (.powerOff tag slot) s = .next waits.settle ∧
      (waits.settle.slot i).state = if s.connects i = true then (s.slot i).state else .off) ∧
    ((s.slot i).waiting = none → (s.slot i).state = .powering ∨ (s.slot i).state = .resetting ∨
      (s.slot i).state = .fault →
      exec (.powerOff tag slot) s = .next (answer ((s.updRmap fun m => m.clearSlot i).modSlot i fun t =>
        { t with state := .off, softRun := 0, sequence := none }) 0x00)) ∧
    ((s.slot i).waiting = none → (s.slot i).state = .off →
      exec (.powerOff tag slot) s = .next (answer s 0x00))) ∧
  (∀ (s : State) (i : SlotId), (s.slot i).waiting = some .powerOff →
    (s.connects i = true → s.slotBoundary i = s) ∧
    (s.connects i = false → s.slotBoundary i =
      ((s.modSlot i fun t => { t with waiting := none }).enterState i .off).answerSlot i .ok)) ∧
  (∀ (s : State) (i : SlotId) (status : Status),
    ((s.slot i).deferred = none → s.answerSlot i status = s) ∧
    ((s.slot i).deferred = some .powerOff → s.answerSlot i status =
      (s.modSlot i fun t => { t with deferred := none }).replyCommand status (s.slotReply i))) ∧
  ∀ (s : State) (tag : Half) (slot : Byte), s.ready .command → 3 < slot.toNat →
    exec (.powerOff tag slot) s = .next (s.replyAtOnce ⟨0xA1, 0x13, tag, [slot] ++ List.replicate 15 0⟩)

/-- ISOLATE: BUSY while an orderly change waits; from ENABLED the orderly change, made in the same event when no cycle
connects the slot; OK in ISOLATED; NOT_READY otherwise. CONNECT: from ISOLATED the slot is ENABLED at once, whatever the
clock; OK in ENABLED; NOT_READY otherwise. A slot above 3 is refused with BAD_ARG (log 17). A change that waits stays
while a cycle connects the slot; at its boundary the slot enters ISOLATED and a deferred reply is sent OK. R50, R51,
R56, R57, R190. -/
def Obligations.IsolateAndConnectBySlotState : Prop :=
  (∀ (s : State) (tag : Half) (i : SlotId) (slot : Byte), s.ready .command → slot.toNat = i.val →
    let answer (code : Byte) := s.replyAtOnce ⟨0xA2, code, tag, s.slotReply i⟩
    let waits := (s.beginRequest .command 0x22 tag).modSlot i fun t =>
      { t with waiting := some .isolate, deferred := some .isolate }
    ((s.slot i).waiting ≠ none → exec (.isolate tag slot) s = .next (answer 0x20)) ∧
    ((s.slot i).waiting = none → (s.slot i).state = .enabled →
      exec (.isolate tag slot) s = .next waits.settle ∧
      (waits.settle.slot i).state = if s.connects i = true then .enabled else .isolated) ∧
    ((s.slot i).waiting = none → (s.slot i).state = .isolated → exec (.isolate tag slot) s = .next (answer 0x00)) ∧
    ((s.slot i).waiting = none → (s.slot i).state = .off ∨ (s.slot i).state = .powering ∨
      (s.slot i).state = .resetting ∨ (s.slot i).state = .fault →
      exec (.isolate tag slot) s = .next (answer 0x21))) ∧
  (∀ (s : State) (i : SlotId), (s.slot i).waiting = some .isolate →
    (s.connects i = true → s.slotBoundary i = s) ∧
    (s.connects i = false → s.slotBoundary i =
      ((s.modSlot i fun t => { t with waiting := none }).enterState i .isolated).answerSlot i .ok)) ∧
  (∀ (s : State) (i : SlotId) (status : Status), (s.slot i).deferred = some .isolate → s.answerSlot i status =
    (s.modSlot i fun t => { t with deferred := none }).replyCommand status (s.slotReply i)) ∧
  (∀ (s : State) (tag : Half) (slot : Byte), s.ready .command → 3 < slot.toNat →
    exec (.isolate tag slot) s = .next (s.replyAtOnce ⟨0xA2, 0x13, tag, [slot] ++ List.replicate 15 0⟩) ∧
    exec (.connect tag slot) s = .next (s.replyAtOnce ⟨0xA3, 0x13, tag, [slot] ++ List.replicate 15 0⟩)) ∧
  ∀ (s : State) (tag : Half) (i : SlotId) (slot : Byte), s.ready .command → slot.toNat = i.val →
    let answer (u : State) (code : Byte) := u.replyAtOnce ⟨0xA3, code, tag, u.slotReply i⟩
    ((s.slot i).state = .isolated → exec (.connect tag slot) s = .next (answer (s.enterState i .enabled) 0x00).admitOffers) ∧
    ((s.slot i).state = .enabled → exec (.connect tag slot) s = .next (answer s 0x00)) ∧
    ((s.slot i).state = .off ∨ (s.slot i).state = .powering ∨ (s.slot i).state = .resetting ∨
      (s.slot i).state = .fault → exec (.connect tag slot) s = .next (answer s 0x21))

/-- SLOT_RESET takes width 0 as 1 with CLAMPED set in every reply (log 17). A slot above 3 is refused with BAD_ARG.
While an orderly change waits it is refused with BUSY (before the clock, log 16), then with NO_CLOCK unless the clock is
RUN, then with NOT_READY unless the slot is ENABLED or ISOLATED. Otherwise its state becomes the return state and the
change into RESETTING is orderly, made in the same event when no cycle connects the slot, and else at the boundary of
that cycle; RESETTING lasts the width in ms. Its deferred reply carries the width taken and CLAMPED, whatever its
status. R50, R51, R58, R59, R190. -/
def Obligations.SlotResetByTheFirstCheck : Prop :=
  (∀ (s : State) (tag : Half) (i : SlotId) (slot width : Byte), s.ready .command → slot.toNat = i.val →
    let taken := if width = 0 then 1 else width.toNat
    let refuse (code : Byte) := s.replyAtOnce
      ⟨0xA4, code, tag, s.slotReply i ++ [BitVec.ofNat 8 taken, if width = 0 then 1 else 0]⟩
    let waits := (s.beginRequest .command 0x24 tag).modSlot i fun t =>
      { t with returnState := if t.state = .isolated then .isolated else .enabled,
               waiting := some (.slotReset taken), deferred := some (.slotReset taken (decide (width = 0))) }
    ((s.slot i).waiting ≠ none → exec (.slotReset tag slot width) s = .next (refuse 0x20)) ∧
    ((s.slot i).waiting = none → s.bcu.clock ≠ .run → exec (.slotReset tag slot width) s = .next (refuse 0x22)) ∧
    ((s.slot i).waiting = none → s.bcu.clock = .run → (s.slot i).state ≠ .enabled → (s.slot i).state ≠ .isolated →
      exec (.slotReset tag slot width) s = .next (refuse 0x21)) ∧
    ((s.slot i).waiting = none → s.bcu.clock = .run → (s.slot i).state = .enabled ∨ (s.slot i).state = .isolated →
      exec (.slotReset tag slot width) s = .next waits.settle ∧
      (s.connects i = false → (waits.settle.slot i).state = .resetting ∧
        (waits.settle.slot i).sequence = some (.slotReset (taken * 1000))) ∧
      (s.connects i = true → (waits.settle.slot i).state = (s.slot i).state ∧
        (waits.settle.slot i).waiting = some (.slotReset taken)))) ∧
  (∀ (s : State) (tag : Half) (slot width : Byte), s.ready .command → 3 < slot.toNat →
    exec (.slotReset tag slot width) s = .next (s.replyAtOnce ⟨0xA4, 0x13, tag, [slot] ++ List.replicate 15 0 ++
      [if width = 0 then 1 else width, if width = 0 then 1 else 0]⟩)) ∧
  (∀ (s : State) (i : SlotId) (width : Nat), (s.slot i).waiting = some (.slotReset width) →
    (s.connects i = true → s.slotBoundary i = s) ∧
    (s.connects i = false → s.slotBoundary i =
      ((s.modSlot i fun t => { t with waiting := none }).enterState i .resetting).modSlot i fun t =>
        { t with sequence := some (.slotReset (width * 1000)) })) ∧
  ∀ (s : State) (i : SlotId) (status : Status) (width : Nat) (clamped : Bool),
    (s.slot i).deferred = some (.slotReset width clamped) → s.answerSlot i status =
      (s.modSlot i fun t => { t with deferred := none }).replyCommand status
        (s.slotReply i ++ [BitVec.ofNat 8 width, if clamped then 1 else 0])

/-- SET_LIMIT in every slot state: below 100 is taken as 100, above 3000 as 3000, and between them rounded down to a
multiple of 50, with CLAMPED set when that changed the value; the reply gives the limit and min(2 × limit, 4000). Only the
slot's limit changes. A slot above 3 is refused with BAD_ARG (log 17). R46, R51, R60, R190. -/
def Obligations.SetLimitTakesALimit : Prop :=
  (∀ (s : State) (tag limit : Half) (slot : Byte), s.ready .command → 3 < slot.toNat →
    exec (.setLimit tag slot limit) s = .next (s.replyAtOnce ⟨0xA5, 0x13, tag, [slot] ++ List.replicate 9 0⟩)) ∧
  ∀ (s : State) (tag limit : Half) (i : SlotId) (slot : Byte), s.ready .command → slot.toNat = i.val →
    let given := limit.toNat
    ∃ taken : Nat,
      (given < 100 → taken = 100) ∧ (3000 < given → taken = 3000) ∧
      (100 ≤ given → given ≤ 3000 → taken ≤ given ∧ given < taken + 50 ∧ 50 ∣ taken) ∧
      exec (.setLimit tag slot limit) s = .next ((s.modSlot i fun t => { t with limit := taken }).replyAtOnce
        ⟨0xA5, 0x00, tag, s.slotReport i ++ le 2 taken ++ le 2 (if 2 * taken < 4000 then 2 * taken else 4000) ++
          [if taken = given then 0 else 1]⟩)

/-- SLOT_STATUS answers OK at once, in every slot and clock state, with the slot record and the slot's fault record,
absent trips and faults as zeros, and changes nothing. A slot above 3 is refused with BAD_ARG (log 17). R51, R61, R188,
R190. -/
def Obligations.SlotStatusReportsTheSlot : Prop :=
  (∀ (s : State) (tag : Half) (slot : Byte), s.ready .command → 3 < slot.toNat →
    exec (.slotStatus tag slot) s = .next (s.replyAtOnce ⟨0xA6, 0x13, tag, [slot] ++ List.replicate 35 0⟩)) ∧
  ∀ (s : State) (tag : Half) (i : SlotId) (slot : Byte), s.ready .command → slot.toNat = i.val →
    let t := s.slot i
    let r := s.faultRecord i
    exec (.slotStatus tag slot) s = .next (s.replyAtOnce ⟨0xA6, 0x00, tag,
      [slot, t.state.code, if t.present then (1 : Byte) else 0] ++ le 2 t.current ++
      [match t.returnState with
        | .enabled => (3 : Byte)
        | .isolated => 4] ++ le 2 t.limit ++ le 2 t.peak ++
      (match t.lastTrip with
        | some p => [(match p.kind with
            | .soft => (1 : Byte)
            | .hard => 2)] ++ le 4 p.time.toNat ++ le 2 p.current
        | none => List.replicate 7 0) ++
      le 4 (match t.cooldown with
        | some n => n
        | none => 0) ++ le 4 r.count.toNat ++
      (match r.last with
        | some f => [(match f.kind with
            | .readyTimeout => (1 : Byte)
            | .slotLost => 2)] ++ le 4 f.time.toNat ++ [f.cycle.code, (match f.space with
              | some .io => (0 : Byte)
              | some .mem => 1
              | none => 2)] ++ le 4 f.address
        | none => List.replicate 11 0)⟩)

/-- The slot timers, when due: COOLDOWN_END makes the cooldown inactive; POWERING_END enters RESETTING for 5000 µs and
clears the slot's shadow entries; RESETTING_END decides presence at 20 mA, enters ENABLED, the return state kept (log
21), and answers POWER_ON; SLOT_RESET_END returns the slot to its return state and answers SLOT_RESET. A reply that a
link reset took from the slot is not made. Not due, they change nothing (log 2, log 6). R48, R51, R53, R59, R65. -/
def Obligations.SlotTimersEnd : Prop :=
  (∀ (s : State) (i : SlotId) (status : Status),
    ((s.slot i).deferred = none → s.answerSlot i status = s) ∧
    ((s.slot i).deferred = some .powerOn → s.answerSlot i status =
      (s.modSlot i fun t => { t with deferred := none }).replyCommand status (s.slotReply i)) ∧
    ∀ (width : Nat) (clamped : Bool), (s.slot i).deferred = some (.slotReset width clamped) → s.answerSlot i status =
      (s.modSlot i fun t => { t with deferred := none }).replyCommand status
        (s.slotReply i ++ [BitVec.ofNat 8 width, if clamped then 1 else 0])) ∧
  ∀ (s : State) (i : SlotId),
    (exec (.cooldownEnd i) s = .next (
      if (s.slot i).cooldown = some 0 then s.modSlot i fun t => { t with cooldown := none } else s)) ∧
    ((s.slot i).state = .powering → (s.slot i).sequence = some (.powering 0) →
      exec (.poweringEnd i) s = .next ((s.updRmap fun m => m.clearSlot i).modSlot i fun t =>
        { t with state := .resetting, softRun := 0, sequence := some (.powerOnReset 5000) })) ∧
    ((s.slot i).state ≠ .powering ∨ (s.slot i).sequence ≠ some (.powering 0) →
      exec (.poweringEnd i) s = .next s) ∧
    ((s.slot i).state = .resetting → (s.slot i).sequence = some (.powerOnReset 0) →
      exec (.resettingEnd i) s = .next (((s.modSlot i fun t =>
        { t with state := .enabled, softRun := 0, sequence := none,
                 present := decide (20 ≤ t.current) }).watchSlot i).answerSlot i .ok).admitOffers) ∧
    ((s.slot i).state ≠ .resetting ∨ (s.slot i).sequence ≠ some (.powerOnReset 0) →
      exec (.resettingEnd i) s = .next s) ∧
    ((s.slot i).state = .resetting → (s.slot i).sequence = some (.slotReset 0) →
      exec (.slotResetEnd i) s = .next (
        let back := s.modSlot i fun t =>
          { t with state := (match t.returnState with
                     | .enabled => .enabled
                     | .isolated => .isolated), softRun := 0, sequence := none }
        ((if (s.slot i).returnState = .enabled then back.watchSlot i else back).answerSlot i .ok).admitOffers)) ∧
    ((s.slot i).state ≠ .resetting ∨ (s.slot i).sequence ≠ some (.slotReset 0) →
      exec (.slotResetEnd i) s = .next s)

/-- A measurement that is due measures the four slots, slot 0 first (log 19), and is due no more. A reading is the draw
rounded down to 10 mA, at most 4000, and 0 with the rails open; it becomes the current and raises the peak. POWERING trips
HARD at 4000; RESETTING, ENABLED and ISOLATED trip HARD above min(2 × limit, 4000), 4000 counting as above 4000, and SOFT
at a reading above the limit that finds the soft run at 10; below that the run counts, and a reading at or below the limit
ends it. A measurement that is not due changes nothing (log 2). R44, R45, R46. -/
def Obligations.MeasurementStoresAndCompares : Prop :=
  (∀ (s : State) (draw : Vector Nat 4), exec (.currentMeasurement draw) s = .next (
    if s.measure.due = true then
      (((({ s with measure := { s.measure with due := false } } : State).measureSlot 0 draw[0]).measureSlot 1
        draw[1]).measureSlot 2 draw[2]).measureSlot 3 draw[3] |>.settle
    else s)) ∧
  ∀ (s : State) (i : SlotId) (draw : Nat),
    let state := (s.slot i).state
    let limit := (s.slot i).limit
    let reading := if state = .off ∨ state = .fault then 0
      else if 4000 ≤ draw / 10 * 10 then 4000 else draw / 10 * 10
    let stored := s.modSlot i fun t => { t with current := reading, peak := if t.peak < reading then reading else t.peak }
    let hard := reading = 4000 ∨ (2 * limit < 4000 ∧ 2 * limit < reading)
    (state = .off ∨ state = .fault → s.measureSlot i draw = stored) ∧
    (state = .powering → s.measureSlot i draw = if reading = 4000 then stored.trip i .hard reading else stored) ∧
    (state = .resetting ∨ state = .enabled ∨ state = .isolated →
      (hard → s.measureSlot i draw = stored.trip i .hard reading) ∧
      (¬ hard → reading ≤ limit → s.measureSlot i draw = stored.modSlot i fun t => { t with softRun := 0 }) ∧
      (¬ hard → limit < reading → (s.slot i).softRun < 10 →
        s.measureSlot i draw = stored.modSlot i fun t => { t with softRun := t.softRun + 1 }) ∧
      (¬ hard → limit < reading → 10 ≤ (s.slot i).softRun → s.measureSlot i draw = stored.trip i .soft reading))

/-- A trip: the slot is in FAULT (or OFF, if a POWER_OFF waited, also for a refresh, log 27), with the trip recorded,
500,000 µs of cooldown, SLOT_FAULT raised and nothing waiting, running or deferred; the other slots are kept; the
RUNNING and PAUSED channels of an ENABLED slot are HALTED with SLOT_LOST, its inputs become IDLE and unwatched (log 23)
and their queued notices are withdrawn; the shadow entries of its windows are gone. A cycle that connects it records a
SLOT_LOST fault; a refresh goes on without it; any other is cut: the bus is FREE, the result CUT is handed with all ones
for a read and a free length (log 20), and an access ends NOT_READY. A deferred reply is sent, FAULTED, or OK to the
POWER_OFF that waited. R26, R27, R35, R36, R47, R54, R55, R62, R94, R128, R161, R167. -/
def Obligations.TripOpensTheSlot : Prop :=
  ∀ (s : State) (i : SlotId) (kind : TripKind) (reading : Nat), (s.slot i).state ≠ .fault →
    let t := s.trip i kind reading
    let leaves : Prop := (s.slot i).state = .enabled
    let off : Prop := (s.slot i).waiting = some .powerOff
    let cut : Bool := s.sbc.cycle.any fun c => c.connected[i] && decide (c.kind ≠ .refresh)
    let stopped : State := if cut = true ∧ s.sbc.holder = some .ae then s.endAccess .notReady else s
    t.slot i = { s.slot i with
      state := if off then .off else .fault
      softRun := 0, lastTrip := some ⟨kind, s.bcu.timeBase, reading⟩, cooldown := some 500000, faultRaised := true
      sequence := none, waiting := none, deferred := none } ∧
    (∀ j : SlotId, j ≠ i → t.slot j = s.slot j) ∧
    (∀ n : ChanId, t.chan n =
      if leaves ∧ (s.chan n).slot = i ∧ ((s.chan n).state = .running ∨ (s.chan n).state = .paused) then
        { s.chan n with state := .halted, cause := .slotLost,
                        notice := { (s.chan n).notice with raised := true,
                                                           events := { (s.chan n).notice.events with halted := true } } }
      else s.chan n) ∧
    (∀ x : InputId, t.input x = if leaves ∧ inputSlot x = i then { s.input x with
      state := .idle, active := false, run := 0, changeDue := false, again := false, againTime := 0, lost := 0,
      repeated := false, snapshot := [], queued := false } else s.input x) ∧
    t.rmap.windows = s.rmap.windows ∧
    t.rmap.shadow = s.rmap.shadow.filter (fun e => match s.rmap.windows[e.window] with
      | some w => decide (w.slot ≠ i)
      | none => true) ∧
    t.ae = stopped.ae ∧
    (let noted : State := { stopped with ml := { stopped.ml with
        notices := if leaves then s.ml.notices.filter fun n => match n.input with
          | some x => decide (¬ (inputSlot x = i ∧ (s.input x).queued = true))
          | none => true else s.ml.notices } }
      let status : Status := if off then .ok else .faulted
      t.ml = (match (s.slot i).deferred with
        | none => noted
        | some (.slotReset width clamped) => noted.replyCommand status
            (t.slotReply i ++ [BitVec.ofNat 8 width, if clamped then 1 else 0])
        | some _ => noted.replyCommand status (t.slotReply i)).ml) ∧
    (∀ c : Cycle, s.sbc.cycle = some c → c.connected[i] = true →
      let fault : LastFault := ⟨.slotLost, s.bcu.timeBase, c.kind,
        (match c.kind with
          | .ioByteRead | .ioByteWrite | .ioWordRead | .ioWordWrite => some .io
          | .memByteRead | .memByteWrite | .memWordRead | .memWordWrite => some .mem
          | .transferOut | .transferIn | .refresh => none),
        (match s.sbc.holder with
          | some (.channel n) => n.val
          | _ => c.address)⟩
      let wide := match s.sbc.holder with
        | some (.channel n) => decide (4 ≤ n.val)
        | _ => c.kind.wide
      let data : Half := if c.kind.reads then (if wide then 0xFFFF else 0x00FF) else 0
      let faults := s.sbc.faults.set i ⟨(s.faultRecord i).count + 1, some fault, true⟩
      (c.kind = .refresh → t.sbc = { s.sbc with
        faults := faults, cycle := some { c with connected := c.connected.set i false } }) ∧
      (c.kind ≠ .refresh → t.sbc = { s.sbc with
        faults := faults, cycle := none, holder := none, burst := 0
        lastResult := some ⟨.cut, data, some i, Config.cutLength s.free⟩ })) ∧
    (s.connects i = false → t.sbc = s.sbc) ∧ t.free = (if cut = true then s.free + 1 else s.free) ∧
    t.bcu = s.bcu ∧ t.stm = s.stm ∧ t.measure = s.measure ∧ t.cards = s.cards ∧ t.chanReply = s.chanReply ∧
    t.pending = s.pending

/-- A slot's change of state makes its announcements in the same event: on leaving ENABLED its RUNNING and PAUSED
channels are HALTED, SLOT_RESET on the way to RESETTING and SLOT_LOST otherwise, and its inputs become IDLE and
unwatched (their filtered levels INACTIVE, log 23), their queued notices withdrawn; on entering RESETTING, OFF or FAULT
its windows' shadow entries are removed; on entering ENABLED its configured inputs begin to be watched. R45, R62, R87,
R128, R154, R158, R161, R167. -/
def Obligations.SlotChangesAreAnnounced : Prop :=
  ∀ (s : State) (i : SlotId) (new : SlotState),
    let t := s.enterState i new
    let leaves : Prop := (s.slot i).state = .enabled ∧ new ≠ .enabled
    let enters : Prop := (s.slot i).state ≠ .enabled ∧ new = .enabled
    (∀ j : SlotId, t.slot j = if j = i then { s.slot i with state := new, softRun := 0 } else s.slot j) ∧
    (∀ n : ChanId, t.chan n =
      if leaves ∧ (s.chan n).slot = i ∧ ((s.chan n).state = .running ∨ (s.chan n).state = .paused) then
        { s.chan n with state := .halted, cause := if new = .resetting then .slotReset else .slotLost,
                        notice := { (s.chan n).notice with raised := true,
                                                           events := { (s.chan n).notice.events with halted := true } } }
      else s.chan n) ∧
    t.rmap.windows = s.rmap.windows ∧
    t.rmap.shadow = (if new = .resetting ∨ new = .off ∨ new = .fault then
      s.rmap.shadow.filter (fun e => match s.rmap.windows[e.window] with
        | some w => decide (w.slot ≠ i)
        | none => true) else s.rmap.shadow) ∧
    (∀ x : InputId, inputSlot x = i → leaves → t.input x = { s.input x with
      state := .idle, active := false, run := 0, changeDue := false, again := false, againTime := 0, lost := 0,
      repeated := false, snapshot := [], queued := false }) ∧
    (∀ x : InputId, inputSlot x = i → enters → (s.input x).mode ≠ .off →
      let y := s.input x
      let active := s.irlHigh x != y.activeLow
      t.input x =
        if y.mode = .level ∧ active = true ∧ y.state = .idle then
          { y with active := active, run := 0, changeDue := false, state := .pending, captureTime := s.bcu.timeBase,
                   snapshot := s.takeSnapshot i, repeated := false }
        else { y with active := active, run := 0, changeDue := false }) ∧
    (∀ x : InputId, inputSlot x ≠ i ∨ (¬ leaves ∧ ¬ enters) ∨ (enters ∧ (s.input x).mode = .off) →
      t.input x = s.input x) ∧
    t.ml = (if leaves then { s.ml with notices := s.ml.notices.filter fun n => match n.input with
        | some x => decide (¬ (inputSlot x = i ∧ (s.input x).queued = true))
        | none => true } else s.ml) ∧
    t.bcu = s.bcu ∧ t.sbc = s.sbc ∧ t.measure = s.measure ∧ t.ae = s.ae ∧ t.chanReply = s.chanReply ∧
    t.stm = s.stm ∧ t.cards = s.cards ∧ t.free = s.free ∧ t.pending = s.pending

/-! ## The resource map -/

/-- MAP_ADD makes its checks in order: IN_USE for an ACTIVE id, BAD_ARG for a field out of range or two that do not agree,
BAD_ALIGN for a base that is no multiple of the size, OVERLAP naming the lowest id that claims an address in common;
otherwise the record takes the fields and is ACTIVE. The reply echoes the record, and no check looks at a slot or the
clock. The overlap clauses are stated where the windows are sound (R69's last sentence, an invariant of its own below).
R67 to R70. -/
def Obligations.MapAddMakesItsChecksInOrder : Prop :=
  ∀ (s : State) (tag : Half) (f : WindowFields), s.ready .command →
    let answer (u : State) (code other : Byte) := u.replyAtOnce ⟨0xA8, code, tag, windowBytes f ++ [other]⟩
    let active : Prop := ∃ i : WindowId, f.id.toNat = i.val ∧ s.rmap.windows[i] ≠ none
    let badArg : Prop := 31 < f.id.toNat ∨ 3 < f.slot.toNat ∨ 1 < f.space.toNat ∨
      (f.space = 0 ∧ 0xFFFF < f.base.toNat) ∨ (f.space = 1 ∧ 0xFFFFFF < f.base.toNat) ∨
      (f.space = 0 ∧ ∀ k ≤ 10, f.size.toNat ≠ 2 ^ k) ∨
      (f.space = 1 ∧ ∀ k, 11 ≤ k → k ≤ 17 → f.size.toNat ≠ 2 ^ k) ∨
      (f.width ≠ 8 ∧ f.width ≠ 16) ∨ (f.width = 16 ∧ f.size = 1) ∨ 3 < f.cls.toNat ∨
      1 < f.shadow.toNat ∨ 1 < f.source.toNat ∨ (f.shadow = 1 ∧ f.space = 1) ∨ (f.source = 1 ∧ f.shadow = 0)
    (active → exec (.mapAdd tag f) s = .next (answer s 0x16 0xFF)) ∧
    (¬ active → badArg → exec (.mapAdd tag f) s = .next (answer s 0x13 0xFF)) ∧
    (¬ active → ¬ badArg → ∃ (id : WindowId) (w : Window),
      f.id.toNat = id.val ∧ f.slot.toNat = w.slot.val ∧ f.space = w.space.code ∧ f.base.toNat = w.base ∧
      f.size.toNat = w.size ∧ (w.wide = true ↔ f.width = 16) ∧ f.cls.toNat = w.cls.val ∧
      (w.shadow = true ↔ f.shadow = 1) ∧ (w.fromShadow = true ↔ f.source = 1) ∧
      (w.base % w.size ≠ 0 → exec (.mapAdd tag f) s = .next (answer s 0x14 0xFF)) ∧
      (w.base % w.size = 0 → s.WindowsSound →
        let shares (j : WindowId) : Prop := ∃ (v : Window) (a : Nat), s.rmap.windows[j] = some v ∧
          v.claims w.space a = true ∧ w.claims w.space a = true
        (∀ j : WindowId, shares j → (∀ k < j, ¬ shares k) →
          exec (.mapAdd tag f) s = .next (answer s 0x15 (BitVec.ofNat 8 j.val))) ∧
        ((∀ j, ¬ shares j) → exec (.mapAdd tag f) s = .next (answer
          { s with rmap := { s.rmap with windows := s.rmap.windows.set id (some w) } } 0x00 0xFF))))

/-- The other requests of the Resource Map, in every clock and slot state. MAP_REMOVE frees an ACTIVE record and removes
its Shadow List entries, and reports their number; BAD_ARG above 31, NO_WINDOW for a FREE one. MAP_LIST reports every
ACTIVE record in id order with its number of entries. SHADOW_READ reports the entry with the key or a miss. SHADOW_CLEAR
removes every entry or those of one window. A flag byte above 1 is refused with BAD_ARG; the rest of that reply is the
model's (log 17). R71, R72, R85, R86, R188. -/
def Obligations.MapAndShadowRequestsAnswer : Prop :=
  (∀ (s : State) (tag : Half) (id : Byte), s.ready .command →
    (31 < id.toNat → exec (.mapRemove tag id) s = .next (s.replyAtOnce ⟨0xA9, 0x13, tag, [id, 0, 0]⟩)) ∧
    ∀ i : WindowId, id.toNat = i.val →
      (s.rmap.windows[i] = none →
        exec (.mapRemove tag id) s = .next (s.replyAtOnce ⟨0xA9, 0x17, tag, [id, 0, 0]⟩)) ∧
      ∀ w, s.rmap.windows[i] = some w → exec (.mapRemove tag id) s = .next (
        { s with rmap := ⟨s.rmap.windows.set i none, s.rmap.shadow.filter fun e : ShadowEntry => decide (e.window ≠ i)⟩
          }.replyAtOnce ⟨0xA9, 0x00, tag,
            [id] ++ le 2 (s.rmap.shadow.countP fun e : ShadowEntry => decide (e.window = i))⟩)) ∧
  (∀ (s : State) (tag : Half), s.ready .command → exec (.mapList tag) s = .next (s.replyAtOnce ⟨0xAA, 0x00, tag,
    le 1 ((List.finRange 32).countP fun i => (s.rmap.windows[i]).isSome) ++ le 2 s.rmap.shadow.length ++
    (List.finRange 32).flatMap fun i => match s.rmap.windows[i] with
      | none => []
      | some w => [BitVec.ofNat 8 i.val, BitVec.ofNat 8 w.slot.val, w.space.code] ++ le 4 w.base ++ le 4 w.size ++
          [if w.wide then 16 else 8, BitVec.ofNat 8 w.cls.val, if w.shadow then 1 else 0,
            if w.fromShadow then 1 else 0] ++
          le 2 (s.rmap.shadow.countP fun e : ShadowEntry => decide (e.window = i))⟩)) ∧
  (∀ (s : State) (tag port : Half) (present index : Byte), s.ready .command →
    let key := if present = 1 then some index else none
    let answer (code : Byte) (rest : List Byte) :=
      s.replyAtOnce ⟨0xAB, code, tag, le 2 port.toNat ++ [present, index] ++ rest⟩
    (present = 0 ∨ present = 1 → ∀ e ∈ s.rmap.shadow, e.port = port → e.index = key →
      (∀ x ∈ s.rmap.shadow, x.port = port → x.index = key → x = e) →
      exec (.shadowRead tag port present index) s = .next (answer 0x00 [1, e.value, BitVec.ofNat 8 e.window.val])) ∧
    (present = 0 ∨ present = 1 → (∀ e ∈ s.rmap.shadow, ¬ (e.port = port ∧ e.index = key)) →
      exec (.shadowRead tag port present index) s = .next (answer 0x00 [0, 0xFF, 0xFF])) ∧
    (1 < present.toNat → exec (.shadowRead tag port present index) s = .next (answer 0x13 [0, 0xFF, 0xFF]))) ∧
  ∀ (s : State) (tag : Half) (present id : Byte), s.ready .command →
    let refuse (code : Byte) := s.replyAtOnce ⟨0xAC, code, tag, [0, 0] ++ le 2 s.rmap.shadow.length⟩
    (present = 0 → exec (.shadowClear tag present id) s = .next (
      { s with rmap := { s.rmap with shadow := [] } }.replyAtOnce
        ⟨0xAC, 0x00, tag, le 2 s.rmap.shadow.length ++ [0, 0]⟩)) ∧
    (present = 1 → 31 < id.toNat → exec (.shadowClear tag present id) s = .next (refuse 0x13)) ∧
    (∀ i : WindowId, present = 1 → id.toNat = i.val → s.rmap.windows[i] = none →
      exec (.shadowClear tag present id) s = .next (refuse 0x17)) ∧
    (∀ i : WindowId, present = 1 → id.toNat = i.val → s.rmap.windows[i] ≠ none →
      let kept := s.rmap.shadow.filter fun e : ShadowEntry => decide (e.window ≠ i)
      exec (.shadowClear tag present id) s = .next ({ s with rmap := { s.rmap with shadow := kept } }.replyAtOnce
        ⟨0xAC, 0x00, tag,
          le 2 (s.rmap.shadow.countP fun e : ShadowEntry => decide (e.window = i)) ++ le 2 kept.length⟩)) ∧
    (1 < present.toNat → exec (.shadowClear tag present id) s = .next (refuse 0x13))

/-- Recording a byte under a key: an entry with the key is replaced and moves to the newest end; a new key joins there,
and on a full list the oldest entry leaves first, so that a word with two new keys evicts the two oldest. A write cycle
that ended DONE or TIMED_OUT records its bytes in order, each for a window that is still ACTIVE, with shadow ON and
claiming the port as when it was routed (log 28). R81 to R84; the reply of the write, which says nothing of an eviction,
is stated with the accesses. -/
def Obligations.RecordingAByte : Prop :=
  (∀ (before after : List ShadowEntry) (old e : ShadowEntry), old.port = e.port → old.index = e.index →
    (∀ x ∈ before ++ after, ¬ (x.port = e.port ∧ x.index = e.index)) →
    recordShadow (before ++ old :: after) e = before ++ after ++ [e]) ∧
  (∀ (list : List ShadowEntry) (e : ShadowEntry), (∀ x ∈ list, ¬ (x.port = e.port ∧ x.index = e.index)) →
    list.length < 256 → recordShadow list e = list ++ [e]) ∧
  (∀ (oldest : ShadowEntry) (rest : List ShadowEntry) (e : ShadowEntry),
    (∀ x ∈ oldest :: rest, ¬ (x.port = e.port ∧ x.index = e.index)) → (oldest :: rest).length = 256 →
    recordShadow (oldest :: rest) e = rest ++ [e]) ∧
  (∀ (o p : ShadowEntry) (rest : List ShadowEntry) (lo hi : ShadowEntry), (o :: p :: rest).length = 256 →
    (∀ x ∈ o :: p :: rest, ¬ (x.port = lo.port ∧ x.index = lo.index)) →
    (∀ x ∈ o :: p :: rest, ¬ (x.port = hi.port ∧ x.index = hi.index)) → ¬ (lo.port = hi.port ∧ lo.index = hi.index) →
    recordShadow (recordShadow (o :: p :: rest) lo) hi = rest ++ [lo, hi]) ∧
  (∀ m : Rmap, m.recordAll [] = m) ∧
  (∀ (m : Rmap) (e : ShadowEntry) (es : List ShadowEntry), m.recordAll (e :: es) =
    (match m.windows[e.window] with
      | none => m
      | some w => if w.shadow = true ∧ w.claims .io e.port.toNat = true then
          { m with shadow := recordShadow m.shadow e } else m).recordAll es) ∧
  ∀ (s : State) (timedOut : Bool) (data : Half) (u : AccessUnit) (us : List AccessUnit) (p : CyclePlan)
    (ps : List CyclePlan), s.ae.units = u :: us → u.cycles = p :: ps →
    (s.takeAccessResult timedOut data).rmap = s.rmap.recordAll p.records

/-- R73: one byte position of a mapped unit is answered, in this order: FLOAT when no ACTIVE window claims its address;
NOT_READY when the window's slot is not ENABLED; from the Shadow List when the unit is a read and the window's read source
is SHADOW; a bus cycle to the window's slot otherwise. The clock is not looked at. -/
def Obligations.RoutingAnswersInOrder : Prop :=
  ∀ (s : State) (space : Space) (address : Nat) (read : Bool) (index : Option Byte),
    ((∀ (i : WindowId) (w : Window), s.rmap.windows[i] = some w → w.claims space address = false) →
      s.routePosition space address read index = .float) ∧
    (∀ (i : WindowId) (w : Window), s.rmap.windows[i] = some w → w.space = space → w.base ≤ address →
      address < w.base + w.size →
      (∀ (j : WindowId) (v : Window), s.rmap.windows[j] = some v → v.claims space address = true → j = i) →
      ((s.slot w.slot).state ≠ .enabled → s.routePosition space address read index = .notReady) ∧
      ((s.slot w.slot).state = .enabled → read = true → w.fromShadow = true →
        (∀ e ∈ s.rmap.shadow, e.port = BitVec.ofNat 16 address → e.index = index →
          (∀ x ∈ s.rmap.shadow, x.port = BitVec.ofNat 16 address → x.index = index → x = e) →
          s.routePosition space address read index = .shadow e.value true) ∧
        ((∀ e ∈ s.rmap.shadow, ¬ (e.port = BitVec.ofNat 16 address ∧ e.index = index)) →
          s.routePosition space address read index = .shadow 0xFF false)) ∧
      ((s.slot w.slot).state = .enabled → ¬ (read = true ∧ w.fromShadow = true) →
        s.routePosition space address read index = .cycle i w)) ∧
    ∀ b : Bcu, ({ s with bcu := b } : State).routePosition space address read index =
      s.routePosition space address read index

/-- Units are built from their positions. A byte unit, and a word unit in no wide window at an even address, runs each
position that needs a cycle as a byte cycle, low byte first, the high byte at the next address of the space; a FLOAT
position reads 0xFF and flags the unit, a shadow position reads its value; NOT_READY at any position stops the unit. A
word at an even address whose low position is a cycle of a width 16 window runs as one word cycle. A slot-direct unit
goes to its slot, ENABLED or ISOLATED, in class 3, at the unit's own width, a word at an odd address in two byte cycles,
each with its part of the unit, and leaves the Shadow List alone. R74 to R80, R82, R83. -/
def Obligations.UnitsRouteByPosition : Prop :=
  ∀ (s : State) (u : UnitRequest),
    let next := if u.address + 1 = u.space.size then 0 else u.address + 1
    let lo := s.routePosition u.space u.address (!u.write) u.index
    let hi := s.routePosition u.space next (!u.write) u.index
    let wholeWord : Prop := ∃ i w, lo = .cycle i w ∧ u.address % 2 = 0 ∧ w.wide = true
    let records (i : WindowId) (w : Window) (address : Nat) (value : Byte) : List ShadowEntry :=
      if u.write = true ∧ w.shadow = true then [⟨BitVec.ofNat 16 address, u.index, value, i⟩] else []
    let cycleOf (answer : Answer) (address : Nat) (value : Byte) (part : UnitPart) : List CyclePlan :=
      match answer with
      | .cycle i w => [⟨w.slot, cycleKind u.space false u.write, address, joinBytes value 0, w.cls, false, part,
          records i w address value⟩]
      | _ => []
    let byte (answer : Answer) : Byte := match answer with
      | .shadow v _ => v
      | _ => 0xFF
    u.address < u.space.size →
    (u.wide = false → lo = .notReady → s.routeUnit none u = none) ∧
    (u.wide = false → lo ≠ .notReady → ∃ v, s.routeUnit none u = some v ∧
      v.cycles = cycleOf lo u.address (lowByte u.value) .low ∧ v.read = !u.write ∧ v.wide = false ∧
      v.value = joinBytes (byte lo) 0 ∧ (v.unmapped = true ↔ lo = .float) ∧
      (v.miss = true ↔ ∃ b, lo = .shadow b false) ∧ v.timedOut = false) ∧
    (u.wide = true → wholeWord → ∃ i w, lo = .cycle i w ∧ s.routeUnit none u = some ⟨!u.write, true,
      [⟨w.slot, cycleKind u.space true u.write, u.address, u.value, w.cls, false, .word,
        records i w u.address (lowByte u.value) ++ records i w next (highByte u.value)⟩], 0xFFFF, false, false, false⟩) ∧
    (u.wide = true → ¬ wholeWord → lo = .notReady ∨ hi = .notReady → s.routeUnit none u = none) ∧
    (u.wide = true → ¬ wholeWord → lo ≠ .notReady → hi ≠ .notReady → ∃ v, s.routeUnit none u = some v ∧
      v.cycles = cycleOf lo u.address (lowByte u.value) .low ++ cycleOf hi next (highByte u.value) .high ∧
      v.read = !u.write ∧ v.wide = true ∧ v.value = joinBytes (byte lo) (byte hi) ∧
      (v.unmapped = true ↔ lo = .float ∨ hi = .float) ∧
      (v.miss = true ↔ (∃ b, lo = .shadow b false) ∨ ∃ b, hi = .shadow b false) ∧ v.timedOut = false) ∧
    ∀ i : SlotId,
      ((s.slot i).state ≠ .enabled → (s.slot i).state ≠ .isolated → s.routeUnit (some i) u = none) ∧
      ((s.slot i).state = .enabled ∨ (s.slot i).state = .isolated → ∃ v, s.routeUnit (some i) u = some v ∧
        v.read = !u.write ∧ v.wide = u.wide ∧ v.value = (if u.wide = true then 0xFFFF else 0x00FF) ∧
        v.unmapped = false ∧ v.miss = false ∧ v.timedOut = false ∧
        (∀ p ∈ v.cycles, p.slot = i ∧ p.cls = 3 ∧ p.direct = true ∧ p.records = []) ∧
        v.cycles.map (fun p => (p.kind, p.address, p.driven, p.part)) =
          if u.wide = false then [(cycleKind u.space false u.write, u.address, joinBytes (lowByte u.value) 0, .low)]
          else if u.address % 2 = 0 then [(cycleKind u.space true u.write, u.address, u.value, .word)]
          else [(cycleKind u.space false u.write, u.address, joinBytes (lowByte u.value) 0, .low),
            (cycleKind u.space false u.write, next, joinBytes (highByte u.value) 0, .high)])

/-- Every step keeps the windows aligned and apart, and the Shadow List within 256 entries of distinct keys, each of an
ACTIVE IO window with shadow ON that claims the entry's port. R69, R71, R81 to R84, R86, R87. -/
def Obligations.WindowsAndShadowStaySound : Prop :=
  ∀ s t : State, s.WindowsSound → s.ShadowSound → step s = .next t → t.WindowsSound ∧ t.ShadowSound

/-! ## Port and memory accesses -/

/-- IO_READ, IO_WRITE, MEM_READ and MEM_WRITE: BAD_ARG for a field out of range, BAD_LENGTH for a count of 0, over 1024
bytes, or data that does not fit it, then PARKED or NO_CLOCK by the clock; a refusal carries zero counts and no data. An
access that passes begins: its first unit is routed; NOT_READY ends it, a unit with cycles waits for the bus, and an
access whose every position is FLOAT completes at once with OK, its units done and UNMAPPED, and 0xFF for every byte
read. A unit that is done raises the counts it earned and appends a read's bytes, low byte first. At a unit boundary the
next unit is routed in the same way, and after the last the access ends OK; its reply carries the counts and the read
data. The fields of AE that a new access starts with are log 23's. R89 to R95, R74. -/
def Obligations.StringAccessesBegin : Prop :=
  (∀ (s : State) (tag : Half) (f : AccessFields) (given : List Byte) (write : Bool) (space : Space),
    let data := if write then given else []
    let command : Instr := match write, space with
      | false, .io => .ioRead tag f
      | true, .io => .ioWrite tag f data
      | false, .mem => .memRead tag f
      | true, .mem => .memWrite tag f data
    let kind : Byte := match write, space with
      | false, .io => 0x30
      | true, .io => 0x31
      | false, .mem => 0x32
      | true, .mem => 0x33
    let refuse (code : Byte) := s.replyAtOnce ⟨kind + 0x80, code, tag, List.replicate 16 0⟩
    let badArg : Prop := 1 < f.routing.toNat ∨ (f.routing = 1 ∧ 3 < f.slot.toNat) ∨ (f.width ≠ 8 ∧ f.width ≠ 16) ∨
      1 < f.step.toNat ∨ (space = .io ∧ 0xFFFF < f.address.toNat) ∨ (space = .mem ∧ 0xFFFFFF < f.address.toNat)
    let bytes := f.count.toNat * (if f.width = 16 then 2 else 1)
    let badLength : Prop := f.count = 0 ∨ 1024 < bytes ∨ (write = true ∧ data.length ≠ bytes)
    let a : StringAccess := ⟨write, space,
      if f.routing = 0 then none else some ⟨f.slot.toNat % 4, Nat.mod_lt _ (by omega)⟩,
      f.address.toNat, decide (f.width = 16), decide (f.step = 1), f.count.toNat, data⟩
    s.ready .command → data.length ≤ 1024 →
    (badArg → exec command s = .next (refuse 0x13)) ∧
    (¬ badArg → badLength → exec command s = .next (refuse 0x12)) ∧
    (¬ badArg → ¬ badLength → s.bcu.clock = .parked ∨ (s.bcu.clock = .run ∧ s.bcu.waiting = some .park) →
      exec command s = .next (refuse 0x23)) ∧
    (¬ badArg → ¬ badLength → s.bcu.clock = .stopped ∨ s.bcu.clock = .starting ∨ s.bcu.clock = .retuning ∨
      (s.bcu.clock = .run ∧ s.bcu.waiting = some .clockStop) → exec command s = .next (refuse 0x22)) ∧
    (¬ badArg → ¬ badLength → s.bcu.clock = .run → s.bcu.waiting = none →
      exec command s = .next ((s.beginRequest .command kind tag).beginAccess (.string a)).settle ∧
      (f.routing = 0 → (∀ k < a.count, ∀ d < (if f.width = 16 then 2 else 1), ∀ (i : WindowId) (w : Window),
          s.rmap.windows[i] = some w → w.claims space ((a.unitAddress k + d) % space.size) = false) →
        exec command s = .next ({ s.replyAtOnce ⟨kind + 0x80, 0x00, tag,
          le 4 a.count ++ le 4 0 ++ le 4 a.count ++ le 4 0 ++
            (if write then [] else List.replicate bytes 0xFF)⟩ with ae := {} } : State).settle))) ∧
  (∀ (s : State) (a : StringAccess), 1 ≤ a.count →
    (s.routeUnit a.direct (a.unitRequest 0) = none → s.beginAccess (.string a) =
      ({ s with ae := { phase := .routing, command := some (.string a) } } : State).endAccess .notReady) ∧
    ∀ u, s.routeUnit a.direct (a.unitRequest 0) = some u → u.cycles ≠ [] → s.beginAccess (.string a) =
      { s with ae := { phase := .waiting, command := some (.string a), units := [u] } }) ∧
  (∀ (a : Ae) (u : AccessUnit), (∀ p, a.command ≠ some (.poll p)) → a.unitDone u = { a with
    done := a.done + 1
    timedOut := if u.timedOut = true then a.timedOut + 1 else a.timedOut
    unmapped := if u.unmapped = true then a.unmapped + 1 else a.unmapped
    misses := if u.miss = true then a.misses + 1 else a.misses
    readData := if u.read = false then a.readData else if u.wide = true
      then a.readData ++ [lowByte u.value, highByte u.value] else a.readData ++ [lowByte u.value] }) ∧
  (∀ (a : Ae) (u : AccessUnit) (us : List AccessUnit), closeUnits [] a = { a with units := [] } ∧
    closeUnits (u :: us) a = if u.cycles = [] then closeUnits us (a.unitDone u) else { a with units := u :: us }) ∧
  ∀ (s : State) (a : StringAccess), s.ae.command = some (.string a) →
    s.accessPayload = le 4 s.ae.done ++ le 4 s.ae.timedOut ++ le 4 s.ae.unmapped ++ le 4 s.ae.misses ++ s.ae.readData ∧
    ((∀ r, s.ml.command = some r → r.claim = true) → s.ae.cancelTaken = false →
      let k := s.ae.unit + 1
      (a.count ≤ k → s.accessBoundary = s.endAccess .ok) ∧
      (k < a.count → s.routeUnit a.direct (a.unitRequest k) = none → s.accessBoundary = s.endAccess .notReady) ∧
      ∀ u, k < a.count → s.routeUnit a.direct (a.unitRequest k) = some u →
        (u.cycles ≠ [] → s.accessBoundary =
          { s with ae := { s.ae with phase := .waiting, unit := k, units := [u] } }) ∧
        (u.cycles = [] → s.accessBoundary =
          ({ s with ae := { s.ae.unitDone u with unit := k } } : State).accessBoundary))

/-- PAIR_WRITE and PAIR_READ: BAD_ARG for a field out of range, BAD_LENGTH for data that does not fit the width, then the
clock's refusals. Both units are routed before the bus is asked for: NOT_READY of either ends the access with every count
0; two units with cycles wait for one grant; two that need no cycle are done at once with OK. After both units the access
ends OK, with the counts and, for a read, the data unit's bytes. That the unit index stays 0 is the model's choice (log
30). R89, R90, R96, R97; log 15. -/
def Obligations.PairAccessesBegin : Prop :=
  (∀ (s : State) (tag : Half) (f : PairFields) (given : List Byte) (write : Bool),
    let data := if write then given else []
    let command : Instr := if write then .pairWrite tag f data else .pairRead tag f
    let kind : Byte := if write then 0x34 else 0x35
    let refuse (code : Byte) := s.replyAtOnce ⟨kind + 0x80, code, tag, List.replicate 16 0⟩
    let badArg : Prop := 1 < f.routing.toNat ∨ (f.routing = 1 ∧ 3 < f.slot.toNat) ∨ (f.width ≠ 8 ∧ f.width ≠ 16)
    let badLength : Prop := write = true ∧ data.length ≠ (if f.width = 16 then 2 else 1)
    let a : PairAccess := ⟨write, if f.routing = 0 then none else some ⟨f.slot.toNat % 4, Nat.mod_lt _ (by omega)⟩,
      f.indexPort, f.indexByte, f.dataPort, decide (f.width = 16), data⟩
    s.ready .command → (write = true → data.length = 1 ∨ data.length = 2) →
    (badArg → exec command s = .next (refuse 0x13)) ∧
    (¬ badArg → badLength → exec command s = .next (refuse 0x12)) ∧
    (¬ badArg → ¬ badLength → s.bcu.clock = .parked ∨ (s.bcu.clock = .run ∧ s.bcu.waiting = some .park) →
      exec command s = .next (refuse 0x23)) ∧
    (¬ badArg → ¬ badLength → s.bcu.clock = .stopped ∨ s.bcu.clock = .starting ∨ s.bcu.clock = .retuning ∨
      (s.bcu.clock = .run ∧ s.bcu.waiting = some .clockStop) → exec command s = .next (refuse 0x22)) ∧
    (¬ badArg → ¬ badLength → s.bcu.clock = .run → s.bcu.waiting = none →
      exec command s = .next ((s.beginRequest .command kind tag).beginAccess (.pair a)).settle)) ∧
  (∀ a : PairAccess, a.indexUnit = ⟨.io, a.indexPort.toNat, false, true, joinBytes a.indexByte 0, none⟩ ∧
    a.dataUnit = ⟨.io, a.dataPort.toNat, a.wide, a.write, joinBytes (a.data.getD 0 0) (a.data.getD 1 0),
      some a.indexByte⟩) ∧
  (∀ (s : State) (a : PairAccess), s.ae.command = some (.pair a) →
    s.accessPayload = le 4 s.ae.done ++ le 4 s.ae.timedOut ++ le 4 s.ae.unmapped ++ le 4 s.ae.misses ++ s.ae.readData ∧
    ((∀ r, s.ml.command = some r → r.claim = true) → s.ae.cancelTaken = false →
      s.accessBoundary = s.endAccess .ok)) ∧
  ∀ (s : State) (a : PairAccess),
    let begun : Ae := { phase := .routing, command := some (.pair a) }
    (s.routeUnit a.direct a.indexUnit = none ∨ s.routeUnit a.direct a.dataUnit = none →
      s.beginAccess (.pair a) = ({ s with ae := begun } : State).endAccess .notReady) ∧
    ∀ u v, s.routeUnit a.direct a.indexUnit = some u → s.routeUnit a.direct a.dataUnit = some v →
      (u.cycles ≠ [] → s.beginAccess (.pair a) = { s with ae := { begun with phase := .waiting, units := [u, v] } }) ∧
      (u.cycles = [] → v.cycles ≠ [] → s.beginAccess (.pair a) =
        { s with ae := { begun.unitDone u with phase := .waiting, units := [v] } }) ∧
      (u.cycles = [] → v.cycles = [] → s.beginAccess (.pair a) =
        ({ s with ae := { (begun.unitDone u).unitDone v with units := [] } } : State).endAccess .ok)

/-- POLL clamps its interval to 1000 and its timeout to 1,000,000, meets the checks of an access and begins its first
read, whose routing starts the elapsed time. After a read: MATCHED when the masked value meets the sense, else TIMEOUT
when the elapsed time has reached the timeout, else INTERVAL, after which POLL_INTERVAL_END routes the next read. A
refusal carries zero counts and all ones of the width; for a width that is none the value is free (log 11). With
interval 0 the next read follows a read on the bus at once, and a read without a cycle leaves AE in INTERVAL with
POLL_INTERVAL_END due (the model's choice, log 13). A read that is done becomes the last value, and the reply carries it
with the counts, CLAMPED and the elapsed time. That the unit index stays 0 is the model's choice (log 30). A
POLL_INTERVAL_END that is not due changes nothing (log 2). R90, R92, R93, R99, R100, R101. -/
def Obligations.PollReadsAndWaits : Prop :=
  (∀ (s : State) (tag : Half) (f : PollFields),
    let refuse (code : Byte) : State := s.replyAtOnce ⟨0xB6, code, tag, List.replicate 17 0 ++
      (if f.width = 16 then [0xFF, 0xFF] else if f.width = 8 then [0xFF, 0]
        else le 2 (Config.refusedPollValue s.free).toNat) ++ [0, 0, 0, 0]⟩
    let badArg : Prop := 1 < f.routing.toNat ∨ (f.routing = 1 ∧ 3 < f.slot.toNat) ∨ 1 < f.space.toNat ∨
      (f.width ≠ 8 ∧ f.width ≠ 16) ∨ 1 < f.sense.toNat ∨ (f.space = 0 ∧ 0xFFFF < f.address.toNat) ∨
      (f.space = 1 ∧ 0xFFFFFF < f.address.toNat)
    let a : PollAccess := ⟨if f.space = 0 then .io else .mem,
      if f.routing = 0 then none else some ⟨f.slot.toNat % 4, Nat.mod_lt _ (by omega)⟩, f.address.toNat,
      decide (f.width = 16), f.mask, f.wanted, decide (f.sense = 1),
      if 1000 < f.interval.toNat then 1000 else f.interval.toNat,
      if 1000000 < f.timeout.toNat then 1000000 else f.timeout.toNat,
      decide (1000 < f.interval.toNat ∨ 1000000 < f.timeout.toNat)⟩
    s.ready .command →
    (badArg → exec (.poll tag f) s = .next
      { refuse 0x13 with free := if f.width = 8 ∨ f.width = 16 then s.free else s.free + 1 }) ∧
    (¬ badArg → s.bcu.clock = .parked ∨ (s.bcu.clock = .run ∧ s.bcu.waiting = some .park) →
      exec (.poll tag f) s = .next (refuse 0x23)) ∧
    (¬ badArg → s.bcu.clock = .stopped ∨ s.bcu.clock = .starting ∨ s.bcu.clock = .retuning ∨
      (s.bcu.clock = .run ∧ s.bcu.waiting = some .clockStop) → exec (.poll tag f) s = .next (refuse 0x22)) ∧
    (¬ badArg → s.bcu.clock = .run → s.bcu.waiting = none → exec (.poll tag f) s = .next
      (runPoll a { s.beginRequest .command 0x36 tag with ae := { phase := .routing, command := some (.poll a) } }
        ).settle)) ∧
  (∀ (s : State) (a : PollAccess),
    let u : State := { s with ae := { s.ae with pollStart := match s.ae.pollStart with
      | some t => some t
      | none => some s.bcu.timeBase } }
    (s.routeUnit a.direct a.readUnit = none → runPoll a s = u.endAccess .notReady) ∧
    ∀ x, s.routeUnit a.direct a.readUnit = some x →
      (x.cycles ≠ [] → runPoll a s = { u with ae := { u.ae with phase := .waiting, units := [x] } }) ∧
      (x.cycles = [] → runPoll a s = decidePoll a { u with ae := u.ae.unitDone x })) ∧
  (∀ (s : State) (a : PollAccess) (v : Half) (start : Word), s.ae.lastValue = some v → s.ae.pollStart = some start →
    let masked (x : Half) : Half := if a.wide then x &&& a.mask else x &&& a.mask &&& 0x00FF
    let holds : Prop := if a.notEqual then masked v ≠ masked a.wanted else masked v = masked a.wanted
    (holds → decidePoll a s = s.endAccess .matched) ∧
    (¬ holds → a.timeout ≤ (s.bcu.timeBase - start).toNat → decidePoll a s = s.endAccess .timeout) ∧
    (¬ holds → (s.bcu.timeBase - start).toNat < a.timeout → decidePoll a s =
      { s with ae := { s.ae with phase := .interval, units := [], decidedAt := s.bcu.timeBase } }) ∧
    (s.ae.command = some (.poll a) → (∀ r, s.ml.command = some r → r.claim = true) → s.ae.cancelTaken = false →
      (holds → s.accessBoundary = s.endAccess .matched) ∧
      (¬ holds → a.timeout ≤ (s.bcu.timeBase - start).toNat → s.accessBoundary = s.endAccess .timeout) ∧
      (¬ holds → (s.bcu.timeBase - start).toNat < a.timeout →
        let waiting : State :=
          { s with ae := { s.ae with phase := .interval, units := [], decidedAt := s.bcu.timeBase } }
        s.accessBoundary = if a.interval = 0 then runPoll a waiting else waiting))) ∧
  (∀ (a : Ae) (p : PollAccess) (u : AccessUnit), a.command = some (.poll p) → a.unitDone u = { a with
    done := a.done + 1
    timedOut := if u.timedOut = true then a.timedOut + 1 else a.timedOut
    unmapped := if u.unmapped = true then a.unmapped + 1 else a.unmapped
    misses := if u.miss = true then a.misses + 1 else a.misses
    lastValue := some u.value }) ∧
  (∀ (s : State) (a : PollAccess), s.ae.command = some (.poll a) → s.accessPayload =
    le 4 s.ae.done ++ le 4 s.ae.timedOut ++ le 4 s.ae.unmapped ++ le 4 s.ae.misses ++ [if a.clamped then (1 : Byte) else 0] ++
    le 2 (match s.ae.lastValue with
      | some v => v.toNat
      | none => if a.wide then 0xFFFF else 0xFF) ++
    le 4 (match s.ae.pollStart with
      | some start => (s.bcu.timeBase - start).toNat
      | none => 0)) ∧
  (∀ (s : State) (a : PollAccess), s.ae.phase = .interval → s.ae.command = some (.poll a) →
    (a.interval ≤ (s.bcu.timeBase - s.ae.decidedAt).toNat → exec .pollIntervalEnd s = .next (runPoll a s).settle) ∧
    ((s.bcu.timeBase - s.ae.decidedAt).toNat < a.interval → exec .pollIntervalEnd s = .next s)) ∧
  ∀ s : State, s.ae.phase ≠ .interval → exec .pollIntervalEnd s = .next s

/-- CANCEL by the command in progress: NOTHING_TO_CANCEL when none has the target tag and its claim to a reply;
NOT_CANCELLABLE when it is no string access with a count above 1 and no POLL; otherwise the cancel is taken. In RUNNING it
waits for the unit in flight. Outside RUNNING the access ends at once: its CANCELLED reply stands before the OK reply of
the CANCEL, and AE is IDLE, its fields reset (log 23). At a unit boundary a command whose CANCEL was taken ends CANCELLED,
and one that lost its claim ends with no reply, a CANCEL with it. However an access ends, its reply stands before the OK
reply of the CANCEL that waited. R95, R102, R103, R106. -/
def Obligations.CancelByTheCommandInProgress : Prop :=
  (∀ (s : State) (r : Request), s.ml.command = some r → r.claim = true → s.ae.cancelTaken = true →
    s.accessBoundary = s.endAccess .cancelled) ∧
  (∀ (s : State) (r : Request), s.ml.command = some r → r.claim = false →
    (∀ q, s.ml.stream = some q → q.claim = false) → s.accessBoundary = { s with
      ae := {}
      ml := { s.ml with command := none, stream := if s.ae.cancelTaken = true then none else s.ml.stream } }) ∧
  (∀ (s : State) (status : Status) (r : Request), s.ml.command = some r → r.claim = true →
    let reply : Frame := ⟨r.kind + 0x80, status.code, r.tag, s.accessPayload⟩
    (s.ae.cancelTaken = false → s.endAccess status = { s with
      ae := {}
      ml := { s.ml with command := none, reserved := s.ml.reserved - 1, replies := s.ml.replies ++ [reply] } }) ∧
    ∀ q, s.ae.cancelTaken = true → s.ml.stream = some q → q.claim = true → s.endAccess status = { s with
      ae := {}
      ml := { s.ml with
        command := none, stream := none, reserved := s.ml.reserved - 2
        replies := s.ml.replies ++ [reply, ⟨q.kind + 0x80, 0x00, q.tag, le 2 r.tag.toNat⟩] } }) ∧
  ∀ (s : State) (tag target : Half), s.ready .stream →
    let echo := le 2 target.toNat
    let named : Prop := ∃ r, s.ml.command = some r ∧ r.claim = true ∧ r.tag = target
    let cancellable : Prop := ∃ a, s.ae.command = some a ∧ match a with
      | .string x => 1 < x.count
      | .pair _ => False
      | .poll _ => True
    (¬ named → exec (.cancel tag target) s = .next (s.replyAtOnce ⟨0xEB, 0x28, tag, echo⟩)) ∧
    (named → ¬ cancellable → exec (.cancel tag target) s = .next (s.replyAtOnce ⟨0xEB, 0x29, tag, echo⟩)) ∧
    (named → cancellable → s.ae.phase = .running → exec (.cancel tag target) s = .next
      { s.beginRequest .stream 0x6B tag with ae := { s.ae with cancelTaken := true } }) ∧
    ∀ r, s.ml.command = some r → r.claim = true → r.tag = target → cancellable → s.ae.phase ≠ .running →
      exec (.cancel tag target) s = .next { s with
        ae := {}
        ml := { s.ml with
          command := none, stream := none, reserved := s.ml.reserved - 1
          replies := s.ml.replies ++ [⟨r.kind + 0x80, 0x04, r.tag, s.accessPayload⟩, ⟨0xEB, 0x00, tag, echo⟩] } }

/-! ## Transfer channels -/

/-- CH_CONFIGURE: BUSY in RUNNING and PAUSED; BAD_ARG for a field out of range, a policy of the other direction or a fill
value above 0xFF on a byte channel; NO_SPACE when no start has the ring's pages FREE or the channel's own. Otherwise the
ring stands at the lowest such start, the channel's other pages are FREE, and the context is READY with the fields given,
the mark clamped to the ring size, positions and counters 0, cause NONE, flags clear and the record EMPTY. A refusal
changes nothing; its reply tells the ring and mark in force, and the NO_SPACE reply has CLAMPED set when the mark sent was
above the ring size (log 17). A channel above 5 is refused with BAD_ARG (log 17). R109 to R111, R132, R136 to R138,
R190. -/
def Obligations.ChConfigureByItsChecks : Prop :=
  (∀ (s : State) (tag : Half) (n : ChanId) (channel : Byte) (f : ConfigureFields), s.ready .command →
    channel.toNat = n.val →
    let report (u : State) (clamped : Byte) : List Byte :=
      u.channelReport n ++ (match (u.chan n).ring with
        | some r => [BitVec.ofNat 8 r.first, BitVec.ofNat 8 r.code]
        | none => [0xFF, 0xFF]) ++ le 4 (u.chan n).mark ++ [clamped]
    let clamped : Byte := if 1024 * 2 ^ f.sizeCode.toNat < f.mark.toNat then 1 else 0
    let refuse (code flags : Byte) := s.replyAtOnce ⟨0xB8, code, tag, report s flags⟩
    let busy : Prop := (s.chan n).state = .running ∨ (s.chan n).state = .paused
    let block := f.blockLength.toNat
    let badArg : Prop := 3 < f.slot.toNat ∨ 1 < f.direction.toNat ∨ 1 < f.service.toNat ∨ 3 < f.cls.toNat ∨
      block = 0 ∨ 65536 < block ∨ 1 < f.autoReload.toNat ∨ 6 < f.sizeCode.toNat ∨ 1 < f.markNotices.toNat ∨
      3 < f.policy.toNat ∨ (f.direction = 1 ∧ f.policy.toNat < 2) ∨ (f.direction = 0 ∧ 2 ≤ f.policy.toNat) ∨
      (n.val < 4 ∧ 0xFF < f.fill.toNat)
    let size := 2 ^ f.sizeCode.toNat
    let usable (start : Nat) : Prop := start + size ≤ 128 ∧ ∀ p : PageId, start ≤ p.val → p.val < start + size →
      s.stm.pages[p] = none ∨ s.stm.pages[p] = some n
    let command : Instr := .chConfigure tag channel f
    (busy → exec command s = .next (refuse 0x20 0)) ∧
    (¬ busy → badArg → exec command s = .next (refuse 0x13 0)) ∧
    (¬ busy → ¬ badArg → (∀ start, ¬ usable start) → exec command s = .next (refuse 0x19 clamped)) ∧
    ∀ start, ¬ busy → ¬ badArg → usable start → (∀ k < start, ¬ usable k) →
      ∃ (slot : SlotId) (cls : ClassId), slot.val = f.slot.toNat ∧ cls.val = f.cls.toNat ∧
      let new : Channel := {
        state := .ready, slot := slot, direction := if f.direction = 0 then .out else .into
        demand := decide (f.service = 1), cls := cls, blockLength := block, remaining := block
        autoReload := decide (f.autoReload = 1), ring := some ⟨start, f.sizeCode.toNat⟩, put := 0, take := 0
        mark := if 1024 * size < f.mark.toNat then 1024 * size else f.mark.toNat
        markNotices := decide (f.markNotices = 1), markArmed := true
        policy := if f.policy = 0 then .hold else if f.policy = 1 then .stall else if f.policy = 2 then .drop else .halt
        fill := f.fill, lastDelivered := f.fill, transfers := 0, blocksEnded := 0, lastBlockEnd := 0, underruns := 0
        overruns := 0, cause := .none, underrunEpisode := false, stallEpisode := false, overrunEpisode := false
        notice := ⟨false, {}, false⟩, pauseWaits := false, releaseWaits := false }
      ∃ t : State, exec command s = .next (t.replyAtOnce
          ⟨0xB8, 0x00, tag, report t clamped⟩) ∧
        t = { s with stm := ⟨t.stm.pages, s.stm.bytes⟩, chans := s.chans.set n new } ∧
        ∀ p : PageId, t.stm.pages[p] = if start ≤ p.val ∧ p.val < start + size then some n
          else if s.stm.pages[p] = some n then none else s.stm.pages[p]) ∧
  ∀ (s : State) (tag : Half) (channel : Byte) (f : ConfigureFields), s.ready .command → 5 < channel.toNat →
    exec (.chConfigure tag channel f) s = .next (s.replyAtOnce
      ⟨0xB8, 0x13, tag, [channel] ++ List.replicate 17 0⟩)

/-- CH_ARM, CH_RESUME and CH_CLEAR by the channel's state. CH_ARM takes READY and ENDED to RUNNING, from ENDED with a new
block, unless NO_CLOCK, PARKED or NOT_READY refuses, in this order. CH_RESUME takes PAUSED to RUNNING unless PARKED or
NO_CLOCK refuses. CH_CLEAR takes HALTED to READY with cause NONE and episode flags clear. In the other states the reply
tells and nothing changes. The reply stands before what the RUNNING channel does next (log 14). A channel above 5 is
refused with BAD_ARG (log 17). R109, R112, R114, R115, R190. -/
def Obligations.ChArmResumeClearByState : Prop :=
  (∀ (s : State) (tag : Half) (channel : Byte), s.ready .command → 5 < channel.toNat →
    let refuse (kind : Byte) := s.replyAtOnce ⟨kind, 0x13, tag, [channel] ++ List.replicate 10 0⟩
    exec (.chArm tag channel) s = .next (refuse 0xB9) ∧ exec (.chResume tag channel) s = .next (refuse 0xBB) ∧
    exec (.chClear tag channel) s = .next (refuse 0xBC)) ∧
  ∀ (s : State) (tag : Half) (n : ChanId) (channel : Byte), s.ready .command → channel.toNat = n.val →
    let c := s.chan n
    let arm (u : State) (code : Byte) := u.replyAtOnce ⟨0xB9, code, tag, u.channelReport n⟩
    let resume (u : State) (code : Byte) := u.replyAtOnce ⟨0xBB, code, tag, u.channelReport n⟩
    let clear (u : State) := u.replyAtOnce ⟨0xBC, 0x00, tag, u.channelReport n⟩
    let stopped : Prop := s.bcu.clock = .stopped ∨ s.bcu.waiting = some .clockStop
    let parked : Prop := s.bcu.clock = .parked ∨ s.bcu.waiting = some .park
    let startable : Prop := c.state = .ready ∨ c.state = .ended
    (c.state = .free → exec (.chArm tag channel) s = .next (arm s 0x18)) ∧
    (c.state = .running → exec (.chArm tag channel) s = .next (arm s 0x00)) ∧
    (c.state = .paused → exec (.chArm tag channel) s = .next (arm s 0x20)) ∧
    (c.state = .halted → exec (.chArm tag channel) s = .next (arm s 0x26)) ∧
    (startable → stopped → exec (.chArm tag channel) s = .next (arm s 0x22)) ∧
    (startable → ¬ stopped → parked → exec (.chArm tag channel) s = .next (arm s 0x23)) ∧
    (startable → ¬ stopped → ¬ parked → (s.slot c.slot).state ≠ .enabled →
      exec (.chArm tag channel) s = .next (arm s 0x21)) ∧
    (startable → ¬ stopped → ¬ parked → (s.slot c.slot).state = .enabled → exec (.chArm tag channel) s = .next
      (arm (s.modChan n fun c => { c with
        state := .running, remaining := if c.state = .ready then c.remaining else c.blockLength }) 0x00).settle) ∧
    (c.state = .free → exec (.chResume tag channel) s = .next (resume s 0x18)) ∧
    (c.state = .paused → parked → exec (.chResume tag channel) s = .next (resume s 0x23)) ∧
    (c.state = .paused → ¬ parked → s.bcu.clock = .stopped →
      exec (.chResume tag channel) s = .next (resume s 0x22)) ∧
    (c.state = .paused → ¬ parked → s.bcu.clock ≠ .stopped → exec (.chResume tag channel) s = .next
      (resume (s.modChan n fun c => { c with state := .running }) 0x00).settle) ∧
    (c.state = .ready ∨ c.state = .running ∨ c.state = .halted ∨ c.state = .ended →
      exec (.chResume tag channel) s = .next (resume s 0x00)) ∧
    (c.state = .halted → exec (.chClear tag channel) s = .next (clear (s.modChan n fun c => { c with
      state := .ready, cause := .none, underrunEpisode := false, stallEpisode := false, overrunEpisode := false }))) ∧
    (c.state ≠ .halted → exec (.chClear tag channel) s = .next (clear s))

/-- CH_PAUSE of a RUNNING channel and CH_RELEASE of one that is not FREE act at its transfer boundary: at once, with the
reply OK, when no cycle of it is on the bus; otherwise they wait, with the reply deferred. The pause is stated for a
channel with no release waiting and a slot with no change waiting. A released channel has its power-on values and owns
no page. In the other states the reply tells and nothing changes. At the boundary, as after CYCLE_END, a waiting release
is made, first if a pause waits too (log 29), and a waiting pause takes a channel that is still RUNNING to PAUSED; the
deferred reply is sent OK with the channel as it then stands. A channel above 5 is refused with BAD_ARG (log 17). R109,
R113, R116, R134, R139, R190. -/
def Obligations.ChPauseAndRelease : Prop :=
  (∀ (s : State) (tag : Half) (channel : Byte), s.ready .command → 5 < channel.toNat →
    let refuse (kind : Byte) := s.replyAtOnce ⟨kind, 0x13, tag, [channel] ++ List.replicate 10 0⟩
    exec (.chPause tag channel) s = .next (refuse 0xBA) ∧ exec (.chRelease tag channel) s = .next (refuse 0xBD)) ∧
  (∀ (s : State) (n : ChanId),
    let c := s.chan n
    (s.transferring n = true ∨ (c.pauseWaits = false ∧ c.releaseWaits = false) → s.chanBoundary n = s) ∧
    (s.transferring n = false → c.releaseWaits = true → s.chanBoundary n = ({ s with
      stm := { s.stm with pages := s.stm.pages.map fun o => if o = some n then none else o }
      chans := s.chans.set n (State.reset.chan n) } : State).answerChannel n) ∧
    (s.transferring n = false → c.releaseWaits = false → c.pauseWaits = true → s.chanBoundary n = ({ s with
      chans := s.chans.set n { c with
        pauseWaits := false, state := if c.state = .running then .paused else c.state } } : State).answerChannel n) ∧
    (s.chanReply ≠ some n → s.answerChannel n = s) ∧
    (s.chanReply = some n → s.answerChannel n = ({ s with chanReply := none } : State).replyCommand .ok
      ([BitVec.ofNat 8 n.val, c.state.code, c.cause.code] ++ le 4 c.remaining ++ le 4 (c.put - c.take).toNat))) ∧
  ∀ (s : State) (tag : Half) (n : ChanId) (channel : Byte), s.ready .command → channel.toNat = n.val →
    let c := s.chan n
    let pausing := (((s.beginRequest .command 0x3A tag).modChan n fun c => { c with pauseWaits := true }).setChanReply
      (some n)).settle
    let releasing := (((s.beginRequest .command 0x3D tag).modChan n fun c =>
      { c with releaseWaits := true }).setChanReply (some n)).settle
    (c.state = .free → exec (.chPause tag channel) s = .next (s.replyAtOnce ⟨0xBA, 0x18, tag, s.channelReport n⟩)) ∧
    (c.state = .ready ∨ c.state = .paused ∨ c.state = .halted ∨ c.state = .ended →
      exec (.chPause tag channel) s = .next (s.replyAtOnce ⟨0xBA, 0x00, tag, s.channelReport n⟩)) ∧
    (c.state = .running → exec (.chPause tag channel) s = .next pausing) ∧
    (c.state = .running → c.releaseWaits = false → (s.slot c.slot).waiting = none → s.transferring n = false →
      (pausing.chan n).state = .paused ∧ (pausing.chan n).pauseWaits = false ∧ pausing.chanReply = none ∧
      pausing.ml.command = none ∧ (⟨0xBA, 0x00, tag, [channel, 3, c.cause.code] ++ le 4 c.remaining ++ le 4 c.level⟩ :
        Frame) ∈ pausing.ml.replies) ∧
    (c.state = .running → (∀ i, (s.slot i).waiting = none) → s.transferring n = true →
      (pausing.chan n).pauseWaits = true ∧ pausing.chanReply = some n ∧ pausing.ml.replies = s.ml.replies) ∧
    (c.state = .free →
      exec (.chRelease tag channel) s = .next (s.replyAtOnce ⟨0xBD, 0x00, tag, s.channelReport n⟩)) ∧
    (c.state ≠ .free → exec (.chRelease tag channel) s = .next releasing) ∧
    (c.state ≠ .free → s.transferring n = false →
      releasing.chan n = State.reset.chan n ∧ (∀ p : PageId, releasing.stm.pages[p] ≠ some n) ∧
      releasing.chanReply = none ∧ releasing.ml.command = none ∧
      (⟨0xBD, 0x00, tag, [channel] ++ List.replicate 10 0⟩ : Frame) ∈ releasing.ml.replies) ∧
    (c.state ≠ .free → s.transferring n = true →
      (releasing.chan n).releaseWaits = true ∧ releasing.chanReply = some n ∧
      ∀ p : PageId, s.stm.pages[p] = some n → releasing.stm.pages[p] = some n)

/-- CH_STATUS answers OK at once with the whole context, the ring, the level, the notice record and the level of TRQn of
the bound slot, and changes nothing but the free value's index, which it moves on only where the slot's rails are open
and the line floats (the model's free value, log 10). A channel above 5 is refused with BAD_ARG (log 17). R109, R117,
R188, R190. -/
def Obligations.ChStatusReportsTheContext : Prop :=
  (∀ (s : State) (tag : Half) (channel : Byte), s.ready .command → 5 < channel.toNat →
    exec (.chStatus tag channel) s = .next (s.replyAtOnce ⟨0xBE, 0x13, tag, [channel] ++ List.replicate 64 0⟩)) ∧
  ∀ (s : State) (tag : Half) (n : ChanId) (channel : Byte), s.ready .command → channel.toNat = n.val →
    let c := s.chan n
    let e := c.notice.events
    let bits (l : List Bool) : Byte := BitVec.ofNat 8 (l.foldr (fun b k => 2 * k + b.toNat) 0)
    let floats : Prop := (s.slot c.slot).state = .off ∨ (s.slot c.slot).state = .fault
    let report (trq : Bool) : Frame := ⟨0xBE, 0x00, tag,
      [channel, c.state.code, c.cause.code] ++ le 4 c.remaining ++ le 4 (c.put - c.take).toNat ++
      [BitVec.ofNat 8 c.slot.val, c.direction.code, bits [c.demand], BitVec.ofNat 8 c.cls.val] ++ le 4 c.blockLength ++
      [bits [c.autoReload]] ++ (match c.ring with
        | some r => [BitVec.ofNat 8 r.first, BitVec.ofNat 8 r.code]
        | none => [0xFF, 0xFF]) ++ le 4 c.put.toNat ++ le 4 c.take.toNat ++ le 4 c.mark ++
      [bits [c.markNotices], bits [c.markArmed], c.policy.code] ++ le 2 c.fill.toNat ++ le 2 c.lastDelivered.toNat ++
      le 4 c.transfers.toNat ++ le 4 c.blocksEnded.toNat ++ le 4 c.lastBlockEnd.toNat ++ le 4 c.underruns.toNat ++
      le 4 c.overruns.toNat ++ [bits [c.underrunEpisode, c.stallEpisode, c.overrunEpisode], bits [c.notice.raised],
        bits [e.blockEnd, e.ended, e.underrun, e.overrun, e.halted, e.lowMark, e.highMark, c.notice.stalled],
        bits [trq]]⟩
    (¬ floats → exec (.chStatus tag channel) s = .next (s.replyAtOnce (report (s.trq c.slot n)))) ∧
    (floats → exec (.chStatus tag channel) s = .next
      { s.replyAtOnce (report (Config.floatingTrq s.free)) with free := s.free + 1 })

/-- The cards' request lines: TRQ_ASSERT asserts its line and what follows from it is done; TRQ_DEASSERT drops it; both
set the stored level in any slot state (the model's choice, log 9). What follows, one channel at a time: a RUNNING
channel of an ENABLED slot, its TRQn asserted, that lacks data under STALL begins a stall episode and raises UNDERRUN
with the stalled flag, once; one that lacks room under HALT is HALTED with OVERRUN; every other channel is kept. R31,
R118, R123, R125. -/
def Obligations.RequestLinesAndServing : Prop :=
  (∀ (s : State) (i : SlotId) (line : ChanId), exec (.trqAssert i line) s = .next
    ({ s with cards := { s.cards with trq := s.cards.trq.set (i.val * 6 + line.val) true (by omega) } } :
      State).settle) ∧
  (∀ (s : State) (i : SlotId) (line : ChanId), exec (.trqDeassert i line) s = .next
    { s with cards := { s.cards with trq := s.cards.trq.set (i.val * 6 + line.val) false (by omega) } }) ∧
  ∀ (s : State) (n : ChanId),
    let c := s.chan n
    let w := if n.val < 4 then 1 else 2
    let asks : Prop := c.state = .running ∧ (s.slot c.slot).state = .enabled ∧ s.trq c.slot n = true
    let stalls : Prop := asks ∧ c.direction = .out ∧ c.level < w ∧ c.policy ≠ .hold ∧ c.stallEpisode = false
    let overruns : Prop := asks ∧ c.direction = .into ∧ c.freeSpace < w ∧ c.policy ≠ .drop
    let e := c.notice.events
    let stalled : Channel := { c with stallEpisode := true, notice := ⟨true, { e with underrun := true }, true⟩ }
    let overrun : Channel := { c with
      state := .halted, cause := .overrun, notice := ⟨true, { e with halted := true }, c.notice.stalled⟩ }
    (stalls → s.serveChannels.chan n = stalled ∧ s.serveChannel n = { s with chans := s.chans.set n stalled }) ∧
    (overruns → s.serveChannels.chan n = overrun ∧ s.serveChannel n = { s with chans := s.chans.set n overrun }) ∧
    (¬ stalls → ¬ overruns → s.serveChannels.chan n = c ∧ s.serveChannel n = s) ∧
    s.serveChannels = { s with chans := s.serveChannels.chans }

/-- A transfer that ended DONE: a real OUT transfer advances take by the width and sets last delivered; a real IN
transfer stores its bytes, low byte first, and advances put; a fill or drop moves neither and counts as an underrun or
overrun, raising its event when it begins an episode, which the next real transfer ends. Each counts one transfer; the
block that reaches remaining 0 has ended, and restarts with BLOCK_END or leaves the channel ENDED. After a real transfer
an armed mark that is met raises its event once. Nothing else changes. R108, R120, R121, R123, R124, R129, R130. -/
def Obligations.TransferApplied : Prop :=
  ∀ (s : State) (n : ChanId) (kind : TransferKind) (driven sampled : Half),
    let c := s.chan n
    let t := s.applyTransfer n kind driven sampled
    let x := t.chan n
    let w := if n.val < 4 then 1 else 2
    let realOut : Prop := kind = .real ∧ c.direction = .out
    let realIn : Prop := kind = .real ∧ c.direction = .into
    let fill : Prop := kind = .filler ∧ c.direction = .out
    let drop : Prop := kind = .filler ∧ c.direction = .into
    let ends : Prop := c.remaining - 1 = 0
    let marked : Prop := kind = .real ∧ c.markNotices = true ∧ c.markArmed = true ∧
      ((c.direction = .out ∧ (x.put - x.take).toNat ≤ c.mark) ∨ (c.direction = .into ∧ c.mark ≤ (x.put - x.take).toNat))
    let e := c.notice.events
    t.stm.bytes = (if realIn then
      storeRing c c.put (if n.val < 4 then [lowByte sampled] else [lowByte sampled, highByte sampled]) s.stm.bytes
      else s.stm.bytes) ∧
    t = { s with stm := ⟨s.stm.pages, t.stm.bytes⟩, chans := s.chans.set n x } ∧
    x = { c with
      take := if realOut then c.take + BitVec.ofNat 32 w else c.take
      put := if realIn then c.put + BitVec.ofNat 32 w else c.put
      lastDelivered := if realOut then driven else c.lastDelivered
      underrunEpisode := if realOut then false else if fill then true else c.underrunEpisode
      stallEpisode := if realOut then false else c.stallEpisode
      overrunEpisode := if realIn then false else if drop then true else c.overrunEpisode
      underruns := if fill then c.underruns + 1 else c.underruns
      overruns := if drop then c.overruns + 1 else c.overruns
      transfers := c.transfers + 1
      remaining := if ends ∧ c.autoReload = true then c.blockLength else c.remaining - 1
      blocksEnded := if ends then c.blocksEnded + 1 else c.blocksEnded
      lastBlockEnd := if ends then c.transfers + 1 else c.lastBlockEnd
      state := if ends ∧ c.autoReload = false then .ended else c.state
      markArmed := if marked then false else c.markArmed
      notice := {
        raised := c.notice.raised || decide (ends ∨ (fill ∧ c.underrunEpisode = false) ∨
          (drop ∧ c.overrunEpisode = false) ∨ marked)
        stalled := c.notice.stalled
        events := { e with
          blockEnd := e.blockEnd || decide (ends ∧ c.autoReload = true)
          ended := e.ended || decide (ends ∧ c.autoReload = false)
          underrun := e.underrun || decide (fill ∧ c.underrunEpisode = false)
          overrun := e.overrun || decide (drop ∧ c.overrunEpisode = false)
          lowMark := e.lowMark || decide (marked ∧ c.direction = .out)
          highMark := e.highMark || decide (marked ∧ c.direction = .into) } } }

/-- Every step keeps every RUNNING and PAUSED channel bound to a slot in ENABLED state, and the cycle in flight on slots
it may connect: ENABLED ones, or for a slot-direct cycle its ISOLATED target, an IO, MEM or transfer cycle its target
alone, with BCLK running and a holder to which the cycle belongs. The lines then follow: with the rails open a slot's
own lines are not driven; with them closed BCLK runs at D or is held low, SRST is asserted in POWERING and RESETTING,
TAKn and EOB only during a transfer cycle to the slot; a slot that is not connected sees idle lines, and a connected one
the strobe, RFSH, address and, on the lanes of a write's width, the data of its cycle, and its card's CRDY is sampled.
R1, R8, R19, R21, R30, R43, R49, R108, R119, R128. -/
def Obligations.RunningChannelsStayOnEnabledSlots : Prop :=
  (∀ s t : State, s.ChannelsOnEnabledSlots → step s = .next t → t.ChannelsOnEnabledSlots) ∧
  (∀ s t : State, s.CycleSound → step s = .next t → t.CycleSound) ∧
  ∀ (s : State) (i : SlotId), s.CycleSound →
    let state := (s.slot i).state
    let dark : Prop := state = .off ∨ state = .fault
    let runs : Prop := s.bcu.clock = .run ∨ (s.bcu.clock = .retuning ∧ s.bcu.settling = none)
    (dark → s.slotBclk i = none ∧ s.srst i = none ∧ (∀ n, s.tak i n = none) ∧ s.eob i = none ∧
      s.connects i = false) ∧
    (¬ dark →
      s.slotBclk i = some (if runs then some s.bcu.divider else none) ∧
      s.srst i = some (decide (state = .powering ∨ state = .resetting)) ∧
      (∀ n, ∃ on : Bool, s.tak i n = some on ∧
        (on = true ↔ ∃ c, s.sbc.cycle = some c ∧ c.target = some i ∧ s.sbc.holder = some (.channel n))) ∧
      ∃ on : Bool, s.eob i = some on ∧
        (on = true ↔ ∃ c n, s.sbc.cycle = some c ∧ c.target = some i ∧ s.sbc.holder = some (.channel n) ∧
          c.eob = true)) ∧
    (s.connects i = false → s.sharedLines i = ⟨none, false, .inactive, none, none, none⟩) ∧
    ∀ c, s.sbc.cycle = some c → c.connected[i] = true →
      let wide := match s.sbc.holder with
        | some (.channel n) => decide (4 ≤ n.val)
        | _ => c.kind.wide
      let drives : Prop := c.kind = .transferOut ∨ c.kind = .ioByteWrite ∨ c.kind = .ioWordWrite ∨
        c.kind = .memByteWrite ∨ c.kind = .memWordWrite
      s.sharedLines i = {
        strobe := some (match c.kind with
          | .ioByteRead | .ioWordRead | .transferIn => .ioRd
          | .ioByteWrite | .ioWordWrite | .transferOut => .ioWr
          | .memByteRead | .memWordRead | .refresh => .memRd
          | .memByteWrite | .memWordWrite => .memWr)
        rfsh := decide (c.kind = .refresh), crdy := .card, address := some c.address
        dataLow := if drives then some (lowByte c.driven) else none
        dataHigh := if drives ∧ wide = true then some (highByte c.driven) else none }

/-- Every step keeps the channels' figures, rings, pages and the transfer on the bus in agreement: the level lies between
0 and the ring size, the pages owned are exactly those of the ring, and remaining lies where the state puts it. R111,
R121, R135 to R140. -/
def Obligations.ChannelsStaySound : Prop :=
  ∀ s t : State, s.ChannelsSound → step s = .next t → t.ChannelsSound

/-! ## Staging rings -/

/-- RING_WRITE and RING_READ: BAD_ARG above channel 5, NO_CHANNEL for a FREE channel, WRONG_DIRECTION, each with count 0.
A write stores as many bytes as there is room for at put and onward and advances put, OK or PARTIAL; a read returns the
smallest of the largest count, the level and 1024, whole words on a word channel, and advances take. Each arms the mark
when the level is beyond it. Bytes stored are the bytes read back, and every other byte of the storage is kept. R140,
R141, R143, R144, R146, R148; the level 0 of a FREE channel's refusal follows R140. -/
def Obligations.RingTrafficMovesData : Prop :=
  (∀ (s : State) (tag : Half) (channel : Byte) (data : List Byte), s.ready .stream → data.length ≤ 1024 →
    let answer (u : State) (code : Byte) (count level : Nat) :=
      u.replyAtOnce ⟨0xE8, code, tag, [channel] ++ le 2 count ++ le 4 level⟩
    (5 < channel.toNat → exec (.ringWrite tag channel data) s = .next (answer s 0x13 0 0)) ∧
    ∀ n : ChanId, channel.toNat = n.val →
      let c := s.chan n
      let accepted := if data.length ≤ c.freeSpace then data.length else c.freeSpace
      (c.state = .free → exec (.ringWrite tag channel data) s = .next (answer s 0x18 0 0)) ∧
      (c.state ≠ .free → c.direction = .into →
        exec (.ringWrite tag channel data) s = .next (answer s 0x1A 0 c.level)) ∧
      (c.state ≠ .free → c.direction = .out →
        let put := c.put + BitVec.ofNat 32 accepted
        exec (.ringWrite tag channel data) s = .next (answer
          { s with
            stm := { s.stm with bytes := storeRing c c.put (data.take accepted) s.stm.bytes }
            chans := s.chans.set n { c with
              put := put, markArmed := c.markArmed || decide (c.mark < (put - c.take).toNat) } }
          (if accepted = data.length then 0x00 else 0x01) accepted (put - c.take).toNat).settle)) ∧
  (∀ (s : State) (tag largest : Half) (channel : Byte), s.ready .stream →
    let answer (u : State) (code : Byte) (count level : Nat) (data : List Byte) :=
      u.replyAtOnce ⟨0xE9, code, tag, [channel] ++ le 2 count ++ le 4 level ++ data⟩
    (5 < channel.toNat → exec (.ringRead tag channel largest) s = .next (answer s 0x13 0 0 [])) ∧
    ∀ n : ChanId, channel.toNat = n.val →
      let c := s.chan n
      (c.state = .free → exec (.ringRead tag channel largest) s = .next (answer s 0x18 0 0 [])) ∧
      (c.state ≠ .free → c.direction = .out →
        exec (.ringRead tag channel largest) s = .next (answer s 0x1A 0 c.level [])) ∧
      (c.state ≠ .free → c.direction = .into → ∃ count : Nat,
        (∀ k : Nat, k ≤ count ↔ ∃ j, k ≤ j ∧ j ≤ largest.toNat ∧ j ≤ c.level ∧ j ≤ 1024 ∧ (4 ≤ n.val → j % 2 = 0)) ∧
        let take := c.take + BitVec.ofNat 32 count
        exec (.ringRead tag channel largest) s = .next (answer
          { s with chans := s.chans.set n { c with
              take := take, markArmed := c.markArmed || decide ((c.put - take).toNat < c.mark) } }
          0x00 count (c.put - take).toNat (loadRing c s.stm.bytes count c.take)).settle)) ∧
  ∀ (c : Channel) (r : Ring) (m : Memory) (p : Word) (data : List Byte), c.ring = some r → Memory.wf m = true →
    data.length ≤ 1024 →
    loadRing c (storeRing c p data m) data.length p = data ∧
    (∀ x, (∀ k < data.length, x ≠ c.address (p + BitVec.ofNat 32 k)) →
      Memory.read (storeRing c p data m) x = Memory.read m x) ∧
    ∀ k : Word, 1024 * r.first ≤ c.address k ∧ c.address k < 1024 * r.first + 1024 * 2 ^ r.code ∧
      c.address k = 1024 * r.first + k.toNat % (1024 * 2 ^ r.code)

/-- Every step keeps the ranges of the clock and the bus, the burst count among them, the queues within their places,
replies and reservations sharing sixteen, and the storage in its canonical form (the form is the model's, log 18). The
reply places rest on a rule over the whole part, kept with them: at most one unit owes the command pipe a reply, only
while its command is in progress, every request with a claim has its reservation, and an IDLE Access Engine holds no
command. R1, R8, R22, R28, R29, R34, R37 to R39, R89, R105, R172, R173, R176, R177. -/
def Obligations.RangesAndStorageStaySound : Prop :=
  ∀ s t : State, s.ClockInRange → s.BusInRange → s.QueuesInRange → s.RepliesSound → s.StorageSound → step s = .next t →
    t.ClockInRange ∧ t.BusInRange ∧ t.QueuesInRange ∧ t.RepliesSound ∧ t.StorageSound

/-- The state at reset meets every invariant stated here. R1, R41, R81, R88, R128, R133, R152, R169, R186. -/
def Obligations.InvariantsHoldAtReset : Prop :=
  State.reset.ClockInRange ∧ State.reset.BusInRange ∧ State.reset.QueuesInRange ∧ State.reset.RepliesSound ∧
  State.reset.StorageSound ∧ State.reset.CycleSound ∧
  State.reset.WindowsSound ∧ State.reset.ShadowSound ∧ State.reset.ChannelsOnEnabledSlots ∧
  State.reset.ChannelsSound ∧ State.reset.NoticesSound

/-! ## Interrupt capture -/

/-- INT_CONFIGURE and INT_MASK: BAD_ARG for a slot above 3 or a line above 11 (the rest of that reply 0, log 17), for a
field outside its set, and for wake on with a filter. INT_CONFIGURE withdraws the input's queued notice, sets the five
fields, clears its capture and begins to watch it; INT_MASK sets the mask and nothing else. A mask off lets a PENDING
input offer its notice at once; the reply is built before that admission (log 4). R161, R162, R164, R165. -/
def Obligations.IntConfigureAndIntMask : Prop :=
  (∀ (s : State) (tag : Half) (slot line mask : Byte) (f : InputFields), s.ready .command →
    3 < slot.toNat ∨ 11 < line.toNat →
    exec (.intConfigure tag slot line f) s = .next (s.replyAtOnce
      ⟨0xC0, 0x13, tag, [slot, line] ++ List.replicate 8 0⟩) ∧
    exec (.intMask tag slot line mask) s = .next (s.replyAtOnce
      ⟨0xC1, 0x13, tag, [slot, line] ++ List.replicate 4 0⟩)) ∧
  (∀ (s : State) (tag : Half) (slot line : Byte) (i : SlotId) (l : LineId) (f : InputFields), s.ready .command →
    slot.toNat = i.val → line.toNat = l.val →
    let k : InputId := ⟨i.val * 12 + l.val, by omega⟩
    let answer (u : State) (code : Byte) : State := u.replyAtOnce ⟨0xC0, code, tag, [slot, line,
      (u.input k).state.code, if (u.input k).mask then 1 else 0] ++ le 2 (u.input k).lost ++
      [(u.input k).mode.code, if (u.input k).activeLow then 1 else 0, BitVec.ofNat 8 (u.input k).filter.val,
        if (u.input k).wake then 1 else 0]⟩
    let badArg : Prop := 2 < f.mode.toNat ∨ 1 < f.polarity.toNat ∨ 3 < f.filter.toNat ∨ 1 < f.mask.toNat ∨
      1 < f.wake.toNat ∨ (f.wake = 1 ∧ f.filter ≠ 0)
    (badArg → exec (.intConfigure tag slot line f) s = .next (answer s 0x13)) ∧
    (¬ badArg → ∃ filter : Fin 4, filter.val = f.filter.toNat ∧
      let new : Input := {
        mode := if f.mode = 0 then .off else if f.mode = 1 then .edge else .level
        activeLow := decide (f.polarity = 1), filter := filter, mask := decide (f.mask = 1), wake := decide (f.wake = 1)
        state := .idle, active := false, run := 0, changeDue := false, captureTime := 0, snapshot := [], again := false
        againTime := 0, lost := 0, repeated := false, queued := false }
      exec (.intConfigure tag slot line f) s = .next
        (answer (((s.withdraw k).modInput k fun _ => new).beginWatch k) 0x00).admitOffers)) ∧
  (∀ (s : State) (tag : Half) (slot line mask : Byte) (i : SlotId) (l : LineId), s.ready .command →
    slot.toNat = i.val → line.toNat = l.val →
    let k : InputId := ⟨i.val * 12 + l.val, by omega⟩
    let answer (u : State) (code : Byte) : State := u.replyAtOnce ⟨0xC1, code, tag, [slot, line,
      (u.input k).state.code, if (u.input k).mask then 1 else 0] ++ le 2 (u.input k).lost⟩
    (1 < mask.toNat → exec (.intMask tag slot line mask) s = .next (answer s 0x13)) ∧
    (mask.toNat ≤ 1 → exec (.intMask tag slot line mask) s = .next
      (answer (s.modInput k fun x => { x with mask := decide (mask = 1) }) 0x00).admitOffers)) ∧
  ∀ (s : State) (k : InputId),
    ((s.input k).queued = false → s.withdraw k = s) ∧
    ((s.input k).queued = true → s.withdraw k =
      { s with
        ml := { s.ml with notices := s.ml.notices.filter fun n => decide (n.input ≠ some k) }
        inputs := s.inputs.set k { s.input k with queued := false } }) ∧
    ((s.input k).mode = .off ∨ (s.slot (inputSlot k)).state ≠ .enabled → s.beginWatch k = s) ∧
    ((s.input k).mode ≠ .off → (s.slot (inputSlot k)).state = .enabled →
      let y := s.input k
      let active := s.irlHigh k != y.activeLow
      s.beginWatch k = s.modInput k fun _ =>
        if y.mode = .level ∧ active = true ∧ y.state = .idle then
          { y with active := true, run := 0, changeDue := false, state := .pending, captureTime := s.bcu.timeBase,
                   snapshot := s.takeSnapshot (inputSlot k), repeated := false }
        else { y with active := active, run := 0, changeDue := false })

/-- INT_STATUS reports the slot's state and its twelve input records and changes nothing. INT_ACK of an input that is not
NOTIFIED is refused with NOT_NOTIFIED; of a NOTIFIED one it withdraws the queued notice, and the input becomes PENDING
again (EDGE with again set, at the again time with repeat set; LEVEL with the level ACTIVE, now) with a new snapshot, or
IDLE with the snapshot empty; the lost count is kept. The reply is built before the admission made in the same event
(log 4). BAD_ARG for a slot above 3 or a line above 11 (log 17). R159, R161 to R163, R166. -/
def Obligations.IntStatusAndIntAck : Prop :=
  (∀ (s : State) (tag : Half) (slot : Byte), s.ready .command →
    (3 < slot.toNat → exec (.intStatus tag slot) s = .next (s.replyAtOnce
      ⟨0xC2, 0x13, tag, [slot] ++ List.replicate 253 0⟩)) ∧
    ∀ i : SlotId, slot.toNat = i.val → exec (.intStatus tag slot) s = .next (s.replyAtOnce ⟨0xC2, 0x00, tag,
      [slot, (s.slot i).state.code] ++ (List.finRange 12).flatMap fun l =>
        let x := s.input ⟨i.val * 12 + l.val, by omega⟩
        let bit (b : Bool) : Byte := if b then 1 else 0
        let watched : Prop := x.mode ≠ .off ∧ (s.slot i).state = .enabled
        [x.mode.code, bit x.activeLow, BitVec.ofNat 8 x.filter.val, bit x.mask, bit x.wake, x.state.code,
          if watched ∧ x.active = true then 1 else 0] ++ le 4 x.captureTime.toNat ++ [bit x.again] ++
        le 4 x.againTime.toNat ++ le 2 x.lost ++ [bit x.repeated, bit x.queued,
          BitVec.ofNat 8 x.snapshot.length]⟩)) ∧
  (∀ (s : State) (tag : Half) (slot line : Byte), s.ready .stream → 3 < slot.toNat ∨ 11 < line.toNat →
    exec (.intAck tag slot line) s = .next (s.replyAtOnce
      ⟨0xEA, 0x13, tag, [slot, line] ++ List.replicate 4 0⟩)) ∧
  (∀ (s : State) (tag : Half) (slot line : Byte) (i : SlotId) (l : LineId), s.ready .stream →
    slot.toNat = i.val → line.toNat = l.val →
    let k : InputId := ⟨i.val * 12 + l.val, by omega⟩
    let x := s.input k
    let answer (u : State) (code : Byte) : State := u.replyAtOnce ⟨0xEA, code, tag, [slot, line,
      (u.input k).state.code, if (u.input k).mask then 1 else 0] ++ le 2 (u.input k).lost⟩
    (x.state ≠ .notified → exec (.intAck tag slot line) s = .next (answer s 0x27)) ∧
    (x.state = .notified →
      let again : Prop := x.mode = .edge ∧ x.again = true
      let level : Prop := x.mode = .level ∧ x.active = true
      exec (.intAck tag slot line) s = .next (answer ((s.withdraw k).modInput k fun _ =>
        if again then
          { x with queued := false, state := .pending, captureTime := x.againTime, snapshot := s.takeSnapshot i,
                   again := false, againTime := 0, repeated := true }
        else if level then
          { x with queued := false, state := .pending, captureTime := s.bcu.timeBase, snapshot := s.takeSnapshot i,
                   repeated := false }
        else { x with queued := false, state := .idle, snapshot := [], repeated := false }) 0x00).admitOffers)) ∧
  ∀ (s : State) (i : SlotId),
    (s.takeSnapshot i).map (·.channel) =
      (List.finRange 6).filter (fun n => decide ((s.chan n).slot = i ∧ (s.chan n).state ≠ .free)) ∧
    ∀ e ∈ s.takeSnapshot i, e = ⟨e.channel, (s.chan e.channel).state, (s.chan e.channel).remaining,
      (s.chan e.channel).transfers, (s.chan e.channel).level⟩

/-- IRL_CHANGE stores the line's level; on a watched input with filter code 0 a change of the judged level counts at once.
IRL_FILTER_CHANGE counts a change that is due on a watched input. A counted change sets the filtered level, and one to
ACTIVE is an activation. An activation captures an IDLE input with a snapshot; of a PENDING EDGE input it counts as lost,
up to 65535; of a NOTIFIED one it sets again, or counts as lost when again is set; a LEVEL input that is not IDLE
disregards it. An activation in PARKED of an input eligible to wake starts the clock at D 12 and holds a CLOCK_WOKE
record. Otherwise nothing changes (log 2; log 6 for what is due, log 7, log 9). R12, R154, R155, R157, R158, R168. -/
def Obligations.InterruptLinesCapture : Prop :=
  (∀ (s : State) (i : SlotId) (line : LineId) (high : Bool),
    let k : InputId := ⟨i.val * 12 + line.val, by omega⟩
    let x := s.input k
    let t : State := { s with cards := { s.cards with irl := s.cards.irl.set k high } }
    let counts : Prop := x.mode ≠ .off ∧ (s.slot i).state = .enabled ∧ x.filter = 0 ∧ (high != x.activeLow) ≠ x.active
    (counts → exec (.irlChange i line high) s = .next (t.countChange k (high != x.activeLow)).admitOffers) ∧
    (¬ counts → exec (.irlChange i line high) s = .next t)) ∧
  (∀ (s : State) (i : SlotId) (line : LineId),
    let k : InputId := ⟨i.val * 12 + line.val, by omega⟩
    let x := s.input k
    let counts : Prop := x.changeDue = true ∧ x.mode ≠ .off ∧ (s.slot i).state = .enabled
    (counts → exec (.irlFilterChange i line) s = .next (s.countChange k (!x.active)).admitOffers) ∧
    (¬ counts → exec (.irlFilterChange i line) s = .next s)) ∧
  (∀ (s : State) (k : InputId),
    let settled (active : Bool) := s.modInput k fun x => { x with active := active, run := 0, changeDue := false }
    s.countChange k false = settled false ∧ s.countChange k true = (settled true).activation k) ∧
  (∀ (s : State) (k : InputId),
    let x := s.input k
    let wakes : Prop := s.bcu.clock = .parked ∧ x.wake = true ∧ x.mask = false ∧ x.mode ≠ .off ∧
      (s.slot (inputSlot k)).state = .enabled ∧ x.filter = 0
    s.activation k = { s.applyActivation k with
      bcu := if wakes then { s.bcu with
          divider := 12, clock := .starting, settling := some 9600
          woke := .held (inputSlot k) (inputLine k) s.bcu.timeBase }
        else s.bcu }) ∧
  ∀ (s : State) (k : InputId),
    let x := s.input k
    let lose : Input := { x with lost := if x.lost < 65535 then x.lost + 1 else x.lost }
    let captured : Input := { x with
      state := .pending, captureTime := s.bcu.timeBase, snapshot := s.takeSnapshot (inputSlot k), repeated := false }
    s.applyActivation k = s.modInput k fun _ =>
      match x.mode, x.state with
      | .edge, .idle => captured
      | .edge, .pending => lose
      | .edge, .notified => if x.again = true then lose else { x with again := true, againTime := s.bcu.timeBase }
      | .level, .idle => captured
      | .level, .pending => x
      | .level, .notified => x
      | .off, _ => x

/-- Every step keeps the notices in the queue and the inputs in agreement: at most one notice of an input, only in
NOTIFIED state and with queued yes; an input whose mode is OFF is IDLE; no lost count above 65535. R153, R157, R160,
R161, R167, R170. -/
def Obligations.NoticesStaySound : Prop :=
  ∀ s t : State, s.NoticesSound → step s = .next t → t.NoticesSound
end

