-- ==== Sys2Proof/Laws/Bytes.lean ====
section
/-! SUPPORT. Little-endian fields: their lengths, and that a field written is the number read. -/

namespace Sys2Proof.Machine

open Sys2Proof

@[simp] theorem le_length (n v : Nat) : (le n v).length = n := by
  induction n generalizing v with
  | zero => rfl
  | succ n ih => simp [le, ih]

@[simp] theorem zeros_length (n : Nat) : (zeros n).length = n := by simp [zeros]

/-- The number read from a field of n bytes is the number written, modulo 256^n. -/
theorem unle_le (n v : Nat) : unle (le n v) = v % 256 ^ n := by
  induction n generalizing v with
  | zero => simp [le, unle, Nat.mod_one]
  | succ n ih =>
    have byte : (BitVec.ofNat 8 v).toNat = v % 256 := rfl
    rw [le, unle, ih, byte, Nat.pow_succ', Nat.mod_mul]

/-- A field between two parts of a payload. -/
theorem field_append (before part after : List Byte) :
    field (before ++ part ++ after) before.length part.length = unle part := by
  simp [field]

end Sys2Proof.Machine
end

