-- ==== Sys2Proof/Laws/Cycles.lean ====
section
/-! SUPPORT. What a cycle that begins holds, what the engine samples on the data lines, and the data of a result, each
said once (R19, R21, R22, R24, R27). -/

namespace Sys2Proof.Machine

open Sys2Proof

section NewCycle

variable (s : State) (kind : CycleKind) (cls : ClassId) (target : Option SlotId) (connected : Vector Bool 4)
  (address : Nat) (driven : Half)

@[simp] theorem newCycle_kind : (s.newCycle kind cls target connected address driven).kind = kind := rfl
@[simp] theorem newCycle_target : (s.newCycle kind cls target connected address driven).target = target := rfl
@[simp] theorem newCycle_connected : (s.newCycle kind cls target connected address driven).connected = connected := rfl
@[simp] theorem newCycle_address : (s.newCycle kind cls target connected address driven).address = address := rfl
@[simp] theorem newCycle_driven : (s.newCycle kind cls target connected address driven).driven = driven := rfl
@[simp] theorem newCycle_eob : (s.newCycle kind cls target connected address driven).eob = false := rfl
@[simp] theorem newCycle_transfer : (s.newCycle kind cls target connected address driven).transfer = .real := rfl
@[simp] theorem newCycle_direct : (s.newCycle kind cls target connected address driven).direct = false := rfl

end NewCycle

@[simp] theorem onlySlot_get (i j : SlotId) : (onlySlot i)[j] = decide (j = i) := by simp [onlySlot]

/-- A connected card's line reads as its level where the card drives it, and as one where it does not (R19). -/
theorem dataLines_connected {c : Cycle} {i : SlotId} (card : CardData) (target : c.target = some i)
    (connected : c.connected[i] = true) (k : Nat) (hk : k < 16) :
    (c.dataLines card).getLsbD k = (card.levels.getLsbD k || !card.driven.getLsbD k) := by
  simp [Cycle.dataLines, target, connected, hk]

/-- With the target not connected every line reads as one (R19). -/
theorem dataLines_open {c : Cycle} {i : SlotId} (card : CardData) (target : c.target = some i)
    (connected : c.connected[i] = false) : c.dataLines card = 0xFFFF := by
  simp [Cycle.dataLines, target, connected]

/-- A write has no data in its result (log 20). -/
theorem resultData_write (s : State) {kind : CycleKind} (h : kind.reads = false) (sampled : Half) :
    s.resultData kind sampled = 0 := by
  simp [State.resultData, h]

end Sys2Proof.Machine
end

