-- ==== Sys2Proof/Laws/State.lean ====
section
/-! SUPPORT. The small lemmas of the state's updates: what each reads as in every field and through every reader. All
hold by definition, but for the readers of the record an update changes. -/

namespace Sys2Proof.Machine

open Sys2Proof

set_option Elab.async false

variable (s : State)

/-! ## updBcu -/

@[simp] theorem State.updBcu_bcu (f : Bcu → Bcu) : (s.updBcu f).bcu = f s.bcu := rfl
@[simp] theorem State.updBcu_sbc (f : Bcu → Bcu) : (s.updBcu f).sbc = s.sbc := rfl
@[simp] theorem State.updBcu_slots (f : Bcu → Bcu) : (s.updBcu f).slots = s.slots := rfl
@[simp] theorem State.updBcu_measure (f : Bcu → Bcu) : (s.updBcu f).measure = s.measure := rfl
@[simp] theorem State.updBcu_rmap (f : Bcu → Bcu) : (s.updBcu f).rmap = s.rmap := rfl
@[simp] theorem State.updBcu_ae (f : Bcu → Bcu) : (s.updBcu f).ae = s.ae := rfl
@[simp] theorem State.updBcu_chans (f : Bcu → Bcu) : (s.updBcu f).chans = s.chans := rfl
@[simp] theorem State.updBcu_chanReply (f : Bcu → Bcu) : (s.updBcu f).chanReply = s.chanReply := rfl
@[simp] theorem State.updBcu_stm (f : Bcu → Bcu) : (s.updBcu f).stm = s.stm := rfl
@[simp] theorem State.updBcu_inputs (f : Bcu → Bcu) : (s.updBcu f).inputs = s.inputs := rfl
@[simp] theorem State.updBcu_ml (f : Bcu → Bcu) : (s.updBcu f).ml = s.ml := rfl
@[simp] theorem State.updBcu_cards (f : Bcu → Bcu) : (s.updBcu f).cards = s.cards := rfl
@[simp] theorem State.updBcu_free (f : Bcu → Bcu) : (s.updBcu f).free = s.free := rfl
@[simp] theorem State.updBcu_pending (f : Bcu → Bcu) : (s.updBcu f).pending = s.pending := rfl
@[simp] theorem State.updBcu_slot (f : Bcu → Bcu) (j : SlotId) : (s.updBcu f).slot j = s.slot j := rfl
@[simp] theorem State.updBcu_chan (f : Bcu → Bcu) (j : ChanId) : (s.updBcu f).chan j = s.chan j := rfl
@[simp] theorem State.updBcu_input (f : Bcu → Bcu) (j : InputId) : (s.updBcu f).input j = s.input j := rfl
@[simp] theorem State.updBcu_faultRecord (f : Bcu → Bcu) (j : SlotId) : (s.updBcu f).faultRecord j = s.faultRecord j := rfl
@[simp] theorem State.updBcu_trq (f : Bcu → Bcu) (j : SlotId) (l : ChanId) : (s.updBcu f).trq j l = s.trq j l := rfl
@[simp] theorem State.updBcu_irlHigh (f : Bcu → Bcu) (j : InputId) : (s.updBcu f).irlHigh j = s.irlHigh j := rfl

/-! ## updSbc -/

@[simp] theorem State.updSbc_bcu (f : Sbc → Sbc) : (s.updSbc f).bcu = s.bcu := rfl
@[simp] theorem State.updSbc_sbc (f : Sbc → Sbc) : (s.updSbc f).sbc = f s.sbc := rfl
@[simp] theorem State.updSbc_slots (f : Sbc → Sbc) : (s.updSbc f).slots = s.slots := rfl
@[simp] theorem State.updSbc_measure (f : Sbc → Sbc) : (s.updSbc f).measure = s.measure := rfl
@[simp] theorem State.updSbc_rmap (f : Sbc → Sbc) : (s.updSbc f).rmap = s.rmap := rfl
@[simp] theorem State.updSbc_ae (f : Sbc → Sbc) : (s.updSbc f).ae = s.ae := rfl
@[simp] theorem State.updSbc_chans (f : Sbc → Sbc) : (s.updSbc f).chans = s.chans := rfl
@[simp] theorem State.updSbc_chanReply (f : Sbc → Sbc) : (s.updSbc f).chanReply = s.chanReply := rfl
@[simp] theorem State.updSbc_stm (f : Sbc → Sbc) : (s.updSbc f).stm = s.stm := rfl
@[simp] theorem State.updSbc_inputs (f : Sbc → Sbc) : (s.updSbc f).inputs = s.inputs := rfl
@[simp] theorem State.updSbc_ml (f : Sbc → Sbc) : (s.updSbc f).ml = s.ml := rfl
@[simp] theorem State.updSbc_cards (f : Sbc → Sbc) : (s.updSbc f).cards = s.cards := rfl
@[simp] theorem State.updSbc_free (f : Sbc → Sbc) : (s.updSbc f).free = s.free := rfl
@[simp] theorem State.updSbc_pending (f : Sbc → Sbc) : (s.updSbc f).pending = s.pending := rfl
@[simp] theorem State.updSbc_slot (f : Sbc → Sbc) (j : SlotId) : (s.updSbc f).slot j = s.slot j := rfl
@[simp] theorem State.updSbc_chan (f : Sbc → Sbc) (j : ChanId) : (s.updSbc f).chan j = s.chan j := rfl
@[simp] theorem State.updSbc_input (f : Sbc → Sbc) (j : InputId) : (s.updSbc f).input j = s.input j := rfl
@[simp] theorem State.updSbc_trq (f : Sbc → Sbc) (j : SlotId) (l : ChanId) : (s.updSbc f).trq j l = s.trq j l := rfl
@[simp] theorem State.updSbc_irlHigh (f : Sbc → Sbc) (j : InputId) : (s.updSbc f).irlHigh j = s.irlHigh j := rfl

/-! ## updRmap -/

@[simp] theorem State.updRmap_bcu (f : Rmap → Rmap) : (s.updRmap f).bcu = s.bcu := rfl
@[simp] theorem State.updRmap_sbc (f : Rmap → Rmap) : (s.updRmap f).sbc = s.sbc := rfl
@[simp] theorem State.updRmap_slots (f : Rmap → Rmap) : (s.updRmap f).slots = s.slots := rfl
@[simp] theorem State.updRmap_measure (f : Rmap → Rmap) : (s.updRmap f).measure = s.measure := rfl
@[simp] theorem State.updRmap_rmap (f : Rmap → Rmap) : (s.updRmap f).rmap = f s.rmap := rfl
@[simp] theorem State.updRmap_ae (f : Rmap → Rmap) : (s.updRmap f).ae = s.ae := rfl
@[simp] theorem State.updRmap_chans (f : Rmap → Rmap) : (s.updRmap f).chans = s.chans := rfl
@[simp] theorem State.updRmap_chanReply (f : Rmap → Rmap) : (s.updRmap f).chanReply = s.chanReply := rfl
@[simp] theorem State.updRmap_stm (f : Rmap → Rmap) : (s.updRmap f).stm = s.stm := rfl
@[simp] theorem State.updRmap_inputs (f : Rmap → Rmap) : (s.updRmap f).inputs = s.inputs := rfl
@[simp] theorem State.updRmap_ml (f : Rmap → Rmap) : (s.updRmap f).ml = s.ml := rfl
@[simp] theorem State.updRmap_cards (f : Rmap → Rmap) : (s.updRmap f).cards = s.cards := rfl
@[simp] theorem State.updRmap_free (f : Rmap → Rmap) : (s.updRmap f).free = s.free := rfl
@[simp] theorem State.updRmap_pending (f : Rmap → Rmap) : (s.updRmap f).pending = s.pending := rfl
@[simp] theorem State.updRmap_slot (f : Rmap → Rmap) (j : SlotId) : (s.updRmap f).slot j = s.slot j := rfl
@[simp] theorem State.updRmap_chan (f : Rmap → Rmap) (j : ChanId) : (s.updRmap f).chan j = s.chan j := rfl
@[simp] theorem State.updRmap_input (f : Rmap → Rmap) (j : InputId) : (s.updRmap f).input j = s.input j := rfl
@[simp] theorem State.updRmap_faultRecord (f : Rmap → Rmap) (j : SlotId) : (s.updRmap f).faultRecord j = s.faultRecord j := rfl
@[simp] theorem State.updRmap_trq (f : Rmap → Rmap) (j : SlotId) (l : ChanId) : (s.updRmap f).trq j l = s.trq j l := rfl
@[simp] theorem State.updRmap_irlHigh (f : Rmap → Rmap) (j : InputId) : (s.updRmap f).irlHigh j = s.irlHigh j := rfl

/-! ## updAe -/

@[simp] theorem State.updAe_bcu (f : Ae → Ae) : (s.updAe f).bcu = s.bcu := rfl
@[simp] theorem State.updAe_sbc (f : Ae → Ae) : (s.updAe f).sbc = s.sbc := rfl
@[simp] theorem State.updAe_slots (f : Ae → Ae) : (s.updAe f).slots = s.slots := rfl
@[simp] theorem State.updAe_measure (f : Ae → Ae) : (s.updAe f).measure = s.measure := rfl
@[simp] theorem State.updAe_rmap (f : Ae → Ae) : (s.updAe f).rmap = s.rmap := rfl
@[simp] theorem State.updAe_ae (f : Ae → Ae) : (s.updAe f).ae = f s.ae := rfl
@[simp] theorem State.updAe_chans (f : Ae → Ae) : (s.updAe f).chans = s.chans := rfl
@[simp] theorem State.updAe_chanReply (f : Ae → Ae) : (s.updAe f).chanReply = s.chanReply := rfl
@[simp] theorem State.updAe_stm (f : Ae → Ae) : (s.updAe f).stm = s.stm := rfl
@[simp] theorem State.updAe_inputs (f : Ae → Ae) : (s.updAe f).inputs = s.inputs := rfl
@[simp] theorem State.updAe_ml (f : Ae → Ae) : (s.updAe f).ml = s.ml := rfl
@[simp] theorem State.updAe_cards (f : Ae → Ae) : (s.updAe f).cards = s.cards := rfl
@[simp] theorem State.updAe_free (f : Ae → Ae) : (s.updAe f).free = s.free := rfl
@[simp] theorem State.updAe_pending (f : Ae → Ae) : (s.updAe f).pending = s.pending := rfl
@[simp] theorem State.updAe_slot (f : Ae → Ae) (j : SlotId) : (s.updAe f).slot j = s.slot j := rfl
@[simp] theorem State.updAe_chan (f : Ae → Ae) (j : ChanId) : (s.updAe f).chan j = s.chan j := rfl
@[simp] theorem State.updAe_input (f : Ae → Ae) (j : InputId) : (s.updAe f).input j = s.input j := rfl
@[simp] theorem State.updAe_faultRecord (f : Ae → Ae) (j : SlotId) : (s.updAe f).faultRecord j = s.faultRecord j := rfl
@[simp] theorem State.updAe_trq (f : Ae → Ae) (j : SlotId) (l : ChanId) : (s.updAe f).trq j l = s.trq j l := rfl
@[simp] theorem State.updAe_irlHigh (f : Ae → Ae) (j : InputId) : (s.updAe f).irlHigh j = s.irlHigh j := rfl

/-! ## updStm -/

@[simp] theorem State.updStm_bcu (f : Stm → Stm) : (s.updStm f).bcu = s.bcu := rfl
@[simp] theorem State.updStm_sbc (f : Stm → Stm) : (s.updStm f).sbc = s.sbc := rfl
@[simp] theorem State.updStm_slots (f : Stm → Stm) : (s.updStm f).slots = s.slots := rfl
@[simp] theorem State.updStm_measure (f : Stm → Stm) : (s.updStm f).measure = s.measure := rfl
@[simp] theorem State.updStm_rmap (f : Stm → Stm) : (s.updStm f).rmap = s.rmap := rfl
@[simp] theorem State.updStm_ae (f : Stm → Stm) : (s.updStm f).ae = s.ae := rfl
@[simp] theorem State.updStm_chans (f : Stm → Stm) : (s.updStm f).chans = s.chans := rfl
@[simp] theorem State.updStm_chanReply (f : Stm → Stm) : (s.updStm f).chanReply = s.chanReply := rfl
@[simp] theorem State.updStm_stm (f : Stm → Stm) : (s.updStm f).stm = f s.stm := rfl
@[simp] theorem State.updStm_inputs (f : Stm → Stm) : (s.updStm f).inputs = s.inputs := rfl
@[simp] theorem State.updStm_ml (f : Stm → Stm) : (s.updStm f).ml = s.ml := rfl
@[simp] theorem State.updStm_cards (f : Stm → Stm) : (s.updStm f).cards = s.cards := rfl
@[simp] theorem State.updStm_free (f : Stm → Stm) : (s.updStm f).free = s.free := rfl
@[simp] theorem State.updStm_pending (f : Stm → Stm) : (s.updStm f).pending = s.pending := rfl
@[simp] theorem State.updStm_slot (f : Stm → Stm) (j : SlotId) : (s.updStm f).slot j = s.slot j := rfl
@[simp] theorem State.updStm_chan (f : Stm → Stm) (j : ChanId) : (s.updStm f).chan j = s.chan j := rfl
@[simp] theorem State.updStm_input (f : Stm → Stm) (j : InputId) : (s.updStm f).input j = s.input j := rfl
@[simp] theorem State.updStm_faultRecord (f : Stm → Stm) (j : SlotId) : (s.updStm f).faultRecord j = s.faultRecord j := rfl
@[simp] theorem State.updStm_trq (f : Stm → Stm) (j : SlotId) (l : ChanId) : (s.updStm f).trq j l = s.trq j l := rfl
@[simp] theorem State.updStm_irlHigh (f : Stm → Stm) (j : InputId) : (s.updStm f).irlHigh j = s.irlHigh j := rfl

/-! ## updMl -/

@[simp] theorem State.updMl_bcu (f : Ml → Ml) : (s.updMl f).bcu = s.bcu := rfl
@[simp] theorem State.updMl_sbc (f : Ml → Ml) : (s.updMl f).sbc = s.sbc := rfl
@[simp] theorem State.updMl_slots (f : Ml → Ml) : (s.updMl f).slots = s.slots := rfl
@[simp] theorem State.updMl_measure (f : Ml → Ml) : (s.updMl f).measure = s.measure := rfl
@[simp] theorem State.updMl_rmap (f : Ml → Ml) : (s.updMl f).rmap = s.rmap := rfl
@[simp] theorem State.updMl_ae (f : Ml → Ml) : (s.updMl f).ae = s.ae := rfl
@[simp] theorem State.updMl_chans (f : Ml → Ml) : (s.updMl f).chans = s.chans := rfl
@[simp] theorem State.updMl_chanReply (f : Ml → Ml) : (s.updMl f).chanReply = s.chanReply := rfl
@[simp] theorem State.updMl_stm (f : Ml → Ml) : (s.updMl f).stm = s.stm := rfl
@[simp] theorem State.updMl_inputs (f : Ml → Ml) : (s.updMl f).inputs = s.inputs := rfl
@[simp] theorem State.updMl_ml (f : Ml → Ml) : (s.updMl f).ml = f s.ml := rfl
@[simp] theorem State.updMl_cards (f : Ml → Ml) : (s.updMl f).cards = s.cards := rfl
@[simp] theorem State.updMl_free (f : Ml → Ml) : (s.updMl f).free = s.free := rfl
@[simp] theorem State.updMl_pending (f : Ml → Ml) : (s.updMl f).pending = s.pending := rfl
@[simp] theorem State.updMl_slot (f : Ml → Ml) (j : SlotId) : (s.updMl f).slot j = s.slot j := rfl
@[simp] theorem State.updMl_chan (f : Ml → Ml) (j : ChanId) : (s.updMl f).chan j = s.chan j := rfl
@[simp] theorem State.updMl_input (f : Ml → Ml) (j : InputId) : (s.updMl f).input j = s.input j := rfl
@[simp] theorem State.updMl_faultRecord (f : Ml → Ml) (j : SlotId) : (s.updMl f).faultRecord j = s.faultRecord j := rfl
@[simp] theorem State.updMl_trq (f : Ml → Ml) (j : SlotId) (l : ChanId) : (s.updMl f).trq j l = s.trq j l := rfl
@[simp] theorem State.updMl_irlHigh (f : Ml → Ml) (j : InputId) : (s.updMl f).irlHigh j = s.irlHigh j := rfl

/-! ## updCards -/

@[simp] theorem State.updCards_bcu (f : Cards → Cards) : (s.updCards f).bcu = s.bcu := rfl
@[simp] theorem State.updCards_sbc (f : Cards → Cards) : (s.updCards f).sbc = s.sbc := rfl
@[simp] theorem State.updCards_slots (f : Cards → Cards) : (s.updCards f).slots = s.slots := rfl
@[simp] theorem State.updCards_measure (f : Cards → Cards) : (s.updCards f).measure = s.measure := rfl
@[simp] theorem State.updCards_rmap (f : Cards → Cards) : (s.updCards f).rmap = s.rmap := rfl
@[simp] theorem State.updCards_ae (f : Cards → Cards) : (s.updCards f).ae = s.ae := rfl
@[simp] theorem State.updCards_chans (f : Cards → Cards) : (s.updCards f).chans = s.chans := rfl
@[simp] theorem State.updCards_chanReply (f : Cards → Cards) : (s.updCards f).chanReply = s.chanReply := rfl
@[simp] theorem State.updCards_stm (f : Cards → Cards) : (s.updCards f).stm = s.stm := rfl
@[simp] theorem State.updCards_inputs (f : Cards → Cards) : (s.updCards f).inputs = s.inputs := rfl
@[simp] theorem State.updCards_ml (f : Cards → Cards) : (s.updCards f).ml = s.ml := rfl
@[simp] theorem State.updCards_cards (f : Cards → Cards) : (s.updCards f).cards = f s.cards := rfl
@[simp] theorem State.updCards_free (f : Cards → Cards) : (s.updCards f).free = s.free := rfl
@[simp] theorem State.updCards_pending (f : Cards → Cards) : (s.updCards f).pending = s.pending := rfl
@[simp] theorem State.updCards_slot (f : Cards → Cards) (j : SlotId) : (s.updCards f).slot j = s.slot j := rfl
@[simp] theorem State.updCards_chan (f : Cards → Cards) (j : ChanId) : (s.updCards f).chan j = s.chan j := rfl
@[simp] theorem State.updCards_input (f : Cards → Cards) (j : InputId) : (s.updCards f).input j = s.input j := rfl
@[simp] theorem State.updCards_faultRecord (f : Cards → Cards) (j : SlotId) : (s.updCards f).faultRecord j = s.faultRecord j := rfl

/-! ## updMeasure -/

@[simp] theorem State.updMeasure_bcu (f : Measure → Measure) : (s.updMeasure f).bcu = s.bcu := rfl
@[simp] theorem State.updMeasure_sbc (f : Measure → Measure) : (s.updMeasure f).sbc = s.sbc := rfl
@[simp] theorem State.updMeasure_slots (f : Measure → Measure) : (s.updMeasure f).slots = s.slots := rfl
@[simp] theorem State.updMeasure_measure (f : Measure → Measure) : (s.updMeasure f).measure = f s.measure := rfl
@[simp] theorem State.updMeasure_rmap (f : Measure → Measure) : (s.updMeasure f).rmap = s.rmap := rfl
@[simp] theorem State.updMeasure_ae (f : Measure → Measure) : (s.updMeasure f).ae = s.ae := rfl
@[simp] theorem State.updMeasure_chans (f : Measure → Measure) : (s.updMeasure f).chans = s.chans := rfl
@[simp] theorem State.updMeasure_chanReply (f : Measure → Measure) : (s.updMeasure f).chanReply = s.chanReply := rfl
@[simp] theorem State.updMeasure_stm (f : Measure → Measure) : (s.updMeasure f).stm = s.stm := rfl
@[simp] theorem State.updMeasure_inputs (f : Measure → Measure) : (s.updMeasure f).inputs = s.inputs := rfl
@[simp] theorem State.updMeasure_ml (f : Measure → Measure) : (s.updMeasure f).ml = s.ml := rfl
@[simp] theorem State.updMeasure_cards (f : Measure → Measure) : (s.updMeasure f).cards = s.cards := rfl
@[simp] theorem State.updMeasure_free (f : Measure → Measure) : (s.updMeasure f).free = s.free := rfl
@[simp] theorem State.updMeasure_pending (f : Measure → Measure) : (s.updMeasure f).pending = s.pending := rfl
@[simp] theorem State.updMeasure_slot (f : Measure → Measure) (j : SlotId) : (s.updMeasure f).slot j = s.slot j := rfl
@[simp] theorem State.updMeasure_chan (f : Measure → Measure) (j : ChanId) : (s.updMeasure f).chan j = s.chan j := rfl
@[simp] theorem State.updMeasure_input (f : Measure → Measure) (j : InputId) : (s.updMeasure f).input j = s.input j := rfl
@[simp] theorem State.updMeasure_faultRecord (f : Measure → Measure) (j : SlotId) : (s.updMeasure f).faultRecord j = s.faultRecord j := rfl
@[simp] theorem State.updMeasure_trq (f : Measure → Measure) (j : SlotId) (l : ChanId) : (s.updMeasure f).trq j l = s.trq j l := rfl
@[simp] theorem State.updMeasure_irlHigh (f : Measure → Measure) (j : InputId) : (s.updMeasure f).irlHigh j = s.irlHigh j := rfl

/-! ## setChanReply -/

@[simp] theorem State.setChanReply_bcu (r : Option ChanId) : (s.setChanReply r).bcu = s.bcu := rfl
@[simp] theorem State.setChanReply_sbc (r : Option ChanId) : (s.setChanReply r).sbc = s.sbc := rfl
@[simp] theorem State.setChanReply_slots (r : Option ChanId) : (s.setChanReply r).slots = s.slots := rfl
@[simp] theorem State.setChanReply_measure (r : Option ChanId) : (s.setChanReply r).measure = s.measure := rfl
@[simp] theorem State.setChanReply_rmap (r : Option ChanId) : (s.setChanReply r).rmap = s.rmap := rfl
@[simp] theorem State.setChanReply_ae (r : Option ChanId) : (s.setChanReply r).ae = s.ae := rfl
@[simp] theorem State.setChanReply_chans (r : Option ChanId) : (s.setChanReply r).chans = s.chans := rfl
@[simp] theorem State.setChanReply_chanReply (r : Option ChanId) : (s.setChanReply r).chanReply = r := rfl
@[simp] theorem State.setChanReply_stm (r : Option ChanId) : (s.setChanReply r).stm = s.stm := rfl
@[simp] theorem State.setChanReply_inputs (r : Option ChanId) : (s.setChanReply r).inputs = s.inputs := rfl
@[simp] theorem State.setChanReply_ml (r : Option ChanId) : (s.setChanReply r).ml = s.ml := rfl
@[simp] theorem State.setChanReply_cards (r : Option ChanId) : (s.setChanReply r).cards = s.cards := rfl
@[simp] theorem State.setChanReply_free (r : Option ChanId) : (s.setChanReply r).free = s.free := rfl
@[simp] theorem State.setChanReply_pending (r : Option ChanId) : (s.setChanReply r).pending = s.pending := rfl
@[simp] theorem State.setChanReply_slot (r : Option ChanId) (j : SlotId) : (s.setChanReply r).slot j = s.slot j := rfl
@[simp] theorem State.setChanReply_chan (r : Option ChanId) (j : ChanId) : (s.setChanReply r).chan j = s.chan j := rfl
@[simp] theorem State.setChanReply_input (r : Option ChanId) (j : InputId) : (s.setChanReply r).input j = s.input j := rfl
@[simp] theorem State.setChanReply_faultRecord (r : Option ChanId) (j : SlotId) : (s.setChanReply r).faultRecord j = s.faultRecord j := rfl
@[simp] theorem State.setChanReply_trq (r : Option ChanId) (j : SlotId) (l : ChanId) : (s.setChanReply r).trq j l = s.trq j l := rfl
@[simp] theorem State.setChanReply_irlHigh (r : Option ChanId) (j : InputId) : (s.setChanReply r).irlHigh j = s.irlHigh j := rfl

/-! ## modSlot -/

@[simp] theorem State.modSlot_bcu (i : SlotId) (f : Slot → Slot) : (s.modSlot i f).bcu = s.bcu := rfl
@[simp] theorem State.modSlot_sbc (i : SlotId) (f : Slot → Slot) : (s.modSlot i f).sbc = s.sbc := rfl
@[simp] theorem State.modSlot_slots (i : SlotId) (f : Slot → Slot) : (s.modSlot i f).slots = s.slots.set i (f (s.slot i)) := rfl
@[simp] theorem State.modSlot_measure (i : SlotId) (f : Slot → Slot) : (s.modSlot i f).measure = s.measure := rfl
@[simp] theorem State.modSlot_rmap (i : SlotId) (f : Slot → Slot) : (s.modSlot i f).rmap = s.rmap := rfl
@[simp] theorem State.modSlot_ae (i : SlotId) (f : Slot → Slot) : (s.modSlot i f).ae = s.ae := rfl
@[simp] theorem State.modSlot_chans (i : SlotId) (f : Slot → Slot) : (s.modSlot i f).chans = s.chans := rfl
@[simp] theorem State.modSlot_chanReply (i : SlotId) (f : Slot → Slot) : (s.modSlot i f).chanReply = s.chanReply := rfl
@[simp] theorem State.modSlot_stm (i : SlotId) (f : Slot → Slot) : (s.modSlot i f).stm = s.stm := rfl
@[simp] theorem State.modSlot_inputs (i : SlotId) (f : Slot → Slot) : (s.modSlot i f).inputs = s.inputs := rfl
@[simp] theorem State.modSlot_ml (i : SlotId) (f : Slot → Slot) : (s.modSlot i f).ml = s.ml := rfl
@[simp] theorem State.modSlot_cards (i : SlotId) (f : Slot → Slot) : (s.modSlot i f).cards = s.cards := rfl
@[simp] theorem State.modSlot_free (i : SlotId) (f : Slot → Slot) : (s.modSlot i f).free = s.free := rfl
@[simp] theorem State.modSlot_pending (i : SlotId) (f : Slot → Slot) : (s.modSlot i f).pending = s.pending := rfl
@[simp] theorem State.modSlot_chan (i : SlotId) (f : Slot → Slot) (j : ChanId) : (s.modSlot i f).chan j = s.chan j := rfl
@[simp] theorem State.modSlot_input (i : SlotId) (f : Slot → Slot) (j : InputId) : (s.modSlot i f).input j = s.input j := rfl
@[simp] theorem State.modSlot_faultRecord (i : SlotId) (f : Slot → Slot) (j : SlotId) : (s.modSlot i f).faultRecord j = s.faultRecord j := rfl
@[simp] theorem State.modSlot_trq (i : SlotId) (f : Slot → Slot) (j : SlotId) (l : ChanId) : (s.modSlot i f).trq j l = s.trq j l := rfl
@[simp] theorem State.modSlot_irlHigh (i : SlotId) (f : Slot → Slot) (j : InputId) : (s.modSlot i f).irlHigh j = s.irlHigh j := rfl

/-! ## modChan -/

@[simp] theorem State.modChan_bcu (i : ChanId) (f : Channel → Channel) : (s.modChan i f).bcu = s.bcu := rfl
@[simp] theorem State.modChan_sbc (i : ChanId) (f : Channel → Channel) : (s.modChan i f).sbc = s.sbc := rfl
@[simp] theorem State.modChan_slots (i : ChanId) (f : Channel → Channel) : (s.modChan i f).slots = s.slots := rfl
@[simp] theorem State.modChan_measure (i : ChanId) (f : Channel → Channel) : (s.modChan i f).measure = s.measure := rfl
@[simp] theorem State.modChan_rmap (i : ChanId) (f : Channel → Channel) : (s.modChan i f).rmap = s.rmap := rfl
@[simp] theorem State.modChan_ae (i : ChanId) (f : Channel → Channel) : (s.modChan i f).ae = s.ae := rfl
@[simp] theorem State.modChan_chans (i : ChanId) (f : Channel → Channel) : (s.modChan i f).chans = s.chans.set i (f (s.chan i)) := rfl
@[simp] theorem State.modChan_chanReply (i : ChanId) (f : Channel → Channel) : (s.modChan i f).chanReply = s.chanReply := rfl
@[simp] theorem State.modChan_stm (i : ChanId) (f : Channel → Channel) : (s.modChan i f).stm = s.stm := rfl
@[simp] theorem State.modChan_inputs (i : ChanId) (f : Channel → Channel) : (s.modChan i f).inputs = s.inputs := rfl
@[simp] theorem State.modChan_ml (i : ChanId) (f : Channel → Channel) : (s.modChan i f).ml = s.ml := rfl
@[simp] theorem State.modChan_cards (i : ChanId) (f : Channel → Channel) : (s.modChan i f).cards = s.cards := rfl
@[simp] theorem State.modChan_free (i : ChanId) (f : Channel → Channel) : (s.modChan i f).free = s.free := rfl
@[simp] theorem State.modChan_pending (i : ChanId) (f : Channel → Channel) : (s.modChan i f).pending = s.pending := rfl
@[simp] theorem State.modChan_slot (i : ChanId) (f : Channel → Channel) (j : SlotId) : (s.modChan i f).slot j = s.slot j := rfl
@[simp] theorem State.modChan_input (i : ChanId) (f : Channel → Channel) (j : InputId) : (s.modChan i f).input j = s.input j := rfl
@[simp] theorem State.modChan_faultRecord (i : ChanId) (f : Channel → Channel) (j : SlotId) : (s.modChan i f).faultRecord j = s.faultRecord j := rfl
@[simp] theorem State.modChan_trq (i : ChanId) (f : Channel → Channel) (j : SlotId) (l : ChanId) : (s.modChan i f).trq j l = s.trq j l := rfl
@[simp] theorem State.modChan_irlHigh (i : ChanId) (f : Channel → Channel) (j : InputId) : (s.modChan i f).irlHigh j = s.irlHigh j := rfl

/-! ## modInput -/

@[simp] theorem State.modInput_bcu (i : InputId) (f : Input → Input) : (s.modInput i f).bcu = s.bcu := rfl
@[simp] theorem State.modInput_sbc (i : InputId) (f : Input → Input) : (s.modInput i f).sbc = s.sbc := rfl
@[simp] theorem State.modInput_slots (i : InputId) (f : Input → Input) : (s.modInput i f).slots = s.slots := rfl
@[simp] theorem State.modInput_measure (i : InputId) (f : Input → Input) : (s.modInput i f).measure = s.measure := rfl
@[simp] theorem State.modInput_rmap (i : InputId) (f : Input → Input) : (s.modInput i f).rmap = s.rmap := rfl
@[simp] theorem State.modInput_ae (i : InputId) (f : Input → Input) : (s.modInput i f).ae = s.ae := rfl
@[simp] theorem State.modInput_chans (i : InputId) (f : Input → Input) : (s.modInput i f).chans = s.chans := rfl
@[simp] theorem State.modInput_chanReply (i : InputId) (f : Input → Input) : (s.modInput i f).chanReply = s.chanReply := rfl
@[simp] theorem State.modInput_stm (i : InputId) (f : Input → Input) : (s.modInput i f).stm = s.stm := rfl
@[simp] theorem State.modInput_inputs (i : InputId) (f : Input → Input) : (s.modInput i f).inputs = s.inputs.set i (f (s.input i)) := rfl
@[simp] theorem State.modInput_ml (i : InputId) (f : Input → Input) : (s.modInput i f).ml = s.ml := rfl
@[simp] theorem State.modInput_cards (i : InputId) (f : Input → Input) : (s.modInput i f).cards = s.cards := rfl
@[simp] theorem State.modInput_free (i : InputId) (f : Input → Input) : (s.modInput i f).free = s.free := rfl
@[simp] theorem State.modInput_pending (i : InputId) (f : Input → Input) : (s.modInput i f).pending = s.pending := rfl
@[simp] theorem State.modInput_slot (i : InputId) (f : Input → Input) (j : SlotId) : (s.modInput i f).slot j = s.slot j := rfl
@[simp] theorem State.modInput_chan (i : InputId) (f : Input → Input) (j : ChanId) : (s.modInput i f).chan j = s.chan j := rfl
@[simp] theorem State.modInput_faultRecord (i : InputId) (f : Input → Input) (j : SlotId) : (s.modInput i f).faultRecord j = s.faultRecord j := rfl
@[simp] theorem State.modInput_trq (i : InputId) (f : Input → Input) (j : SlotId) (l : ChanId) : (s.modInput i f).trq j l = s.trq j l := rfl
@[simp] theorem State.modInput_irlHigh (i : InputId) (f : Input → Input) (j : InputId) : (s.modInput i f).irlHigh j = s.irlHigh j := rfl

/-! ## modFault -/

@[simp] theorem State.modFault_bcu (i : SlotId) (f : FaultRecord → FaultRecord) : (s.modFault i f).bcu = s.bcu := rfl
@[simp] theorem State.modFault_sbc (i : SlotId) (f : FaultRecord → FaultRecord) : (s.modFault i f).sbc = { s.sbc with faults := s.sbc.faults.set i (f (s.faultRecord i)) } := rfl
@[simp] theorem State.modFault_slots (i : SlotId) (f : FaultRecord → FaultRecord) : (s.modFault i f).slots = s.slots := rfl
@[simp] theorem State.modFault_measure (i : SlotId) (f : FaultRecord → FaultRecord) : (s.modFault i f).measure = s.measure := rfl
@[simp] theorem State.modFault_rmap (i : SlotId) (f : FaultRecord → FaultRecord) : (s.modFault i f).rmap = s.rmap := rfl
@[simp] theorem State.modFault_ae (i : SlotId) (f : FaultRecord → FaultRecord) : (s.modFault i f).ae = s.ae := rfl
@[simp] theorem State.modFault_chans (i : SlotId) (f : FaultRecord → FaultRecord) : (s.modFault i f).chans = s.chans := rfl
@[simp] theorem State.modFault_chanReply (i : SlotId) (f : FaultRecord → FaultRecord) : (s.modFault i f).chanReply = s.chanReply := rfl
@[simp] theorem State.modFault_stm (i : SlotId) (f : FaultRecord → FaultRecord) : (s.modFault i f).stm = s.stm := rfl
@[simp] theorem State.modFault_inputs (i : SlotId) (f : FaultRecord → FaultRecord) : (s.modFault i f).inputs = s.inputs := rfl
@[simp] theorem State.modFault_ml (i : SlotId) (f : FaultRecord → FaultRecord) : (s.modFault i f).ml = s.ml := rfl
@[simp] theorem State.modFault_cards (i : SlotId) (f : FaultRecord → FaultRecord) : (s.modFault i f).cards = s.cards := rfl
@[simp] theorem State.modFault_free (i : SlotId) (f : FaultRecord → FaultRecord) : (s.modFault i f).free = s.free := rfl
@[simp] theorem State.modFault_pending (i : SlotId) (f : FaultRecord → FaultRecord) : (s.modFault i f).pending = s.pending := rfl
@[simp] theorem State.modFault_slot (i : SlotId) (f : FaultRecord → FaultRecord) (j : SlotId) : (s.modFault i f).slot j = s.slot j := rfl
@[simp] theorem State.modFault_chan (i : SlotId) (f : FaultRecord → FaultRecord) (j : ChanId) : (s.modFault i f).chan j = s.chan j := rfl
@[simp] theorem State.modFault_input (i : SlotId) (f : FaultRecord → FaultRecord) (j : InputId) : (s.modFault i f).input j = s.input j := rfl
@[simp] theorem State.modFault_trq (i : SlotId) (f : FaultRecord → FaultRecord) (j : SlotId) (l : ChanId) : (s.modFault i f).trq j l = s.trq j l := rfl
@[simp] theorem State.modFault_irlHigh (i : SlotId) (f : FaultRecord → FaultRecord) (j : InputId) : (s.modFault i f).irlHigh j = s.irlHigh j := rfl

/-! ## Readers of the record an update changes -/

@[simp] theorem State.modSlot_slot (i : SlotId) (f : Slot → Slot) (j : SlotId) :
    (s.modSlot i f).slot j = if i = j then f (s.slot i) else s.slot j := by
  simp only [State.slot, State.modSlot_slots, Fin.getElem_fin, Vector.getElem_set, Fin.ext_iff]

@[simp] theorem State.modChan_chan (i : ChanId) (f : Channel → Channel) (j : ChanId) :
    (s.modChan i f).chan j = if i = j then f (s.chan i) else s.chan j := by
  simp only [State.chan, State.modChan_chans, Fin.getElem_fin, Vector.getElem_set, Fin.ext_iff]

@[simp] theorem State.modInput_input (i : InputId) (f : Input → Input) (j : InputId) :
    (s.modInput i f).input j = if i = j then f (s.input i) else s.input j := by
  simp only [State.input, State.modInput_inputs, Fin.getElem_fin, Vector.getElem_set, Fin.ext_iff]

@[simp] theorem State.modFault_faultRecord (i : SlotId) (f : FaultRecord → FaultRecord) (j : SlotId) :
    (s.modFault i f).faultRecord j = if i = j then f (s.faultRecord i) else s.faultRecord j := by
  simp only [State.faultRecord, State.modFault_sbc, Fin.getElem_fin, Vector.getElem_set, Fin.ext_iff]

end Sys2Proof.Machine
end

