-- ==== Sys2Proof/Laws/Fixed.lean ====
section
/-! SUPPORT. What the follow-on work of an event never changes (log 14): transfer boundaries, slot changes, stalls,
overrun halts, the clock's waits, arbitration and admission leave the figures gathered in `State.fixed` as they stand. -/

namespace Sys2Proof.Machine

open Sys2Proof

set_option Elab.async false

/-- The figures that no follow-on work changes. -/
structure Fixed where
  divider        : Nat
  pendingDivider : Option Nat
  timeBase       : Word
  timing         : Vector TimingClass 4
  readyLimit     : Nat
  interval       : Nat
  countdown      : Nat
  tickDue        : Bool
  debt           : Nat
  slips          : Word
  row            : Byte
  measure        : Measure
  windows        : Vector (Option Window) 32
  bytes          : Memory
  cards          : Cards
  free           : Nat
  pending        : List Instr
  up             : Bool
  resetPending   : Bool

/-- The fixed figures of a state. -/
def State.fixed (s : State) : Fixed :=
  ⟨s.bcu.divider, s.bcu.pendingDivider, s.bcu.timeBase, s.sbc.timing, s.sbc.readyLimit, s.sbc.interval,
    s.sbc.countdown, s.sbc.tickDue, s.sbc.debt, s.sbc.slips, s.sbc.row, s.measure, s.rmap.windows, s.stm.bytes,
    s.cards, s.free, s.pending, s.ml.up, s.ml.resetPending⟩

/-! ## Folds -/

theorem foldl_fixed {α : Type} (f : State → α → State) (h : ∀ s a, (f s a).fixed = s.fixed) (l : List α) (s : State) :
    (l.foldl f s).fixed = s.fixed := by
  induction l generalizing s with
  | nil => rfl
  | cons a l ih => rw [List.foldl_cons, ih, h]

theorem forSlots_fixed {f : SlotId → State → State} (h : ∀ i s, (f i s).fixed = s.fixed) (s : State) :
    (forSlots f s).fixed = s.fixed := foldl_fixed _ (fun s i => h i s) _ s

theorem forChans_fixed {f : ChanId → State → State} (h : ∀ n s, (f n s).fixed = s.fixed) (s : State) :
    (forChans f s).fixed = s.fixed := foldl_fixed _ (fun s n => h n s) _ s

theorem forInputs_fixed {f : InputId → State → State} (h : ∀ i s, (f i s).fixed = s.fixed) (s : State) :
    (forInputs f s).fixed = s.fixed := foldl_fixed _ (fun s i => h i s) _ s

/-! ## Updates -/

@[simp] theorem modSlot_fixed (s : State) (i : SlotId) (f : Slot → Slot) : (s.modSlot i f).fixed = s.fixed := rfl
@[simp] theorem modChan_fixed (s : State) (n : ChanId) (f : Channel → Channel) : (s.modChan n f).fixed = s.fixed := rfl
@[simp] theorem modInput_fixed (s : State) (i : InputId) (f : Input → Input) : (s.modInput i f).fixed = s.fixed := rfl
@[simp] theorem modFault_fixed (s : State) (i : SlotId) (f : FaultRecord → FaultRecord) :
    (s.modFault i f).fixed = s.fixed := rfl
@[simp] theorem updAe_fixed (s : State) (f : Ae → Ae) : (s.updAe f).fixed = s.fixed := rfl

theorem updBcu_fixed {s : State} {f : Bcu → Bcu} (hd : (f s.bcu).divider = s.bcu.divider)
    (hp : (f s.bcu).pendingDivider = s.bcu.pendingDivider) (ht : (f s.bcu).timeBase = s.bcu.timeBase) :
    (s.updBcu f).fixed = s.fixed := by
  simp [State.fixed, hd, hp, ht]

theorem updRmap_fixed {s : State} {f : Rmap → Rmap} (h : (f s.rmap).windows = s.rmap.windows) :
    (s.updRmap f).fixed = s.fixed := by
  simp [State.fixed, h]

theorem updStm_fixed {s : State} {f : Stm → Stm} (h : (f s.stm).bytes = s.stm.bytes) :
    (s.updStm f).fixed = s.fixed := by
  simp [State.fixed, h]

@[simp] theorem setChanReply_fixed (s : State) (r : Option ChanId) : (s.setChanReply r).fixed = s.fixed := rfl

/-! ## Replies and notices -/

@[simp] theorem replyCommand_fixed (s : State) (status : Status) (payload : List Byte) :
    (s.replyCommand status payload).fixed = s.fixed := by
  unfold State.replyCommand Ml.complete
  split
  · simp only [State.updMl]; split <;> rfl
  · rfl

@[simp] theorem replyStream_fixed (s : State) (status : Status) (payload : List Byte) :
    (s.replyStream status payload).fixed = s.fixed := by
  unfold State.replyStream Ml.complete
  split
  · simp only [State.updMl]; split <;> rfl
  · rfl

@[simp] theorem enqueue_fixed (s : State) (n : Notice) : (s.updMl fun m => m.enqueueNotice n).fixed = s.fixed := rfl

theorem admitInput_fixed (i : InputId) (s : State) : (s.admitInput i).fixed = s.fixed := by
  unfold State.admitInput; split <;> simp

theorem admitSlotFault_fixed (i : SlotId) (s : State) : (s.admitSlotFault i).fixed = s.fixed := by
  unfold State.admitSlotFault; split <;> simp

theorem admitBusFault_fixed (i : SlotId) (s : State) : (s.admitBusFault i).fixed = s.fixed := by
  unfold State.admitBusFault; split <;> simp

theorem admitChannel_fixed (n : ChanId) (s : State) : (s.admitChannel n).fixed = s.fixed := by
  unfold State.admitChannel; split <;> simp

theorem admitWoke_fixed (s : State) : s.admitWoke.fixed = s.fixed := by
  unfold State.admitWoke; split
  · split <;> rfl
  · rfl

@[simp] theorem admit_fixed (s : State) : s.admitOffers.fixed = s.fixed := by
  unfold State.admitOffers
  rw [admitWoke_fixed, forChans_fixed admitChannel_fixed, forSlots_fixed admitBusFault_fixed,
    forSlots_fixed admitSlotFault_fixed, forInputs_fixed admitInput_fixed]

/-! ## Inputs -/

@[simp] theorem capture_fixed (s : State) (i : InputId) (t : Word) (r : Bool) : (s.capture i t r).fixed = s.fixed := rfl

@[simp] theorem withdraw_fixed (s : State) (i : InputId) : (s.withdraw i).fixed = s.fixed := by
  unfold State.withdraw; split <;> rfl

@[simp] theorem releaseInput_fixed (s : State) (i : InputId) : (s.releaseInput i).fixed = s.fixed := by
  simp [State.releaseInput]

@[simp] theorem beginWatch_fixed (s : State) (i : InputId) : (s.beginWatch i).fixed = s.fixed := by
  unfold State.beginWatch; dsimp only; split
  · split <;> simp
  · rfl

@[simp] theorem releaseSlotInputs_fixed (s : State) (i : SlotId) : (s.releaseSlotInputs i).fixed = s.fixed :=
  forInputs_fixed (fun _ _ => by split <;> simp) s

@[simp] theorem watchSlot_fixed (s : State) (i : SlotId) : (s.watchSlot i).fixed = s.fixed :=
  forInputs_fixed (fun _ _ => by split <;> simp) s

@[simp] theorem suspendSampling_fixed (s : State) : s.suspendSampling.fixed = s.fixed :=
  forInputs_fixed (fun _ _ => by split <;> simp) s

/-! ## Channels -/

@[simp] theorem answerChannel_fixed (s : State) (n : ChanId) : (s.answerChannel n).fixed = s.fixed := by
  unfold State.answerChannel; split <;> simp

@[simp] theorem releaseChannel_fixed (s : State) (n : ChanId) : (s.releaseChannel n).fixed = s.fixed := by
  unfold State.releaseChannel; rw [modChan_fixed]; exact updStm_fixed (by simp only [Stm.release])

theorem chanBoundary_fixed (n : ChanId) (s : State) : (s.chanBoundary n).fixed = s.fixed := by
  unfold State.chanBoundary; repeat' split
  all_goals simp

@[simp] theorem chanBoundaries_fixed (s : State) : s.chanBoundaries.fixed = s.fixed :=
  forChans_fixed chanBoundary_fixed s

@[simp] theorem haltSlotChannels_fixed (s : State) (i : SlotId) (c : HaltCause) :
    (s.haltSlotChannels i c).fixed = s.fixed :=
  forChans_fixed (fun _ _ => by split <;> simp) s

theorem serveChannel_fixed (n : ChanId) (s : State) : (s.serveChannel n).fixed = s.fixed := by
  unfold State.serveChannel; dsimp only; split
  · split
    · split <;> simp
    · simp
  · rfl

@[simp] theorem serveChannels_fixed (s : State) : s.serveChannels.fixed = s.fixed :=
  forChans_fixed serveChannel_fixed s

/-! ## Slots -/

@[simp] theorem answerSlot_fixed (s : State) (i : SlotId) (status : Status) :
    (s.answerSlot i status).fixed = s.fixed := by
  unfold State.answerSlot; split
  · rfl
  · dsimp only; split <;> simp

@[simp] theorem enterState_fixed (s : State) (i : SlotId) (new : SlotState) : (s.enterState i new).fixed = s.fixed := by
  have clear : ∀ t : State, (t.updRmap fun m => m.clearSlot i).fixed = t.fixed := fun _ => updRmap_fixed rfl
  unfold State.enterState; dsimp only
  repeat' split
  all_goals simp [clear]

theorem makeChange_fixed (s : State) (i : SlotId) (c : SlotChange) : (s.makeChange i c).fixed = s.fixed := by
  unfold State.makeChange; dsimp only; split <;> simp

theorem slotBoundary_fixed (i : SlotId) (s : State) : (s.slotBoundary i).fixed = s.fixed := by
  unfold State.slotBoundary; split
  · split
    · rfl
    · exact makeChange_fixed s i _
  · rfl

@[simp] theorem slotBoundaries_fixed (s : State) : s.slotBoundaries.fixed = s.fixed :=
  forSlots_fixed slotBoundary_fixed s

/-! ## Accesses, grants and the clock's waits -/

@[simp] theorem endAccess_fixed (s : State) (status : Status) : (s.endAccess status).fixed = s.fixed := by
  unfold State.endAccess; dsimp only; split <;> simp

@[simp] theorem freeBus_fixed (s : State) : s.freeBus.fixed = s.fixed := rfl
@[simp] theorem handResult_fixed (s : State) (r : CycleResult) : (s.handResult r).fixed = s.fixed := rfl
@[simp] theorem beginRefresh_fixed (s : State) : s.beginRefresh.fixed = s.fixed := rfl
@[simp] theorem beginTransfer_fixed (s : State) (n : ChanId) : (s.beginTransfer n).fixed = s.fixed := rfl

@[simp] theorem beginAccessCycle_fixed (s : State) : s.beginAccessCycle.fixed = s.fixed := by
  unfold State.beginAccessCycle; split
  · rfl
  · split
    · rfl
    · simp

@[simp] theorem arbitrate_fixed (s : State) : s.arbitrate.fixed = s.fixed := by
  unfold State.arbitrate; split
  · split <;> simp
  · rfl

@[simp] theorem clockBoundary_fixed (s : State) : s.clockBoundary.fixed = s.fixed := by
  have stopped : ∀ (t : State) (c : ClockState),
      (t.updBcu fun b => { b with clock := c, waiting := none }).fixed = t.fixed := fun _ _ => updBcu_fixed rfl rfl rfl
  have answered : ∀ t : State, (t.updBcu fun b => { b with deferred := none }).fixed = t.fixed :=
    fun _ => updBcu_fixed rfl rfl rfl
  unfold State.clockBoundary; split
  · rfl
  · split
    · split
      · exact updBcu_fixed rfl rfl rfl
      · rfl
    · simp [apply_ite State.fixed, stopped, answered]
    · rfl

/-- The follow-on work of an event leaves the fixed figures as they stand. -/
@[simp] theorem settle_fixed (s : State) : s.settle.fixed = s.fixed := by simp [State.settle]

end Sys2Proof.Machine
end

