-- ==== Sys2Proof/Laws/PerInstr.lean ====
section
/-! SUPPORT. The family EventOrRequest: a command is an event, which spells no frame, or a request, whose kind is a request
kind of chapter 10 and whose payload, if the command is well formed, has a length R189 allows. -/

namespace Sys2Proof.Laws.EventOrRequest

open Sys2Proof Sys2Proof.Machine

set_option Elab.async false

/-- The frame a command spells, if any, has a request kind below 0x80, and a well-formed command's payload fits it. -/
def Statement (i : Instr) : Prop :=
  ∀ (kind : Byte) (tag : Half) (payload : List Byte), requestOf i = some (kind, tag, payload) →
    kind.toNat < 0x80 ∧ ∃ p least most, requestKind kind = some (p, least, most) ∧
      (i.wellFormed = true → least ≤ payload.length ∧ payload.length ≤ most)

theorem partPowerOn : Statement .partPowerOn := by
  rintro _ _ _ ⟨⟩

theorem linkUp : Statement .linkUp := by
  rintro _ _ _ ⟨⟩

theorem linkReset : Statement .linkReset := by
  rintro _ _ _ ⟨⟩

theorem frameReceive : ∀ a b, Statement (.frameReceive a b) := by
  rintro a b _ _ _ ⟨⟩

theorem frameTake : ∀ a, Statement (.frameTake a) := by
  rintro a _ _ _ ⟨⟩

theorem frameTransmit : Statement .frameTransmit := by
  rintro _ _ _ ⟨⟩

theorem frameSent : Statement .frameSent := by
  rintro _ _ _ ⟨⟩

theorem noticeAdmission : Statement .noticeAdmission := by
  rintro _ _ _ ⟨⟩

theorem setClock : ∀ a b, Statement (.setClock a b) := by
  rintro a b _ _ _ ⟨⟩
  exact ⟨by decide, _, _, _, rfl, fun _ => by simp⟩

theorem park : ∀ a, Statement (.park a) := by
  rintro a _ _ _ ⟨⟩
  exact ⟨by decide, _, _, _, rfl, fun _ => by simp⟩

theorem wake : ∀ a, Statement (.wake a) := by
  rintro a _ _ _ ⟨⟩
  exact ⟨by decide, _, _, _, rfl, fun _ => by simp⟩

theorem clockStop : ∀ a, Statement (.clockStop a) := by
  rintro a _ _ _ ⟨⟩
  exact ⟨by decide, _, _, _, rfl, fun _ => by simp⟩

theorem startingEnd : Statement .startingEnd := by
  rintro _ _ _ ⟨⟩

theorem retuneEnd : Statement .retuneEnd := by
  rintro _ _ _ ⟨⟩

theorem refreshTick : Statement .refreshTick := by
  rintro _ _ _ ⟨⟩

theorem setTiming : ∀ a b c d, Statement (.setTiming a b c d) := by
  rintro a b c d _ _ _ ⟨⟩
  exact ⟨by decide, _, _, _, rfl, fun _ => by simp⟩

theorem setReadyLimit : ∀ a b, Statement (.setReadyLimit a b) := by
  rintro a b _ _ _ ⟨⟩
  exact ⟨by decide, _, _, _, rfl, fun _ => by simp⟩

theorem setRefresh : ∀ a b, Statement (.setRefresh a b) := by
  rintro a b _ _ _ ⟨⟩
  exact ⟨by decide, _, _, _, rfl, fun _ => by simp⟩

theorem busStatus : ∀ a, Statement (.busStatus a) := by
  rintro a _ _ _ ⟨⟩
  exact ⟨by decide, _, _, _, rfl, fun _ => by simp⟩

theorem cycleEnd : ∀ a b, Statement (.cycleEnd a b) := by
  rintro a b _ _ _ ⟨⟩

theorem readyTimeout : Statement .readyTimeout := by
  rintro _ _ _ ⟨⟩

theorem currentMeasurement : ∀ a, Statement (.currentMeasurement a) := by
  rintro a _ _ _ ⟨⟩

theorem cooldownEnd : ∀ a, Statement (.cooldownEnd a) := by
  rintro a _ _ _ ⟨⟩

theorem poweringEnd : ∀ a, Statement (.poweringEnd a) := by
  rintro a _ _ _ ⟨⟩

theorem resettingEnd : ∀ a, Statement (.resettingEnd a) := by
  rintro a _ _ _ ⟨⟩

theorem slotResetEnd : ∀ a, Statement (.slotResetEnd a) := by
  rintro a _ _ _ ⟨⟩

theorem powerOn : ∀ a b, Statement (.powerOn a b) := by
  rintro a b _ _ _ ⟨⟩
  exact ⟨by decide, _, _, _, rfl, fun _ => by simp⟩

theorem powerOff : ∀ a b, Statement (.powerOff a b) := by
  rintro a b _ _ _ ⟨⟩
  exact ⟨by decide, _, _, _, rfl, fun _ => by simp⟩

theorem isolate : ∀ a b, Statement (.isolate a b) := by
  rintro a b _ _ _ ⟨⟩
  exact ⟨by decide, _, _, _, rfl, fun _ => by simp⟩

theorem connect : ∀ a b, Statement (.connect a b) := by
  rintro a b _ _ _ ⟨⟩
  exact ⟨by decide, _, _, _, rfl, fun _ => by simp⟩

theorem slotReset : ∀ a b c, Statement (.slotReset a b c) := by
  rintro a b c _ _ _ ⟨⟩
  exact ⟨by decide, _, _, _, rfl, fun _ => by simp⟩

theorem setLimit : ∀ a b c, Statement (.setLimit a b c) := by
  rintro a b c _ _ _ ⟨⟩
  exact ⟨by decide, _, _, _, rfl, fun _ => by simp⟩

theorem slotStatus : ∀ a b, Statement (.slotStatus a b) := by
  rintro a b _ _ _ ⟨⟩
  exact ⟨by decide, _, _, _, rfl, fun _ => by simp⟩

theorem mapAdd : ∀ a b, Statement (.mapAdd a b) := by
  rintro a b _ _ _ ⟨⟩
  exact ⟨by decide, _, _, _, rfl, fun _ => by simp [windowBytes]⟩

theorem mapRemove : ∀ a b, Statement (.mapRemove a b) := by
  rintro a b _ _ _ ⟨⟩
  exact ⟨by decide, _, _, _, rfl, fun _ => by simp⟩

theorem mapList : ∀ a, Statement (.mapList a) := by
  rintro a _ _ _ ⟨⟩
  exact ⟨by decide, _, _, _, rfl, fun _ => by simp⟩

theorem shadowRead : ∀ a b c d, Statement (.shadowRead a b c d) := by
  rintro a b c d _ _ _ ⟨⟩
  exact ⟨by decide, _, _, _, rfl, fun _ => by simp⟩

theorem shadowClear : ∀ a b c, Statement (.shadowClear a b c) := by
  rintro a b c _ _ _ ⟨⟩
  exact ⟨by decide, _, _, _, rfl, fun _ => by simp⟩

theorem ioRead : ∀ a b, Statement (.ioRead a b) := by
  rintro a b _ _ _ ⟨⟩
  exact ⟨by decide, _, _, _, rfl, fun _ => by simp [accessBytes]⟩

theorem ioWrite : ∀ a b c, Statement (.ioWrite a b c) := by
  rintro a b c _ _ _ ⟨⟩
  refine ⟨by decide, _, _, _, rfl, fun h => ?_⟩
  simp [Instr.wellFormed] at h
  simp [accessBytes]
  omega

theorem memRead : ∀ a b, Statement (.memRead a b) := by
  rintro a b _ _ _ ⟨⟩
  exact ⟨by decide, _, _, _, rfl, fun _ => by simp [accessBytes]⟩

theorem memWrite : ∀ a b c, Statement (.memWrite a b c) := by
  rintro a b c _ _ _ ⟨⟩
  refine ⟨by decide, _, _, _, rfl, fun h => ?_⟩
  simp [Instr.wellFormed] at h
  simp [accessBytes]
  omega

theorem pairWrite : ∀ a b c, Statement (.pairWrite a b c) := by
  rintro a b c _ _ _ ⟨⟩
  refine ⟨by decide, _, _, _, rfl, fun h => ?_⟩
  simp [Instr.wellFormed] at h
  simp [pairBytes]
  omega

theorem pairRead : ∀ a b, Statement (.pairRead a b) := by
  rintro a b _ _ _ ⟨⟩
  exact ⟨by decide, _, _, _, rfl, fun _ => by simp [pairBytes]⟩

theorem poll : ∀ a b, Statement (.poll a b) := by
  rintro a b _ _ _ ⟨⟩
  exact ⟨by decide, _, _, _, rfl, fun _ => by simp [pollBytes]⟩

theorem pollIntervalEnd : Statement .pollIntervalEnd := by
  rintro _ _ _ ⟨⟩

theorem cancel : ∀ a b, Statement (.cancel a b) := by
  rintro a b _ _ _ ⟨⟩
  exact ⟨by decide, _, _, _, rfl, fun _ => by simp⟩

theorem chConfigure : ∀ a b c, Statement (.chConfigure a b c) := by
  rintro a b c _ _ _ ⟨⟩
  exact ⟨by decide, _, _, _, rfl, fun _ => by simp [configureBytes]⟩

theorem chArm : ∀ a b, Statement (.chArm a b) := by
  rintro a b _ _ _ ⟨⟩
  exact ⟨by decide, _, _, _, rfl, fun _ => by simp⟩

theorem chPause : ∀ a b, Statement (.chPause a b) := by
  rintro a b _ _ _ ⟨⟩
  exact ⟨by decide, _, _, _, rfl, fun _ => by simp⟩

theorem chResume : ∀ a b, Statement (.chResume a b) := by
  rintro a b _ _ _ ⟨⟩
  exact ⟨by decide, _, _, _, rfl, fun _ => by simp⟩

theorem chClear : ∀ a b, Statement (.chClear a b) := by
  rintro a b _ _ _ ⟨⟩
  exact ⟨by decide, _, _, _, rfl, fun _ => by simp⟩

theorem chRelease : ∀ a b, Statement (.chRelease a b) := by
  rintro a b _ _ _ ⟨⟩
  exact ⟨by decide, _, _, _, rfl, fun _ => by simp⟩

theorem chStatus : ∀ a b, Statement (.chStatus a b) := by
  rintro a b _ _ _ ⟨⟩
  exact ⟨by decide, _, _, _, rfl, fun _ => by simp⟩

theorem trqAssert : ∀ a b, Statement (.trqAssert a b) := by
  rintro a b _ _ _ ⟨⟩

theorem trqDeassert : ∀ a b, Statement (.trqDeassert a b) := by
  rintro a b _ _ _ ⟨⟩

theorem ringWrite : ∀ a b c, Statement (.ringWrite a b c) := by
  rintro a b c _ _ _ ⟨⟩
  refine ⟨by decide, _, _, _, rfl, fun h => ?_⟩
  simp [Instr.wellFormed] at h
  simp
  omega

theorem ringRead : ∀ a b c, Statement (.ringRead a b c) := by
  rintro a b c _ _ _ ⟨⟩
  exact ⟨by decide, _, _, _, rfl, fun _ => by simp⟩

theorem irlChange : ∀ a b c, Statement (.irlChange a b c) := by
  rintro a b c _ _ _ ⟨⟩

theorem irlFilterChange : ∀ a b, Statement (.irlFilterChange a b) := by
  rintro a b _ _ _ ⟨⟩

theorem intConfigure : ∀ a b c d, Statement (.intConfigure a b c d) := by
  rintro a b c d _ _ _ ⟨⟩
  exact ⟨by decide, _, _, _, rfl, fun _ => by simp [inputBytes]⟩

theorem intMask : ∀ a b c d, Statement (.intMask a b c d) := by
  rintro a b c d _ _ _ ⟨⟩
  exact ⟨by decide, _, _, _, rfl, fun _ => by simp⟩

theorem intStatus : ∀ a b, Statement (.intStatus a b) := by
  rintro a b _ _ _ ⟨⟩
  exact ⟨by decide, _, _, _, rfl, fun _ => by simp⟩

theorem intAck : ∀ a b c, Statement (.intAck a b c) := by
  rintro a b c _ _ _ ⟨⟩
  exact ⟨by decide, _, _, _, rfl, fun _ => by simp⟩

theorem info : ∀ a, Statement (.info a) := by
  rintro a _ _ _ ⟨⟩
  exact ⟨by decide, _, _, _, rfl, fun _ => by simp⟩

theorem resetPart : ∀ a, Statement (.resetPart a) := by
  rintro a _ _ _ ⟨⟩
  exact ⟨by decide, _, _, _, rfl, fun _ => by simp⟩

theorem timeBaseAdvance : Statement .timeBaseAdvance := by
  rintro _ _ _ ⟨⟩

end Sys2Proof.Laws.EventOrRequest
end

