-- ==== Sys2Proof/Laws/Replies.lean ====
section
/-! SUPPORT. How a request that its pipe takes at once runs: the offer is the owner's handling of the begun request, and
a reply made in that event leaves the state as a reply at once does. -/

namespace Sys2Proof.Machine

open Sys2Proof

set_option Elab.async false

variable (s : State) (p : Pipe) (kind : Byte) (tag : Half)

/-! ## Fields and readers of a state with a request begun -/

@[simp] theorem beginRequest_bcu : (s.beginRequest p kind tag).bcu = s.bcu := rfl
@[simp] theorem beginRequest_sbc : (s.beginRequest p kind tag).sbc = s.sbc := rfl
@[simp] theorem beginRequest_slots : (s.beginRequest p kind tag).slots = s.slots := rfl
@[simp] theorem beginRequest_measure : (s.beginRequest p kind tag).measure = s.measure := rfl
@[simp] theorem beginRequest_rmap : (s.beginRequest p kind tag).rmap = s.rmap := rfl
@[simp] theorem beginRequest_ae : (s.beginRequest p kind tag).ae = s.ae := rfl
@[simp] theorem beginRequest_chans : (s.beginRequest p kind tag).chans = s.chans := rfl
@[simp] theorem beginRequest_chanReply : (s.beginRequest p kind tag).chanReply = s.chanReply := rfl
@[simp] theorem beginRequest_stm : (s.beginRequest p kind tag).stm = s.stm := rfl
@[simp] theorem beginRequest_inputs : (s.beginRequest p kind tag).inputs = s.inputs := rfl
@[simp] theorem beginRequest_cards : (s.beginRequest p kind tag).cards = s.cards := rfl
@[simp] theorem beginRequest_free : (s.beginRequest p kind tag).free = s.free := rfl
@[simp] theorem beginRequest_pending : (s.beginRequest p kind tag).pending = s.pending := rfl
@[simp] theorem beginRequest_slot (i : SlotId) : (s.beginRequest p kind tag).slot i = s.slot i := rfl
@[simp] theorem beginRequest_chan (n : ChanId) : (s.beginRequest p kind tag).chan n = s.chan n := rfl
@[simp] theorem beginRequest_input (i : InputId) : (s.beginRequest p kind tag).input i = s.input i := rfl
@[simp] theorem beginRequest_faultRecord (i : SlotId) :
    (s.beginRequest p kind tag).faultRecord i = s.faultRecord i := rfl
@[simp] theorem beginRequest_command :
    (s.beginRequest .command kind tag).ml.command = some ⟨kind, tag, true⟩ := rfl
@[simp] theorem beginRequest_stream :
    (s.beginRequest .stream kind tag).ml.stream = some ⟨kind, tag, true⟩ := rfl

/-! ## The order of beginning a request and changing another block does not matter -/

@[simp] theorem beginRequest_updBcu (f : Bcu → Bcu) :
    (s.beginRequest p kind tag).updBcu f = (s.updBcu f).beginRequest p kind tag := rfl
@[simp] theorem beginRequest_updSbc (f : Sbc → Sbc) :
    (s.beginRequest p kind tag).updSbc f = (s.updSbc f).beginRequest p kind tag := rfl
@[simp] theorem beginRequest_updRmap (f : Rmap → Rmap) :
    (s.beginRequest p kind tag).updRmap f = (s.updRmap f).beginRequest p kind tag := rfl
@[simp] theorem beginRequest_updAe (f : Ae → Ae) :
    (s.beginRequest p kind tag).updAe f = (s.updAe f).beginRequest p kind tag := rfl
@[simp] theorem beginRequest_updStm (f : Stm → Stm) :
    (s.beginRequest p kind tag).updStm f = (s.updStm f).beginRequest p kind tag := rfl
@[simp] theorem beginRequest_modSlot (i : SlotId) (f : Slot → Slot) :
    (s.beginRequest p kind tag).modSlot i f = (s.modSlot i f).beginRequest p kind tag := rfl
@[simp] theorem beginRequest_modChan (n : ChanId) (f : Channel → Channel) :
    (s.beginRequest p kind tag).modChan n f = (s.modChan n f).beginRequest p kind tag := rfl
@[simp] theorem beginRequest_modInput (i : InputId) (f : Input → Input) :
    (s.beginRequest p kind tag).modInput i f = (s.modInput i f).beginRequest p kind tag := rfl
@[simp] theorem beginRequest_setChanReply (r : Option ChanId) :
    (s.beginRequest p kind tag).setChanReply r = (s.setChanReply r).beginRequest p kind tag := rfl

/-! ## Replies -/

variable {s p}

/-- A pipe that is ready has no request in progress. -/
theorem State.ready.idle (h : s.ready p) : s.ml.inProgress p = none := by
  have := h.1
  simp only [Ml.canTake, Bool.and_eq_true, Option.isNone_iff_eq_none] at this
  exact this.1.1.2

/-- A reply to a command begun in this event. -/
theorem replyCommand_begin {kind : Byte} {tag : Half} (h : s.ml.command = none) (status : Status) (payload : List Byte) :
    (s.beginRequest .command kind tag).replyCommand status payload =
      s.replyAtOnce ⟨kind + 0x80, status.code, tag, payload⟩ := by
  obtain ⟨bcu, sbc, slots, measure, rmap, ae, chans, chanReply, stm, inputs, ml, cards, free, pending⟩ := s
  cases ml
  simp only at h
  subst h
  simp [State.replyCommand, State.beginRequest, State.updMl, State.replyAtOnce, Ml.complete, Ml.setInProgress, replyFrame]

/-- A reply to a stream-pipe request begun in this event. -/
theorem replyStream_begin {kind : Byte} {tag : Half} (h : s.ml.stream = none) (status : Status) (payload : List Byte) :
    (s.beginRequest .stream kind tag).replyStream status payload =
      s.replyAtOnce ⟨kind + 0x80, status.code, tag, payload⟩ := by
  obtain ⟨bcu, sbc, slots, measure, rmap, ae, chans, chanReply, stm, inputs, ml, cards, free, pending⟩ := s
  cases ml
  simp only at h
  subst h
  simp [State.replyStream, State.beginRequest, State.updMl, State.replyAtOnce, Ml.complete, Ml.setInProgress, replyFrame]

/-! ## Offers -/

/-- A request offered to a ready pipe, of a kind of that pipe and a length the kind allows, is handled at once (R173 to
R175, log 1). -/
theorem offer_ready {kind : Byte} {tag : Half} {payload : List Byte} {least most : Nat} (h : s.ready p)
    (hk : requestKind kind = some (p, least, most)) (hl : least ≤ payload.length) (hm : payload.length ≤ most)
    (hp : payload.length ≤ 1040) (handle : State → State) :
    s.offer p kind tag payload handle = handle (s.beginRequest p kind tag) := by
  have h2 : (s.ml.intake p).isEmpty = true := by rw [h.2]; rfl
  have : ¬ (payload.length ≠ payload.length ∨ Config.maxPayload < payload.length ∨
      payload.length < least ∨ most < payload.length) := by
    have : Config.maxPayload = 1040 := rfl
    omega
  simp only [State.offer, h.1, h2, Bool.and_self, if_true, State.takeRequest, hk, ne_eq, not_true_eq_false, if_false]
  rw [if_neg]
  simpa using this

/-- A request offered to a pipe that is not ready is received as its frame (log 1). -/
theorem offer_not_ready {kind : Byte} {tag : Half} {payload : List Byte} (h : ¬ s.ready p) (handle : State → State) :
    s.offer p kind tag payload handle = s.updMl fun m => m.receive p (requestBytes kind tag payload) := by
  unfold State.offer
  rw [if_neg]
  intro hc
  simp only [Bool.and_eq_true, List.isEmpty_iff] at hc
  exact h hc

end Sys2Proof.Machine
end

