-- ==== Sys2Proof/Laws/Storage.lean ====
section
/-! SUPPORT. The staging storage: a byte written reads back, every other byte is kept, and every operation keeps the
canonical form. -/

namespace Sys2Proof.Machine

open Sys2Proof

namespace Storage

theorem wfFrom_mono {m : Memory} {low high : Nat} (h : low ≤ high) (hm : Memory.wfFrom high m = true) :
    Memory.wfFrom low m = true := by
  cases m with
  | nil => rfl
  | cons e m =>
    simp only [Memory.wfFrom, Bool.and_eq_true, decide_eq_true_eq] at hm ⊢
    exact ⟨⟨h.trans hm.1.1, hm.1.2⟩, hm.2⟩

/-- Below the first listed address nothing is listed. -/
theorem read_below {m : Memory} {low x : Nat} (hm : Memory.wfFrom low m = true) (h : x < low) :
    Memory.read m x = unwrittenByte := by
  induction m generalizing low with
  | nil => rfl
  | cons e m ih =>
    simp only [Memory.wfFrom, Bool.and_eq_true, decide_eq_true_eq] at hm
    simp only [Memory.read]
    rw [if_neg (by omega)]
    exact ih hm.2 (by omega)

/-- Every byte after a write: the byte written at its address, and what stood there elsewhere. -/
theorem read_write {m : Memory} {low : Nat} (hm : Memory.wfFrom low m = true) (a : Nat) (v : Byte) (x : Nat) :
    Memory.read (Memory.write m a v) x = if x = a then v else Memory.read m x := by
  induction m generalizing low with
  | nil =>
    unfold Memory.write
    split
    · simp only [Memory.read]; split <;> simp_all
    · simp only [Memory.read]; split <;> simp_all
      intro h; omega
  | cons e m ih =>
    obtain ⟨b, w⟩ := e
    simp only [Memory.wfFrom, Bool.and_eq_true, decide_eq_true_eq] at hm
    have below := fun y (hy : y < b + 1) => read_below hm.2 hy
    unfold Memory.write
    split
    · split
      · simp only [Memory.read]
        by_cases hx : x = a
        · rw [if_pos hx, if_neg (by omega), below x (by omega)]; simp_all
        · rw [if_neg hx]
      · simp only [Memory.read]
        by_cases hx : a = x
        · rw [if_pos hx, if_pos hx.symm]
        · rw [if_neg hx, if_neg (Ne.symm hx)]
    · split
      · rename_i h1 h2
        subst h2
        split
        · by_cases hx : x = a
          · rw [if_pos hx, below x (by omega)]; simp_all
          · simp only [Memory.read]; rw [if_neg hx, if_neg (Ne.symm hx)]
        · simp only [Memory.read]
          by_cases hx : a = x
          · rw [if_pos hx, if_pos hx.symm]
          · rw [if_neg hx, if_neg (Ne.symm hx), if_neg hx]
      · simp only [Memory.read]
        rw [ih hm.2]
        by_cases hb : b = x
        · rw [if_pos hb, if_pos hb]; split
          · omega
          · rfl
        · rw [if_neg hb, if_neg hb]

theorem write_wfFrom {m : Memory} {low a : Nat} {v : Byte} (hm : Memory.wfFrom low m = true) (h : low ≤ a) :
    Memory.wfFrom low (Memory.write m a v) = true := by
  induction m generalizing low with
  | nil =>
    unfold Memory.write
    split
    · rfl
    · simp_all [Memory.wfFrom]
  | cons e m ih =>
    obtain ⟨b, w⟩ := e
    have hm' := hm
    simp only [Memory.wfFrom, Bool.and_eq_true, decide_eq_true_eq] at hm
    unfold Memory.write
    split
    · split
      · exact hm'
      · simp only [Memory.wfFrom, Bool.and_eq_true, decide_eq_true_eq]
        exact ⟨⟨h, by assumption⟩, ⟨by omega, hm.1.2⟩, hm.2⟩
    · split
      · split
        · exact wfFrom_mono (by omega) hm.2
        · simp only [Memory.wfFrom, Bool.and_eq_true, decide_eq_true_eq]
          rename_i h2 _
          exact ⟨⟨h, by assumption⟩, h2 ▸ hm.2⟩
      · simp only [Memory.wfFrom, Bool.and_eq_true, decide_eq_true_eq]
        exact ⟨hm.1, ih hm.2 (by omega)⟩

end Storage

/-- A write keeps the canonical form. -/
theorem Memory.write_wf {m : Memory} (hm : Memory.wf m = true) (a : Nat) (v : Byte) :
    Memory.wf (Memory.write m a v) = true := Storage.write_wfFrom hm (Nat.zero_le a)

/-- Storing bytes in a ring keeps the canonical form. -/
theorem storeRing_wf (c : Channel) (bytes : List Byte) (p : Word) {m : Memory} (hm : Memory.wf m = true) :
    Memory.wf (storeRing c p bytes m) = true := by
  induction bytes generalizing p m with
  | nil => exact hm
  | cons b bs ih => exact ih (p + 1) (Memory.write_wf hm _ _)

end Sys2Proof.Machine
end

