-- ==== Sys2Proof/Tests/Slice0.lean ====
section
/-! SUPPORT. Tests of one step each against the figures of the spec's worked examples, the smoke test of the
well-formedness checks, and for every statement with hypotheses a state and operands that meet them. -/

namespace Sys2Proof.Tests

set_option Elab.async false

open Sys2Proof Sys2Proof.Machine

/-! ## Small states -/

/-- The state after a command. -/
def after (c : Instr) (s : State) : State :=
  match exec c s with
  | .next t => t
  | .fault _ => s
  | .refused _ => s

/-- The replies made, as status codes. -/
def State.statuses (s : State) : List Byte := s.ml.replies.map (·.status)
/-- The payload of the first reply made. -/
def State.payload (s : State) : List Byte := (s.ml.replies.map (·.payload)).headD []

/-- The link UP, all else as after power-on. -/
def up : State := { State.reset with ml := { up := true } }
/-- The link UP and the clock in a state. -/
def clocked (c : ClockState) : State := { up with bcu := { clock := c } }
/-- The link UP and the clock in RUN. -/
def run : State := clocked .run
/-- RUN with a PARK or CLOCK_STOP that waits. -/
def stopping (w : ClockWait) : State := { up with bcu := { clock := .run, waiting := some w } }

def State.putSlot (s : State) (i : SlotId) (t : Slot) : State := s.modSlot i fun _ => t
def State.putChan (s : State) (n : ChanId) (c : Channel) : State := s.modChan n fun _ => c
def State.putInput (s : State) (i : InputId) (x : Input) : State := s.modInput i fun _ => x
def State.putWindow (s : State) (i : WindowId) (w : Window) : State :=
  s.updRmap fun m => { m with windows := m.windows.set i (some w) }
def State.putCycle (s : State) (h : Holder) (c : Cycle) : State :=
  s.updSbc fun b => { b with holder := some h, cycle := some c }
def State.putTrq (s : State) (i : SlotId) (n : ChanId) : State :=
  s.updCards fun c => { c with trq := c.trq.set (trqIndex i n) true }
def State.putIrl (s : State) (i : InputId) : State := s.updCards fun c => { c with irl := c.irl.set i true }

/-- RUN with slot 1 in a state. -/
def slot1 (t : SlotState) : State := State.putSlot run 1 { state := t, present := true }
/-- RUN with slots 1 to 3 ENABLED. -/
def cards : State :=
  State.putSlot (State.putSlot (slot1 .enabled) 2 { state := .enabled }) 3 { state := .enabled }

/-- A cycle of a kind to a slot, 7 BCLK long with a ready limit of 76. -/
def cycleTo (kind : CycleKind) (i : SlotId) : Cycle :=
  ⟨kind, some i, onlySlot i, 0x022F, 0x1234, 7, 76, false, .real, false⟩
/-- A refresh cycle that connects a slot. -/
def refreshTo (i : SlotId) : Cycle := ⟨.refresh, none, onlySlot i, 3, 0, 4, 76, false, .real, false⟩

/-! ## Well-formedness smoke test (R24, R189): each check refuses an ill-formed command -/

def anyAccess : AccessFields := ⟨0, 0, 0x220, 8, 1, 1⟩
def anyPair : PairFields := ⟨0, 0, 0x388, 0xB0, 0x389, 8⟩

theorem test_ioWrite_data_too_long : (Instr.ioWrite 1 anyAccess (List.replicate 1025 0)).wellFormed = false := by
  decide +kernel
theorem test_memWrite_data_too_long : (Instr.memWrite 1 anyAccess (List.replicate 1025 0)).wellFormed = false := by
  decide +kernel
theorem test_pairWrite_no_data : (Instr.pairWrite 1 anyPair []).wellFormed = false := by decide
theorem test_pairWrite_data_too_long : (Instr.pairWrite 1 anyPair [1, 2, 3]).wellFormed = false := by decide
theorem test_ringWrite_data_too_long : (Instr.ringWrite 1 0 (List.replicate 1025 0)).wellFormed = false := by
  decide +kernel
theorem test_cycleEnd_extension_too_long : (Instr.cycleEnd 2449 ⟨0, 0xFFFF⟩).wellFormed = false := by decide +kernel
theorem test_longest_data_is_well_formed :
    (Instr.ioWrite 1 anyAccess (List.replicate 1024 0)).wellFormed = true ∧
    (Instr.cycleEnd 2448 ⟨0, 0xFFFF⟩).wellFormed = true := by decide +kernel

/-- No row of the opcode table has bits, so no word spells a command. -/
theorem test_no_word_spells_a_command : decodeTableWord 8 0x10 = none := rfl

/-! ## The clock -/

/-- The table of section 1.3: target, D, CLAMPED, reported E. -/
theorem test_divider_table :
    [4770, 8330, 6400, 6857, 4800, 10666, 10667, 12000, 12288, 3840, 3000, 1024, 935].map (fun t =>
      (clampDivider (nearestDivider t), clampDivider (nearestDivider t) != nearestDivider t,
        (clockError t (clampDivider (nearestDivider t))).toInt)) =
    [(10, false, 63), (6, false, -396), (8, false, -625), (7, false, 0), (10, false, 0), (5, false, -999),
      (5, true, -1000), (5, true, -2000), (5, true, -2188), (12, true, 417), (12, true, 3333), (12, true, 29063),
      (12, true, 32767)] := by decide +kernel

/-- Chapter 11, sequence 1, step 1: SET_CLOCK 4770 from STOPPED. -/
theorem test_setClock_starts :
    (after (.setClock 9 4770) up).bcu = {
      divider := 10, clock := .starting, settling := some 9600,
      deferred := some (.setClock 4770 63 false) } := by decide +kernel
/-- The same step, once RUN is reached: OK, D 10, A 4,800,000 (0x00493E00), target 4770 (0x12A2), E +63. -/
theorem test_startingEnd_replies :
    (after .startingEnd { after (.setClock 9 4770) up with bcu := { (after (.setClock 9 4770) up).bcu with
      settling := some 0 } }).ml.replies =
    [⟨0x90, 0, 9, [2, 10, 0x00, 0x3E, 0x49, 0x00, 0xA2, 0x12, 63, 0, 0]⟩] := by decide +kernel
/-- R7: a retune to another divider waits for the free bus and then settles for 50 µs. -/
theorem test_setClock_retunes :
    (after (.setClock 9 8000) run).bcu.clock = .retuning ∧ (after (.setClock 9 8000) run).bcu.settling = some 2400 ∧
    (after (.setClock 9 8000) run).bcu.divider = 12 ∧
    (after (.setClock 9 8000) run).bcu.pendingDivider = some 6 := by decide +kernel
theorem test_retuneEnd_puts_divider_in_force :
    (after .retuneEnd { up with bcu := { clock := .retuning, settling := some 0, pendingDivider := some 6 } }).bcu =
      { clock := .run, divider := 6 } := by decide +kernel
/-- R10: a PARK with a free bus and no RUNNING channel is carried out at once. -/
theorem test_park : (after (.park 9) run).bcu.clock = .parked ∧ State.statuses (after (.park 9) run) = [0] := by
  decide +kernel
theorem test_park_busy_with_running_channel :
    State.statuses (after (.park 9) (State.putChan (slot1 .enabled) 1 { state := .running, slot := 1 })) = [0x20] := by
  decide +kernel
/-- R11: a WAKE from PARKED starts at D 12. -/
theorem test_wake : (after (.wake 9) { up with bcu := { clock := .parked, divider := 6 } }).bcu =
    { clock := .starting, divider := 12, settling := some 9600, deferred := some .wake } := by decide +kernel
/-- R15: a CLOCK_STOP with a slot that is not OFF is BUSY. -/
theorem test_clockStop :
    (after (.clockStop 9) run).bcu.clock = .stopped ∧
    State.statuses (after (.clockStop 9) (slot1 .isolated)) = [0x20] := by decide +kernel
/-- R16, R28: one advance; a countdown of 1 makes a tick due. -/
theorem test_timeBaseAdvance :
    let t := after .timeBaseAdvance { run with bcu := { clock := .run, timeBase := 0xFFFFFFFF }, sbc := { countdown := 1 } }
    t.bcu.timeBase = 0 ∧ t.sbc.countdown = 0 ∧ t.sbc.tickDue = true ∧ t.measure.count = 1 := by decide +kernel

/-! ## The slot bus -/

/-- R29: a tick at debt 4 slips. -/
theorem test_refreshTick_slips :
    let t := after .refreshTick { clocked .retuning with sbc := { tickDue := true, debt := 4, slips := 7 } }
    t.sbc.debt = 4 ∧ t.sbc.slips = 8 ∧ t.sbc.countdown = 15 := by decide +kernel
theorem test_setTiming_badArg :
    State.statuses (after (.setTiming 9 1 16 0) up) = [0x13] ∧
    State.payload (after (.setTiming 9 1 16 0) up) = [1, 1, 1] := by decide +kernel
/-- R24, R38: T 16 at D 10 gives L 76 (chapter 5, a string read across a window's end). -/
theorem test_setReadyLimit :
    State.payload (after (.setReadyLimit 9 16) { up with bcu := { divider := 10 } }) = [16, 76, 0, 0] ∧
    State.payload (after (.setReadyLimit 9 0) { up with bcu := { divider := 10 } }) = [1, 4, 0, 1] := by
  decide +kernel
/-- R39: 64 is taken as 63; with the countdown at 0 it is set at once. -/
theorem test_setRefresh :
    (after (.setRefresh 9 64) up).sbc.interval = 63 ∧ (after (.setRefresh 9 64) up).sbc.countdown = 63 := by
  decide +kernel
/-- Section 10.5: a BUS_STATUS reply has 40 bytes. -/
theorem test_busStatus_length : (State.payload (after (.busStatus 9) up)).length = 40 := by decide +kernel
/-- The table of cycle durations in chapter 2: lengths in BCLK under the power-on classes. -/
theorem test_cycle_lengths :
    ([(CycleKind.ioByteRead, 0), (.ioByteRead, 3), (.ioWordRead, 0), (.ioWordRead, 3), (.memByteRead, 1),
        (.transferOut, 0), (.refresh, 2)] : List (CycleKind × ClassId)).map (fun p =>
      (State.reset.newCycle p.1 p.2 none (onlySlot 0) 0 0).length) = [6, 10, 3, 7, 7, 5, 4] := by decide +kernel
/-- R30: a refresh that ends advances the row and lowers the debt. -/
theorem test_cycleEnd_refresh :
    let s := State.putCycle { run with sbc := { debt := 1, row := 0xFF } } .refresh (refreshTo 1)
    let t := after (.cycleEnd 0 ⟨0, 0xFFFF⟩) s
    t.sbc.row = 0 ∧ t.sbc.debt = 0 ∧ t.sbc.holder = none := by decide +kernel
/-- Chapter 5, a string read across a window's end, unit 1: a ready timeout at 0x022F after 7 + 76 BCLK. -/
theorem test_readyTimeout_records :
    let t := after .readyTimeout (State.putCycle (slot1 .enabled) .ae (cycleTo .ioByteRead 1))
    (t.faultRecord 1).last = some ⟨.readyTimeout, 0, .ioByteRead, some .io, 0x022F⟩ ∧
    t.sbc.lastResult = some ⟨.timedOut, 0x00FF, some 1, 83⟩ := by decide +kernel

/-! ## Slot power (chapter 3, a card brought up, tripped and brought up again) -/

theorem test_powerOn_begins :
    ((after (.powerOn 9 1) run).slot 1).state = .powering ∧
    ((after (.powerOn 9 1) run).slot 1).sequence = some (.powering 2000) := by decide +kernel
theorem test_powerOn_refused_in_cooldown :
    State.statuses (after (.powerOn 9 1) (State.putSlot run 1 { cooldown := some 200100 })) = [0x24] ∧
    (State.payload (after (.powerOn 9 1) (State.putSlot run 1 { cooldown := some 200100 }))).drop 12 =
      [0xA4, 0x0D, 0x03, 0x00] := by decide +kernel
theorem test_powerOff_from_fault :
    ((after (.powerOff 9 1) (slot1 .fault)).slot 1).state = .off ∧
    State.statuses (after (.powerOff 9 1) (slot1 .fault)) = [0] := by decide +kernel
/-- Chapter 3, ISOLATE during a transfer, steps 1 and 2. -/
theorem test_isolate_waits_for_the_cycle :
    let s := State.putCycle (State.putChan (slot1 .enabled) 0 {
      state := .running, slot := 1, remaining := 9, blockLength := 9, ring := some ⟨0, 0⟩
      put := 5 }) (.channel 0) (cycleTo .transferOut 1)
    let t := after (.isolate 9 1) s
    let u := after (.cycleEnd 0 ⟨0, 0xFFFF⟩) t
    (t.slot 1).state = .enabled ∧ (t.slot 1).waiting = some .isolate ∧
    (u.slot 1).state = .isolated ∧ (u.chan 0).cause = .slotLost ∧ (u.chan 0).take = 1 := by
  decide +kernel
theorem test_connect : ((after (.connect 9 1) (slot1 .isolated)).slot 1).state = .enabled := by decide +kernel
theorem test_slotReset_width_zero :
    ((after (.slotReset 9 1 0) (slot1 .isolated)).slot 1).sequence = some (.slotReset 1000) ∧
    ((after (.slotReset 9 1 0) (slot1 .isolated)).slot 1).returnState = .isolated := by decide +kernel
/-- R58: the width is taken before the checks, so a refused SLOT_RESET of width 0 reports 1 and CLAMPED. -/
theorem test_slotReset_refused :
    State.statuses (after (.slotReset 9 1 0) (slot1 .off)) = [0x21] ∧
    (State.payload (after (.slotReset 9 1 0) (slot1 .off))).drop 16 = [1, 1] := by decide +kernel
/-- R60. -/
theorem test_setLimit_takes :
    [0, 99, 100, 149, 150, 1000, 2999, 3000, 3001, 65535].map takenLimit =
      [100, 100, 100, 100, 150, 1000, 2950, 3000, 3000, 3000] := by decide +kernel
theorem test_setLimit_reply :
    State.payload (after (.setLimit 9 1 1000) (State.putSlot run 1 {
      state := .enabled, present := true, current := 850 })) = [1, 3, 1, 0x52, 0x03, 0xE8, 0x03, 0xD0, 0x07, 0] := by decide +kernel
/-- Section 10.5: a SLOT_STATUS reply has 36 bytes. -/
theorem test_slotStatus_length : (State.payload (after (.slotStatus 9 1) up)).length = 36 := by decide +kernel
/-- The eleventh reading above a limit of 1000 trips SOFT; a POWERING slot measured 2600 does not trip. -/
theorem test_currentMeasurement :
    let s := State.putSlot (State.putSlot { run with measure := ⟨0, true⟩ } 1
      { state := .enabled, limit := 1000, softRun := 10 }) 2 { state := .powering }
    let t := after (.currentMeasurement #v[0, 1150, 2600, 0]) s
    (t.slot 1).state = .fault ∧ (t.slot 1).lastTrip = some ⟨.soft, 0, 1150⟩ ∧ (t.slot 1).cooldown = some 500000 ∧
    (t.slot 2).state = .powering ∧ (t.slot 2).peak = 2600 ∧ t.ml.notices.length = 1 := by decide +kernel
theorem test_cooldownEnd :
    ((after (.cooldownEnd 1) (State.putSlot run 1 { cooldown := some 0 })).slot 1).cooldown = none := by
  decide +kernel
theorem test_poweringEnd :
    ((after (.poweringEnd 1) (State.putSlot run 1 { state := .powering, sequence := some (.powering 0) })).slot
      1).sequence = some (.powerOnReset 5000) := by decide +kernel
theorem test_resettingEnd :
    let t := after (.resettingEnd 1) (State.putSlot run 1
      { state := .resetting, current := 20, sequence := some (.powerOnReset 0) })
    (t.slot 1).state = .enabled ∧ (t.slot 1).present = true := by decide +kernel
theorem test_slotResetEnd :
    ((after (.slotResetEnd 1) (State.putSlot run 1
      { state := .resetting, returnState := .isolated, sequence := some (.slotReset 0) })).slot 1).state =
        .isolated := by decide +kernel

/-! ## The Resource Map (chapter 4, window setup and lookup; recording plain and indexed writes) -/

/-- The six windows of the example. -/
def mapped : State :=
  let put (s : State) (i : WindowId) (w : Window) := State.putWindow s i w
  put (put (put (put (put (put cards 0 ⟨1, .io, 0x220, 16, false, 1, true, false⟩)
    1 ⟨1, .io, 0x388, 4, false, 2, true, true⟩) 2 ⟨2, .io, 0x3C0, 32, false, 0, true, false⟩)
    3 ⟨2, .mem, 0x0A0000, 0x20000, true, 1, false, false⟩) 4 ⟨2, .mem, 0x0C0000, 0x8000, false, 3, false, false⟩)
    5 ⟨3, .io, 0x1F0, 8, true, 0, false, false⟩

/-- A MAP_ADD of the example's table. -/
def adding (id : Byte) (space : Byte) (base size : Word) (shadow : Byte) : Instr :=
  .mapAdd 9 ⟨id, 1, space, base, size, 8, 0, shadow, 0⟩

/-- The example's table of further MAP_ADD requests: statuses and the other window's id. -/
theorem test_mapAdd_table :
    [adding 0 0 0x230 16 0, adding 6 0 0x300 24 0, adding 6 1 0xD0000 0x10000 1, adding 6 0 0x228 16 0,
        adding 6 0 0x200 64 0, adding 6 1 0xB8000 0x8000 0, adding 6 1 0 0x800 0, adding 40 0 0 1 0].map
      (fun c => (State.statuses (after c mapped), (State.payload (after c mapped)).drop 15)) =
    [([0x16], [0xFF]), ([0x13], [0xFF]), ([0x13], [0xFF]), ([0x14], [0xFF]), ([0x15], [0]), ([0x15], [3]),
      ([0], [0xFF]), ([0x13], [0xFF])] := by decide +kernel

/-- The Shadow List of the example after step 9. -/
def recorded : State := mapped.updRmap fun m => { m with
  shadow := [⟨0x389, none, 0x01, 1⟩, ⟨0x388, none, 0xB0, 1⟩, ⟨0x3C5, some 2, 0x0F, 2⟩, ⟨0x3C5, some 4, 0x06, 2⟩,
    ⟨0x3C4, none, 0x02, 2⟩, ⟨0x3C5, none, 0x07, 2⟩] }

/-- Steps 1 to 5 of the example. -/
theorem test_recording :
    [⟨0x388, none, 0x20, 1⟩, ⟨0x389, none, 0x01, 1⟩, ⟨0x388, none, 0xB0, 1⟩, ⟨0x3C4, none, 0x02, 2⟩,
      ⟨0x3C5, some 2, 0x0F, 2⟩, ⟨0x3C4, none, 0x04, 2⟩, ⟨0x3C5, some 4, 0x06, 2⟩].foldl recordShadow [] =
    [⟨0x389, none, 0x01, 1⟩, ⟨0x388, none, 0xB0, 1⟩, ⟨0x3C5, some 2, 0x0F, 2⟩, ⟨0x3C4, none, 0x04, 2⟩,
      ⟨0x3C5, some 4, 0x06, 2⟩] := by decide +kernel
/-- Step 10: MAP_REMOVE 1 removes 2 entries. -/
theorem test_mapRemove :
    State.payload (after (.mapRemove 9 1) recorded) = [1, 2, 0] ∧
    (after (.mapRemove 9 1) recorded).rmap.shadow.length = 4 := by decide +kernel
/-- After step 9 MAP_LIST shows 6 windows and 6 entries, 2 of window 1. -/
theorem test_mapList :
    (State.payload (after (.mapList 9) recorded)).take 3 = [6, 6, 0] ∧
    (State.payload (after (.mapList 9) recorded)).length = 3 + 6 * 17 ∧
    ((State.payload (after (.mapList 9) recorded)).drop (3 + 17 + 15)).take 2 = [2, 0] := by decide +kernel
/-- Steps 7 and 8, at the list after step 9 for the indexed key. -/
theorem test_shadowRead :
    (State.payload (after (.shadowRead 9 0x3C5 1 2) recorded)).drop 4 = [1, 0x0F, 2] ∧
    (State.payload (after (.shadowRead 9 0x3C2 0 0) recorded)).drop 4 = [0, 0xFF, 0xFF] := by decide +kernel
theorem test_shadowClear :
    State.payload (after (.shadowClear 9 1 1) recorded) = [2, 0, 4, 0] ∧
    State.payload (after (.shadowClear 9 0 1) recorded) = [6, 0, 0, 0] := by decide +kernel
/-- The lookups of the example: one byte cycle, a split word, one word cycle; 0x0230 floats. -/
theorem test_routing :
    let cyclesOf (u : UnitRequest) := (mapped.routeUnit none u).map fun v =>
      v.cycles.map fun p => (p.kind, p.address, p.cls)
    cyclesOf ⟨.io, 0x22A, false, false, 0, none⟩ = some [(.ioByteRead, 0x22A, 1)] ∧
    cyclesOf ⟨.io, 0x22A, true, false, 0, none⟩ = some [(.ioByteRead, 0x22A, 1), (.ioByteRead, 0x22B, 1)] ∧
    cyclesOf ⟨.io, 0x1F2, true, false, 0, none⟩ = some [(.ioWordRead, 0x1F2, 0)] ∧
    mapped.routePosition .io 0x230 true none = .float := by decide +kernel

/-! ## Accesses (chapter 5) -/

/-- A string read across a window's end: unit 0 is routed to slot 1 and its cycle begins. -/
theorem test_ioRead_begins :
    let t := after (.ioRead 9 ⟨0, 0, 0x22E, 8, 1, 4⟩) mapped
    t.ae.phase = .running ∧ (t.sbc.cycle.map fun c => (c.address, c.length)) = some (0x22E, 7) := by decide +kernel
/-- The same access, its cycle ended with 0x41: one unit done, and the next cycle begun. R19: in a word read of a card
that drives SD7–SD0 only, SD15–SD8 read as ones. -/
theorem test_cycleEnd_access :
    let t := after (.cycleEnd 0 ⟨0x41, 0xFFFF⟩) (after (.ioRead 9 ⟨0, 0, 0x22E, 8, 1, 4⟩) mapped)
    t.ae.done = 1 ∧ t.ae.readData = [0x41] ∧ (t.sbc.cycle.map fun c => c.address) = some 0x22F ∧
    (after (.cycleEnd 0 ⟨0x1234, 0x00FF⟩) (State.putCycle cards .ae (cycleTo .ioWordRead 1))).sbc.lastResult =
      some ⟨.done, 0xFF34, some 1, 7⟩ := by decide +kernel
/-- R74: an unmapped write is answered OK at once, UNMAPPED. -/
theorem test_ioWrite_unmapped :
    State.payload (after (.ioWrite 9 ⟨0, 0, 0x300, 8, 0, 2⟩ [1, 2]) cards) =
      [2, 0, 0, 0, 0, 0, 0, 0, 2, 0, 0, 0, 0, 0, 0, 0] := by decide +kernel
theorem test_memRead_unmapped :
    (State.payload (after (.memRead 9 ⟨0, 0, 0xFFFFFF, 16, 1, 1⟩) cards)).drop 16 = [0xFF, 0xFF] := by
  decide +kernel
/-- R90: 1025 bytes would be needed. -/
theorem test_memWrite_badLength :
    State.statuses (after (.memWrite 9 ⟨0, 0, 0, 8, 0, 1025⟩ []) cards) = [0x12] := by decide +kernel
/-- A synthesiser register through the pair, step 1: the two writes stand under one grant. -/
theorem test_pairWrite_routes_both :
    (after (.pairWrite 9 anyPair [0x31]) mapped).ae.units.flatMap (fun u => u.cycles.map fun p => (p.address, p.driven)) =
      [(0x388, 0x00B0), (0x389, 0x0031)] := by decide +kernel
/-- The same example, step 3: the data of a PAIR_READ is a shadow miss, 0xFF, and only the index is written. -/
theorem test_pairRead_misses :
    (after (.pairRead 9 { anyPair with indexByte := 0x40 }) mapped).ae.units.map (fun u =>
      (u.cycles.length, u.value, u.miss)) = [(1, 0x00FF, false), (0, 0x00FF, true)] := by decide +kernel
/-- R100: a POLL whose first read floats and matches ends at once. -/
theorem test_poll_matches :
    State.statuses (after (.poll 9 ⟨0, 0, 0, 0x300, 8, 0x80, 0x80, 0, 50, 1000⟩) cards) = [0x02] := by
  decide +kernel
/-- A POLL in INTERVAL, 50 µs after its decision: the read is routed again. -/
theorem test_pollIntervalEnd :
    (after .pollIntervalEnd { mapped with
      bcu := { clock := .run, timeBase := 50 }
      ae := { phase := .interval, pollStart := some 0,
              command := some (.poll ⟨.io, none, 0x1F7, false, 0x80, 0, false, 50, 1000, false⟩) } }).ae.phase =
      .running := by decide +kernel
/-- Chapter 11, sequence 3: CANCEL of a waiting POLL; its reply CANCELLED stands first, elapsed 200. -/
theorem test_cancel :
    let s : State := { cards with
      bcu := { clock := .run, timeBase := 9000000 }
      ae := { phase := .waiting, done := 3, lastValue := some 0x80, pollStart := some 8999800
              command := some (.poll ⟨.io, none, 0x1F7, false, 0x80, 0, false, 50, 100000, false⟩) }
      sbc := { holder := some .refresh, cycle := some (refreshTo 1) }
      ml := { up := true, command := some ⟨0x36, 0x40, true⟩, reserved := 1 } }
    (after (.cancel 7 0x40) s).ml.replies =
      [⟨0xB6, 0x04, 0x40, [3, 0, 0, 0] ++ List.replicate 12 0 ++ [0, 0x80, 0, 200, 0, 0, 0]⟩,
        ⟨0xEB, 0, 7, [0x40, 0]⟩] := by decide +kernel

/-! ## Channels and rings -/

/-- Channel 1 of chapter 6, a DEMAND burst across a block end, with the figures of one row. -/
def burst (take put : Word) (remaining : Nat) (transfers : Word) : Channel :=
  { state := .running, slot := 1, demand := true, blockLength := 20, autoReload := true, ring := some ⟨0, 2⟩,
    take := take, put := put, remaining := remaining, transfers := transfers, mark := 8, markNotices := true,
    markArmed := true, policy := .hold, fill := 0x80, blocksEnded := 50, lastBlockEnd := 986 }

/-- Transfers 4 and 6 of the example: LOW_MARK, then BLOCK_END at transfer 1006. -/
theorem test_burst_real_transfers :
    let four := (burst 5003 5012 3 1003).applyTransfer 1 .real 0x55
    let six := { burst 5005 5012 1 1005 with markArmed := false }.applyTransfer 1 .real 0x55
    (four.take, four.level, four.markArmed, four.notice.events.lowMark) = (5004, 8, false, true) ∧
    (six.remaining, six.blocksEnded, six.lastBlockEnd, six.notice.events.blockEnd) = (20, 51, 1006, true) := by
  decide +kernel
/-- Transfers 13 and 15: a fill begins an underrun episode, a real transfer ends it. -/
theorem test_burst_fill :
    let thirteen := (burst 5012 5012 14 1012).applyTransfer 1 .filler 0x55
    let fifteen := { burst 5012 5268 12 1014 with underrunEpisode := true, underruns := 2 }.applyTransfer 1 .real 1
    (thirteen.take, thirteen.remaining, thirteen.underruns, thirteen.underrunEpisode) = (5012, 13, 1, true) ∧
    (fifteen.take, fifteen.level, fifteen.underruns, fifteen.underrunEpisode) = (5013, 255, 2, false) := by
  decide +kernel
/-- Chapter 11, sequence 1, step 6: CH_CONFIGURE 1 stands at pages 0 to 3, READY. -/
def configure1 : ConfigureFields := ⟨1, 0, 0, 0, 2048, 1, 2, 1024, 1, 0, 0x80⟩
theorem test_chConfigure :
    let t := after (.chConfigure 9 1 configure1) cards
    State.payload t = [1, 1, 0, 0, 8, 0, 0, 0, 0, 0, 0, 0, 2, 0, 4, 0, 0, 0] ∧
    t.stm.pages[(3 : PageId)] = some 1 ∧ t.stm.pages[(4 : PageId)] = none := by decide +kernel
/-- Chapter 7, first-fit and fragmentation: the searches of steps 6 to 10. -/
theorem test_first_fit :
    let pages (f : Nat → Option ChanId) : Stm := { pages := Vector.ofFn fun p => f p.val }
    let six := pages fun p => if p < 16 then none else if p < 80 then some 1 else if p < 96 then some 2
      else if p = 96 then some 3 else none
    let nine := pages fun p => if p < 16 then none else if p < 80 then some 1 else if p < 96 then some 2 else some 3
    six.findRun 4 5 = none ∧ six.findRun 2 5 = none ∧ six.findRun 3 5 = some 96 ∧ nine.findRun 1 4 = some 0 ∧
    (nine.place 1 0 16).findRun 4 5 = some 16 := by decide +kernel
theorem test_chArm :
    ((after (.chArm 9 1) (State.putChan cards 1 { burst 0 4 5 0 with state := .ready })).chan 1).state = .running ∧
    State.statuses (after (.chArm 9 1) (State.putChan cards 1 { burst 0 4 5 0 with state := .halted })) = [0x26] := by
  decide +kernel
theorem test_chPause :
    ((after (.chPause 9 1) (State.putChan cards 1 (burst 0 4 5 0))).chan 1).state = .paused := by decide +kernel
/-- R113, R125: the transfer in flight fills the ring of a HALT channel whose card still asks, and a CH_PAUSE waits: the
channel is HALTED with OVERRUN, and the reply says so. -/
theorem test_chPause_after_overrun :
    let s := after (.chPause 9 2) (State.putTrq (State.putCycle (State.putChan cards 2 {
      state := .running, slot := 3, direction := .into, ring := some ⟨0, 0⟩, put := 1023, remaining := 512
      blockLength := 512, policy := .halt }) (.channel 2) (cycleTo .transferIn 3)) 3 2)
    let t := after (.cycleEnd 0 ⟨0x55, 0xFFFF⟩) s
    (s.chan 2).pauseWaits = true ∧ (t.chan 2).state = .halted ∧ (t.chan 2).cause = .overrun ∧
    (t.chan 2).put = 1024 ∧ State.payload t = [2, 4, 1, 255, 1, 0, 0, 0, 4, 0, 0] := by decide +kernel
theorem test_chResume :
    ((after (.chResume 9 1) (State.putChan cards 1 { burst 0 4 5 0 with state := .paused })).chan 1).state =
      .running := by decide +kernel
theorem test_chClear :
    ((after (.chClear 9 1) (State.putChan cards 1 { burst 0 4 5 0 with state := .halted, cause := .overrun })).chan
      1).cause = .none := by decide +kernel
theorem test_chRelease :
    let t := after (.chRelease 9 1) (after (.chConfigure 9 1 configure1) cards)
    (t.chan 1).state = .free ∧ t.stm.pages[(0 : PageId)] = none := by decide +kernel
/-- Section 10.5: a CH_STATUS reply has 65 bytes. -/
theorem test_chStatus_length :
    (State.payload (after (.chStatus 9 1) (State.putChan cards 1 (burst 0 4 5 0)))).length = 65 := by
  decide +kernel
/-- Chapter 6, an IN channel halted by overrun, step 4. -/
theorem test_trqAssert_halts :
    let t := after (.trqAssert 3 2) (State.putChan cards 2 {
      state := .running, slot := 3, direction := .into, ring := some ⟨0, 0⟩, put := 1024, remaining := 512, blockLength := 512, policy := .halt })
    (t.chan 2).state = .halted ∧ (t.chan 2).cause = .overrun ∧ t.sbc.holder = none := by decide +kernel
theorem test_trqDeassert :
    (after (.trqDeassert 1 1) (State.putTrq cards 1 1)).trq 1 1 = false := by decide +kernel
/-- R119: the card of the burst is answered with the byte at take, and EOB at remaining 1. -/
theorem test_trqAssert_begins_transfer :
    (after (.trqAssert 1 1) { State.putChan cards 1 (burst 5 9 1 0) with
      stm := { bytes := [(5, 0x77)] } }).sbc.cycle.map (fun c => (c.kind, c.driven, c.eob, c.length)) =
      some (.transferOut, 0x77, true, 5) := by decide +kernel

/-- Chapter 7, wrap of the positions: the channel at step 0. -/
def wrapping : Channel :=
  { state := .running, slot := 1, ring := some ⟨12, 0⟩, put := 4294967000, take := 4294966500, mark := 256,
    markNotices := true, blockLength := 65536, remaining := 65536 }
/-- Step 1: 524 of 800 bytes are accepted, put wraps to 228, the mark is armed again. -/
theorem test_ringWrite_wraps :
    let t := after (.ringWrite 9 0 (List.replicate 800 7)) (State.putChan cards 0 wrapping)
    (t.chan 0).put = 228 ∧ (t.chan 0).markArmed = true ∧ State.statuses t = [0x01] ∧
    State.payload t = [0, 0x0C, 0x02, 0, 4, 0, 0] := by decide +kernel
/-- R146: a word channel returns whole words. -/
theorem test_ringRead_whole_words :
    let t := after (.ringRead 9 4 5) { State.putChan cards 4 {
      state := .paused, slot := 1, direction := .into, ring := some ⟨0, 0⟩, put := 8 } with stm := { bytes := [(0, 1), (1, 2), (2, 3), (3, 4), (4, 5)] } }
    State.payload t = [4, 4, 0, 4, 0, 0, 0, 1, 2, 3, 4] ∧ (t.chan 4).take = 4 := by decide +kernel

/-! ## Interrupts (chapter 8, an edge input across an acknowledgement; a level input) -/

/-- IRL5 of slot 1: EDGE, HIGH, filter 1, mask off. -/
def irl5 : Input := { mode := .edge, filter := 1, mask := false }

/-- 3,000,002: the second active sample counts and captures, and the offer is admitted. -/
theorem test_irlFilterChange_captures :
    let t := after (.irlFilterChange 1 5) { State.putInput cards 17 { irl5 with changeDue := true, run := 1 } with
      bcu := { clock := .run, timeBase := 3000002 } }
    (t.input 17).state = .notified ∧ (t.input 17).captureTime = 3000002 ∧ t.ml.notices.length = 1 := by
  decide +kernel
/-- 3,001,000: INT_ACK with again set captures the kept edge and repeats. -/
theorem test_intAck_again :
    let t := after (.intAck 9 1 5) { State.putInput cards 17 { irl5 with
      state := .notified, again := true, againTime := 3000502, lost := 1 } with
      bcu := { clock := .run, timeBase := 3001000 } }
    (t.input 17).captureTime = 3000502 ∧ (t.input 17).repeated = true ∧ (t.input 17).again = false ∧
    State.payload t = [1, 5, 1, 0, 1, 0] := by decide +kernel
theorem test_intAck_not_notified :
    State.statuses (after (.intAck 9 1 5) (State.putInput cards 17 irl5)) = [0x27] := by decide +kernel
/-- 5,000,000 of the level example: a LEVEL input found active captures while masked. -/
theorem test_intConfigure_level :
    let t := after (.intConfigure 9 3 3 ⟨2, 0, 2, 1, 0⟩) (State.putIrl cards 39)
    State.payload t = [3, 3, 1, 1, 0, 0, 2, 0, 2, 0] ∧ (t.input 39).active = true ∧ t.ml.notices = [] := by
  decide +kernel
/-- 5,000,300: the mask off lets the offer be admitted; the reply still shows PENDING. -/
theorem test_intMask_off :
    let t := after (.intMask 9 3 3 0) (State.putInput cards 39 { mode := .level, state := .pending, active := true })
    State.payload t = [3, 3, 1, 0, 0, 0] ∧ (t.input 39).queued = true := by decide +kernel
/-- Section 10.5: an INT_STATUS reply has 254 bytes. -/
theorem test_intStatus_length : (State.payload (after (.intStatus 9 1) up)).length = 254 := by decide +kernel
/-- R12, R168: an activation in PARKED wakes the clock. -/
theorem test_irlChange_wakes :
    let t := after (.irlChange 1 5 true) { State.putInput cards 17 { irl5 with filter := 0, wake := true } with
      bcu := { clock := .parked, divider := 6, timeBase := 4 } }
    t.bcu.clock = .starting ∧ t.bcu.divider = 12 ∧ t.bcu.woke = .held 1 5 4 := by decide +kernel

/-! ## The link -/

theorem test_frameReceive :
    (after (.frameReceive .command [0x48, 0, 7, 0, 0, 0]) up).ml.commandIn = [[0x48, 0, 7, 0, 0, 0]] ∧
    (after (.frameReceive .command [0x48, 0, 7, 0, 0, 0]) State.reset).ml.commandIn = [] := by decide +kernel
/-- R174: a short header, an unknown kind, the wrong pipe, a wrong length. -/
theorem test_frameTake_checks :
    [[0x48, 0, 7, 0, 0], [0x14, 0, 7, 0, 0, 0], [0x68, 0, 7, 0, 0, 0], [0x48, 0, 7, 0, 1, 0, 9],
        [0x48, 0, 7, 0, 1, 0]].map (fun bytes =>
      (after (.frameTake .command) { up with ml := { up := true, commandIn := [bytes] } }).ml.replies.map fun f =>
        (f.kind, f.status, f.tag, f.payload)) =
    [[(0xF0, 0x12, 0, [0x48])], [(0xF0, 0x10, 7, [0x14])], [(0xE8, 0x11, 7, [])], [(0xC8, 0x12, 7, [])],
      [(0xC8, 0x12, 7, [])]] := by decide +kernel

def noticeN (k : Byte) : Notice := ⟨none, ⟨k, 0, 0, []⟩⟩
/-- Chapter 9, admission and alternation under pressure, steps 4 and 5: of two queues the other class goes; the place
freed is filled by INTERRUPT 17 before BUS_FAULT 2. -/
theorem test_frameTransmit_alternates :
    let s := (State.putInput cards 17 { irl5 with state := .pending }).modFault 2 fun r => { r with raised := true }
    let s := { s with ml := { up := true, replies := [⟨0xC8, 0, 1, []⟩], lastClass := .reply
                              notices := List.replicate 48 (noticeN 0xE3) } }
    let t := after .frameTransmit s
    t.ml.lastClass = .notice ∧ t.ml.notices.length = 48 ∧ t.ml.replies.length = 1 ∧
    (t.input 17).state = .notified ∧ (t.faultRecord 2).raised = true := by decide +kernel
/-- R181, R182: the OK reply of RESET_PART leaves, and the part has its power-on values with the link UP. -/
theorem test_frameSent_resets :
    after .frameSent { cards with ml := { up := true, resetPending := true, command := some ⟨0x49, 5, true⟩,
                                          sending := some ⟨0xC9, 0, 5, []⟩ } } = up := by decide +kernel
theorem test_resetPart : (after (.resetPart 5) cards).ml.resetPending = true := by decide +kernel
/-- R180: part code, revision, 4 slots, 12 lines, 6 channels, 32 windows, 256 entries, 128 pages, 16 and 16 frames. -/
theorem test_info :
    State.payload (after (.info 5) up) = [0x16, 0x40, 1, 4, 12, 6, 32, 0, 1, 128, 16, 16, 0, 0, 0, 0] := by
  decide +kernel
/-- R187: the header of a sent frame: kind, status, tag and payload length, low byte first. -/
theorem test_frame_bytes :
    ({ sending := some ⟨0xB0, 0x04, 0x1234, [1, 2, 3]⟩ } : Ml).reportPipe =
      some [0xB0, 0x04, 0x34, 0x12, 3, 0, 1, 2, 3] := by decide +kernel
/-- R19, R21: a byte write drives SD7–SD0 only, and a slot that is not connected sees idle lines. -/
theorem test_shared_lines :
    let s := State.putCycle cards .ae (cycleTo .ioByteWrite 1)
    s.sharedLines 1 = ⟨some .ioWr, false, .card, some 0x022F, some 0x34, none⟩ ∧
    s.sharedLines 2 = ⟨none, false, .inactive, none, none, none⟩ ∧
    ((State.putCycle cards .ae (cycleTo .ioWordWrite 1)).sharedLines 1).dataHigh = some 0x12 := by decide +kernel
theorem test_linkUp : (after .linkUp State.reset).ml.up = true := by decide +kernel
/-- R183: a link reset pauses a RUNNING channel and loses the replies. -/
theorem test_linkReset :
    let t := after .linkReset (after (.info 5) (State.putChan cards 1 (burst 0 4 5 0)))
    t.ml = {} ∧ (t.chan 1).state = .paused := by decide +kernel
theorem test_noticeAdmission :
    (after .noticeAdmission ((slot1 .fault).modSlot 1 fun t => { t with faultRaised := true })).ml.notices.length =
      1 := by decide +kernel
/-- R17, R41: power-on leaves the power-on values. -/
theorem test_partPowerOn : after .partPowerOn cards = State.reset := by decide +kernel
/-- Idling, and taking the front of the queue. -/
theorem test_step :
    step State.reset = .next State.reset ∧
    step { run with pending := [.linkUp, .info 5] } = .next { run with pending := [.info 5] } := ⟨rfl, rfl⟩


/-! ## Witnesses: states and operands that meet the hypotheses of each statement, clause by clause -/

/-- The hypotheses of `ready`, to be evaluated. -/
theorem ready_of (s : State) (p : Pipe) (h : s.ml.canTake p = true ∧ s.ml.intake p = []) : s.ready p := h

/-- What every statement on a request assumes, met in every clock state. -/
theorem witness_ready (c : ClockState) (p : Pipe) : (clocked c).ready p := by
  cases c <;> cases p <;> exact ⟨rfl, rfl⟩

/-- The link UP with a deferred reply queue and a frame at the head of its pipe. -/
def heading (bytes : List Byte) : State := { up with ml := { up := true, commandIn := [bytes] } }
/-- Queues on the report pipe. -/
def queues (replies : List Frame) (notices : List Notice) (last : FrameClass) : State :=
  { up with ml := { up := true, replies := replies, notices := notices, lastClass := last } }

theorem witness_StepRunsTheFrontCommand : State.reset.pending = [] := rfl

theorem witness_RequestCommandIsItsFrame :
    ((Instr.info 7).wellFormed = true ∧ requestOf (.info 7) = some (0x48, 7, []) ∧
      requestKind 0x48 = some (.command, 0, 0) ∧ up.ready .command) ∧
    ((Instr.ringWrite 7 0 (List.replicate 1024 0)).wellFormed = true ∧
      requestOf (.ringWrite 7 0 (List.replicate 1024 0)) = some (0x68, 7, 0 :: List.replicate 1024 0) ∧
      requestKind 0x68 = some (.stream, 1, 1025) ∧ up.ready .stream) := by
  unfold State.ready; decide +kernel

theorem witness_IntakeHoldsFramesInOrder :
    (State.reset.ml.canTake .command = false ∨ State.reset.ml.intake .command = []) ∧
    (up.ml.canTake .stream = false ∨ up.ml.intake .stream = []) ∧
    (requestOf (.cancel 7 8) = some (0x6B, 7, [8, 0]) ∧ requestKind 0x6B = some (.stream, 2, 2) ∧
      ¬ State.reset.ready .stream) := by
  unfold State.ready; decide +kernel

theorem witness_TakenFramesAreValidated :
    ((heading [0x48, 0, 7, 0, 0, 0]).ml.canTake .command = true ∧
      (heading [0x48, 0, 7, 0, 0, 0]).ml.intake .command = [[0x48, 0, 7, 0, 0, 0]]) ∧
    ((heading [0x48, 0, 7, 0, 0]).ml.canTake .command = true ∧
      (heading [0x48, 0, 7, 0, 0]).ml.intake .command = [[0x48, 0, 7, 0, 0]]) ∧
    0x80 ≤ (0x80 : Byte).toNat ∧ 0x80 ≤ (0xFF : Byte).toNat ∧
    (up.ml.command = none ∧ up.ml.stream = none) ∧
    (let s := up.beginRequest .command 0x48 7; s.ml.command = some ⟨0x48, 7, true⟩ ∧ s.ml.reserved = 1) ∧
    (up.beginRequest .stream 0x68 7).ml.stream = some ⟨0x68, 7, true⟩ := by decide +kernel

theorem witness_ReportPipeAlternates :
    let f : Frame := ⟨0xC8, 0, 1, []⟩
    let n : Notice := ⟨some 17, ⟨0xE0, 0, 0, []⟩⟩
    let meets (s : State) : Prop := s.ml.up = true ∧ s.ml.sending = none
    (meets (queues [f] [] .reply) ∧ (queues [f] [] .reply).ml.notices = []) ∧
    (meets (queues [f] [n] .notice) ∧ (queues [f] [n] .notice).ml.lastClass = .notice) ∧
    (meets (queues [] [n] .notice) ∧ (queues [] [n] .notice).ml.replies = []) ∧
    (meets (queues [f] [n] .reply) ∧ (queues [f] [n] .reply).ml.lastClass = .reply) ∧
    State.reset.ml.up = false ∧ (up.ml.replies = [] ∧ up.ml.notices = []) ∧
    ({ up with ml := { up := true, sending := some f } } : State).ml.sending ≠ none := by decide +kernel

theorem witness_SentFrameLeavesThePart :
    (up.ml.sending = none ∧ (up.updMl fun m => { m with sending := some ⟨0xC8, 0, 1, []⟩ }).ml.sending =
      some ⟨0xC8, 0, 1, []⟩) ∧
    (List.replicate 1040 (0 : Byte)).length ≤ 1040 := by decide +kernel

theorem witness_AdmissionFillsPlacesInClassOrder :
    State.reset.ml.up = false ∧ up.ml.up = true := by decide +kernel

/-- Channel 0 RUNNING with a cycle on the bus and a pause that waits. -/
def pausing : State := State.putCycle (State.putChan cards 0 {
  state := .running, slot := 1, pauseWaits := true, remaining := 1, ring := some ⟨0, 0⟩ }) (.channel 0) (cycleTo .transferOut 1)

/-- Channel 0 with page 0 and a release that waits. -/
def releasing : State :=
  (State.putChan cards 0 { state := .ready, slot := 1, releaseWaits := true, ring := some ⟨0, 0⟩ }).updStm fun m =>
    { m with pages := m.pages.set 0 (some 0) }

theorem witness_LinkResetKeepsTheWork :
    (pausing.ml.up = true ∧ pausing.transferring 0 = true ∧ (pausing.chan 0).pauseWaits = true) ∧
    (releasing.ml.up = true ∧ (∃ n, releasing.stm.pages[(0 : PageId)] = some n ∧
      releasing.transferring n = false ∧ (releasing.chan n).releaseWaits = true)) ∧
    releasing.stm.pages[(1 : PageId)] = none ∧
    State.reset.ml.up = false := by decide +kernel

theorem witness_InfoAndResetPartAnswerAtOnce :
    up.ready .command ∧ (after (.resetPart 5) up).ml.resetPending = true := by
  unfold State.ready; decide +kernel

theorem witness_SetClockByClockState (c : ClockState) :
    (clocked c).ready .command ∧
    ((8000 : Half).toNat ≠ 0 ∧ run.bcu.clock = .run ∧ run.bcu.waiting = none ∧
      max 5 (min 12 ((96000 + 8000) / (2 * 8000))) ≠ run.bcu.divider) :=
  ⟨witness_ready c .command, by decide +kernel⟩

theorem witness_ParkAndClockStopByClockState :
    (∀ s ∈ [run, stopping .park, stopping .clockStop, clocked .parked, clocked .stopped, clocked .starting,
      clocked .retuning, slot1 .enabled, pausing, State.putSlot (clocked .parked) 1 { state := .isolated },
      State.putCycle run .refresh (refreshTo 1)], s.ready .command) ∧
    ((stopping .park).bcu.clock = .run ∧ (stopping .park).bcu.waiting ≠ none) ∧
    (pausing.bcu.clock = .run ∧ (∃ n, (pausing.chan n).state = .running)) ∧
    (∀ s ∈ [run, State.putCycle run .refresh (refreshTo 1)], s.bcu.clock = .run ∧ s.bcu.waiting = none ∧
      (∀ n, (s.chan n).state ≠ .running) ∧ ∀ i, (s.slot i).state = .off) ∧
    ((clocked .parked).bcu.clock = .parked ∧ ∀ i, ((clocked .parked).slot i).state = .off) ∧
    (∃ i, ((State.putSlot (clocked .parked) 1 { state := .isolated }).slot i).state ≠ .off) ∧
    (∃ i, ((slot1 .enabled).slot i).state ≠ .off) ∧
    (run.sbc.holder = none ∧ (∀ i, (run.slot i).waiting = none) ∧
      ∀ n, (run.chan n).pauseWaits = false ∧ (run.chan n).releaseWaits = false) ∧
    ((clocked .retuning).sbc.holder = none ∧ (clocked .retuning).bcu.clock = .retuning ∧
      (clocked .retuning).bcu.settling = none) ∧
    (∀ w ∈ [ClockWait.park, .clockStop], (stopping w).sbc.holder = none ∧ (stopping w).bcu.clock = .run ∧
      (stopping w).bcu.waiting = some w) := by
  unfold State.ready; decide +kernel

theorem witness_WakeByClockState (c : ClockState) : (clocked c).ready .command := witness_ready c .command

/-- A clock that settles. -/
def settling (c : ClockState) (left : Nat) : State :=
  { up with bcu := { clock := c, settling := some left, pendingDivider := some 6 } }

theorem witness_ClockSettlingEnds :
    ((settling .starting 0).bcu.clock = .starting ∧ (settling .starting 0).bcu.settling = some 0) ∧
    (settling .starting 1).bcu.settling ≠ some 0 ∧ run.bcu.clock ≠ .starting ∧
    ((settling .retuning 0).bcu.clock = .retuning ∧ (settling .retuning 0).bcu.settling = some 0 ∧
      (settling .retuning 0).bcu.pendingDivider = some 6) ∧
    (settling .retuning 1).bcu.settling ≠ some 0 ∧ run.bcu.clock ≠ .retuning := by decide +kernel

theorem witness_DividerIsNearestAndClamped :
    up.ready .command ∧ up.bcu.clock = .stopped ∧ (1 : Half) ≠ 0 ∧ (10666 : Half) ≠ 0 ∧ (10667 : Half) ≠ 0 ∧
    (65535 : Half) ≠ 0 := by
  unfold State.ready; decide +kernel

theorem witness_ClockErrorIsRounded :
    (∀ t ∈ [1, 935, 936, 65535], 1 ≤ t ∧ t ≤ 65535) ∧ 935 < 936 ∧ up.ready .command := by
  unfold State.ready; decide +kernel

/-- A command that answers a next state answers the one `after` gives. -/
theorem next_after (c : Instr) (s t : State) (h : exec c s = .next t) : exec c s = .next (after c s) := by
  rw [after, h]

/-- A state in which each event that changes the divider does so. -/
theorem witness_DividerChangesOnlyAtItsEvents :
    let changes (c : Instr) (s : State) : Prop :=
      exec c s = .next (after c s) ∧ (after c s).bcu.divider ≠ s.bcu.divider
    changes (.setClock 9 8000) up ∧ changes (.frameTake .command) (heading [0x10, 0, 9, 0, 2, 0, 0x40, 0x1F]) ∧
    changes .retuneEnd (settling .retuning 0) ∧
    changes (.wake 9) { up with bcu := { clock := .parked, divider := 6 } } ∧
    changes .frameSent { up with
      bcu := { divider := 6 }
      ml := { up := true, resetPending := true, sending := some ⟨0xC9, 0, 5, []⟩ } } ∧
    changes .partPowerOn { up with bcu := { divider := 6 } } :=
  ⟨⟨next_after _ _ _ rfl, by decide +kernel⟩, ⟨next_after _ _ _ rfl, by decide +kernel⟩,
    ⟨next_after _ _ _ rfl, by decide +kernel⟩, ⟨next_after _ _ _ rfl, by decide +kernel⟩,
    ⟨next_after _ _ _ rfl, by decide +kernel⟩, ⟨next_after _ _ _ rfl, by decide +kernel⟩⟩

theorem witness_SetTimingReplacesOneClass :
    up.ready .command ∧ (3 : Byte).toNat = (3 : ClassId).val ∧ (15 : Byte).toNat ≤ 15 ∧ 15 < (16 : Byte).toNat ∧
    3 < (4 : Byte).toNat := by
  unfold State.ready; decide +kernel

theorem witness_SetReadyLimitTakesALimit : up.ready .command := witness_ready .stopped .command

theorem witness_RefreshSettingAndTicks :
    up.ready .command ∧
    (∀ s ∈ [{ run with sbc := { tickDue := true } }, { clocked .retuning with sbc := { tickDue := true, debt := 4 } }],
      s.sbc.tickDue = true ∧ (s.bcu.clock = .run ∨ s.bcu.clock = .retuning)) ∧
    run.sbc.tickDue = false ∧ (up.bcu.clock ≠ .run ∧ up.bcu.clock ≠ .retuning) := by
  unfold State.ready; decide +kernel

theorem witness_BusStatusReportsTheBus (c : ClockState) : (clocked c).ready .command := witness_ready c .command

/-- A grant of each kind with its cycle in flight. -/
def inRefresh : State := State.putCycle run .refresh (refreshTo 1)
def inTransfer : State := State.putCycle (State.putChan cards 1 (burst 0 4 5 0)) (.channel 1) (cycleTo .transferOut 1)
def inAccess : State := State.putCycle cards .ae (cycleTo .ioByteRead 1)
/-- An access whose unit has one cycle to a slot before it. -/
def planned (s : State) (i : SlotId) (direct : Bool) : State :=
  { s with ae := { phase := .waiting, units := [⟨true, false, [⟨i, .ioByteRead, 0x220, 0, 1, direct, .low, []⟩],
    0xFFFF, false, false, false⟩] } }

theorem witness_CycleEndHandsItsResult :
    (inRefresh.sbc.cycle = some (refreshTo 1) ∧ 0 ≤ (if (refreshTo 1).kind = .refresh then 0 else (refreshTo 1).limit) ∧
      inRefresh.sbc.holder = some .refresh) ∧
    (inTransfer.sbc.cycle = some (cycleTo .transferOut 1) ∧ inTransfer.sbc.holder = some (.channel 1)) ∧
    76 ≤ (if (cycleTo .transferOut 1).kind = .refresh then 0 else (cycleTo .transferOut 1).limit) ∧
    (inAccess.sbc.cycle = some (cycleTo .ioByteRead 1) ∧ inAccess.sbc.holder = some .ae) ∧
    run.sbc.cycle = none ∧
    (if (refreshTo 1).kind = .refresh then 0 else (refreshTo 1).limit) < 1 ∧
    (if (cycleTo .ioByteRead 1).kind = .refresh then 0 else (cycleTo .ioByteRead 1).limit) < 77 ∧
    (∀ n : ChanId, (run.chan n).pauseWaits = false ∧ (run.chan n).releaseWaits = false) ∧
    (∀ i : SlotId, (run.slot i).waiting = none) ∧ inRefresh.sbc.holder ≠ none ∧
    (run.bcu.waiting = none ∧ (run.bcu.clock = .retuning → run.bcu.settling ≠ none)) ∧
    ((planned inAccess 1 false).ae.units.map fun u => u.cycles.length) = [1] := by
  decide +kernel

theorem witness_ReadyTimeoutFaultsTheSlot :
    (inTransfer.sbc.cycle = some (cycleTo .transferOut 1) ∧ (cycleTo .transferOut 1).target = some 1 ∧
      inTransfer.sbc.holder = some (.channel 1)) ∧
    (inAccess.sbc.cycle = some (cycleTo .ioByteRead 1) ∧ inAccess.sbc.holder = some .ae) ∧
    run.sbc.cycle = none ∧ (inRefresh.sbc.cycle = some (refreshTo 1) ∧ (refreshTo 1).target = none) := by
  decide +kernel

/-- A channel that asks for the bus, and an access that waits for it. -/
def asking (debt : Nat) : State :=
  { State.putTrq (State.putChan cards 1 (burst 0 4 5 0)) 1 1 with sbc := { debt := debt } }
def waitingAccess (debt : Nat) : State := { cards with ae := { phase := .waiting }, sbc := { debt := debt } }

theorem witness_ArbiterGrantsInOrder :
    (inRefresh.sbc.holder ≠ none ∧ (clocked .parked).bcu.clock ≠ .run ∧ (stopping .park).bcu.waiting ≠ none) ∧
    (∀ s ∈ [asking 4, asking 3, waitingAccess 1, waitingAccess 0, run],
      s.sbc.holder = none ∧ s.bcu.clock = .run ∧ s.bcu.waiting = none) ∧
    4 ≤ (asking 4).sbc.debt ∧
    ((asking 3).sbc.debt < 4 ∧ (asking 3).chanRequests 1 = true ∧
      ∀ m < (1 : ChanId), (asking 3).chanRequests m = false) ∧
    ((waitingAccess 1).sbc.debt < 4 ∧ (∀ n, (waitingAccess 1).chanRequests n = false) ∧
      1 ≤ (waitingAccess 1).sbc.debt) ∧
    ((waitingAccess 0).sbc.debt = 0 ∧ (∀ n, (waitingAccess 0).chanRequests n = false) ∧
      (waitingAccess 0).ae.phase = .waiting) ∧
    (run.sbc.debt = 0 ∧ (∀ n, run.chanRequests n = false) ∧ run.ae.phase ≠ .waiting) ∧
    ((planned run 1 false).ae.units.map fun u => u.cycles.length) = [1] ∧
    (((planned (slot1 .enabled) 1 false).slot 1).state = .enabled ∧
      ((planned (slot1 .isolated) 1 true).slot 1).state = .isolated ∧
      ((planned (slot1 .off) 1 true).slot 1).state = .off) := by
  decide +kernel

/-- Slot 1 OFF with a cooldown, in RUN or another state of the clock. -/
def cooling (s : State) (n : Nat) : State := State.putSlot s 1 { cooldown := some n }

theorem witness_PowerOnByTheFirstCheck :
    (∀ t ∈ [SlotState.off, .powering, .resetting, .enabled, .isolated, .fault],
      (slot1 t).ready .command ∧ ((slot1 t).slot 1).state = t) ∧
    (1 : Byte).toNat = (1 : SlotId).val ∧
    ((cooling run 1).ready .command ∧ ((cooling run 1).slot 1).state = .off ∧
      ((cooling run 1).slot 1).cooldown = some 1 ∧ 0 < 1) ∧
    (∀ s ∈ [clocked .starting, stopping .clockStop], s.ready .command ∧ (s.slot 1).state = .off ∧
      (s.slot 1).cooldown = none ∧ (s.bcu.clock ≠ .run ∨ s.bcu.waiting = some .clockStop)) ∧
    ((cooling run 0).ready .command ∧ ((cooling run 0).slot 1).cooldown = some 0 ∧
      (cooling run 0).bcu.clock = .run ∧ (cooling run 0).bcu.waiting ≠ some .clockStop) ∧
    3 < (4 : Byte).toNat := by
  unfold State.ready; decide +kernel

/-- Slot 1 ENABLED with an orderly change that waits, and slot 1 with a cycle that connects it. -/
def changing : State := State.putCycle (State.putSlot run 1 {
  state := .enabled, waiting := some .isolate, deferred := some .isolate }) .ae (cycleTo .ioByteRead 1)
def connecting (t : SlotState) : State := State.putCycle (slot1 t) .ae (cycleTo .ioByteRead 1)

/-- Slot 1 ENABLED with a change that waits and its reply deferred, without a cycle and with one. -/
def slotWaits (c : SlotChange) (r : SlotReply) : State :=
  State.putSlot run 1 { state := .enabled, waiting := some c, deferred := some r }
def slotWaitsOn (c : SlotChange) (r : SlotReply) : State := State.putCycle (slotWaits c r) .ae (cycleTo .ioByteRead 1)

theorem witness_PowerOffBySlotState :
    (∀ t ∈ [SlotState.off, .powering, .resetting, .enabled, .isolated, .fault],
      (slot1 t).ready .command ∧ ((slot1 t).slot 1).state = t ∧ ((slot1 t).slot 1).waiting = none) ∧
    (changing.ready .command ∧ (changing.slot 1).waiting ≠ none) ∧
    ((connecting .enabled).ready .command ∧ ((connecting .enabled).slot 1).waiting = none ∧
      (connecting .enabled).connects 1 = true) ∧
    (slot1 .enabled).connects 1 = false ∧ (3 : Byte).toNat = (3 : SlotId).val ∧ 3 < (4 : Byte).toNat ∧
    (((slotWaits .powerOff .powerOff).slot 1).waiting = some .powerOff ∧
      ((slotWaits .powerOff .powerOff).slot 1).deferred = some .powerOff ∧
      (slotWaits .powerOff .powerOff).connects 1 = false ∧ (slotWaitsOn .powerOff .powerOff).connects 1 = true) ∧
    ((slot1 .enabled).slot 1).deferred = none := by
  unfold State.ready; decide +kernel

theorem witness_IsolateAndConnectBySlotState :
    (∀ t ∈ [SlotState.off, .powering, .resetting, .enabled, .isolated, .fault],
      (slot1 t).ready .command ∧ ((slot1 t).slot 1).state = t ∧ ((slot1 t).slot 1).waiting = none) ∧
    (changing.ready .command ∧ (changing.slot 1).waiting ≠ none) ∧ (3 : Byte).toNat = (3 : SlotId).val ∧
    3 < (4 : Byte).toNat ∧ ((changing.slot 1).waiting = some .isolate ∧ changing.connects 1 = true) ∧
    (((slotWaits .isolate .isolate).slot 1).waiting = some .isolate ∧
      ((slotWaits .isolate .isolate).slot 1).deferred = some .isolate ∧
      (slotWaits .isolate .isolate).connects 1 = false) := by
  unfold State.ready; decide +kernel

theorem witness_SlotResetByTheFirstCheck :
    (changing.ready .command ∧ (changing.slot 1).waiting ≠ none) ∧
    (up.ready .command ∧ (up.slot 1).waiting = none ∧ up.bcu.clock ≠ .run) ∧
    (∀ t ∈ [SlotState.off, .powering, .resetting, .fault], (slot1 t).ready .command ∧
      ((slot1 t).slot 1).waiting = none ∧ (slot1 t).bcu.clock = .run ∧ ((slot1 t).slot 1).state ≠ .enabled ∧
      ((slot1 t).slot 1).state ≠ .isolated) ∧
    (∀ s ∈ [slot1 .enabled, slot1 .isolated, connecting .enabled, connecting .isolated], s.ready .command ∧
      (s.slot 1).waiting = none ∧ s.bcu.clock = .run ∧
      ((s.slot 1).state = .enabled ∨ (s.slot 1).state = .isolated)) ∧
    (slot1 .enabled).connects 1 = false ∧ (connecting .isolated).connects 1 = true ∧
    (1 : Byte).toNat = (1 : SlotId).val ∧ 3 < (4 : Byte).toNat ∧
    (let s := slotWaits (.slotReset 255) (.slotReset 255 false);
      (s.slot 1).waiting = some (.slotReset 255) ∧ (s.slot 1).deferred = some (.slotReset 255 false) ∧
      s.connects 1 = false) ∧ (slotWaitsOn (.slotReset 1) (.slotReset 1 true)).connects 1 = true := by
  unfold State.ready; decide +kernel

theorem witness_SetLimitTakesALimit :
    up.ready .command ∧ (1 : Byte).toNat = (1 : SlotId).val ∧ (99 : Half).toNat < 100 ∧ 3000 < (3001 : Half).toNat ∧
    100 ≤ (100 : Half).toNat ∧ (3000 : Half).toNat ≤ 3000 ∧ 3 < (4 : Byte).toNat := by
  unfold State.ready; decide +kernel

theorem witness_SlotStatusReportsTheSlot :
    up.ready .command ∧ (3 : Byte).toNat = (3 : SlotId).val ∧ 3 < (4 : Byte).toNat := by
  unfold State.ready; decide +kernel

/-- Slot 1 in a timed state. -/
def timed (t : SlotState) (q : SlotSequence) : State := State.putSlot run 1 { state := t, sequence := some q }

theorem witness_SlotTimersEnd :
    (((timed .powering (.powering 0)).slot 1).state = .powering ∧
      ((timed .powering (.powering 0)).slot 1).sequence = some (.powering 0)) ∧
    ((timed .powering (.powering 1)).slot 1).sequence ≠ some (.powering 0) ∧
    (((timed .resetting (.powerOnReset 0)).slot 1).state = .resetting ∧
      ((timed .resetting (.powerOnReset 0)).slot 1).sequence = some (.powerOnReset 0) ∧
      ((timed .resetting (.powerOnReset 0)).slot 1).sequence ≠ some (.slotReset 0)) ∧
    (((timed .resetting (.slotReset 0)).slot 1).state = .resetting ∧
      ((timed .resetting (.slotReset 0)).slot 1).sequence = some (.slotReset 0) ∧
      ((timed .resetting (.slotReset 0)).slot 1).sequence ≠ some (.powerOnReset 0)) ∧
    (run.slot 1).state ≠ .powering ∧ (run.slot 1).state ≠ .resetting ∧ (run.slot 1).deferred = none ∧
    ((State.putSlot run 1 { deferred := some .powerOn }).slot 1).deferred = some .powerOn ∧
    ((State.putSlot run 1 { deferred := some (.slotReset 1 true) }).slot 1).deferred = some (.slotReset 1 true) := by
  decide +kernel

/-- Slot 1 at a limit of 1000 mA with a soft run. -/
def limited (t : SlotState) (softRun : Nat) : State := State.putSlot run 1 { state := t, limit := 1000, softRun := softRun }

/-- Draws of 1009, 1010, 2009 and 2010 mA at a limit of 1000 mA read 1000, 1010, 2000 and 2010. -/
theorem witness_MeasurementStoresAndCompares :
    (∀ t ∈ [SlotState.off, .powering, .resetting, .enabled, .isolated, .fault],
      ((limited t 9).slot 1).state = t ∧ ((limited t 9).slot 1).limit = 1000) ∧
    1009 / 10 * 10 ≤ 1000 ∧ 1000 < 1010 / 10 * 10 ∧ ¬ (2000 = 4000 ∨ (2 * 1000 < 4000 ∧ 2 * 1000 < 2009 / 10 * 10)) ∧
    (2 * 1000 < 4000 ∧ 2 * 1000 < 2010 / 10 * 10) ∧ ((limited .enabled 9).slot 1).softRun < 10 ∧
    10 ≤ ((limited .enabled 10).slot 1).softRun := by decide +kernel

theorem witness_TripOpensTheSlot :
    (inTransfer.slot 1).state ≠ .fault ∧
    (inTransfer.sbc.cycle = some (cycleTo .transferOut 1) ∧ (cycleTo .transferOut 1).connected[(1 : SlotId)] = true ∧
      (cycleTo .transferOut 1).kind ≠ .refresh) ∧
    (inRefresh.sbc.cycle = some (refreshTo 1) ∧ (refreshTo 1).connected[(1 : SlotId)] = true ∧
      (refreshTo 1).kind = .refresh ∧ (inRefresh.slot 1).state ≠ .fault) ∧
    ((slot1 .enabled).connects 1 = false ∧ ((slot1 .enabled).slot 1).state ≠ .fault) ∧
    (2 : SlotId) ≠ 1 := by decide +kernel

theorem witness_SlotChangesAreAnnounced :
    inputSlot 12 = 1 ∧ inputSlot 23 = 1 ∧ inputSlot 24 ≠ 1 ∧
    (((slot1 .enabled).slot 1).state = .enabled ∧ SlotState.fault ≠ .enabled) ∧
    ((slot1 .isolated).slot 1).state ≠ .enabled ∧
    ((State.putInput (slot1 .isolated) 17 irl5).input 17).mode ≠ .off ∧ ((slot1 .isolated).input 17).mode = .off := by
  decide +kernel

/-- RUN with one window, IO 0x0220 of size 16 on slot 1, and one entry of it in the Shadow List. -/
def window0 : Window := ⟨1, .io, 0x220, 16, false, 1, true, false⟩
def entry0 : ShadowEntry := ⟨0x221, none, 7, 0⟩
def oneWindow : State := (State.putWindow cards 0 window0).updRmap fun m => { m with shadow := [entry0] }

theorem oneWindow_zero : oneWindow.rmap.windows[(0 : WindowId)] = some window0 := by decide +kernel
theorem oneWindow_others : ∀ i : WindowId, i ≠ 0 → oneWindow.rmap.windows[i] = none := by decide +kernel
theorem oneWindow_only (i : WindowId) (w : Window) (h : oneWindow.rmap.windows[i] = some w) : i = 0 ∧ w = window0 := by
  by_cases hi : i = 0
  · subst hi; rw [oneWindow_zero] at h; exact ⟨rfl, (Option.some.inj h).symm⟩
  · rw [oneWindow_others i hi] at h; cases h
theorem oneWindow_sound : oneWindow.WindowsSound where
  aligned i w h := by rw [(oneWindow_only i w h).2]; decide
  disjoint i j v w hv hw hij := absurd ((oneWindow_only i v hv).1.trans (oneWindow_only j w hw).1.symm) hij
theorem oneWindow_shadow : oneWindow.ShadowSound where
  atMost := by decide +kernel
  keys := by
    have h : oneWindow.rmap.shadow = [entry0] := rfl
    rw [h]; exact List.pairwise_singleton _ _
  windows e he := by
    have h : e = entry0 := List.mem_singleton.mp he
    subst h; exact ⟨window0, oneWindow_zero, rfl, by decide⟩
/-- Its one entry is the only one with its key. -/
theorem oneWindow_key : ∀ x ∈ oneWindow.rmap.shadow, x.port = 0x221 → x.index = none → x = entry0 := by decide +kernel

/-- The fields of a MAP_ADD that pass the checks of R68. -/
def goodFields (base : Word) : WindowFields := ⟨6, 1, 0, base, 64, 8, 0, 0, 0⟩

theorem witness_MapAddMakesItsChecksInOrder :
    (mapped.ready .command ∧ oneWindow.ready .command) ∧
    (∃ i : WindowId, (0 : Byte).toNat = i.val ∧ mapped.rmap.windows[i] ≠ none) ∧
    (¬ (∃ i : WindowId, (32 : Byte).toNat = i.val ∧ mapped.rmap.windows[i] ≠ none) ∧ 31 < (32 : Byte).toNat) ∧
    (∀ base ∈ [(0x210 : Word), 0x200, 0x240], let f := goodFields base
      ¬ (∃ i : WindowId, f.id.toNat = i.val ∧ oneWindow.rmap.windows[i] ≠ none) ∧
      ¬ (31 < f.id.toNat ∨ 3 < f.slot.toNat ∨ 1 < f.space.toNat ∨
        (f.space = 0 ∧ 0xFFFF < f.base.toNat) ∨ (f.space = 1 ∧ 0xFFFFFF < f.base.toNat) ∨
        (f.space = 0 ∧ ∀ k ≤ 10, f.size.toNat ≠ 2 ^ k) ∨
        (f.space = 1 ∧ ∀ k, 11 ≤ k → k ≤ 17 → f.size.toNat ≠ 2 ^ k) ∨
        (f.width ≠ 8 ∧ f.width ≠ 16) ∨ (f.width = 16 ∧ f.size = 1) ∨ 3 < f.cls.toNat ∨
        1 < f.shadow.toNat ∨ 1 < f.source.toNat ∨ (f.shadow = 1 ∧ f.space = 1) ∨ (f.source = 1 ∧ f.shadow = 0))) ∧
    (0x210 % 64 ≠ 0 ∧ 0x200 % 64 = 0 ∧ 0x240 % 64 = 0) ∧
    oneWindow.WindowsSound ∧
    (oneWindow.rmap.windows[(0 : WindowId)] = some window0 ∧ window0.claims .io 0x220 = true ∧
      (⟨1, .io, 0x200, 64, false, 0, false, false⟩ : Window).claims .io 0x220 = true ∧ ∀ k : WindowId, ¬ k < 0) ∧
    (∀ (i : WindowId) (w : Window) (a : Nat), oneWindow.rmap.windows[i] = some w →
      ¬ (w.claims .io a = true ∧ (⟨1, .io, 0x240, 64, false, 0, false, false⟩ : Window).claims .io a = true)) := by
  refine ⟨by unfold State.ready; decide +kernel, by decide +kernel, by decide +kernel, ?_, by decide, oneWindow_sound,
    ⟨oneWindow_zero, by decide, by decide, by decide⟩, ?_⟩
  · intro base hb
    refine ⟨by simp only [goodFields]; decide +kernel, ?_⟩
    have h : goodFields base = ⟨6, 1, 0, base, 64, 8, 0, 0, 0⟩ := rfl
    simp only [List.mem_cons, List.not_mem_nil, or_false] at hb
    rcases hb with rfl | rfl | rfl <;> rw [h] <;> intro hbad <;> revert hbad <;> simp <;>
      exact ⟨6, by decide⟩
  · intro i w a hw
    rw [(oneWindow_only i w hw).2]
    intro h
    simp only [Window.claims, Bool.and_eq_true, decide_eq_true_eq] at h
    have size : window0.base + window0.size = 0x230 := rfl
    omega

theorem witness_MapAndShadowRequestsAnswer :
    oneWindow.ready .command ∧ 31 < (32 : Byte).toNat ∧
    ((31 : Byte).toNat = (31 : WindowId).val ∧ oneWindow.rmap.windows[(31 : WindowId)] = none) ∧
    ((0 : Byte).toNat = (0 : WindowId).val ∧ oneWindow.rmap.windows[(0 : WindowId)] = some window0) ∧
    (entry0 ∈ oneWindow.rmap.shadow ∧ entry0.port = 0x221 ∧ entry0.index = none ∧
      ∀ x ∈ oneWindow.rmap.shadow, x.port = 0x221 → x.index = none → x = entry0) ∧
    (∀ e ∈ oneWindow.rmap.shadow, ¬ (e.port = 0x221 ∧ e.index = some 0)) ∧ 1 < (2 : Byte).toNat :=
  ⟨by unfold State.ready; decide +kernel, by decide, by decide +kernel, by decide +kernel,
    ⟨by decide +kernel, rfl, rfl, oneWindow_key⟩, by decide +kernel, by decide⟩

/-- A full Shadow List. -/
def fullList : List ShadowEntry := (List.range 256).map fun k => ⟨BitVec.ofNat 16 k, none, 0, 0⟩

theorem witness_RecordingAByte :
    (∀ x ∈ ([⟨0x222, none, 1, 0⟩] : List ShadowEntry) ++ [⟨0x221, some 0, 2, 0⟩],
      ¬ (x.port = entry0.port ∧ x.index = entry0.index)) ∧
    ((∀ x ∈ fullList.take 255, ¬ (x.port = entry0.port ∧ x.index = entry0.index)) ∧ (fullList.take 255).length < 256) ∧
    ((∀ x ∈ fullList, ¬ (x.port = 0x400 ∧ x.index = none)) ∧ (∀ x ∈ fullList, ¬ (x.port = 0x401 ∧ x.index = none)) ∧
      fullList.length = 256) ∧
    (((after (.pairWrite 9 anyPair [0x31]) mapped).ae.units.head?.map fun u => u.cycles.length) = some 1) := by
  decide +kernel

theorem witness_RoutingAnswersInOrder :
    (∀ (i : WindowId) (w : Window), oneWindow.rmap.windows[i] = some w → w.claims .io 0x230 = false) ∧
    (oneWindow.rmap.windows[(0 : WindowId)] = some window0 ∧ window0.space = .io ∧ window0.base ≤ 0x220 ∧
      0x22F < window0.base + window0.size ∧
      (∀ (j : WindowId) (v : Window), oneWindow.rmap.windows[j] = some v → v.claims .io 0x22F = true → j = 0)) ∧
    (((State.putSlot oneWindow 1 { state := .isolated }).slot window0.slot).state ≠ .enabled ∧
      (oneWindow.slot window0.slot).state = .enabled ∧ ¬ (true = true ∧ window0.fromShadow = true)) ∧
    ((mapped.slot 1).state = .enabled ∧ mapped.rmap.windows[(1 : WindowId)] = some ⟨1, .io, 0x388, 4, false, 2, true, true⟩) ∧
    (entry0 ∈ oneWindow.rmap.shadow ∧ entry0.port = BitVec.ofNat 16 0x221 ∧ entry0.index = none ∧
      ∀ x ∈ oneWindow.rmap.shadow, x.port = BitVec.ofNat 16 0x221 → x.index = none → x = entry0) ∧
    (∀ e ∈ oneWindow.rmap.shadow, ¬ (e.port = BitVec.ofNat 16 0x220 ∧ e.index = none)) :=
  ⟨fun i w h => by rw [(oneWindow_only i w h).2]; decide,
    ⟨oneWindow_zero, rfl, by decide, by decide, fun j v h _ => (oneWindow_only j v h).1⟩,
    by decide +kernel, by decide +kernel, ⟨by decide +kernel, rfl, rfl, oneWindow_key⟩, by decide +kernel⟩

theorem witness_UnitsRouteByPosition :
    (0xFFFF < Space.io.size ∧ 0xFFFFFF < Space.mem.size) ∧
    State.routePosition (State.putSlot mapped 1 { state := .isolated }) .io 0x22F true none = .notReady ∧
    mapped.routePosition .io 0x22F true none = .cycle 0 ⟨1, .io, 0x220, 16, false, 1, true, false⟩ ∧
    mapped.routePosition .io 0x230 true none = .float ∧
    mapped.routePosition .io 0x388 true none = .shadow 0xFF false ∧
    (mapped.routePosition .io 0x1F2 true none = .cycle 5 ⟨3, .io, 0x1F0, 8, true, 0, false, false⟩ ∧ 0x1F2 % 2 = 0) ∧
    ((slot1 .off).slot 1).state ≠ .enabled ∧ ((slot1 .off).slot 1).state ≠ .isolated ∧
    (mapped.slot 1).state = .enabled ∧ ((slot1 .isolated).slot 1).state = .isolated := by decide +kernel

/-- A state that the invariants hold of, with a command that waits. -/
def queued (s : State) (c : Instr) : State := { s with pending := [c] }

theorem witness_WindowsAndShadowStaySound :
    (queued oneWindow .noticeAdmission).WindowsSound ∧ (queued oneWindow .noticeAdmission).ShadowSound ∧
    step (queued oneWindow .noticeAdmission) = .next oneWindow.admitOffers :=
  ⟨⟨oneWindow_sound.aligned, oneWindow_sound.disjoint⟩,
    ⟨oneWindow_shadow.atMost, oneWindow_shadow.keys, oneWindow_shadow.windows⟩, rfl⟩

/-- The clock states that refuse an access. -/
def refusing : List State :=
  [clocked .stopped, clocked .starting, clocked .retuning, clocked .parked, stopping .park, stopping .clockStop]

/-- An access in progress with tag 0x40, in a state. -/
def accessingIn (s : State) (a : Access) (phase : AePhase) : State :=
  { s with
    ae := { phase := phase, command := some a }
    ml := { up := true, command := some ⟨0x36, 0x40, true⟩, reserved := 1 } }
def anyString (count : Nat) : StringAccess := ⟨false, .io, none, 0x220, false, true, count, []⟩

/-- Its command has its claim, and no CANCEL is taken. -/
theorem witness_accessing (s : State) (a : Access) (phase : AePhase) :
    (accessingIn s a phase).ae.command = some a ∧ (accessingIn s a phase).ae.cancelTaken = false ∧
    ∀ r, (accessingIn s a phase).ml.command = some r → r.claim = true :=
  ⟨rfl, rfl, fun _ h => by cases h; rfl⟩

theorem witness_StringAccessesBegin :
    (∀ s ∈ refusing, s.ready .command ∧
      (s.bcu.clock = .parked ∨ (s.bcu.clock = .run ∧ s.bcu.waiting = some .park) ∨ s.bcu.clock = .stopped ∨
        s.bcu.clock = .starting ∨ s.bcu.clock = .retuning ∨
        (s.bcu.clock = .run ∧ s.bcu.waiting = some .clockStop))) ∧
    (run.ready .command ∧ run.bcu.clock = .run ∧ run.bcu.waiting = none) ∧
    1 < (2 : Byte).toNat ∧
    (let f : AccessFields := ⟨0, 0, 0xFFFF, 8, 1, 1024⟩;
      ¬ (1 < f.routing.toNat ∨ (f.routing = 1 ∧ 3 < f.slot.toNat) ∨ (f.width ≠ 8 ∧ f.width ≠ 16) ∨
        1 < f.step.toNat ∨ (Space.io = .io ∧ 0xFFFF < f.address.toNat) ∨ (Space.io = .mem ∧ 0xFFFFFF < f.address.toNat)) ∧
      ¬ (f.count = 0 ∨ 1024 < f.count.toNat * (if f.width = 16 then 2 else 1) ∨
        (true = true ∧ (List.replicate 1024 (0 : Byte)).length ≠ f.count.toNat * (if f.width = 16 then 2 else 1)))) ∧
    (∀ count ∈ [0, 1025], count = 0 ∨ 1024 < count) ∧
    (∀ i : WindowId, run.rmap.windows[i] = none) ∧
    ((slot1 .off).routeUnit (some 1) ⟨.io, 0x220, false, false, 0, none⟩ = none) ∧
    ((mapped.routeUnit none ⟨.io, 0x220, false, false, 0, none⟩).map fun u => u.cycles.length) = some 1 ∧
    (let at1 (s : State) := ((accessingIn s (.string (anyString 2)) .running).routeUnit none
        ((anyString 2).unitRequest 1)).map fun u => u.cycles.length;
      at1 cards = some 0 ∧ at1 mapped = some 1 ∧ at1 (State.putSlot mapped 1 {}) = none ∧
      (accessingIn cards (.string (anyString 2)) .running).ae.unit + 1 < (anyString 2).count ∧
      (anyString 1).count ≤ (accessingIn cards (.string (anyString 1)) .running).ae.unit + 1) := by
  unfold State.ready; decide +kernel

theorem witness_PairAccessesBegin :
    (∀ s ∈ refusing, s.ready .command) ∧ (run.ready .command ∧ run.bcu.clock = .run ∧ run.bcu.waiting = none) ∧
    ¬ (1 < anyPair.routing.toNat ∨ (anyPair.routing = 1 ∧ 3 < anyPair.slot.toNat) ∨
      (anyPair.width ≠ 8 ∧ anyPair.width ≠ 16)) ∧
    ([(0x31 : Byte)].length = 1 ∨ [(0x31 : Byte)].length = 2) ∧
    ¬ (true = true ∧ [(0x31 : Byte)].length ≠ (if anyPair.width = 16 then 2 else 1)) ∧
    (true = true ∧ [(0x31 : Byte), 0].length ≠ (if anyPair.width = 16 then 2 else 1)) ∧ 1 < (2 : Byte).toNat ∧
    (let a : PairAccess := ⟨true, some 1, 0x388, 0xB0, 0x389, false, [0x31]⟩;
      (slot1 .off).routeUnit a.direct a.indexUnit = none ∧
      ((slot1 .enabled).routeUnit a.direct a.indexUnit).map (fun u => u.cycles.length) = some 1 ∧
      ((slot1 .enabled).routeUnit a.direct a.dataUnit).map (fun u => u.cycles.length) = some 1) ∧
    (let a : PairAccess := ⟨true, none, 0x21F, 0xB0, 0x220, false, [0x31]⟩;
      (mapped.routeUnit a.direct a.indexUnit).map (fun u => u.cycles) = some [] ∧
      (mapped.routeUnit a.direct a.dataUnit).map (fun u => u.cycles.length) = some 1 ∧
      (run.routeUnit a.direct a.dataUnit).map (fun u => u.cycles) = some []) := by
  unfold State.ready; decide +kernel

/-- A POLL of byte port 0x1F7 and a state in which it waits in INTERVAL. -/
def anyPoll : PollAccess := ⟨.io, none, 0x1F7, false, 0x80, 0, false, 50, 100000, false⟩
def inInterval (now : Word) : State :=
  { mapped with
    bcu := { clock := .run, timeBase := now }
    ae := { phase := .interval, command := some (.poll anyPoll), lastValue := some 0x80, pollStart := some 0 } }

theorem witness_PollReadsAndWaits :
    (∀ s ∈ refusing, s.ready .command) ∧ (run.ready .command ∧ run.bcu.clock = .run ∧ run.bcu.waiting = none) ∧
    1 < (2 : Byte).toNat ∧
    (let f : PollFields := ⟨0, 0, 0, 0xFFFF, 8, 0x80, 0, 0, 1000, 1000000⟩;
      ¬ (1 < f.routing.toNat ∨ (f.routing = 1 ∧ 3 < f.slot.toNat) ∨ 1 < f.space.toNat ∨
        (f.width ≠ 8 ∧ f.width ≠ 16) ∨ 1 < f.sense.toNat ∨ (f.space = 0 ∧ 0xFFFF < f.address.toNat) ∨
        (f.space = 1 ∧ 0xFFFFFF < f.address.toNat))) ∧
    (State.routeUnit (State.putSlot mapped 3 {}) anyPoll.direct anyPoll.readUnit = none ∧
      (mapped.routeUnit anyPoll.direct anyPoll.readUnit).map (fun u => u.cycles.length) = some 1 ∧
      (run.routeUnit anyPoll.direct anyPoll.readUnit).map (fun u => u.cycles) = some []) ∧
    ((inInterval 49).ae.lastValue = some 0x80 ∧ (inInterval 49).ae.pollStart = some 0) ∧
    ((0x00 : Half) &&& 0x80 &&& 0x00FF = 0 &&& 0x80 &&& 0x00FF) ∧
    ((0x80 : Half) &&& 0x80 &&& 0x00FF ≠ 0 &&& 0x80 &&& 0x00FF) ∧
    anyPoll.timeout ≤ ((inInterval 100000).bcu.timeBase - 0).toNat ∧
    ((inInterval 99999).bcu.timeBase - 0).toNat < anyPoll.timeout ∧
    ((inInterval 50).ae.phase = .interval ∧ (inInterval 50).ae.command = some (.poll anyPoll) ∧
      anyPoll.interval ≤ ((inInterval 50).bcu.timeBase - (inInterval 50).ae.decidedAt).toNat) ∧
    ((inInterval 49).bcu.timeBase - (inInterval 49).ae.decidedAt).toNat < anyPoll.interval ∧
    run.ae.phase ≠ .interval := by
  unfold State.ready; decide +kernel

/-- The same with ENABLED slots and no window. -/
def accessing (a : Access) (phase : AePhase) : State := accessingIn cards a phase
/-- A POLL in its unit, its CANCEL taken, with or without the claims. -/
def cancelled (claim : Bool) : State :=
  { accessing (.poll anyPoll) .running with
    ae := { phase := .running, command := some (.poll anyPoll), cancelTaken := true }
    ml := { up := true, command := some ⟨0x36, 0x40, claim⟩, stream := some ⟨0x6B, 7, claim⟩,
            reserved := if claim then 2 else 0 } }

theorem witness_CancelByTheCommandInProgress :
    run.ready .stream ∧ run.ml.command = none ∧
    (∀ a ∈ [Access.poll anyPoll, .string (anyString 2), .string (anyString 1),
        .pair ⟨true, none, 0x388, 0xB0, 0x389, false, [0x31]⟩],
      ∀ phase ∈ [AePhase.running, .waiting, .interval], (accessing a phase).ready .stream ∧
        (accessing a phase).ml.command = some ⟨0x36, 0x40, true⟩ ∧ (accessing a phase).ae.command = some a ∧
        (accessing a phase).ae.phase = phase) ∧
    1 < (anyString 2).count ∧ ¬ 1 < (anyString 1).count ∧
    ((cancelled true).ml.command = some ⟨0x36, 0x40, true⟩ ∧ (cancelled true).ml.stream = some ⟨0x6B, 7, true⟩ ∧
      (cancelled true).ae.cancelTaken = true) ∧
    ((cancelled false).ml.command = some ⟨0x36, 0x40, false⟩ ∧ (cancelled false).ml.stream = some ⟨0x6B, 7, false⟩ ∧
      (cancelled false).ae.cancelTaken = true) ∧
    (accessing (.poll anyPoll) .running).ae.cancelTaken = false := by
  unfold State.ready; decide +kernel

/-- Every page owned by channel 3. -/
def crowded : State := cards.updStm fun m => { m with pages := Vector.replicate 128 (some 3) }

theorem crowded_pages : ∀ p : PageId, crowded.stm.pages[p] = some 3 := by decide +kernel

/-- R110: a mark above the ring size sets CLAMPED (check 3) in a request that NO_SPACE (check 4) then refuses; a mark
within the size does not. -/
theorem test_chConfigure_no_space :
    (∀ f ∈ [(configure1, (0 : Byte)), ({ configure1 with mark := 5000 }, 1)],
      let t := after (.chConfigure 9 1 f.1) crowded
      State.statuses t = [0x19] ∧ (State.payload t).getLast? = some f.2) := by decide +kernel

theorem witness_ChConfigureByItsChecks :
    (∀ s ∈ [cards, crowded, State.putChan cards 1 (burst 0 4 5 0),
      State.putChan cards 1 { burst 0 4 5 0 with state := .paused }], s.ready .command) ∧
    (1 : Byte).toNat = (1 : ChanId).val ∧ 5 < (6 : Byte).toNat ∧
    ((State.putChan cards 1 (burst 0 4 5 0)).chan 1).state = .running ∧
    (∀ s ∈ [cards, crowded], ¬ ((s.chan 1).state = .running ∨ (s.chan 1).state = .paused)) ∧
    (let f := configure1;
      ¬ (3 < f.slot.toNat ∨ 1 < f.direction.toNat ∨ 1 < f.service.toNat ∨ 3 < f.cls.toNat ∨
        f.blockLength.toNat = 0 ∨ 65536 < f.blockLength.toNat ∨ 1 < f.autoReload.toNat ∨ 6 < f.sizeCode.toNat ∨
        1 < f.markNotices.toNat ∨ 3 < f.policy.toNat ∨ (f.direction = 1 ∧ f.policy.toNat < 2) ∨
        (f.direction = 0 ∧ 2 ≤ f.policy.toNat) ∨ ((1 : ChanId).val < 4 ∧ 0xFF < f.fill.toNat))) ∧
    (65536 < (65537 : Word).toNat ∧ 3 < (4 : Byte).toNat) ∧
    (∀ start : Nat, ¬ (start + 4 ≤ 128 ∧ ∀ p : PageId, start ≤ p.val → p.val < start + 4 →
      crowded.stm.pages[p] = none ∨ crowded.stm.pages[p] = some 1)) ∧
    (0 + 4 ≤ 128 ∧ ∀ p : PageId, 0 ≤ p.val → p.val < 0 + 4 →
      cards.stm.pages[p] = none ∨ cards.stm.pages[p] = some 1) := by
  refine ⟨by unfold State.ready; decide +kernel, by decide, by decide, by decide +kernel, by decide +kernel,
    by decide +kernel, by decide, fun start h => ?_, by decide +kernel⟩
  have at0 := h.2 ⟨start, by omega⟩ (le_refl start) (by simp only; omega)
  rw [crowded_pages] at at0
  revert at0; decide

/-- Channel 1 in a state. -/
def channel1 (t : ChannelState) (s : State) : State := State.putChan s 1 { burst 0 4 5 0 with state := t }

theorem witness_ChArmResumeClearByState :
    (∀ t ∈ [ChannelState.free, .ready, .running, .paused, .halted, .ended],
      (channel1 t cards).ready .command ∧ ((channel1 t cards).chan 1).state = t) ∧
    (1 : Byte).toNat = (1 : ChanId).val ∧
    (∀ s ∈ [clocked .stopped, stopping .clockStop], (channel1 .ready s).ready .command ∧
      (s.bcu.clock = .stopped ∨ s.bcu.waiting = some .clockStop)) ∧
    (∀ s ∈ [clocked .parked, stopping .park], (channel1 .ready s).ready .command ∧ (channel1 .paused s).ready .command ∧
      (s.bcu.clock = .parked ∨ s.bcu.waiting = some .park) ∧
      ¬ (s.bcu.clock = .stopped ∨ s.bcu.waiting = some .clockStop)) ∧
    ¬ (cards.bcu.clock = .stopped ∨ cards.bcu.waiting = some .clockStop) ∧
    ¬ (cards.bcu.clock = .parked ∨ cards.bcu.waiting = some .park) ∧
    (((channel1 .ended run).slot ((channel1 .ended run).chan 1).slot).state ≠ .enabled ∧
      (channel1 .ended run).ready .command) ∧
    ((channel1 .ended cards).slot ((channel1 .ended cards).chan 1).slot).state = .enabled ∧
    (¬ ((clocked .stopped).bcu.clock = .parked ∨ (clocked .stopped).bcu.waiting = some .park) ∧
      (channel1 .paused (clocked .stopped)).ready .command) ∧ 5 < (6 : Byte).toNat := by
  unfold State.ready; decide +kernel

/-- Channel 1 RUNNING with its cycle on the bus. -/
def onTheBus : State := State.putCycle (channel1 .running cards) (.channel 1) (cycleTo .transferOut 1)

theorem witness_ChPauseAndRelease :
    (∀ t ∈ [ChannelState.free, .ready, .running, .paused, .halted, .ended],
      (channel1 t cards).ready .command ∧ ((channel1 t cards).chan 1).state = t) ∧
    (((channel1 .running cards).chan 1).releaseWaits = false ∧
      ((channel1 .running cards).slot ((channel1 .running cards).chan 1).slot).waiting = none ∧
      (channel1 .running cards).transferring 1 = false) ∧
    (onTheBus.ready .command ∧ (onTheBus.chan 1).state = .running ∧ (∀ i, (onTheBus.slot i).waiting = none) ∧
      onTheBus.transferring 1 = true) ∧
    (1 : Byte).toNat = (1 : ChanId).val ∧ 5 < (6 : Byte).toNat ∧
    ((releasing.chan 0).releaseWaits = true ∧ releasing.transferring 0 = false) ∧
    (let s := State.putChan cards 1 { burst 0 4 5 0 with pauseWaits := true };
      (s.chan 1).pauseWaits = true ∧ (s.chan 1).releaseWaits = false ∧ s.transferring 1 = false) ∧
    pausing.transferring 0 = true ∧ ((cards.setChanReply (some 1)).chanReply = some 1 ∧ cards.chanReply ≠ some 1) := by
  unfold State.ready; decide +kernel

theorem witness_ChStatusReportsTheContext :
    (∀ s ∈ [channel1 .running cards, channel1 .halted run, channel1 .halted (slot1 .fault)], s.ready .command) ∧
    (5 : Byte).toNat = (5 : ChanId).val ∧ 5 < (6 : Byte).toNat ∧
    ¬ (((channel1 .running cards).slot ((channel1 .running cards).chan 1).slot).state = .off ∨
      ((channel1 .running cards).slot ((channel1 .running cards).chan 1).slot).state = .fault) ∧
    ((channel1 .halted run).slot ((channel1 .halted run).chan 1).slot).state = .off ∧
    ((channel1 .halted (slot1 .fault)).slot ((channel1 .halted (slot1 .fault)).chan 1).slot).state = .fault := by
  unfold State.ready; decide +kernel

/-- A channel that is asked without data or room. -/
def starved (p : Policy) (d : Direction) (put : Word) : State :=
  State.putTrq (State.putChan cards 4 {
    state := .running, slot := 1, direction := d, policy := p, ring := some ⟨0, 0⟩, put := put, remaining := 1 }) 1 4

theorem witness_RequestLinesAndServing :
    (let s := starved .stall .out 1;
      ((s.chan 4).state = .running ∧ (s.slot (s.chan 4).slot).state = .enabled ∧ s.trq (s.chan 4).slot 4 = true) ∧
      (s.chan 4).direction = .out ∧ (s.chan 4).level < 2 ∧ (s.chan 4).policy ≠ .hold ∧
      (s.chan 4).stallEpisode = false) ∧
    (let s := starved .halt .into 1023;
      ((s.chan 4).state = .running ∧ (s.slot (s.chan 4).slot).state = .enabled ∧ s.trq (s.chan 4).slot 4 = true) ∧
      (s.chan 4).direction = .into ∧ (s.chan 4).freeSpace < 2 ∧ (s.chan 4).policy ≠ .drop) ∧
    (let s := starved .stall .out 2;
      ¬ ((s.chan 4).level < 2) ∧ (s.chan 4).direction ≠ .into) := by decide +kernel

/-- A cycle in flight of each holder belongs to it and connects ENABLED slots. -/
theorem inTransfer_sound : inTransfer.CycleSound where
  held := rfl
  clocked _ := rfl
  planned u hu := by cases hu
  refresh _ _ h := by cases h
  transfer c _ h _ := by cases h; exact ⟨.inl rfl, by decide, rfl⟩
  access _ _ h := by cases h
  only c i h ht := by cases h; cases ht; decide
  connected c h := by cases h; decide +kernel
theorem inAccess_sound : inAccess.CycleSound where
  held := rfl
  clocked _ := rfl
  planned u hu := by cases hu
  refresh _ _ h := by cases h
  transfer _ _ _ h := by cases h
  access c h _ := by cases h; exact ⟨⟨by decide, by decide, by decide⟩, by decide, rfl⟩
  only c i h ht := by cases h; cases ht; decide
  connected c h := by cases h; decide +kernel

theorem witness_RunningChannelsStayOnEnabledSlots :
    ((queued (channel1 .running cards) .noticeAdmission).ChannelsOnEnabledSlots ∧
      step (queued (channel1 .running cards) .noticeAdmission) = .next (channel1 .running cards).admitOffers) ∧
    ((queued inTransfer (.cycleEnd 0 ⟨0, 0⟩)).CycleSound ∧
      step (queued inTransfer (.cycleEnd 0 ⟨0, 0⟩)) = .next (after (.cycleEnd 0 ⟨0, 0⟩) inTransfer)) ∧
    (inAccess.CycleSound ∧ inAccess.sbc.cycle = some (cycleTo .ioByteRead 1) ∧
      (cycleTo .ioByteRead 1).connected[(1 : SlotId)] = true ∧ inAccess.connects 2 = false ∧
      (inAccess.slot 0).state = .off ∧ (inAccess.slot 1).state = .enabled) :=
  ⟨⟨by unfold State.ChannelsOnEnabledSlots; decide +kernel, rfl⟩,
    ⟨⟨inTransfer_sound.held, inTransfer_sound.clocked, inTransfer_sound.planned, inTransfer_sound.refresh,
      inTransfer_sound.transfer, inTransfer_sound.access, inTransfer_sound.only, inTransfer_sound.connected⟩, rfl⟩,
    inAccess_sound, by decide +kernel⟩

/-- Channel 0 READY with a ring on page 0. -/
def ringed : State :=
  (State.putChan cards 0 { state := .ready, slot := 1, ring := some ⟨0, 0⟩, remaining := 1 }).updStm fun m =>
    { m with pages := m.pages.set 0 (some 0) }

theorem ringed_ring : ∀ n : ChanId, (ringed.chan n).ring = if n = 0 then some ⟨0, 0⟩ else none := by decide +kernel
theorem ringed_pages : ∀ (p : PageId) (n : ChanId), ringed.stm.pages[p] = some n ↔ n = 0 ∧ p = 0 := by decide +kernel

theorem ringed_sound : ringed.ChannelsSound where
  block := by decide +kernel
  done := by decide +kernel
  free := by decide +kernel
  ring n hn := by
    refine ⟨⟨0, 0⟩, ?_, by decide, by decide⟩
    revert n; decide +kernel
  level := by decide +kernel
  pages n p := by
    rw [ringed_pages, ringed_ring]
    constructor
    · rintro ⟨rfl, rfl⟩; exact ⟨⟨0, 0⟩, rfl, by decide, by decide⟩
    · rintro ⟨r, hr, -, hp⟩
      by_cases h0 : n = 0
      · rw [if_pos h0] at hr
        cases hr
        exact ⟨h0, Fin.ext (by simpa using hp)⟩
      · rw [if_neg h0] at hr; cases hr
  inFlight n c hh _ := by
    have none : ringed.sbc.holder = none := rfl
    rw [none] at hh; cases hh

theorem witness_ChannelsStaySound :
    (queued ringed .noticeAdmission).ChannelsSound ∧ step (queued ringed .noticeAdmission) = .next ringed.admitOffers :=
  ⟨⟨ringed_sound.block, ringed_sound.done, ringed_sound.free, ringed_sound.ring, ringed_sound.level, ringed_sound.pages,
    ringed_sound.inFlight⟩, rfl⟩

theorem witness_RingTrafficMovesData :
    (∀ t ∈ [ChannelState.free, .ready, .running], (channel1 t cards).ready .stream ∧
      ((channel1 t cards).chan 1).state = t ∧ ((channel1 t cards).chan 1).direction = .out) ∧
    ((starved .halt .into 1023).ready .stream ∧ ((starved .halt .into 1023).chan 4).state ≠ .free ∧
      ((starved .halt .into 1023).chan 4).direction = .into) ∧
    ((1 : Byte).toNat = (1 : ChanId).val ∧ 5 < (6 : Byte).toNat ∧ (List.replicate 1024 (0 : Byte)).length ≤ 1024) ∧
    (wrapping.ring = some ⟨12, 0⟩ ∧ Memory.wf [(12288, 1), (12289, 2)] = true) := by
  unfold State.ready; decide +kernel

/-- A SET_CLOCK in progress, its reply deferred: the clock alone owes a reply. -/
def clockOwes : State := after (.setClock 9 8000) up

theorem clockOwes_sound : clockOwes.RepliesSound where
  one d e hd he := by
    have clock : ∀ d, clockOwes.owes d → d = .clock := by
      intro d h
      cases d with
      | clock => rfl
      | slot i => exact absurd ((by decide +kernel : ∀ i, (clockOwes.slot i).deferred = none) i) h
      | channel => exact absurd (by decide +kernel : clockOwes.chanReply = none) h
      | access => exact absurd (by decide +kernel : clockOwes.ae.phase = .idle) h
    rw [clock d hd, clock e he]
  progress _ _ := by decide +kernel
  places := by decide +kernel
  running := by decide +kernel
  idle := by decide +kernel

theorem witness_RangesAndStorageStaySound :
    let s := queued clockOwes .noticeAdmission
    s.ClockInRange ∧ s.BusInRange ∧ s.QueuesInRange ∧ s.RepliesSound ∧ s.StorageSound ∧
    (s.owes .clock ∧ step s = .next clockOwes.admitOffers) :=
  ⟨⟨by decide +kernel, by decide +kernel⟩,
    ⟨by decide +kernel, by decide +kernel, by decide +kernel, by decide +kernel, by decide +kernel, by decide +kernel⟩,
    ⟨by decide +kernel, by decide +kernel, by decide +kernel, by decide +kernel⟩,
    ⟨clockOwes_sound.one, clockOwes_sound.progress, clockOwes_sound.places, clockOwes_sound.running,
      clockOwes_sound.idle⟩,
    rfl, by unfold State.owes; decide +kernel, rfl⟩

theorem witness_IntConfigureAndIntMask :
    cards.ready .command ∧ 3 < (4 : Byte).toNat ∧ 11 < (12 : Byte).toNat ∧
    ((3 : Byte).toNat = (3 : SlotId).val ∧ (11 : Byte).toNat = (11 : LineId).val) ∧
    (let f : InputFields := ⟨2, 1, 3, 1, 0⟩;
      ¬ (2 < f.mode.toNat ∨ 1 < f.polarity.toNat ∨ 3 < f.filter.toNat ∨ 1 < f.mask.toNat ∨ 1 < f.wake.toNat ∨
        (f.wake = 1 ∧ f.filter ≠ 0))) ∧
    (let f : InputFields := ⟨1, 0, 1, 0, 1⟩;
      f.wake = 1 ∧ f.filter ≠ 0) ∧
    2 < (3 : Byte).toNat ∧ 1 < (2 : Byte).toNat ∧ (1 : Byte).toNat ≤ 1 ∧
    (cards.input 47).queued = false ∧ ((State.putInput cards 47 { queued := true }).input 47).queued = true ∧
    ((cards.input 47).mode = .off ∧ (run.slot (inputSlot 47)).state ≠ .enabled) ∧
    (((State.putInput cards 47 irl5).input 47).mode ≠ .off ∧ (cards.slot (inputSlot 47)).state = .enabled) := by
  unfold State.ready; decide +kernel

/-- IRL5 of slot 1 NOTIFIED. -/
def notified (again : Bool) : State := State.putInput cards 17 { irl5 with state := .notified, queued := true, again := again }

theorem witness_IntStatusAndIntAck :
    (cards.ready .command ∧ cards.ready .stream ∧ (notified true).ready .stream ∧ (notified false).ready .stream) ∧
    3 < (4 : Byte).toNat ∧ 11 < (12 : Byte).toNat ∧
    ((1 : Byte).toNat = (1 : SlotId).val ∧ (5 : Byte).toNat = (5 : LineId).val) ∧
    (cards.input 17).state ≠ .notified ∧ ((notified true).input 17).state = .notified ∧
    ((notified false).input 17).state = .notified := by
  unfold State.ready; decide +kernel

theorem witness_InterruptLinesCapture :
    (let s := State.putInput cards 17 { irl5 with filter := 0 };
      ((s.input 17).mode ≠ .off ∧ (s.slot 1).state = .enabled ∧ (s.input 17).filter = 0 ∧
        (true != (s.input 17).activeLow) ≠ (s.input 17).active) ∧
      ¬ ((false != (s.input 17).activeLow) ≠ (s.input 17).active)) ∧
    (let s := State.putInput cards 17 { irl5 with changeDue := true };
      (s.input 17).changeDue = true ∧ (s.input 17).mode ≠ .off ∧ (s.slot 1).state = .enabled) ∧
    ¬ (cards.input 17).changeDue = true := by decide +kernel

/-- A notice of IRL5 of slot 1 in the queue. -/
def noticed : State :=
  { notified false with ml := { up := true, notices := [⟨some 17, ⟨0xE0, 0, 0, []⟩⟩] } }

theorem noticed_sound : noticed.NoticesSound where
  queued := by decide +kernel
  notified := by decide +kernel
  off := by decide +kernel
  lost := by decide +kernel

theorem witness_NoticesStaySound :
    (queued noticed .noticeAdmission).NoticesSound ∧ step (queued noticed .noticeAdmission) = .next noticed.admitOffers :=
  ⟨⟨noticed_sound.queued, noticed_sound.notified, noticed_sound.off, noticed_sound.lost⟩, rfl⟩

end Sys2Proof.Tests
end

