-- ==== Sys2Proof/Proofs/Frames.lean ====
section
/-! SUPPORT. What each shared operation leaves as it is, and what it makes of the record it changes: folds over the
slots, the channels and the inputs, replies, inputs, channels and slots. -/

namespace Sys2Proof.Machine

open Sys2Proof

/-! ## Folds -/

/-- What every update of a fold keeps, the fold keeps. -/
theorem foldl_keeps {α β : Type} {f : α → State → State} {g : State → β} (h : ∀ a s, g (f a s) = g s) (l : List α)
    (s : State) : g (l.foldl (fun s a => f a s) s) = g s := by
  induction l generalizing s with
  | nil => rfl
  | cons a l ih => rw [List.foldl_cons, ih, h]

theorem forSlots_keeps {β : Type} {f : SlotId → State → State} {g : State → β} (h : ∀ i s, g (f i s) = g s)
    (s : State) : g (forSlots f s) = g s := foldl_keeps h _ s

theorem forChans_keeps {β : Type} {f : ChanId → State → State} {g : State → β} (h : ∀ n s, g (f n s) = g s)
    (s : State) : g (forChans f s) = g s := foldl_keeps h _ s

/-- A fold of updates that each change one record, by what the record and a kept part of the state say, changes each
record of its list once. -/
theorem foldl_read {α β κ : Type} [DecidableEq α] {f : α → State → State} {read : State → α → β} {kept : State → κ}
    {upd : κ → α → β → β} (hk : ∀ a s, kept (f a s) = kept s)
    (hr : ∀ a s b, read (f a s) b = if a = b then upd (kept s) b (read s b) else read s b) :
    ∀ (l : List α), l.Nodup → ∀ (s : State) (b : α),
      read (l.foldl (fun s a => f a s) s) b = if b ∈ l then upd (kept s) b (read s b) else read s b
  | [], _, s, b => by simp
  | a :: l, hl, s, b => by
    obtain ⟨ha, hl⟩ := List.nodup_cons.mp hl
    rw [List.foldl_cons, foldl_read hk hr l hl, hk, hr]
    by_cases hab : a = b
    · subst hab; simp [ha]
    · simp [hab, Ne.symm hab]

theorem forChans_read {β κ : Type} {f : ChanId → State → State} {read : State → ChanId → β} {kept : State → κ}
    {upd : κ → ChanId → β → β} (hk : ∀ n s, kept (f n s) = kept s)
    (hr : ∀ n s j, read (f n s) j = if n = j then upd (kept s) j (read s j) else read s j) (s : State) (j : ChanId) :
    read (forChans f s) j = upd (kept s) j (read s j) :=
  (foldl_read hk hr (List.finRange 6) (List.nodup_finRange 6) s j).trans (if_pos (List.mem_finRange j))

theorem forInputs_read {β κ : Type} {f : InputId → State → State} {read : State → InputId → β} {kept : State → κ}
    {upd : κ → InputId → β → β} (hk : ∀ i s, kept (f i s) = kept s)
    (hr : ∀ i s j, read (f i s) j = if i = j then upd (kept s) j (read s j) else read s j) (s : State) (j : InputId) :
    read (forInputs f s) j = upd (kept s) j (read s j) :=
  (foldl_read hk hr (List.finRange 48) (List.nodup_finRange 48) s j).trans (if_pos (List.mem_finRange j))

/-! ## Replies: they change the link alone -/

/-- The link after the command in progress is answered (R176, R184). -/
def Ml.answerCommand (m : Ml) (status : Status) (payload : List Byte) : Ml :=
  match m.command with
  | some r => { m.complete r status payload with command := none }
  | none => m

/-- The link after the stream-pipe request in progress is answered (R176, R184). -/
def Ml.answerStream (m : Ml) (status : Status) (payload : List Byte) : Ml :=
  match m.stream with
  | some r => { m.complete r status payload with stream := none }
  | none => m

theorem replyCommand_eq (s : State) (status : Status) (payload : List Byte) :
    s.replyCommand status payload = s.updMl fun m => m.answerCommand status payload := by
  cases h : s.ml.command <;> simp [State.replyCommand, State.updMl, Ml.answerCommand, h]

theorem replyStream_eq (s : State) (status : Status) (payload : List Byte) :
    s.replyStream status payload = s.updMl fun m => m.answerStream status payload := by
  cases h : s.ml.stream <;> simp [State.replyStream, State.updMl, Ml.answerStream, h]

/-- A reply leaves everything but the link. -/
@[simp] theorem replyCommand_keeps (s : State) (status : Status) (payload : List Byte) :
    (s.replyCommand status payload).bcu = s.bcu ∧ (s.replyCommand status payload).sbc = s.sbc ∧
    (s.replyCommand status payload).slots = s.slots ∧ (s.replyCommand status payload).measure = s.measure ∧
    (s.replyCommand status payload).rmap = s.rmap ∧ (s.replyCommand status payload).ae = s.ae ∧
    (s.replyCommand status payload).chans = s.chans ∧ (s.replyCommand status payload).chanReply = s.chanReply ∧
    (s.replyCommand status payload).stm = s.stm ∧ (s.replyCommand status payload).inputs = s.inputs ∧
    (s.replyCommand status payload).cards = s.cards ∧ (s.replyCommand status payload).free = s.free ∧
    (s.replyCommand status payload).pending = s.pending := by
  simp [replyCommand_eq]

/-- A reply leaves the notices, the intake queues and the link's state. -/
@[simp] theorem Ml.answerCommand_keeps (m : Ml) (status : Status) (payload : List Byte) :
    (m.answerCommand status payload).notices = m.notices ∧ (m.answerCommand status payload).up = m.up ∧
    (m.answerCommand status payload).commandIn = m.commandIn ∧ (m.answerCommand status payload).streamIn = m.streamIn ∧
    (m.answerCommand status payload).stream = m.stream ∧
    (m.answerCommand status payload).resetPending = m.resetPending := by
  unfold Ml.answerCommand Ml.complete
  split
  · split <;> simp
  · simp

@[simp] theorem Ml.answerStream_keeps (m : Ml) (status : Status) (payload : List Byte) :
    (m.answerStream status payload).notices = m.notices ∧ (m.answerStream status payload).up = m.up ∧
    (m.answerStream status payload).commandIn = m.commandIn ∧ (m.answerStream status payload).streamIn = m.streamIn ∧
    (m.answerStream status payload).command = m.command ∧
    (m.answerStream status payload).resetPending = m.resetPending := by
  unfold Ml.answerStream Ml.complete
  split
  · split <;> simp
  · simp

/-! ## Work on the inputs: it changes the inputs, and can withdraw notices -/

/-- The second state is the first with other inputs and no more notices. -/
def OnlyInputs (s t : State) : Prop :=
  ∃ inputs notices, t = { s with inputs := inputs, ml := { s.ml with notices := notices } } ∧
    notices.length ≤ s.ml.notices.length

namespace OnlyInputs

theorem refl (s : State) : OnlyInputs s s := ⟨s.inputs, s.ml.notices, rfl, le_rfl⟩

theorem trans {s t u : State} (h : OnlyInputs s t) (k : OnlyInputs t u) : OnlyInputs s u := by
  obtain ⟨x, ns, rfl, hn⟩ := h
  obtain ⟨y, ms, rfl, hm⟩ := k
  exact ⟨y, ms, rfl, hm.trans hn⟩

theorem modInput (s : State) (i : InputId) (f : Input → Input) : OnlyInputs s (s.modInput i f) :=
  ⟨_, s.ml.notices, rfl, le_rfl⟩

theorem foldl {α : Type} {f : α → State → State} (h : ∀ a s, OnlyInputs s (f a s)) :
    ∀ (l : List α) (s : State), OnlyInputs s (l.foldl (fun s a => f a s) s)
  | [], s => refl s
  | a :: l, s => (h a s).trans (foldl h l (f a s))

theorem forInputs {f : InputId → State → State} (h : ∀ i s, OnlyInputs s (f i s)) (s : State) :
    OnlyInputs s (forInputs f s) := foldl h _ s

theorem withdraw (s : State) (i : InputId) : OnlyInputs s (s.withdraw i) := by
  unfold State.withdraw
  split
  · exact ⟨_, _, rfl, List.length_filter_le ..⟩
  · exact refl s

theorem releaseInput (s : State) (i : InputId) : OnlyInputs s (s.releaseInput i) :=
  (withdraw s i).trans (modInput _ i _)

theorem beginWatch (s : State) (i : InputId) : OnlyInputs s (s.beginWatch i) := by
  unfold State.beginWatch
  dsimp only
  split
  · split
    · exact (modInput s i _).trans (modInput _ i _)
    · exact modInput s i _
  · exact refl s

theorem releaseSlotInputs (s : State) (slot : SlotId) : OnlyInputs s (s.releaseSlotInputs slot) :=
  forInputs (fun i s => by split; exacts [releaseInput s i, refl s]) s

theorem watchSlot (s : State) (slot : SlotId) : OnlyInputs s (s.watchSlot slot) :=
  forInputs (fun i s => by split; exacts [beginWatch s i, refl s]) s

theorem suspendSampling (s : State) : OnlyInputs s s.suspendSampling :=
  forInputs (fun i s => by split; exacts [modInput s i _, refl s]) s

theorem sampleInput (s : State) (i : InputId) : OnlyInputs s (s.sampleInput i) := by
  unfold State.sampleInput
  dsimp only
  split
  · split
    · exact modInput s i _
    · split <;> exact modInput s i _
  · exact refl s

theorem sampleInputs (s : State) : OnlyInputs s s.sampleInputs := by
  unfold State.sampleInputs
  split
  · exact forInputs (fun i s => sampleInput s i) s
  · exact refl s

theorem applyActivation (s : State) (i : InputId) : OnlyInputs s (s.applyActivation i) := by
  unfold State.applyActivation
  dsimp only
  split
  case h_4 => split <;> exact modInput s i _
  case h_1 | h_6 => exact refl s
  all_goals exact modInput s i _

theorem acknowledge (s : State) (i : InputId) : OnlyInputs s (s.acknowledge i) := by
  unfold State.acknowledge
  dsimp only
  repeat' split
  · exact ((withdraw s i).trans (modInput _ i _)).trans (modInput _ i _)
  · exact (withdraw s i).trans (modInput _ i _)
  · exact (withdraw s i).trans (modInput _ i _)

end OnlyInputs

/-- Work on the inputs leaves the other blocks. -/
theorem OnlyInputs.keeps {s t : State} (h : OnlyInputs s t) :
    t.bcu = s.bcu ∧ t.sbc = s.sbc ∧ t.slots = s.slots ∧ t.measure = s.measure ∧ t.rmap = s.rmap ∧ t.ae = s.ae ∧
    t.chans = s.chans ∧ t.chanReply = s.chanReply ∧ t.stm = s.stm ∧ t.cards = s.cards ∧ t.free = s.free ∧
    t.pending = s.pending ∧ (∀ i, t.slot i = s.slot i) ∧ (∀ n, t.chan n = s.chan n) := by
  obtain ⟨x, ns, rfl, _⟩ := h
  exact ⟨rfl, rfl, rfl, rfl, rfl, rfl, rfl, rfl, rfl, rfl, rfl, rfl, fun _ => rfl, fun _ => rfl⟩

/-! ## Channels -/

/-- A channel that is RUNNING or PAUSED. -/
def ChannelState.active (c : ChannelState) : Prop := c = .running ∨ c = .paused

theorem haltSlotChannels_chan (s : State) (slot : SlotId) (cause : HaltCause) (n : ChanId) :
    (s.haltSlotChannels slot cause).chan n =
      if (s.chan n).slot = slot ∧ ((s.chan n).state = .running ∨ (s.chan n).state = .paused) then
        (s.chan n).haltWith cause
      else s.chan n :=
  forChans_read (read := State.chan) (kept := fun _ => ())
    (upd := fun _ _ c => if c.slot = slot ∧ (c.state = .running ∨ c.state = .paused) then c.haltWith cause else c)
    (fun _ _ => rfl)
    (fun n s j => by
      by_cases h : n = j
      · subst h; split <;> simp
      · split <;> simp [h]) s n

/-! ## Slots -/

/-- The second state is the first with other slots, channels, inputs and Shadow List, and no more notices. -/
def OnlySlotWork (s t : State) : Prop :=
  ∃ slots rmap chans inputs notices,
    t = { s with slots := slots, rmap := rmap, chans := chans, inputs := inputs, ml := { s.ml with notices := notices } } ∧
      notices.length ≤ s.ml.notices.length

namespace OnlySlotWork

theorem refl (s : State) : OnlySlotWork s s := ⟨_, _, _, _, _, rfl, le_rfl⟩

theorem trans {s t u : State} (h : OnlySlotWork s t) (k : OnlySlotWork t u) : OnlySlotWork s u := by
  obtain ⟨_, _, _, _, _, rfl, hn⟩ := h
  obtain ⟨_, _, _, _, _, rfl, hm⟩ := k
  exact ⟨_, _, _, _, _, rfl, hm.trans hn⟩

theorem onlyInputs {s t : State} (h : OnlyInputs s t) : OnlySlotWork s t := by
  obtain ⟨x, ns, rfl, hn⟩ := h
  exact ⟨_, _, _, _, _, rfl, hn⟩

theorem foldl {α : Type} {f : α → State → State} (h : ∀ a s, OnlySlotWork s (f a s)) :
    ∀ (l : List α) (s : State), OnlySlotWork s (l.foldl (fun s a => f a s) s)
  | [], s => refl s
  | a :: l, s => (h a s).trans (foldl h l (f a s))

theorem haltSlotChannels (s : State) (slot : SlotId) (cause : HaltCause) :
    OnlySlotWork s (s.haltSlotChannels slot cause) :=
  foldl (fun n s => by
    split
    · exact ⟨_, _, _, _, _, rfl, le_rfl⟩
    · exact refl s) _ s

theorem enterState (s : State) (i : SlotId) (new : SlotState) : OnlySlotWork s (s.enterState i new) := by
  have entered : OnlySlotWork s (s.modSlot i fun t => { t with state := new, softRun := 0 }) :=
    ⟨_, s.rmap, s.chans, s.inputs, s.ml.notices, rfl, le_rfl⟩
  have left : ∀ (p : Prop) [Decidable p] {t : State} (c : HaltCause), OnlySlotWork s t →
      OnlySlotWork s (if p then (t.haltSlotChannels i c).releaseSlotInputs i else t) := fun p _ t c h => by
    split
    · exact (h.trans (haltSlotChannels t i c)).trans (onlyInputs (.releaseSlotInputs _ i))
    · exact h
  have cleared : ∀ (p : Prop) [Decidable p] {t : State}, OnlySlotWork s t →
      OnlySlotWork s (if p then t.updRmap fun m => m.clearSlot i else t) := fun p _ t h => by
    split
    · exact h.trans ⟨_, _, _, _, _, rfl, le_rfl⟩
    · exact h
  have watched : ∀ (p : Prop) [Decidable p] {t : State}, OnlySlotWork s t →
      OnlySlotWork s (if p then t.watchSlot i else t) := fun p _ t h => by
    split
    · exact h.trans (onlyInputs (.watchSlot t i))
    · exact h
  exact watched _ (cleared _ (left _ _ entered))

/-- What work on a slot leaves. -/
theorem keeps {s t : State} (h : OnlySlotWork s t) :
    t.bcu = s.bcu ∧ t.sbc = s.sbc ∧ t.measure = s.measure ∧ t.ae = s.ae ∧ t.chanReply = s.chanReply ∧
    t.stm = s.stm ∧ t.cards = s.cards ∧ t.free = s.free ∧ t.pending = s.pending ∧
    t.ml.command = s.ml.command ∧ t.ml.stream = s.ml.stream ∧ t.ml.replies = s.ml.replies ∧
    t.ml.reserved = s.ml.reserved ∧ t.ml.resetPending = s.ml.resetPending ∧ t.ml.up = s.ml.up ∧
    t.ml.commandIn = s.ml.commandIn ∧ t.ml.streamIn = s.ml.streamIn ∧
    t.ml.notices.length ≤ s.ml.notices.length := by
  obtain ⟨_, _, _, _, _, rfl, hn⟩ := h
  exact ⟨rfl, rfl, rfl, rfl, rfl, rfl, rfl, rfl, rfl, rfl, rfl, rfl, rfl, rfl, rfl, rfl, rfl, hn⟩

end OnlySlotWork

/-- What entering a state does to the slots: the slot has the state, and its soft run begins again (R45). -/
theorem enterState_slot (s : State) (i : SlotId) (new : SlotState) (j : SlotId) :
    (s.enterState i new).slot j = if i = j then { s.slot i with state := new, softRun := 0 } else s.slot j := by
  have halted : ∀ (t : State) (c : HaltCause) (j : SlotId), (t.haltSlotChannels i c).slot j = t.slot j :=
    fun t c j => forChans_keeps (g := fun t => t.slot j) (fun n t => by split <;> rfl) t
  have released : ∀ (t : State) (j : SlotId), (t.releaseSlotInputs i).slot j = t.slot j :=
    fun t j => by have h := (OnlyInputs.releaseSlotInputs t i).keeps; simp only [h]
  have watched : ∀ (t : State) (j : SlotId), (t.watchSlot i).slot j = t.slot j :=
    fun t j => by have h := (OnlyInputs.watchSlot t i).keeps; simp only [h]
  rw [← State.modSlot_slot s i fun t => { t with state := new, softRun := 0 }]
  unfold State.enterState
  simp only [apply_ite fun t : State => t.slot j, halted, released, watched, State.updRmap_slot, ite_self]

/-- What entering a state does to the channels: one that is active on a slot that leaves ENABLED is halted (R128). -/
theorem enterState_chan (s : State) (i : SlotId) (new : SlotState) (n : ChanId) :
    (s.enterState i new).chan n =
      if ((s.slot i).state = .enabled ∧ new ≠ .enabled) ∧
          (s.chan n).slot = i ∧ ((s.chan n).state = .running ∨ (s.chan n).state = .paused) then
        (s.chan n).haltWith (leaveCause new)
      else s.chan n := by
  have released : ∀ t : State, (t.releaseSlotInputs i).chan n = t.chan n :=
    fun t => by have h := (OnlyInputs.releaseSlotInputs t i).keeps; simp only [h]
  have watched : ∀ t : State, (t.watchSlot i).chan n = t.chan n :=
    fun t => by have h := (OnlyInputs.watchSlot t i).keeps; simp only [h]
  unfold State.enterState
  simp only [apply_ite fun t : State => t.chan n, haltSlotChannels_chan, released, watched, State.updRmap_chan,
    State.modSlot_chan, ite_self]
  exact (ite_and ..).symm

/-- A deferred slot reply is made: everything but the slot's reply and the link stays. -/
theorem answerSlot_eq (s : State) (i : SlotId) (status : Status) :
    (s.slot i).deferred = none ∧ s.answerSlot i status = s ∨
    (s.slot i).deferred ≠ none ∧ ∃ payload,
      s.answerSlot i status = (s.modSlot i fun t => { t with deferred := none }).replyCommand status payload := by
  unfold State.answerSlot
  split
  case h_1 h => exact .inl ⟨h, rfl⟩
  case h_2 h => exact .inr ⟨by simp [h], by dsimp only; split <;> exact ⟨_, rfl⟩⟩

theorem answerSlot_keeps (s : State) (i : SlotId) (status : Status) :
    (s.answerSlot i status).bcu = s.bcu ∧ (s.answerSlot i status).sbc = s.sbc ∧ (s.answerSlot i status).ae = s.ae ∧
    (s.answerSlot i status).chans = s.chans ∧ (s.answerSlot i status).inputs = s.inputs ∧
    (∀ n, (s.answerSlot i status).chan n = s.chan n) ∧
    (∀ j, ((s.answerSlot i status).slot j).state = (s.slot j).state) := by
  obtain ⟨_, h⟩ | ⟨_, payload, h⟩ := answerSlot_eq s i status
  · simp [h]
  · rw [h, replyCommand_eq]
    refine ⟨rfl, rfl, rfl, rfl, rfl, fun _ => rfl, fun j => ?_⟩
    rw [State.updMl_slot, State.modSlot_slot]
    split
    · subst i; rfl
    · rfl

/-- A deferred channel reply is made: everything but the record of it and the link stays. -/
theorem answerChannel_eq (s : State) (n : ChanId) :
    s.chanReply ≠ some n ∧ s.answerChannel n = s ∨
    s.chanReply = some n ∧ ∃ payload, s.answerChannel n = (s.setChanReply none).replyCommand .ok payload := by
  unfold State.answerChannel
  split
  case isTrue h => exact .inr ⟨h, _, rfl⟩
  case isFalse h => exact .inl ⟨h, rfl⟩

theorem answerChannel_keeps (s : State) (n : ChanId) :
    (s.answerChannel n).bcu = s.bcu ∧ (s.answerChannel n).sbc = s.sbc ∧ (s.answerChannel n).ae = s.ae ∧
    (s.answerChannel n).slots = s.slots ∧ (s.answerChannel n).chans = s.chans ∧
    (s.answerChannel n).inputs = s.inputs ∧ (s.answerChannel n).stm = s.stm := by
  obtain ⟨_, h⟩ | ⟨_, payload, h⟩ := answerChannel_eq s n
  · simp [h]
  · simp [h, replyCommand_eq]

/-! ## Accesses -/

/-- The command ends: AE is IDLE, and all else that changes is the link (R103, R106). -/
theorem endAccess_eq (s : State) (status : Status) :
    ∃ payload echo, s.endAccess status = (s.updAe fun _ => {}).updMl fun m =>
      if s.ae.cancelTaken then (m.answerCommand status payload).answerStream .ok echo
      else m.answerCommand status payload := by
  refine ⟨s.accessPayload, le 2 (match s.ml.command with
    | some r => r.tag
    | none => 0).toNat, ?_⟩
  unfold State.endAccess
  simp only [replyCommand_eq, replyStream_eq]
  cases s.ae.cancelTaken <;> rfl

theorem endAccess_keeps (s : State) (status : Status) :
    (s.endAccess status).bcu = s.bcu ∧ (s.endAccess status).sbc = s.sbc ∧ (s.endAccess status).ae = {} ∧
    (s.endAccess status).slots = s.slots ∧ (s.endAccess status).chans = s.chans ∧
    (s.endAccess status).inputs = s.inputs ∧ (s.endAccess status).stm = s.stm ∧
    (s.endAccess status).chanReply = s.chanReply := by
  obtain ⟨payload, echo, h⟩ := endAccess_eq s status
  rw [h]
  exact ⟨rfl, rfl, rfl, rfl, rfl, rfl, rfl, rfl⟩

end Sys2Proof.Machine
end

