-- ==== Sys2Proof/Proofs/Admission.lean ====
section
/-! Admission to the notice queue (R178): it is one fold over the sources in class order, and takes the offers of the
first sources, as many as there are free places. -/

namespace Sys2Proof.Machine

open Sys2Proof

/-- The source's record is admitted where it is offered and a place is free. -/
def State.admitSource (s : State) : Source → State
  | .input i => s.admitInput i
  | .slotFault i => s.admitSlotFault i
  | .busFault i => s.admitBusFault i
  | .channel n => s.admitChannel n
  | .woke => s.admitWoke

/-- The source's record is emptied (R13, R36, R63, R131, R160). -/
def State.emptied (s : State) : Source → State
  | .input i => s.modInput i fun x => { x with state := .notified, queued := true, lost := 0 }
  | .slotFault i => s.modSlot i fun t => { t with faultRaised := false }
  | .busFault i => s.modFault i fun r => { r with raised := false }
  | .channel n => s.modChan n fun c => { c with notice := {} }
  | .woke => s.updBcu fun b => { b with woke := .empty }

/-- The source's notice joins the queue at its tail, and its record is emptied. -/
def State.takeOffer (s : State) (a : Source) : State := (s.updMl fun m => m.enqueueNotice (s.noticeOf a)).emptied a

theorem admit_eq (s : State) (a : Source) :
    s.admitSource a = if s.ml.admits = true ∧ s.offers a = true then s.takeOffer a else s := by
  cases a with
  | input i => simp [State.admitSource, State.admitInput, State.offers, and_assoc]; rfl
  | slotFault i => simp [State.admitSource, State.admitSlotFault, State.offers]; rfl
  | busFault i => simp [State.admitSource, State.admitBusFault, State.offers]; rfl
  | channel n => simp [State.admitSource, State.admitChannel, State.offers]; rfl
  | woke =>
    unfold State.admitSource State.admitWoke State.takeOffer State.noticeOf State.offers
    cases s.bcu.woke <;> simp [State.emptied]

theorem admitOffers_eq_foldl (s : State) : s.admitOffers = allSources.foldl State.admitSource s := by
  simp only [State.admitOffers, allSources, forInputs, forSlots, forChans, List.foldl_append, List.foldl_map,
    List.foldl_cons, List.foldl_nil, State.admitSource]

theorem allSources_nodup : allSources.Nodup := by decide

/-! ## One offer taken -/

theorem emptied_ml (s : State) (a : Source) : (s.emptied a).ml = s.ml := by cases a <;> rfl

theorem takeOffer_ml (s : State) (a : Source) :
    (s.takeOffer a).ml = { s.ml with notices := s.ml.notices ++ [s.noticeOf a] } := by
  rw [State.takeOffer, emptied_ml]; rfl

theorem takeOffer_input (s : State) (a : Source) (i : InputId) : (s.takeOffer a).input i =
    if .input i = a then { s.input i with state := .notified, queued := true, lost := 0 } else s.input i := by
  cases a with
  | input j => simp [State.takeOffer, State.emptied, eq_comm]; split <;> simp_all
  | _ => simp [State.takeOffer, State.emptied]

theorem takeOffer_slot (s : State) (a : Source) (i : SlotId) : (s.takeOffer a).slot i =
    if .slotFault i = a then { s.slot i with faultRaised := false } else s.slot i := by
  cases a with
  | slotFault j => simp [State.takeOffer, State.emptied, eq_comm]; split <;> simp_all
  | _ => simp [State.takeOffer, State.emptied]

theorem takeOffer_faultRecord (s : State) (a : Source) (i : SlotId) : (s.takeOffer a).faultRecord i =
    if .busFault i = a then { s.faultRecord i with raised := false } else s.faultRecord i := by
  cases a with
  | busFault j => simp [State.takeOffer, State.emptied, eq_comm]; split <;> simp_all
  | _ => simp [State.takeOffer, State.emptied]

theorem takeOffer_chan (s : State) (a : Source) (n : ChanId) : (s.takeOffer a).chan n =
    if .channel n = a then { s.chan n with notice := {} } else s.chan n := by
  cases a with
  | channel j => simp [State.takeOffer, State.emptied, eq_comm]; split <;> simp_all
  | _ => simp [State.takeOffer, State.emptied]

theorem takeOffer_bcu (s : State) (a : Source) : (s.takeOffer a).bcu =
    { s.bcu with woke := if .woke = a then .empty else s.bcu.woke } := by
  cases a <;> rfl

/-- An offer taken leaves everything but the link and the five kinds of record. -/
theorem takeOffer_keeps (s : State) (a : Source) :
    { (s.takeOffer a).sbc with faults := s.sbc.faults } = s.sbc ∧ (s.takeOffer a).measure = s.measure ∧
    (s.takeOffer a).rmap = s.rmap ∧ (s.takeOffer a).ae = s.ae ∧ (s.takeOffer a).chanReply = s.chanReply ∧
    (s.takeOffer a).stm = s.stm ∧ (s.takeOffer a).cards = s.cards ∧ (s.takeOffer a).free = s.free ∧
    (s.takeOffer a).pending = s.pending := by
  cases a <;> exact ⟨rfl, rfl, rfl, rfl, rfl, rfl, rfl, rfl, rfl⟩

/-- Another source's offer stands as before. -/
theorem takeOffer_offers {s : State} {a b : Source} (h : b ≠ a) : (s.takeOffer a).offers b = s.offers b := by
  cases b with
  | input i | slotFault i | busFault i | channel n =>
    simp only [State.offers, takeOffer_input, takeOffer_slot, takeOffer_faultRecord, takeOffer_chan, if_neg h]
  | woke => simp only [State.offers, takeOffer_bcu, if_neg h]

/-- Another source's notice is made as before: what emptying a record changes is in its own notice alone. -/
theorem takeOffer_noticeOf {s : State} {a b : Source} (h : b ≠ a) : (s.takeOffer a).noticeOf b = s.noticeOf b := by
  cases b with
  | input i => simp only [State.noticeOf, State.interruptNotice, takeOffer_input, if_neg h]
  | slotFault i => simp only [State.noticeOf, State.slotFaultNotice, takeOffer_slot, if_neg h]
  | busFault i => simp only [State.noticeOf, State.busFaultNotice, takeOffer_faultRecord, if_neg h]
  | channel n => simp only [State.noticeOf, State.channelNotice, takeOffer_chan, if_neg h]
  | woke => simp only [State.noticeOf, takeOffer_bcu, if_neg h]

/-! ## Offers taken in turn -/

/-- What taking the offers of distinct sources in turn makes of the state. -/
structure Takes (sources : List Source) (s t : State) : Prop where
  ml          : t.ml = { s.ml with notices := s.ml.notices ++ sources.map s.noticeOf }
  input       : ∀ i : InputId, t.input i =
    if .input i ∈ sources then { s.input i with state := .notified, queued := true, lost := 0 } else s.input i
  slot        : ∀ i : SlotId, t.slot i =
    if .slotFault i ∈ sources then { s.slot i with faultRaised := false } else s.slot i
  faultRecord : ∀ i : SlotId, t.faultRecord i =
    if .busFault i ∈ sources then { s.faultRecord i with raised := false } else s.faultRecord i
  chan        : ∀ n : ChanId, t.chan n = if .channel n ∈ sources then { s.chan n with notice := {} } else s.chan n
  bcu         : t.bcu = { s.bcu with woke := if .woke ∈ sources then .empty else s.bcu.woke }
  keeps       : { t.sbc with faults := s.sbc.faults } = s.sbc ∧ t.measure = s.measure ∧ t.rmap = s.rmap ∧
    t.ae = s.ae ∧ t.chanReply = s.chanReply ∧ t.stm = s.stm ∧ t.cards = s.cards ∧ t.free = s.free ∧
    t.pending = s.pending

theorem Takes.nil (s : State) : Takes [] s s := by constructor <;> simp

theorem Takes.cons {a : Source} {l : List Source} {s t : State} (h : a ∉ l) (k : Takes l (s.takeOffer a) t) :
    Takes (a :: l) s t := by
  have other : ∀ b ∈ l, b ≠ a := fun b hb e => h (e ▸ hb)
  obtain ⟨sbc, measure, rmap, ae, chanReply, stm, cards, free, pending⟩ := k.keeps
  obtain ⟨sbc', measure', rmap', ae', chanReply', stm', cards', free', pending'⟩ := takeOffer_keeps s a
  constructor
  case ml =>
    rw [k.ml, takeOffer_ml, List.map_congr_left fun b hb => takeOffer_noticeOf (other b hb)]
    simp
  case input => intro i; rw [k.input, takeOffer_input]; grind
  case slot => intro i; rw [k.slot, takeOffer_slot]; grind
  case faultRecord => intro i; rw [k.faultRecord, takeOffer_faultRecord]; grind
  case chan => intro n; rw [k.chan, takeOffer_chan]; grind
  case bcu => rw [k.bcu, takeOffer_bcu]; grind
  case keeps =>
    refine ⟨?_, measure.trans measure', rmap.trans rmap', ae.trans ae', chanReply.trans chanReply', stm.trans stm',
      cards.trans cards', free.trans free', pending.trans pending'⟩
    rw [← sbc', ← sbc]

/-- A fold of admissions takes the first offers of its sources, as many as there are free places (R178). -/
theorem foldl_admit (l : List Source) (hl : l.Nodup) (s : State) :
    Takes ((l.filter s.offers).take s.freePlaces) s (l.foldl State.admitSource s) := by
  induction l generalizing s with
  | nil => simpa using Takes.nil s
  | cons a l ih =>
    obtain ⟨ha, hl⟩ := List.nodup_cons.mp hl
    rw [List.foldl_cons, admit_eq]
    by_cases offered : s.offers a = true
    · by_cases admits : s.ml.admits = true
      · rw [if_pos ⟨admits, offered⟩, List.filter_cons_of_pos offered]
        have free : s.freePlaces = (s.takeOffer a).freePlaces + 1 := by
          simp only [Ml.admits, Bool.and_eq_true, decide_eq_true_eq] at admits
          simp only [State.freePlaces, takeOffer_ml, admits.1, if_true, List.length_append, List.length_singleton]
          omega
        rw [free, List.take_succ_cons]
        have same : l.filter s.offers = l.filter (s.takeOffer a).offers :=
          List.filter_congr fun b hb => (takeOffer_offers (by rintro rfl; exact ha hb)).symm
        refine Takes.cons (fun hm => ha ?_) (same ▸ ih hl (s.takeOffer a))
        exact List.mem_of_mem_filter (List.mem_of_mem_take hm)
      · rw [if_neg (by simp [admits])]
        have full : s.freePlaces = 0 := by
          simp only [Ml.admits, Bool.and_eq_true, decide_eq_true_eq, not_and] at admits
          unfold State.freePlaces
          split
          · have := admits ‹_›; omega
          · rfl
        simpa [full] using ih hl s
    · rw [if_neg (by simp [offered]), List.filter_cons_of_neg offered]
      exact ih hl s

/-- Admission takes the offers that find a place, in class order (R178). -/
theorem admitOffers_takes (s : State) : Takes s.admitted s s.admitOffers := by
  rw [admitOffers_eq_foldl]
  exact foldl_admit allSources allSources_nodup s

/-- Settles O8: admission is the fold of `foldl_admit` over every source; LINK_UP makes the link UP first. -/
theorem admissionFillsPlacesInClassOrder : Obligations.AdmissionFillsPlacesInClassOrder := by
  refine ⟨fun s => ?_, fun _ => rfl, fun s down => ?_, fun s up => ?_⟩
  · have h := admitOffers_takes s
    obtain ⟨sbc, measure, rmap, ae, chanReply, stm, cards, free, pending⟩ := h.keeps
    refine ⟨h.ml, h.input, h.slot, h.faultRecord, h.chan, h.bcu, ?_, measure, rmap, ae, chanReply, stm, cards, free, pending⟩
    rw [← sbc]
  · show Host.Outcome.next (linkComesUp s) = _
    simp only [linkComesUp, down, Bool.false_eq_true, if_false]
    rfl
  · show Host.Outcome.next (linkComesUp s) = _
    simp only [linkComesUp, up, if_true]

end Sys2Proof.Machine
end

