-- ==== Sys2Proof/Proofs/Moves.lean ====
section
/-! SUPPORT. What the work inside an event is made of. Every shared operation of the machine is a chain of a few kinds
of move; an invariant that each kind keeps is kept by all of them. -/

namespace Sys2Proof.Machine

open Sys2Proof

/-! ## The figures the rules over the whole part speak of -/

/-- What the invariants of the clock, the bus, the slots, the channels and the replies read. -/
structure Essentials where
  bclk           : Option Nat
  divider        : Nat
  pendingDivider : Option Nat
  clockReply     : Option ClockReply
  holder         : Option Holder
  burst          : Nat
  cycle          : Option Cycle
  slotState      : SlotId → SlotState
  slotReply      : SlotId → Option SlotReply
  phase          : AePhase
  access         : Option Access
  units          : List AccessUnit
  chanState      : ChanId → ChannelState
  chanSlot       : ChanId → SlotId
  chanReply      : Option ChanId
  command        : Option Request
  stream         : Option Request
  reserved       : Nat
  resetPending   : Bool

/-- The essential figures of a state. -/
def State.essentials (s : State) : Essentials :=
  ⟨s.bcu.bclk, s.bcu.divider, s.bcu.pendingDivider, s.bcu.deferred, s.sbc.holder, s.sbc.burst, s.sbc.cycle,
    fun i => (s.slot i).state, fun i => (s.slot i).deferred, s.ae.phase, s.ae.command, s.ae.units,
    fun n => (s.chan n).state, fun n => (s.chan n).slot, s.chanReply, s.ml.command, s.ml.stream, s.ml.reserved,
    s.ml.resetPending⟩

/-- The figures of the Slot Bus Controller that are bounded by themselves. -/
structure Sbc.Bounded (b : Sbc) : Prop where
  debt       : b.debt ≤ 4
  readyLimit : 1 ≤ b.readyLimit ∧ b.readyLimit ≤ 255
  interval   : b.interval ≤ 63
  countdown  : b.countdown ≤ 63
  timing     : ∀ k : ClassId, b.timing[k].ioWs ≤ 15 ∧ b.timing[k].memWs ≤ 15

/-- The link's queues that are bounded by themselves. -/
structure Ml.Bounded (m : Ml) : Prop where
  commandIn : m.commandIn.length ≤ 16
  streamIn  : m.streamIn.length ≤ 16
  notices   : m.notices.length ≤ 48

/-- The bounds that hold of each block by itself. -/
structure State.Bounded (s : State) : Prop where
  sbc     : s.sbc.Bounded
  ml      : s.ml.Bounded
  storage : s.StorageSound

/-! ## Quiet changes -/

/-- The essential figures are as they were, no reply is added, and the bounds are kept. -/
structure Quiet (s t : State) : Prop where
  same    : t.essentials = s.essentials
  replies : t.ml.replies.length ≤ s.ml.replies.length
  bounded : s.Bounded → t.Bounded

namespace Quiet

theorem refl (s : State) : Quiet s s := ⟨rfl, le_rfl, id⟩

theorem trans {s t u : State} (h : Quiet s t) (k : Quiet t u) : Quiet s u :=
  ⟨k.same.trans h.same, k.replies.trans h.replies, k.bounded ∘ h.bounded⟩

theorem foldl {α : Type} {f : α → State → State} (h : ∀ a s, Quiet s (f a s)) :
    ∀ (l : List α) (s : State), Quiet s (l.foldl (fun s a => f a s) s)
  | [], s => refl s
  | a :: l, s => (h a s).trans (foldl h l (f a s))

theorem updBcu {s : State} {f : Bcu → Bcu} (bclk : (f s.bcu).bclk = s.bcu.bclk)
    (divider : (f s.bcu).divider = s.bcu.divider) (pending : (f s.bcu).pendingDivider = s.bcu.pendingDivider)
    (deferred : (f s.bcu).deferred = s.bcu.deferred) : Quiet s (s.updBcu f) :=
  ⟨by simp [State.essentials, bclk, divider, pending, deferred], le_rfl, fun h => ⟨h.sbc, h.ml, h.storage⟩⟩

theorem updSbc {s : State} {f : Sbc → Sbc} (holder : (f s.sbc).holder = s.sbc.holder)
    (burst : (f s.sbc).burst = s.sbc.burst) (cycle : (f s.sbc).cycle = s.sbc.cycle)
    (bounded : s.sbc.Bounded → (f s.sbc).Bounded) : Quiet s (s.updSbc f) :=
  ⟨by simp [State.essentials, holder, burst, cycle], le_rfl, fun h => ⟨bounded h.sbc, h.ml, h.storage⟩⟩

theorem modFault (s : State) (i : SlotId) (f : FaultRecord → FaultRecord) : Quiet s (s.modFault i f) :=
  updSbc rfl rfl rfl fun h => ⟨h.debt, h.readyLimit, h.interval, h.countdown, h.timing⟩

theorem handResult (s : State) (r : CycleResult) : Quiet s (s.handResult r) :=
  updSbc rfl rfl rfl fun h => ⟨h.debt, h.readyLimit, h.interval, h.countdown, h.timing⟩

theorem updRmap (s : State) (f : Rmap → Rmap) : Quiet s (s.updRmap f) :=
  ⟨rfl, le_rfl, fun h => ⟨h.sbc, h.ml, h.storage⟩⟩

theorem updMeasure (s : State) (f : Measure → Measure) : Quiet s (s.updMeasure f) :=
  ⟨rfl, le_rfl, fun h => ⟨h.sbc, h.ml, h.storage⟩⟩

theorem updCards (s : State) (f : Cards → Cards) : Quiet s (s.updCards f) :=
  ⟨rfl, le_rfl, fun h => ⟨h.sbc, h.ml, h.storage⟩⟩

theorem setFree (s : State) (n : Nat) : Quiet s { s with free := n } :=
  ⟨rfl, le_rfl, fun h => ⟨h.sbc, h.ml, h.storage⟩⟩

theorem updStm {s : State} {f : Stm → Stm}
    (storage : Memory.wf s.stm.bytes = true → Memory.wf (f s.stm).bytes = true) : Quiet s (s.updStm f) :=
  ⟨rfl, le_rfl, fun h => ⟨h.sbc, h.ml, storage h.storage⟩⟩

theorem updAe {s : State} {f : Ae → Ae} (phase : (f s.ae).phase = s.ae.phase)
    (command : (f s.ae).command = s.ae.command) (units : (f s.ae).units = s.ae.units) : Quiet s (s.updAe f) :=
  ⟨by simp [State.essentials, phase, command, units], le_rfl, fun h => ⟨h.sbc, h.ml, h.storage⟩⟩

theorem modSlot {s : State} {i : SlotId} {f : Slot → Slot} (state : (f (s.slot i)).state = (s.slot i).state)
    (deferred : (f (s.slot i)).deferred = (s.slot i).deferred) : Quiet s (s.modSlot i f) := by
  have read : ∀ j, ((s.modSlot i f).slot j).state = (s.slot j).state ∧
      ((s.modSlot i f).slot j).deferred = (s.slot j).deferred := fun j => by
    rw [State.modSlot_slot]
    split
    · subst i; exact ⟨state, deferred⟩
    · exact ⟨rfl, rfl⟩
  refine ⟨?_, le_rfl, fun h => ⟨h.sbc, h.ml, h.storage⟩⟩
  simp only [State.essentials, read]
  rfl

theorem modChan {s : State} {n : ChanId} {f : Channel → Channel} (state : (f (s.chan n)).state = (s.chan n).state)
    (slot : (f (s.chan n)).slot = (s.chan n).slot) : Quiet s (s.modChan n f) := by
  have read : ∀ j, ((s.modChan n f).chan j).state = (s.chan j).state ∧
      ((s.modChan n f).chan j).slot = (s.chan j).slot := fun j => by
    rw [State.modChan_chan]
    split
    · subst n; exact ⟨state, slot⟩
    · exact ⟨rfl, rfl⟩
  refine ⟨?_, le_rfl, fun h => ⟨h.sbc, h.ml, h.storage⟩⟩
  simp only [State.essentials, read]
  rfl

/-- The link's queues shrink, or grow within their places. -/
theorem updMl {s : State} {f : Ml → Ml} (command : (f s.ml).command = s.ml.command)
    (stream : (f s.ml).stream = s.ml.stream) (reserved : (f s.ml).reserved = s.ml.reserved)
    (pending : (f s.ml).resetPending = s.ml.resetPending)
    (replies : (f s.ml).replies.length ≤ s.ml.replies.length) (bounded : s.ml.Bounded → (f s.ml).Bounded) :
    Quiet s (s.updMl f) :=
  ⟨by simp [State.essentials, command, stream, reserved, pending], replies, fun h => ⟨h.sbc, bounded h.ml, h.storage⟩⟩

theorem onlyInputs {s t : State} (h : OnlyInputs s t) : Quiet s t := by
  obtain ⟨x, ns, rfl, hn⟩ := h
  exact ⟨rfl, le_rfl, fun h => ⟨h.sbc, ⟨h.ml.commandIn, h.ml.streamIn, hn.trans h.ml.notices⟩, h.storage⟩⟩

theorem modInput (s : State) (i : InputId) (f : Input → Input) : Quiet s (s.modInput i f) :=
  onlyInputs (.modInput s i f)

/-! ### Admission -/

theorem enqueueNotice {s : State} (n : Notice) (h : s.ml.admits = true) : Quiet s (s.updMl fun m => m.enqueueNotice n) := by
  refine updMl rfl rfl rfl rfl le_rfl fun b => ⟨b.commandIn, b.streamIn, ?_⟩
  have free : s.ml.notices.length < 48 := of_decide_eq_true (Bool.and_eq_true _ _ ▸ h).2
  simpa [Ml.enqueueNotice] using free

theorem admitInput (s : State) (i : InputId) : Quiet s (s.admitInput i) := by
  unfold State.admitInput
  split
  case isTrue h =>
    simp only [Bool.and_eq_true] at h
    exact (enqueueNotice _ h.1.1).trans (modInput _ i _)
  case isFalse => exact refl s

theorem admitSlotFault (s : State) (i : SlotId) : Quiet s (s.admitSlotFault i) := by
  unfold State.admitSlotFault
  split
  case isTrue h =>
    simp only [Bool.and_eq_true] at h
    exact (enqueueNotice _ h.1).trans (modSlot rfl rfl)
  case isFalse => exact refl s

theorem admitBusFault (s : State) (i : SlotId) : Quiet s (s.admitBusFault i) := by
  unfold State.admitBusFault
  split
  case isTrue h =>
    simp only [Bool.and_eq_true] at h
    exact (enqueueNotice _ h.1).trans (modFault _ i _)
  case isFalse => exact refl s

theorem admitChannel (s : State) (n : ChanId) : Quiet s (s.admitChannel n) := by
  unfold State.admitChannel
  split
  case isTrue h =>
    simp only [Bool.and_eq_true] at h
    exact (enqueueNotice _ h.1).trans (modChan rfl rfl)
  case isFalse => exact refl s

theorem admitWoke (s : State) : Quiet s s.admitWoke := by
  unfold State.admitWoke
  split
  · split
    case isTrue h => exact (enqueueNotice _ h).trans (updBcu rfl rfl rfl rfl)
    case isFalse => exact refl s
  · exact refl s

theorem admitOffers (s : State) : Quiet s s.admitOffers :=
  ((((foldl (fun i s => admitInput s i) _ s).trans (foldl (fun i s => admitSlotFault s i) _ _)).trans
    (foldl (fun i s => admitBusFault s i) _ _)).trans (foldl (fun n s => admitChannel s n) _ _)).trans (admitWoke _)

end Quiet

/-! ## Moves -/

/-- The Access Engine is IDLE only without a command, and RUNNING while it holds the bus. -/
structure State.AeSound (s : State) : Prop where
  running : s.sbc.holder = some .ae → s.ae.phase = .running
  idle    : s.ae.phase = .idle → s.ae.command = none

/-- AE's grant takes its next cycle as the plan says (R20, R49). -/
def State.runPlan (s : State) (p : CyclePlan) : State :=
  (s.updSbc fun b => { b with
    holder := some .ae
    cycle := some { s.newCycle p.kind p.cls (some p.slot) (onlySlot p.slot) p.address p.driven with
      direct := p.direct } }).updAe fun a => { a with phase := .running }

/-- Every cycle of the units is one of an access (R21). -/
def Planned (units : List AccessUnit) : Prop := ∀ u ∈ units, ∀ p ∈ u.cycles, p.kind.isAccess

/-- One move of the work inside an event. Where `R` holds, the moves of the Access Engine are those of an engine at
work, which is what the rules on replies rest on. -/
inductive Move (R : Prop) (s : State) : State → Prop
  /-- The essential figures stay. -/
  | quiet {t : State} (h : Quiet s t) : Move R s t
  /-- A request that its pipe takes now is answered at once. -/
  | reply (p : Pipe) (f : Frame) (h : s.ml.canTake p = true) : Move R s (s.replyAtOnce f)
  /-- RESET_PART is answered and stays in progress. -/
  | resetPart (kind : Byte) (tag : Half) (h : s.ml.canTake .command = true) :
      Move R s (resetPartTaken (s.beginRequest .command kind tag))
  /-- A CANCEL waits on the stream pipe. -/
  | beginStream (kind : Byte) (tag : Half) (h : s.ml.canTake .stream = true) : Move R s (s.beginRequest .stream kind tag)
  /-- A command is taken whose reply the clock, a slot, a channel or the Access Engine owes. -/
  | deferClock (kind : Byte) (tag : Half) (f : Bcu → Bcu) (h : s.ml.canTake .command = true)
      (divider : (f s.bcu).divider = s.bcu.divider) (pending : (f s.bcu).pendingDivider = s.bcu.pendingDivider)
      (bclk : (f s.bcu).bclk = s.bcu.bclk) : Move R s ((s.updBcu f).beginRequest .command kind tag)
  | deferSlot (kind : Byte) (tag : Half) (i : SlotId) (f : Slot → Slot) (h : s.ml.canTake .command = true)
      (state : (f (s.slot i)).state = (s.slot i).state) :
      Move R s ((s.modSlot i f).beginRequest .command kind tag)
  | deferChannel (kind : Byte) (tag : Half) (n : ChanId) (h : s.ml.canTake .command = true) :
      Move R s ((s.setChanReply (some n)).beginRequest .command kind tag)
  | beginAccess (kind : Byte) (tag : Half) (a : Access) (h : s.ml.canTake .command = true)
      (idle : R → s.sbc.holder ≠ some .ae) :
      Move R s ((s.updAe fun _ => { phase := .routing, command := some a }).beginRequest .command kind tag)
  /-- A reply that is owed is made. -/
  | answerClock (status : Status) (payload : List Byte) (h : s.bcu.deferred ≠ none) :
      Move R s ((s.updBcu fun b => { b with deferred := none }).replyCommand status payload)
  | answerSlot (i : SlotId) (status : Status) : Move R s (s.answerSlot i status)
  | answerChannel (n : ChanId) : Move R s (s.answerChannel n)
  | endAccess (status : Status) (h : R → s.ae.phase ≠ .idle ∧ s.sbc.holder ≠ some .ae) : Move R s (s.endAccess status)
  /-- The Access Engine works on; its cycles are cycles of accesses. -/
  | access (f : Ae → Ae) (work : R → s.ae.phase ≠ .idle ∧ (f s.ae).phase ≠ .idle)
      (grant : R → s.sbc.holder = some .ae → (f s.ae).phase = .running)
      (planned : Planned s.ae.units → Planned (f s.ae).units) : Move R s (s.updAe f)
  /-- A channel changes; it becomes active only on an ENABLED slot, or stays active on its own. -/
  | channel (n : ChanId) (f : Channel → Channel)
      (h : (f (s.chan n)).state.active → (s.slot (f (s.chan n)).slot).state = .enabled ∨
        ((s.chan n).state.active ∧ (f (s.chan n)).slot = (s.chan n).slot)) : Move R s (s.modChan n f)
  /-- A slot that the cycle in flight does not connect changes its state, or one becomes ENABLED. -/
  | enter (i : SlotId) (new : SlotState)
      (h : s.connects i = false ∨ new = .enabled ∨ ((s.slot i).state ≠ .enabled ∧ (s.slot i).state ≠ .isolated)) :
      Move R s (s.enterState i new)
  /-- The clock changes its state with D in force, and BCLK runs on under a grant. -/
  | clock (f : Bcu → Bcu) (divider : (f s.bcu).divider = s.bcu.divider)
      (pending : (f s.bcu).pendingDivider = s.bcu.pendingDivider) (deferred : (f s.bcu).deferred = s.bcu.deferred)
      (bclk : s.sbc.holder ≠ none → s.bcu.bclk = some s.bcu.divider → (f s.bcu).bclk = some s.bcu.divider) :
      Move R s (s.updBcu f)
  /-- A grant ends, or the arbiter grants the free bus. -/
  | freeBus : Move R s s.freeBus
  | grantRefresh (free : s.sbc.holder = none) (bclk : s.bcu.bclk = some s.bcu.divider) : Move R s s.beginRefresh
  | grantTransfer (n : ChanId) (free : s.sbc.holder = none) (bclk : s.bcu.bclk = some s.bcu.divider)
      (enabled : (s.slot (s.chan n).slot).state = .enabled) : Move R s (s.beginTransfer n)
  | grantAccess (u : AccessUnit) (p : CyclePlan) (free : s.sbc.holder = none) (bclk : s.bcu.bclk = some s.bcu.divider)
      (work : R → s.ae.phase ≠ .idle) (hu : u ∈ s.ae.units) (hp : p ∈ u.cycles)
      (connects : s.mayConnect p.slot p.direct = true) : Move R s (s.runPlan p)
  /-- A trip takes its slot out of the refresh cycle in flight (R26). -/
  | disconnect (c : Cycle) (i : SlotId) (flight : s.sbc.cycle = some c) (refresh : c.kind = .refresh) :
      Move R s (s.updSbc fun b => { b with cycle := some { c with connected := c.connected.set i false } })

/-- A chain of moves. -/
abbrev Moves (R : Prop) : State → State → Prop := Relation.ReflTransGen (Move R)

namespace Moves

variable {R : Prop}

theorem of {s t : State} (h : Move R s t) : Moves R s t := .single h

theorem quiet {s t : State} (h : Quiet s t) : Moves R s t := of (.quiet h)

theorem foldl {α : Type} {f : α → State → State} (h : ∀ a s, Moves R s (f a s)) :
    ∀ (l : List α) (s : State), Moves R s (l.foldl (fun s a => f a s) s)
  | [], _ => .refl
  | a :: l, s => (h a s).trans (foldl h l (f a s))

/-- What every move keeps, a chain keeps. -/
theorem keeps {P : State → Prop} (h : ∀ s t, Move R s t → P s → P t) {s t : State} (m : Moves R s t) (hs : P s) : P t := by
  induction m with
  | refl => exact hs
  | tail _ m ih => exact h _ _ m ih

/-! ### Channels -/

theorem serveChannel (s : State) (n : ChanId) : Moves R s (s.serveChannel n) := by
  unfold State.serveChannel
  dsimp only
  split
  · split
    · split
      · exact .refl
      · exact quiet (.modChan rfl rfl)
    · exact of (.channel n _ (by rintro (h | h) <;> cases h))
  · exact .refl

theorem serveChannels (s : State) : Moves R s s.serveChannels := foldl (fun n s => serveChannel s n) _ s

theorem releaseChannel (s : State) (n : ChanId) : Moves R s (s.releaseChannel n) := by
  have pages : Quiet s (s.updStm fun m => m.release n) := .updStm (by simp only [Stm.release, imp_self])
  have free : Move R (s.updStm fun m => m.release n) ((s.updStm fun m => m.release n).modChan n fun _ => {}) :=
    .channel n _ (by rintro (h | h) <;> cases h)
  exact (quiet pages).tail free

theorem chanBoundary (s : State) (n : ChanId) : Moves R s (s.chanBoundary n) := by
  unfold State.chanBoundary
  split
  · exact .refl
  · split
    · exact (releaseChannel s n).tail (.answerChannel n)
    · split
      · refine (of (.channel n _ fun h => .inr ⟨?_, rfl⟩)).tail (.answerChannel n)
        dsimp only at h
        split at h
        case isTrue running => exact .inl running
        case isFalse => exact h
      · exact .refl

theorem chanBoundaries (s : State) : Moves R s s.chanBoundaries := foldl (fun n s => chanBoundary s n) _ s

/-! ### Slots -/

theorem makeChange (s : State) (i : SlotId) (change : SlotChange) (h : s.connects i = false) :
    Moves R s (s.makeChange i change) := by
  unfold State.makeChange
  have begun : Moves R s (s.modSlot i fun t => { t with waiting := none }) := quiet (.modSlot rfl rfl)
  cases change with
  | powerOff => exact (begun.tail (.enter i _ (.inl h))).tail (.answerSlot i _)
  | isolate => exact (begun.tail (.enter i _ (.inl h))).tail (.answerSlot i _)
  | slotReset width => exact (begun.tail (.enter i _ (.inl h))).trans (quiet (.modSlot rfl rfl))

theorem slotBoundary (s : State) (i : SlotId) : Moves R s (s.slotBoundary i) := by
  unfold State.slotBoundary
  split
  · split
    · exact .refl
    · exact makeChange s i _ (by simpa using ‹¬ s.connects i = true›)
  · exact .refl

theorem slotBoundaries (s : State) : Moves R s s.slotBoundaries := foldl (fun i s => slotBoundary s i) _ s

end Moves

end Sys2Proof.Machine
end

