-- ==== Sys2Proof/Proofs/AccessMoves.lean ====
section
/-! SUPPORT. The Access Engine's work as moves: the units of a command, its end, and its grants. -/

namespace Sys2Proof.Machine

open Sys2Proof

/-! ## The engine's sound states along the moves -/

/-- AE is at work and does not hold the bus. -/
structure State.AtWork (s : State) : Prop where
  busy : s.ae.phase ≠ .idle
  off  : s.sbc.holder ≠ some .ae

theorem Quiet.keeps_ae {s t : State} (h : Quiet s t) :
    t.sbc.holder = s.sbc.holder ∧ t.ae.phase = s.ae.phase ∧ t.ae.command = s.ae.command :=
  ⟨congrArg Essentials.holder h.same, congrArg Essentials.phase h.same, congrArg Essentials.access h.same⟩

theorem resetPartTaken_keeps (s : State) : (resetPartTaken s).sbc = s.sbc ∧ (resetPartTaken s).ae = s.ae := by
  unfold resetPartTaken
  split <;> exact ⟨rfl, rfl⟩

/-- Every move of an engine at work keeps AE sound. -/
theorem Move.aeSound {R : Prop} (hR : R) {s t : State} (m : Move R s t) (h : s.AeSound) : t.AeSound := by
  cases m with
  | quiet q =>
    obtain ⟨holder, phase, command⟩ := q.keeps_ae
    exact ⟨fun g => phase ▸ h.running (holder ▸ g), fun g => command ▸ h.idle (phase ▸ g)⟩
  | reply | beginStream | deferClock | deferSlot | deferChannel | channel | clock | disconnect =>
    exact ⟨h.running, h.idle⟩
  | resetPart kind tag =>
    have keeps := resetPartTaken_keeps (s.beginRequest .command kind tag)
    exact ⟨by simpa only [keeps, beginRequest_sbc, beginRequest_ae] using h.running,
      by simpa only [keeps, beginRequest_sbc, beginRequest_ae] using h.idle⟩
  | beginAccess kind tag a can off => exact ⟨fun g => absurd g (off hR), nofun⟩
  | answerClock status payload =>
    exact ⟨by simpa using h.running, by simpa using h.idle⟩
  | answerSlot i status =>
    have keeps := answerSlot_keeps s i status
    exact ⟨by simpa only [keeps] using h.running, by simpa only [keeps] using h.idle⟩
  | answerChannel n =>
    have keeps := answerChannel_keeps s n
    exact ⟨by simpa only [keeps] using h.running, by simpa only [keeps] using h.idle⟩
  | endAccess status work =>
    have keeps := endAccess_keeps s status
    exact ⟨fun g => absurd (by simpa only [keeps] using g) (work hR).2, fun _ => by rw [keeps.2.2.1]⟩
  | access f work grant => exact ⟨fun g => grant hR g, fun idle => absurd idle (work hR).2⟩
  | enter i new =>
    have keeps := (OnlySlotWork.enterState s i new).keeps
    exact ⟨by simpa only [keeps] using h.running, by simpa only [keeps] using h.idle⟩
  | freeBus | grantRefresh | grantTransfer => exact ⟨nofun, h.idle⟩
  | grantAccess => exact ⟨fun _ => rfl, nofun⟩

/-- A chain of moves of an engine at work keeps AE sound. -/
theorem Moves.aeSound {R : Prop} (hR : R) {s t : State} (m : Moves R s t) (h : s.AeSound) : t.AeSound :=
  m.keeps (fun _ _ m => m.aeSound hR) h

/-! ## What routing plans -/

theorem cycleKind_isAccess (space : Space) (wide write : Bool) : (cycleKind space wide write).isAccess := by
  cases space <;> cases wide <;> cases write <;> exact ⟨nofun, nofun, nofun⟩

theorem byteCycle_isAccess (u : UnitRequest) (address : Nat) (value : Byte) (part : UnitPart) (a : Answer) :
    ∀ p ∈ u.byteCycle address value part a, p.kind.isAccess := by
  intro p hp
  cases a with
  | cycle id w =>
    obtain rfl := List.mem_singleton.mp hp
    exact cycleKind_isAccess ..
  | float | notReady | shadow => cases hp

/-- The cycles of a routed unit: those of its byte positions, or one word cycle (R78). -/
theorem routeMapped_isAccess {s : State} {u : UnitRequest} {x : AccessUnit} (h : s.routeMapped u = some x) :
    ∀ p ∈ x.cycles, p.kind.isAccess := by
  unfold State.routeMapped at h
  dsimp only at h
  intro p hp
  split at h
  · split at h
    · cases h
    · cases h
      exact byteCycle_isAccess _ _ _ _ _ p hp
  · split at h
    · split at h
      · cases h
        obtain rfl := List.mem_singleton.mp hp
        exact cycleKind_isAccess ..
      · split at h
        · cases h
        · cases h
          exact (List.mem_append.mp hp).elim (byteCycle_isAccess _ _ _ _ _ p) (byteCycle_isAccess _ _ _ _ _ p)
    · split at h
      · cases h
      · cases h
        exact (List.mem_append.mp hp).elim (byteCycle_isAccess _ _ _ _ _ p) (byteCycle_isAccess _ _ _ _ _ p)

theorem routeDirect_isAccess {s : State} {slot : SlotId} {u : UnitRequest} {x : AccessUnit}
    (h : s.routeDirect slot u = some x) : ∀ p ∈ x.cycles, p.kind.isAccess := by
  unfold State.routeDirect at h
  dsimp only at h
  intro p hp
  split at h
  · cases h
    have kind : ∃ wide, p.kind = cycleKind u.space wide u.write := by
      dsimp only at hp
      split at hp
      · exact ⟨_, by rw [List.mem_singleton.mp hp]⟩
      · split at hp
        · exact ⟨_, by rw [List.mem_singleton.mp hp]⟩
        · obtain rfl | rfl : _ ∨ _ := by simpa using hp
          · exact ⟨_, rfl⟩
          · exact ⟨_, rfl⟩
    obtain ⟨wide, kind⟩ := kind
    exact kind ▸ cycleKind_isAccess ..
  · cases h

theorem routeUnit_isAccess {s : State} {direct : Option SlotId} {u : UnitRequest} {x : AccessUnit}
    (h : s.routeUnit direct u = some x) : ∀ p ∈ x.cycles, p.kind.isAccess := by
  cases direct with
  | none => exact routeMapped_isAccess h
  | some slot => exact routeDirect_isAccess h

/-! ## Units done -/

/-- A unit done changes counts and data alone. -/
theorem unitDone_keeps (a : Ae) (u : AccessUnit) :
    (a.unitDone u).phase = a.phase ∧ (a.unitDone u).command = a.command ∧ (a.unitDone u).units = a.units ∧
    (a.unitDone u).cancelTaken = a.cancelTaken := by
  unfold Ae.unitDone
  dsimp only
  split
  · exact ⟨rfl, rfl, rfl, rfl⟩
  · split <;> exact ⟨rfl, rfl, rfl, rfl⟩

theorem closeUnits_keeps (us : List AccessUnit) (a : Ae) :
    (closeUnits us a).phase = a.phase ∧ (closeUnits us a).command = a.command ∧
    ∀ u ∈ (closeUnits us a).units, u ∈ us := by
  induction us generalizing a with
  | nil => exact ⟨rfl, rfl, fun _ h => h⟩
  | cons u us ih =>
    obtain ⟨phase, command, -, -⟩ := unitDone_keeps a u
    obtain ⟨phase', command', units⟩ := ih (a.unitDone u)
    unfold closeUnits
    split
    · exact ⟨phase'.trans phase, command'.trans command, fun v hv => List.mem_cons_of_mem _ (units v hv)⟩
    · exact ⟨rfl, rfl, fun _ h => h⟩

/-! ## The units of a command -/

namespace Moves

variable {R : Prop}

theorem endAccess {s : State} (status : Status) (h : R → s.AtWork) : Moves R s (s.endAccess status) :=
  of (.endAccess status fun r => ⟨(h r).busy, (h r).off⟩)

theorem runString (a : StringAccess) (left : Nat) {s : State} (h : R → s.AtWork) :
    Moves R s (Machine.runString a left s) := by
  induction left generalizing s with
  | zero => exact endAccess _ h
  | succ left ih =>
    unfold Machine.runString
    dsimp only
    split
    · exact endAccess _ h
    case h_2 u routed =>
      obtain ⟨phase, command, units, -⟩ := unitDone_keeps s.ae u
      split
      · exact (quiet (.updAe phase command units)).trans (ih fun r => ⟨by simpa [phase] using (h r).busy, (h r).off⟩)
      · refine of (.access _ (fun r => ⟨(h r).busy, nofun⟩) (fun r g => absurd g (h r).off) fun _ v hv => ?_)
        obtain rfl := List.mem_singleton.mp hv
        exact routeUnit_isAccess routed

theorem runPair (a : PairAccess) {s : State} (h : R → s.AtWork) : Moves R s (Machine.runPair a s) := by
  unfold Machine.runPair
  split
  case h_1 u v hu hv =>
    obtain ⟨phase, -, units⟩ := closeUnits_keeps [u, v] s.ae
    have closed : Move R s (s.updAe (closeUnits [u, v])) := by
      refine .access _ (fun r => ⟨(h r).busy, phase ▸ (h r).busy⟩) (fun r g => absurd g (h r).off) fun _ x hx => ?_
      obtain rfl | rfl : x = u ∨ x = v := by simpa using units x hx
      · exact routeUnit_isAccess hu
      · exact routeUnit_isAccess hv
    have work : R → (s.updAe (closeUnits [u, v])).AtWork := fun r => ⟨phase ▸ (h r).busy, (h r).off⟩
    dsimp only
    split
    · exact (of closed).trans (endAccess _ work)
    · exact (of closed).tail
        (.access _ (fun r => ⟨(work r).busy, nofun⟩) (fun r g => absurd g (work r).off) fun planned => planned)
  · exact endAccess _ h

theorem decidePoll (a : PollAccess) {s : State} (h : R → s.AtWork) : Moves R s (Machine.decidePoll a s) := by
  unfold Machine.decidePoll
  split
  · exact endAccess _ h
  · split
    · exact endAccess _ h
    · exact of (.access _ (fun r => ⟨(h r).busy, nofun⟩) (fun r g => absurd g (h r).off) fun _ _ hx => nomatch hx)

theorem runPoll (a : PollAccess) {s : State} (h : R → s.AtWork) : Moves R s (Machine.runPoll a s) := by
  unfold Machine.runPoll
  dsimp only
  refine (quiet (.updAe (f := fun e => { e with pollStart := some (e.pollStart.getD s.bcu.timeBase) }) rfl rfl rfl)).trans ?_
  have work : R → (s.updAe fun e => { e with pollStart := some (e.pollStart.getD s.bcu.timeBase) }).AtWork :=
    fun r => ⟨(h r).busy, (h r).off⟩
  generalize (s.updAe fun e => { e with pollStart := some (e.pollStart.getD s.bcu.timeBase) }) = s' at work ⊢
  split
  · exact endAccess _ work
  case h_2 u routed =>
    obtain ⟨phase, command, units, -⟩ := unitDone_keeps s'.ae u
    split
    · exact (quiet (.updAe phase command units)).trans
        (decidePoll a fun r => ⟨by simpa [phase] using (work r).busy, (work r).off⟩)
    · refine of (.access _ (fun r => ⟨(work r).busy, nofun⟩) (fun r g => absurd g (work r).off) fun _ v hv => ?_)
      obtain rfl := List.mem_singleton.mp hv
      exact routeUnit_isAccess routed

theorem decidePoll_sbc (a : PollAccess) (s : State) : (Machine.decidePoll a s).sbc = s.sbc := by
  unfold Machine.decidePoll
  split
  · exact (endAccess_keeps s _).2.1
  · split
    · exact (endAccess_keeps s _).2.1
    · rfl

theorem continuePoll (a : PollAccess) {s : State} (h : R → s.AtWork) : Moves R s (Machine.continuePoll a s) := by
  unfold Machine.continuePoll
  dsimp only
  split
  case isTrue waits =>
    refine (decidePoll a h).trans (runPoll a fun r => ⟨?_, ?_⟩)
    · simp [waits.1]
    · rw [decidePoll_sbc]; exact (h r).off
  case isFalse => exact decidePoll a h

/-- A command taken begins its first unit (R89). -/
theorem accessBegun (kind : Byte) (tag : Half) (a : Access) {s : State} (can : s.ml.canTake .command = true)
    (off : R → s.sbc.holder ≠ some .ae) : Moves R s ((s.beginRequest .command kind tag).beginAccess a) := by
  have begun := of (.beginAccess (R := R) kind tag a can off)
  have work : R → ((s.updAe fun _ => { phase := .routing, command := some a }).beginRequest .command kind tag).AtWork :=
    fun r => ⟨nofun, off r⟩
  unfold State.beginAccess
  rw [beginRequest_updAe]
  cases a with
  | string x => exact begun.trans (runString x x.count work)
  | pair x => exact begun.trans (runPair x work)
  | poll x => exact begun.trans (runPoll x work)

theorem accessBoundary {s : State} (h : R → s.AtWork) : Moves R s s.accessBoundary := by
  unfold State.accessBoundary
  split
  · exact endAccess _ h
  · split
    · exact endAccess _ h
    · split
      · exact runString _ _ h
      · exact endAccess _ h
      · exact continuePoll _ h
      · exact .refl

end Moves

end Sys2Proof.Machine
end

