-- ==== Sys2Proof/Proofs/EngineMoves.lean ====
section
/-! SUPPORT. The cycle engine, the arbiter, the clock's waits, trips and measurements as moves. -/

namespace Sys2Proof.Machine

open Sys2Proof

/-- Where grants are allowed BCLK runs at D (R1, R4). -/
theorem bclk_of_grantsAllowed {s : State} (h : s.grantsAllowed = true) : s.bcu.bclk = some s.bcu.divider := by
  have run : s.bcu.clock = .run := by
    simp only [State.grantsAllowed, Bool.and_eq_true, beq_iff_eq] at h
    exact h.1
  simp [Bcu.bclk, run]

/-- A channel whose request stands has an ENABLED slot (R118). -/
theorem enabled_of_chanRequests {s : State} {n : ChanId} (h : s.chanRequests n = true) :
    (s.slot (s.chan n).slot).state = .enabled := by
  simp only [State.chanRequests, State.cardAsks, Bool.and_eq_true, beq_iff_eq] at h
  exact h.1.1.2

theorem firstRequest_channel {s : State} {n : ChanId} (h : s.firstRequest = some (.channel n)) :
    s.chanRequests n = true := by
  unfold State.firstRequest at h
  split at h
  · cases h
  · split at h
    case h_1 m found => cases h; exact List.find?_some found
    case h_2 =>
      split at h
      · cases h
      · split at h <;> cases h

theorem firstRequest_ae {s : State} (h : s.firstRequest = some .ae) : s.ae.phase = .waiting := by
  unfold State.firstRequest at h
  split at h
  · cases h
  · split at h
    · cases h
    · split at h
      · cases h
      · split at h
        · assumption
        · cases h

/-- Counting a transfer ends the channel or leaves its state (R120, R121). -/
theorem Channel.countTransfer_keeps (c : Channel) :
    (c.countTransfer.state = c.state ∨ c.countTransfer.state = .ended) ∧ c.countTransfer.slot = c.slot := by
  unfold Channel.countTransfer
  dsimp only
  split
  · split
    · exact ⟨.inl rfl, rfl⟩
    · exact ⟨.inr rfl, rfl⟩
  · exact ⟨.inl rfl, rfl⟩

theorem Channel.checkMark_keeps (c : Channel) : c.checkMark.state = c.state ∧ c.checkMark.slot = c.slot := by
  unfold Channel.checkMark
  split
  · split <;> split <;> exact ⟨rfl, rfl⟩
  · exact ⟨rfl, rfl⟩

theorem Channel.countFill_keeps (c : Channel) : c.countFill.state = c.state ∧ c.countFill.slot = c.slot := by
  unfold Channel.countFill
  dsimp only
  split <;> exact ⟨rfl, rfl⟩

theorem Channel.countDrop_keeps (c : Channel) : c.countDrop.state = c.state ∧ c.countDrop.slot = c.slot := by
  unfold Channel.countDrop
  dsimp only
  split <;> exact ⟨rfl, rfl⟩

/-- A transfer ends the channel or leaves its state, and leaves its slot. -/
theorem Channel.applyTransfer_keeps (c : Channel) (w : Nat) (kind : TransferKind) (driven : Half) :
    ((c.applyTransfer w kind driven).state = c.state ∨ (c.applyTransfer w kind driven).state = .ended) ∧
    (c.applyTransfer w kind driven).slot = c.slot := by
  unfold Channel.applyTransfer
  split
  · rw [(checkMark_keeps _).1, (checkMark_keeps _).2]; exact countTransfer_keeps _
  · rw [(checkMark_keeps _).1, (checkMark_keeps _).2]; exact countTransfer_keeps _
  · simpa only [countFill_keeps c] using countTransfer_keeps c.countFill
  · simpa only [countDrop_keeps c] using countTransfer_keeps c.countDrop

/-- A channel that is active after a transfer was active before it. -/
theorem Channel.active_of_applyTransfer {c : Channel} {w : Nat} {kind : TransferKind} {driven : Half}
    (h : (c.applyTransfer w kind driven).state.active) : c.state.active := by
  obtain same | ended := (applyTransfer_keeps c w kind driven).1
  · exact same ▸ h
  · rw [ended] at h; rcases h with h | h <;> cases h

/-- What AE's next cycle is: none is planned, the planned one begins, or it is refused and the access ends (R20, R94). -/
theorem beginAccessCycle_cases (s : State) :
    s.beginAccessCycle = s.freeBus ∨
    (∃ u p, u ∈ s.ae.units ∧ p ∈ u.cycles ∧ s.mayConnect p.slot p.direct = true ∧ s.beginAccessCycle = s.runPlan p) ∨
    ∃ p : CyclePlan, s.beginAccessCycle = (s.freeBus.handResult ⟨.refused, 0, some p.slot, 0⟩).endAccess .notReady := by
  unfold State.beginAccessCycle
  split
  · exact .inl rfl
  case h_2 p hp =>
    obtain ⟨u, hu, hp⟩ := Option.bind_eq_some_iff.mp hp
    split
    case isTrue connects =>
      exact .inr (.inl ⟨u, p, List.mem_of_mem_head? hu, List.mem_of_mem_head? hp, connects, rfl⟩)
    case isFalse => exact .inr (.inr ⟨p, rfl⟩)

namespace Moves

variable {R : Prop}

/-- A refused cycle ends the grant and the access (R20, R94). -/
theorem refused (s : State) (slot : SlotId) (busy : R → s.ae.phase ≠ .idle) :
    Moves R s ((s.freeBus.handResult ⟨.refused, 0, some slot, 0⟩).endAccess .notReady) :=
  ((of .freeBus).trans (quiet (.handResult _ _))).trans (endAccess _ fun r => ⟨busy r, nofun⟩)

theorem arbitrate (s : State) : Moves R s s.arbitrate := by
  unfold State.arbitrate
  split
  case isFalse => exact .refl
  case isTrue granted =>
    obtain ⟨free, allowed⟩ := granted
    have bclk := bclk_of_grantsAllowed allowed
    split
    case h_1 => exact .refl
    case h_2 => exact of (.grantRefresh free bclk)
    case h_3 n first => exact of (.grantTransfer n free bclk (enabled_of_chanRequests (firstRequest_channel first)))
    case h_4 first =>
      have waiting := firstRequest_ae first
      have busy : R → s.ae.phase ≠ .idle := fun _ => by simp [waiting]
      obtain same | ⟨u, p, hu, hp, connects, same⟩ | ⟨p, same⟩ := beginAccessCycle_cases s
      · exact same ▸ of .freeBus
      · exact same ▸ of (.grantAccess u p free bclk busy hu hp connects)
      · exact same ▸ refused s p.slot busy

theorem clockBoundary (s : State) : Moves R s s.clockBoundary := by
  unfold State.clockBoundary
  split
  · exact .refl
  case isFalse held =>
    have free : s.sbc.holder = none := by simpa using held
    split
    · split
      · exact of (.clock _ rfl rfl rfl fun g => absurd free g)
      · exact .refl
    case h_2 w _ _ =>
      dsimp only
      generalize (if w = .park then ClockState.parked else .stopped) = rest
      have stopped : Move R s (s.updBcu fun b => { b with clock := rest, waiting := none }) :=
        .clock _ rfl rfl rfl fun g => absurd free g
      have halted := (of stopped).trans (quiet (.onlyInputs (.suspendSampling _)))
      split
      · exact halted
      case isFalse owed => exact halted.tail (.answerClock _ _ owed)
    · exact .refl

/-- The follow-on work of an event is a chain of moves (log 14). -/
theorem settle (s : State) : Moves R s s.settle :=
  (((((chanBoundaries s).trans (slotBoundaries _)).trans (serveChannels _)).trans (clockBoundary _)).trans
    (arbitrate _)).trans (quiet (.admitOffers _))

/-! ### Cycles end -/

theorem recordFault (s : State) (i : SlotId) (kind : FaultKind) (c : Cycle) : Moves R s (s.recordFault i kind c) := by
  unfold State.recordFault
  exact quiet (.modFault s i _)

theorem applyTransfer (s : State) (n : ChanId) (kind : TransferKind) (driven sampled : Half) :
    Moves R s (s.applyTransfer n kind driven sampled) := by
  unfold State.applyTransfer
  dsimp only
  refine .trans (b := match kind, (s.chan n).direction with
    | .real, .into => s.updStm fun m => { m with bytes := storeRing (s.chan n) (s.chan n).put (transferBytes n sampled) m.bytes }
    | _, _ => s) ?stored (of (.channel n _ fun active => .inr ?same))
  case stored =>
    split
    · exact quiet (.updStm fun wf => storeRing_wf _ _ _ wf)
    · exact .refl
  case same =>
    exact ⟨Channel.active_of_applyTransfer active, (Channel.applyTransfer_keeps _ _ kind driven).2⟩

theorem takeAccessResult {s : State} (timedOut : Bool) (data : Half) (h : R → s.ae.phase = .running) :
    Moves R s (s.takeAccessResult timedOut data) := by
  unfold State.takeAccessResult
  split
  case h_1 u us units =>
    split
    case h_1 p ps cycles =>
      dsimp only
      obtain ⟨phase, -, closed⟩ := closeUnits_keeps ({ u with
        cycles := ps, value := if u.read then u.merge p.part data else u.value, timedOut := u.timedOut || timedOut } :: us) s.ae
      refine (quiet (.updRmap s _)).tail (.access _ (fun r => ?_) (fun r _ => ?_) fun planned x hx q hq => ?_)
      · exact ⟨by simp [h r], by simp [phase, h r]⟩
      · simp [phase, h r]
      · obtain rfl | member := List.mem_cons.mp (closed x hx)
        · exact planned u (by simp [units]) q (by simp [cycles, hq])
        · exact planned x (by simp [units, member]) q hq
    · exact .refl
  · exact .refl

/-! ### Trips -/

/-- A trip takes the slot out of a refresh, or cuts the cycle that connects it (R26). -/
theorem cutCycle {s : State} (i : SlotId) (h : R → s.AeSound) : Moves R s (s.cutCycle i) := by
  unfold State.cutCycle
  split
  · exact .refl
  case h_2 c flight =>
    split
    case isFalse => exact .refl
    case isTrue connected =>
      have recorded := recordFault (R := R) s i .slotLost c
      dsimp only
      split
      case isTrue refresh => exact recorded.tail (.disconnect c i (by simpa [State.recordFault] using flight) refresh)
      case isFalse =>
        have cut := ((recorded.tail .freeBus).trans (quiet (.handResult _
          ⟨.cut, (s.recordFault i .slotLost c).resultData c.kind 0xFFFF, some i, Config.cutLength s.free⟩))).trans
            (quiet (.setFree _ (s.free + 1)))
        split
        case isTrue holds =>
          refine cut.trans (endAccess _ fun r => ⟨?_, nofun⟩)
          have running := (h r).running holds
          simp [State.recordFault, State.freeBus, State.handResult, running]
        case isFalse => exact cut

/-- After a trip has met the cycle in flight, it does not connect the slot. -/
theorem cutCycle_connects (s : State) (i : SlotId) : (s.cutCycle i).connects i = false := by
  unfold State.cutCycle
  split
  case h_1 none => simp [State.connects, none]
  case h_2 c flight =>
    split
    case isFalse open_ => simpa [State.connects, flight] using open_
    case isTrue =>
      dsimp only
      split
      · simp [State.connects]
      · split
        · simp [State.connects, endAccess_keeps, State.handResult, State.freeBus]
        · simp [State.connects, State.handResult, State.freeBus]

/-- A trip: the cycle that connects the slot is met, the slot enters FAULT, and its request is answered (R47). -/
theorem trip {s : State} (i : SlotId) (kind : TripKind) (reading : Nat) (h : R → s.AeSound) :
    Moves R s (s.trip i kind reading) := by
  unfold State.trip
  dsimp only
  have faulted := (cutCycle i h).tail (.enter i .fault (.inl (cutCycle_connects s i)))
  have tripped := faulted.trans (quiet (.modSlot (f := fun t => { t with
    lastTrip := some ⟨kind, ((s.cutCycle i).enterState i .fault).bcu.timeBase, reading⟩
    cooldown := some Config.cooldownTime, faultRaised := true, sequence := none, waiting := none }) (i := i) rfl rfl))
  split
  · refine (tripped.tail (.enter i .off (.inr (.inr ?_)))).tail (.answerSlot i .ok)
    simp [enterState_slot]
  · exact tripped.tail (.answerSlot i .faulted)

/-- One measurement: the reading is recorded, and the slot trips or its soft run goes on (R44 to R46). -/
theorem measureSlot {s : State} (i : SlotId) (draw : Nat) (h : R → s.AeSound) : Moves R s (s.measureSlot i draw) := by
  unfold State.measureSlot
  dsimp only
  have measured : Quiet s (s.modSlot i fun t => { t with
      current := (s.slot i).reading draw, peak := max t.peak ((s.slot i).reading draw) }) := .modSlot rfl rfl
  generalize (s.modSlot i fun t => { t with
      current := (s.slot i).reading draw, peak := max t.peak ((s.slot i).reading draw) }) = t at measured ⊢
  have trips : ∀ kind r, Moves R s (t.trip i kind r) := fun kind r =>
    (quiet measured).trans (trip i kind r fun hr => aeSound hr (quiet measured) (h hr))
  have runs : ∀ n : Slot → Nat, Moves R s (t.modSlot i fun x => { x with softRun := n x }) := fun n =>
    (quiet measured).trans (quiet (.modSlot rfl rfl))
  split
  · exact quiet measured
  · exact quiet measured
  · split
    · exact trips _ _
    · exact quiet measured
  all_goals
    split
    · exact trips _ _
    · split
      · split
        · exact trips _ _
        · exact runs _
      · exact runs _

end Moves

end Sys2Proof.Machine
end

