-- ==== Sys2Proof/Proofs/RequestMoves.lean ====
section
/-! SUPPORT. What the owner of each request does with it, as a chain of moves from the state in which its pipe takes
it. The clock's own requests that change D are in Proofs/Effects.lean. -/

namespace Sys2Proof.Machine

open Sys2Proof

/-! ## Beginning a request commutes with the work on inputs and slots -/

theorem foldl_beginRequest {α : Type} {f : α → State → State} {p : Pipe} {kind : Byte} {tag : Half}
    (h : ∀ a s, f a (s.beginRequest p kind tag) = (f a s).beginRequest p kind tag) :
    ∀ (l : List α) (s : State), l.foldl (fun s a => f a s) (s.beginRequest p kind tag) =
      (l.foldl (fun s a => f a s) s).beginRequest p kind tag
  | [], _ => rfl
  | a :: l, s => by rw [List.foldl_cons, List.foldl_cons, h, foldl_beginRequest h l]

section Begun

variable (s : State) (p : Pipe) (kind : Byte) (tag : Half)

theorem beginWatch_beginRequest (i : InputId) :
    (s.beginRequest p kind tag).beginWatch i = (s.beginWatch i).beginRequest p kind tag := by
  unfold State.beginWatch
  simp only [apply_ite fun t : State => t.beginRequest p kind tag]
  rfl

theorem withdraw_beginRequest (i : InputId) :
    (s.beginRequest p kind tag).withdraw i = (s.withdraw i).beginRequest p kind tag := by
  unfold State.withdraw
  simp only [apply_ite fun t : State => t.beginRequest p kind tag]
  cases p <;> rfl

theorem watchSlot_beginRequest (i : SlotId) :
    (s.beginRequest p kind tag).watchSlot i = (s.watchSlot i).beginRequest p kind tag :=
  foldl_beginRequest (fun j t => by
    simp only [beginWatch_beginRequest, apply_ite fun t : State => t.beginRequest p kind tag]) _ s

/-- From a state other than ENABLED, entering a state stops nothing. -/
theorem enterState_beginRequest (i : SlotId) (new : SlotState) (h : (s.slot i).state ≠ .enabled) :
    (s.beginRequest p kind tag).enterState i new = (s.enterState i new).beginRequest p kind tag := by
  unfold State.enterState
  simp only [beginRequest_slot, h, false_and, if_false]
  by_cases clears : new = .resetting ∨ new = .off ∨ new = .fault
  · simp only [clears, if_true, beginRequest_modSlot, beginRequest_updRmap]
    split
    · rw [watchSlot_beginRequest]
    · rfl
  · simp only [clears, if_false, beginRequest_modSlot]
    split
    · rw [watchSlot_beginRequest]
    · rfl

theorem acknowledge_beginRequest (i : InputId) :
    (s.beginRequest p kind tag).acknowledge i = (s.acknowledge i).beginRequest p kind tag := by
  unfold State.acknowledge
  simp only [withdraw_beginRequest, apply_ite fun t : State => t.beginRequest p kind tag]
  rfl

end Begun

/-! ## Requests answered at once -/

/-- The owner's handling is a chain of moves from the state in which the pipe takes the request. -/
def Works (R : Prop) (p : Pipe) (handle : State → State) : Prop :=
  ∀ (s : State) (kind : Byte) (tag : Half), s.ml.canTake p = true → (R → s.RepliesSound) →
    Moves R s (handle (s.beginRequest p kind tag))

theorem inProgress_of_canTake {m : Ml} {p : Pipe} (h : m.canTake p = true) : m.inProgress p = none := by
  simp only [Ml.canTake, Bool.and_eq_true, Option.isNone_iff_eq_none] at h
  exact h.1.1.2

theorem OnlySlotWork.canTake {s t : State} (h : OnlySlotWork s t) (p : Pipe) : t.ml.canTake p = s.ml.canTake p := by
  have keeps := h.keeps
  cases p <;> simp only [Ml.canTake, Ml.inProgress, keeps]

theorem OnlyInputs.canTake {s t : State} (h : OnlyInputs s t) (p : Pipe) : t.ml.canTake p = s.ml.canTake p :=
  (OnlySlotWork.onlyInputs h).canTake p

section Answers

variable {R : Prop} {s t : State} {kind : Byte} {tag : Half}

/-- Changes, and then the reply to the request that was taken. -/
theorem Moves.answered (m : Moves R s t) (can : t.ml.canTake .command = true) (status : Status) (payload : List Byte) :
    Moves R s ((t.beginRequest .command kind tag).replyCommand status payload) := by
  rw [replyCommand_begin (inProgress_of_canTake can)]
  exact m.tail (.reply .command _ can)

theorem Moves.answeredStream (m : Moves R s t) (can : t.ml.canTake .stream = true) (status : Status)
    (payload : List Byte) : Moves R s ((t.beginRequest .stream kind tag).replyStream status payload) := by
  rw [replyStream_begin (inProgress_of_canTake can)]
  exact m.tail (.reply .stream _ can)

end Answers

/-- While no command is in progress AE is IDLE and does not hold the bus. -/
theorem State.RepliesSound.off {s : State} (h : s.RepliesSound) (none : s.ml.command = none) :
    s.sbc.holder ≠ some .ae := by
  intro holds
  exact (h.progress .access (by simp [State.owes, h.running holds])).1 none

theorem rearmMark_keeps (c : Channel) : c.rearmMark.state = c.state ∧ c.rearmMark.slot = c.slot := by
  unfold Channel.rearmMark
  split <;> split <;> exact ⟨rfl, rfl⟩

namespace Works

variable {R : Prop}

/-! ### The slot bus (chapter 2) -/

theorem setTiming (cls ioWs memWs : Byte) : Works R .command (setTimingTaken cls ioWs memWs) := by
  intro s kind tag can _
  unfold setTimingTaken
  split
  · exact Moves.answered .refl can _ _
  · split
    · exact Moves.answered .refl can _ _
    case isFalse inRange =>
      dsimp only
      rw [beginRequest_updSbc]
      refine Moves.answered (.quiet (.updSbc rfl rfl rfl fun b => ⟨b.debt, b.readyLimit, b.interval, b.countdown, ?_⟩)) can _ _
      intro k
      simp only [Fin.getElem_fin, Vector.getElem_set]
      split
      · dsimp only; omega
      · exact b.timing k

theorem setReadyLimit (limit : Byte) : Works R .command (setReadyLimitTaken limit) := by
  intro s kind tag can _
  unfold setReadyLimitTaken
  dsimp only
  rw [beginRequest_updSbc]
  refine Moves.answered (.quiet (.updSbc rfl rfl rfl fun b => ⟨b.debt, ?_, b.interval, b.countdown, b.timing⟩)) can _ _
  dsimp only
  omega

theorem setRefresh (interval : Byte) : Works R .command (setRefreshTaken interval) := by
  intro s kind tag can _
  unfold setRefreshTaken
  dsimp only
  rw [beginRequest_updSbc]
  refine Moves.answered (.quiet (.updSbc rfl rfl rfl fun b => ⟨b.debt, b.readyLimit, ?_, ?_, b.timing⟩)) can _ _
  · dsimp only; omega
  · have countdown := b.countdown
    dsimp only
    split <;> omega

theorem busStatus : Works R .command busStatusTaken := fun _ _ _ can _ => Moves.answered .refl can _ _

/-! ### Slot power (chapter 3) -/

/-- A request that names a slot is refused, or handled for its slot. -/
theorem withSlot {slot : Byte} {n : Nat} {f : State → SlotId → State} (h : ∀ i, Works R .command fun s => f s i) :
    Works R .command fun s => s.withSlot slot n (f s) := by
  intro s kind tag can sound
  unfold State.withSlot
  dsimp only
  split
  · exact h _ s kind tag can sound
  · exact Moves.answered .refl can _ _

theorem powerOn (slot : Byte) : Works R .command (powerOnTaken slot) :=
  withSlot fun i s kind tag can _ => by
    dsimp only
    split
    case h_6 off =>
      split
      · exact Moves.answered .refl can _ _
      · split
        · exact Moves.answered .refl can _ _
        · have off : (s.slot i).state = .off := off
          have others : (s.slot i).state ≠ .enabled ∧ (s.slot i).state ≠ .isolated := by simp [off]
          rw [enterState_beginRequest _ _ _ _ _ _ others.1, beginRequest_modSlot]
          have can' := (OnlySlotWork.enterState s i .powering).canTake .command ▸ can
          exact (Moves.of (.enter i .powering (.inr (.inr others)))).tail (.deferSlot kind tag i _ can' rfl)
    all_goals exact Moves.answered .refl can _ _

theorem powerOff (slot : Byte) : Works R .command (powerOffTaken slot) :=
  withSlot fun i s kind tag can _ => by
    have stops : (s.slot i).state ≠ .enabled → (s.slot i).state ≠ .isolated → Moves R s
        (((((s.beginRequest .command kind tag).enterState i .off).modSlot i fun t => { t with sequence := none }).replyCommand
          .ok ((((s.beginRequest .command kind tag).enterState i .off).modSlot i fun t =>
            { t with sequence := none }).slotReply i))) := fun h k => by
      rw [enterState_beginRequest _ _ _ _ _ _ h, beginRequest_modSlot]
      have can' := (OnlySlotWork.enterState s i .off).canTake .command ▸ can
      exact Moves.answered ((Moves.of (.enter i .off (.inr (.inr ⟨h, k⟩)))).trans (Moves.quiet (.modSlot rfl rfl))) can' _ _
    have waits : Moves R s ((s.beginRequest .command kind tag).modSlot i fun t =>
        { t with waiting := some .powerOff, deferred := some .powerOff }).settle := by
      rw [beginRequest_modSlot]
      exact (Moves.of (.deferSlot kind tag i _ can rfl)).trans (Moves.settle _)
    dsimp only
    split
    · exact Moves.answered .refl can _ _
    · split
      · exact waits
      · exact waits
      case h_3 h | h_4 h | h_5 h =>
        have h : (s.slot i).state = _ := h
        exact stops (by simp [h]) (by simp [h])
      · exact Moves.answered .refl can _ _

theorem isolate (slot : Byte) : Works R .command (isolateTaken slot) :=
  withSlot fun i s kind tag can _ => by
    dsimp only
    split
    · exact Moves.answered .refl can _ _
    · split
      · rw [beginRequest_modSlot]
        exact (Moves.of (.deferSlot kind tag i _ can rfl)).trans (Moves.settle _)
      all_goals exact Moves.answered .refl can _ _

theorem connect (slot : Byte) : Works R .command (connectTaken slot) :=
  withSlot fun i s kind tag can _ => by
    dsimp only
    split
    case h_1 isolated =>
      have isolated : (s.slot i).state = .isolated := isolated
      rw [enterState_beginRequest _ _ _ _ _ _ (by simp [isolated])]
      have can' := (OnlySlotWork.enterState s i .enabled).canTake .command ▸ can
      exact (Moves.answered (.of (.enter i .enabled (.inr (.inl rfl)))) can' _ _).trans (Moves.quiet (.admitOffers _))
    all_goals exact Moves.answered .refl can _ _

theorem slotReset (slot width : Byte) : Works R .command (slotResetTaken slot width) := by
  intro s kind tag can _
  unfold slotResetTaken State.refuseReset
  split
  · exact Moves.answered .refl can _ _
  case h_2 i _ =>
    dsimp only
    split
    · exact Moves.answered .refl can _ _
    · split
      · exact Moves.answered .refl can _ _
      · split
        case h_1 | h_2 =>
          rw [beginRequest_modSlot]
          exact (Moves.of (.deferSlot kind tag i _ can rfl)).trans (Moves.settle _)
        all_goals exact Moves.answered .refl can _ _

theorem setLimit (slot : Byte) (limit : Half) : Works R .command (setLimitTaken slot limit) :=
  withSlot fun i s kind tag can _ => by
    dsimp only
    rw [beginRequest_modSlot]
    exact Moves.answered (.quiet (.modSlot rfl rfl)) can _ _

theorem slotStatus (slot : Byte) : Works R .command (slotStatusTaken slot) :=
  withSlot fun _ _ _ _ can _ => Moves.answered .refl can _ _

/-! ### The resource map (chapter 4) -/

theorem mapAdd (f : WindowFields) : Works R .command (mapAddTaken f) := by
  intro s kind tag can _
  unfold mapAddTaken
  split
  · exact Moves.answered .refl can _ _
  · split
    · exact Moves.answered .refl can _ _
    · split
      · exact Moves.answered .refl can _ _
      · split
        · exact Moves.answered .refl can _ _
        · rw [beginRequest_updRmap]
          exact Moves.answered (.quiet (.updRmap s _)) can _ _

theorem mapRemove (id : Byte) : Works R .command (mapRemoveTaken id) := by
  intro s kind tag can _
  unfold mapRemoveTaken
  split
  · exact Moves.answered .refl can _ _
  · split
    · exact Moves.answered .refl can _ _
    · rw [beginRequest_updRmap]
      exact Moves.answered (.quiet (.updRmap s _)) can _ _

theorem mapList : Works R .command mapListTaken := fun _ _ _ can _ => Moves.answered .refl can _ _

theorem shadowRead (port : Half) (present index : Byte) : Works R .command (shadowReadTaken port present index) := by
  intro s kind tag can _
  unfold shadowReadTaken
  dsimp only
  split
  · exact Moves.answered .refl can _ _
  · split <;> exact Moves.answered .refl can _ _

theorem shadowClear (present id : Byte) : Works R .command (shadowClearTaken present id) := by
  intro s kind tag can _
  unfold shadowClearTaken State.refuseShadowClear State.answerShadowClear
  split
  · exact Moves.answered .refl can _ _
  · rw [beginRequest_updRmap]
    exact Moves.answered (.quiet (.updRmap s _)) can _ _
  · split
    · exact Moves.answered .refl can _ _
    · split
      · exact Moves.answered .refl can _ _
      · rw [beginRequest_updRmap]
        exact Moves.answered (.quiet (.updRmap s _)) can _ _

/-! ### Accesses (chapter 5) -/

theorem startAccess (a : Access) : Works R .command fun s => s.startAccess a := by
  intro s kind tag can sound
  dsimp only
  unfold State.startAccess State.refuseAccess
  split
  · exact Moves.answered .refl can _ _
  · exact (Moves.accessBegun kind tag a can fun r => (sound r).off (inProgress_of_canTake can)).trans (Moves.settle _)

theorem string (write : Bool) (space : Space) (f : AccessFields) (data : List Byte) :
    Works R .command (stringTaken write space f data) := by
  intro s kind tag can sound
  unfold stringTaken State.refuseAccess
  split
  · exact Moves.answered .refl can _ _
  · split
    · exact startAccess _ s kind tag can sound
    · exact Moves.answered .refl can _ _

theorem pair (write : Bool) (f : PairFields) (data : List Byte) : Works R .command (pairTaken write f data) := by
  intro s kind tag can sound
  unfold pairTaken State.refuseAccess
  split
  · exact Moves.answered .refl can _ _
  · split
    · exact startAccess _ s kind tag can sound
    · exact Moves.answered .refl can _ _

theorem refusePoll (width : Byte) (status : Status) : Works R .command fun s => s.refusePoll width status := by
  intro s kind tag can _
  unfold State.refusePoll
  dsimp only
  split <;> exact (Moves.answered .refl can _ _).trans (Moves.quiet (.setFree _ _))

theorem poll (f : PollFields) : Works R .command (pollTaken f) := by
  intro s kind tag can sound
  unfold pollTaken
  split
  · exact refusePoll _ _ s kind tag can sound
  · split
    · exact refusePoll _ _ s kind tag can sound
    · exact (Moves.accessBegun kind tag _ can fun r => (sound r).off (inProgress_of_canTake can)).trans (Moves.settle _)

/-- A CANCEL is answered, or waits with the command it cancels, or ends it (R102, R103). -/
theorem cancel (target : Half) : Works R .stream (cancelTaken target) := by
  intro s kind tag can sound
  unfold cancelTaken
  dsimp only
  split
  · exact Moves.answeredStream .refl can _ _
  · split
    · split
      · exact Moves.answeredStream .refl can _ _
      case h_2 a access =>
        have access : s.ae.command = some a := access
        have begun : Moves R s ((s.updAe fun e => { e with cancelTaken := true }).beginRequest .stream kind tag) :=
          (Moves.quiet (.updAe rfl rfl rfl)).tail (.beginStream kind tag can)
        split
        · rw [beginRequest_updAe]
          split
          · exact begun
          case isFalse halted =>
            have halted : s.ae.phase ≠ .running := halted
            refine begun.trans (Moves.endAccess _ fun r => ⟨fun idle => ?_, fun holds => halted ((sound r).running holds)⟩)
            have none := (sound r).idle idle
            simp [access] at none
        · exact Moves.answeredStream .refl can _ _
    · exact Moves.answeredStream .refl can _ _

/-! ### Channels (chapter 6) -/

/-- A request that names a channel is refused, or handled for its channel. -/
theorem withChan {channel : Byte} {n : Nat} {f : State → ChanId → State} (h : ∀ c, Works R .command fun s => f s c) :
    Works R .command fun s => s.withChan channel n (f s) := by
  intro s kind tag can sound
  unfold State.withChan
  dsimp only
  split
  · exact h _ s kind tag can sound
  · exact Moves.answered .refl can _ _

theorem readConfigureFields_state {n : ChanId} {f : ConfigureFields} {c : Channel} {code : Nat}
    (h : readConfigureFields n f = some (c, code)) : c.state = .ready := by
  unfold readConfigureFields at h
  simp only [Option.bind_eq_bind, Option.bind_eq_some_iff] at h
  obtain ⟨_, _, _, _, _, _, _, _, _, _, _, _, _, _, _, _, h⟩ := h
  split at h
  · cases h; rfl
  · cases h

theorem chConfigure (channel : Byte) (f : ConfigureFields) : Works R .command (chConfigureTaken channel f) :=
  withChan fun n s kind tag can _ => by
    dsimp only
    split
    · exact Moves.answered .refl can _ _
    · split
      · exact Moves.answered .refl can _ _
      case h_2 new code read =>
        split
        · exact Moves.answered .refl can _ _
        · rw [beginRequest_updStm, beginRequest_modChan]
          refine Moves.answered ((Moves.quiet (.updStm ?_)).tail (.channel n _ fun active => ?_)) can _ _
          · simp only [Stm.place, imp_self]
          · dsimp only at active
            rw [readConfigureFields_state read] at active
            rcases active with h | h <;> cases h

theorem enabled_of_armRefusal {s : State} {slot : SlotId} (h : s.armRefusal slot = none) :
    (s.slot slot).state = .enabled := by
  unfold State.armRefusal at h
  split at h
  · cases h
  · split at h
    · cases h
    · split at h
      · cases h
      case isFalse enabled => simpa using enabled

theorem chArm (channel : Byte) : Works R .command (chArmTaken channel) :=
  withChan fun n s kind tag can _ => by
    have arms : (s.slot (s.chan n).slot).state = .enabled → Moves R s
        ((((s.beginRequest .command kind tag).modChan n fun c => { c with
          state := .running, remaining := if c.state = .ended then c.blockLength else c.remaining }).replyCommand .ok
            (((s.beginRequest .command kind tag).modChan n fun c => { c with
              state := .running, remaining := if c.state = .ended then c.blockLength else c.remaining }).channelReport
                n))).settle := fun enabled => by
      rw [beginRequest_modChan]
      exact (Moves.answered (.of (.channel n _ fun _ => .inl enabled)) can _ _).trans (Moves.settle _)
    dsimp only
    split
    case h_5 | h_6 =>
      split
      · exact Moves.answered .refl can _ _
      case h_2 allowed => exact arms (enabled_of_armRefusal allowed)
    all_goals exact Moves.answered .refl can _ _

theorem chPause (channel : Byte) : Works R .command (chPauseTaken channel) :=
  withChan fun n s kind tag can _ => by
    dsimp only
    split
    case h_2 =>
      rw [beginRequest_modChan, beginRequest_setChanReply]
      exact ((Moves.quiet (.modChan rfl rfl)).tail (.deferChannel kind tag n can)).trans (Moves.settle _)
    all_goals exact Moves.answered .refl can _ _

theorem chResume (channel : Byte) : Works R .command (chResumeTaken channel) :=
  withChan fun n s kind tag can _ => by
    dsimp only
    split
    case h_2 paused =>
      have paused : (s.chan n).state = .paused := paused
      split
      · exact Moves.answered .refl can _ _
      · split
        · exact Moves.answered .refl can _ _
        · rw [beginRequest_modChan]
          exact (Moves.answered (.of (.channel n _ fun _ => .inr ⟨.inr paused, rfl⟩)) can _ _).trans (Moves.settle _)
    all_goals exact Moves.answered .refl can _ _

theorem chClear (channel : Byte) : Works R .command (chClearTaken channel) :=
  withChan fun n s kind tag can _ => by
    dsimp only
    split
    · rw [beginRequest_modChan]
      exact Moves.answered (.of (.channel n _ (by rintro (h | h) <;> cases h))) can _ _
    · exact Moves.answered .refl can _ _

theorem chRelease (channel : Byte) : Works R .command (chReleaseTaken channel) :=
  withChan fun n s kind tag can _ => by
    dsimp only
    split
    · exact Moves.answered .refl can _ _
    · rw [beginRequest_modChan, beginRequest_setChanReply]
      exact ((Moves.quiet (.modChan rfl rfl)).tail (.deferChannel kind tag n can)).trans (Moves.settle _)

theorem chStatus (channel : Byte) : Works R .command (chStatusTaken channel) :=
  withChan fun _ _ _ _ can _ => (Moves.answered .refl can _ _).trans (Moves.quiet (.setFree _ _))

/-! ### Rings (chapter 7) -/

theorem ringWrite (channel : Byte) (data : List Byte) : Works R .stream (ringWriteTaken channel data) := by
  intro s kind tag can _
  unfold ringWriteTaken
  split
  · exact Moves.answeredStream .refl can _ _
  · dsimp only
    rw [beginRequest_updStm, beginRequest_modChan]
    refine (Moves.answeredStream ((Moves.quiet (.updStm ?stored)).trans
      (Moves.quiet (.modChan ?state ?slot))) can _ _).trans (Moves.settle _)
    case stored => exact fun wf => storeRing_wf _ _ _ wf
    case state => exact (rearmMark_keeps _).1
    case slot => exact (rearmMark_keeps _).2

theorem ringRead (channel : Byte) (largest : Half) : Works R .stream (ringReadTaken channel largest) := by
  intro s kind tag can _
  unfold ringReadTaken
  split
  · exact Moves.answeredStream .refl can _ _
  · dsimp only
    rw [beginRequest_modChan]
    refine (Moves.answeredStream (.quiet (.modChan ?state ?slot)) can _ _).trans (Moves.settle _)
    case state => exact (rearmMark_keeps _).1
    case slot => exact (rearmMark_keeps _).2

/-! ### Interrupts (chapter 8) -/

theorem intConfigure (slot line : Byte) (f : InputFields) : Works R .command (intConfigureTaken slot line f) := by
  intro s kind tag can _
  unfold intConfigureTaken
  split
  · exact Moves.answered .refl can _ _
  case h_2 i l _ =>
    split
    · exact Moves.answered .refl can _ _
    case h_2 new _ =>
      dsimp only
      rw [withdraw_beginRequest, beginRequest_modInput, beginWatch_beginRequest]
      have inputs := ((OnlyInputs.withdraw s (inputId i l)).trans (.modInput _ (inputId i l) fun _ => new)).trans
        (.beginWatch _ (inputId i l))
      exact (Moves.answered (.quiet (.onlyInputs inputs)) (inputs.canTake .command ▸ can) _ _).trans
        (Moves.quiet (.admitOffers _))

theorem intMask (slot line mask : Byte) : Works R .command (intMaskTaken slot line mask) := by
  intro s kind tag can _
  unfold intMaskTaken
  split
  · exact Moves.answered .refl can _ _
  · split
    · exact Moves.answered .refl can _ _
    · dsimp only
      rw [beginRequest_modInput]
      exact (Moves.answered (.quiet (.modInput s _ _)) can _ _).trans (Moves.quiet (.admitOffers _))

theorem intStatus (slot : Byte) : Works R .command (intStatusTaken slot) := by
  intro s kind tag can _
  unfold intStatusTaken
  split <;> exact Moves.answered .refl can _ _

theorem intAck (slot line : Byte) : Works R .stream (intAckTaken slot line) := by
  intro s kind tag can _
  unfold intAckTaken
  split
  · exact Moves.answeredStream .refl can _ _
  case h_2 i l _ =>
    dsimp only
    split
    · rw [acknowledge_beginRequest]
      have inputs := OnlyInputs.acknowledge s (inputId i l)
      exact (Moves.answeredStream (.quiet (.onlyInputs inputs)) (inputs.canTake .stream ▸ can) _ _).trans
        (Moves.quiet (.admitOffers _))
    · exact Moves.answeredStream .refl can _ _

/-! ### The link and the clock (chapters 9 and 1) -/

theorem info : Works R .command infoTaken := fun _ _ _ can _ => Moves.answered .refl can _ _

theorem resetPart : Works R .command resetPartTaken := fun _ kind tag can _ => .of (.resetPart kind tag can)

theorem park : Works R .command parkTaken := by
  intro s kind tag can _
  unfold parkTaken
  split
  · split
    · exact Moves.answered .refl can _ _
    · rw [beginRequest_updBcu]
      exact (Moves.of (.deferClock kind tag _ can rfl rfl rfl)).trans (Moves.settle _)
  all_goals exact Moves.answered .refl can _ _

theorem clockStop : Works R .command clockStopTaken := by
  intro s kind tag can _
  unfold clockStopTaken
  split
  · split
    · exact Moves.answered .refl can _ _
    · rw [beginRequest_updBcu]
      exact (Moves.of (.deferClock kind tag _ can rfl rfl rfl)).trans (Moves.settle _)
  case h_2 parked =>
    split
    · dsimp only
      rw [beginRequest_updBcu]
      have parked : s.bcu.clock = .parked := parked
      exact Moves.answered (.of (.clock _ rfl rfl rfl fun _ runs => by simp [Bcu.bclk, parked] at runs)) can _ _
    · exact Moves.answered .refl can _ _
  all_goals exact Moves.answered .refl can _ _

end Works

end Sys2Proof.Machine
end

