-- ==== Sys2Proof/Proofs/Effects.lean ====
section
/-! SUPPORT. What a command can do, said once for all commands: its work is a chain of moves, but for the events that
change D, the end of a cycle, and the resets. -/

namespace Sys2Proof.Machine

open Sys2Proof

/-! ## D along the moves -/

theorem resetPartTaken_bcu (s : State) : (resetPartTaken s).bcu = s.bcu := by
  unfold resetPartTaken
  split <;> rfl

/-- No move changes D. -/
theorem Move.divider {R : Prop} {s t : State} (m : Move R s t) : t.bcu.divider = s.bcu.divider := by
  cases m with
  | quiet q => exact congrArg Essentials.divider q.same
  | resetPart => rw [resetPartTaken_bcu]; rfl
  | deferClock _ _ f _ divider => exact divider
  | clock f divider => exact divider
  | answerClock => simp
  | answerSlot i status => rw [(answerSlot_keeps s i status).1]
  | answerChannel n => rw [(answerChannel_keeps s n).1]
  | endAccess status => rw [(endAccess_keeps s status).1]
  | enter i new => rw [(OnlySlotWork.enterState s i new).keeps.1]
  | _ => rfl

theorem Moves.divider {R : Prop} {s t : State} (m : Moves R s t) : t.bcu.divider = s.bcu.divider :=
  m.keeps (P := fun t => t.bcu.divider = s.bcu.divider) (fun _ _ m h => m.divider.trans h) rfl

/-! ## Effects -/

/-- A change of the clock that can put another D in force: the replies stay, D stays in its range, and BCLK runs on
under a grant. -/
structure ClockChange (s t : State) : Prop where
  others   : ∃ f, t = s.updBcu f
  deferred : t.bcu.deferred = s.bcu.deferred
  range    : s.ClockInRange → t.ClockInRange
  bclk     : s.sbc.holder ≠ none → s.bcu.bclk = some s.bcu.divider → t.bcu.bclk = some t.bcu.divider

/-- The occasions on which D changes, but for the resets (R1). -/
def DividerCause (c : Instr) (s t : State) : Prop :=
  (s.bcu.clock = .stopped ∧ t.bcu.clock = .starting ∧
    (∃ target : Nat, 1 ≤ target ∧ t.bcu.divider = max 5 (min 12 ((96000 + target) / (2 * target)))) ∧
    ((∃ tag target, c = .setClock tag target) ∨ c = .frameTake .command) ∧ t.sbc = s.sbc) ∨
  (c = .retuneEnd ∧ s.bcu.clock = .retuning ∧ s.bcu.settling = some 0 ∧
    s.bcu.pendingDivider = some t.bcu.divider ∧ (s.sbc.holder ≠ none → t.sbc.cycle = s.sbc.cycle)) ∨
  (s.bcu.clock = .parked ∧ t.bcu.clock = .starting ∧ t.bcu.divider = 12 ∧ t.sbc.cycle = s.sbc.cycle)

/-- What a command makes of a state. -/
inductive Effect (R : Prop) (c : Instr) (s : State) : State → Prop
  | work {t : State} (m : Moves R s t) : Effect R c s t
  | clock {a b t : State} (before : Moves R s a) (change : ClockChange a b) (after : Moves R b t)
      (cause : t.bcu.divider ≠ s.bcu.divider → DividerCause c s t) : Effect R c s t
  /-- A cycle ends: it is off the bus, its result is taken, and the grant goes on or ends. -/
  | cycleEnd {a m t : State} (before : Moves R s a) (burst : Nat) (less : burst ≤ a.sbc.burst + 1)
      (same : (∀ n, a.sbc.holder ≠ some (.channel n)) → burst = a.sbc.burst)
      (ends : Moves R (a.updSbc fun b => { b with cycle := none, burst := burst }) m)
      (goesOn : Moves R m.continueGrant t) : Effect R c s t
  | linkReset (up : s.ml.up = true) : Effect R c s (linkResets s)
  | powerOn (hc : c = .partPowerOn) : Effect R c s s.powerOnValues
  | resetEvent (hc : c = .frameSent) (pending : s.ml.resetPending = true) : Effect R c s s.resetEvent

/-- A change of the clock that leaves D in force. -/
theorem Effect.clockKeepingD {R : Prop} {c : Instr} {s a b t : State} (before : Moves R s a) (change : ClockChange a b)
    (divider : b.bcu.divider = a.bcu.divider) (after : Moves R b t) : Effect R c s t :=
  .clock before change after fun changes =>
    absurd ((Moves.divider after).trans (divider.trans (Moves.divider before))) changes

/-! ## The clock's requests -/

theorem clampDivider_range (d : Nat) : 5 ≤ clampDivider d ∧ clampDivider d ≤ 12 := by
  unfold clampDivider
  omega

/-- The clock and the bus stand as in the first state. -/
structure SameBlocks (s t : State) : Prop where
  bcu : t.bcu = s.bcu
  sbc : t.sbc = s.sbc

section ClockRequests

variable {R : Prop} {c : Instr} {s s' : State} {kind : Byte} {tag : Half}

theorem setClock_effect (hc : (∃ tag target, c = .setClock tag target) ∨ c = .frameTake .command) (m : Moves R s s')
    (same : SameBlocks s s') (can : s'.ml.canTake .command = true) (target : Half) :
    Effect R c s (setClockTaken target (s'.beginRequest .command kind tag)) := by
  unfold setClockTaken State.refuseSetClock
  dsimp only
  split
  · exact .work (m.trans (Moves.answered .refl can _ _))
  case isFalse positive =>
    generalize clockError target.toNat (clampDivider (nearestDivider target.toNat)) = error
    generalize decide (clampDivider (nearestDivider target.toNat) ≠ nearestDivider target.toNat) = clamped
    have range := clampDivider_range (nearestDivider target.toNat)
    generalize nearest : clampDivider (nearestDivider target.toNat) = d at range
    split
    case h_1 stopped =>
      have stopped : s'.bcu.clock = .stopped := stopped
      have started : ClockChange s' (s'.updBcu fun b => { b with
          divider := d, clock := .starting
          settling := some Config.startingPeriods }) :=
        ⟨⟨_, rfl⟩, rfl, fun h => ⟨range, h.pending⟩, fun _ runs => by simp [Bcu.bclk, stopped] at runs⟩
      refine .clock m started (.of (.deferClock kind tag (fun b => { b with deferred := _ }) can rfl rfl rfl)) fun _ => ?_
      exact .inl ⟨same.bcu ▸ stopped, rfl, ⟨target.toNat, by omega, nearest.symm⟩, hc, same.sbc⟩
    case h_2 run =>
      have run : s'.bcu.clock = .run := run
      split
      · exact .work (m.trans (Moves.answered .refl can _ _))
      · split
        · exact .work (m.trans (Moves.answered .refl can _ _))
        · change Effect R c s (State.settle (((s'.updBcu fun b => { b with
            pendingDivider := some d, clock := .retuning, settling := none }).updBcu fun b => { b with
              deferred := some (.setClock target error clamped) }).beginRequest .command kind tag))
          have retunes : ClockChange s' (s'.updBcu fun b => { b with
              pendingDivider := some d, clock := .retuning, settling := none }) :=
            ⟨⟨_, rfl⟩, rfl, fun h => ⟨h.divider, fun d hd => by cases hd; exact range⟩, fun _ _ => rfl⟩
          refine .clockKeepingD m retunes rfl (.trans ?_ (Moves.settle _))
          exact Moves.of (.deferClock kind tag (fun b => { b with deferred := _ }) can rfl rfl rfl)
    all_goals exact .work (m.trans (Moves.answered .refl can _ _))

theorem wake_effect (m : Moves R s s') (same : SameBlocks s s') (can : s'.ml.canTake .command = true) :
    Effect R c s (wakeTaken (s'.beginRequest .command kind tag)) := by
  unfold wakeTaken
  split
  case h_1 parked =>
    have parked : s'.bcu.clock = .parked := parked
    have started : ClockChange s' (s'.updBcu fun b => { b with
        divider := 12, clock := .starting, settling := some Config.startingPeriods }) :=
      ⟨⟨_, rfl⟩, rfl, fun h => ⟨⟨by simp, by simp⟩, h.pending⟩, fun _ runs => by simp [Bcu.bclk, parked] at runs⟩
    refine .clock m started (.of (.deferClock kind tag (fun b => { b with deferred := some .wake }) can rfl rfl rfl)) fun _ => ?_
    exact .inr (.inr ⟨same.bcu ▸ parked, rfl, rfl, by rw [← same.sbc]; rfl⟩)
  case h_2 =>
    exact .work (m.tail (.deferClock kind tag (fun b => { b with deferred := some .wake }) can rfl rfl rfl))
  all_goals exact .work (m.trans (Moves.answered .refl can _ _))

end ClockRequests

/-! ## Frames taken -/

theorem Ml.receive_cases (m : Ml) (p : Pipe) (bytes : List Byte) :
    m.receive p bytes = m ∨
    (m.intake p ++ [bytes]).length ≤ 16 ∧ m.receive p bytes = m.setIntake p (m.intake p ++ [bytes]) := by
  unfold Ml.receive
  split
  case isTrue h =>
    have room : (m.intake p).length < 16 := of_decide_eq_true (Bool.and_eq_true _ _ ▸ h).2
    exact .inr ⟨by simpa using room, rfl⟩
  case isFalse => exact .inl rfl

theorem Quiet.receive (s : State) (p : Pipe) (bytes : List Byte) : Quiet s (s.updMl fun m => m.receive p bytes) := by
  obtain h | ⟨room, h⟩ := s.ml.receive_cases p bytes
  · apply updMl <;> rw [h]
    exact id
  · cases p with
    | command => apply updMl <;> rw [h]; exacts [rfl, rfl, rfl, rfl, le_rfl, fun b => ⟨room, b.streamIn, b.notices⟩]
    | stream => apply updMl <;> rw [h]; exacts [rfl, rfl, rfl, rfl, le_rfl, fun b => ⟨b.commandIn, room, b.notices⟩]

theorem Quiet.takeHead {s : State} {p : Pipe} {bytes : List Byte} {rest : List (List Byte)}
    (h : s.ml.intake p = bytes :: rest) : Quiet s (s.updMl fun m => m.setIntake p rest) := by
  have shorter : rest.length ≤ (s.ml.intake p).length := by simp [h]
  cases p with
  | command => exact .updMl rfl rfl rfl rfl le_rfl fun b => ⟨shorter.trans b.commandIn, b.streamIn, b.notices⟩
  | stream => exact .updMl rfl rfl rfl rfl le_rfl fun b => ⟨b.commandIn, shorter.trans b.streamIn, b.notices⟩

theorem canTake_setIntake (m : Ml) (p : Pipe) (rest : List (List Byte)) : (m.setIntake p rest).canTake p = m.canTake p := by
  cases p <;> rfl

section Taking

variable {R : Prop} {c : Instr} {s s' : State} {p : Pipe} {kind : Byte} {tag : Half}

/-- A frame that is taken is answered at once, or handed to its owner (R174, R175). -/
theorem takeRequest_effect {handle : State → State} (m : Moves R s s') (can : s'.ml.canTake p = true)
    (handled : ∀ least most, requestKind kind = some (p, least, most) →
      Effect R c s (handle (s'.beginRequest p kind tag))) (declared : Nat) (payload : List Byte) :
    Effect R c s (s'.takeRequest p kind tag declared payload handle) := by
  unfold State.takeRequest
  split
  · exact .work (m.tail (.reply p _ can))
  case h_2 pipe least most known =>
    split
    · exact .work (m.tail (.reply p _ can))
    case isFalse right =>
      split
      · exact .work (m.tail (.reply p _ can))
      · exact handled least most (by rw [known, not_not.mp right])

/-- A request command is taken in its step, or joins its intake queue (log 1). -/
theorem offer_effect {handle : State → State} {payload : List Byte}
    (handled : s.ml.canTake p = true → Effect R c s (handle (s.beginRequest p kind tag))) :
    Effect R c s (s.offer p kind tag payload handle) := by
  unfold State.offer
  split
  case isTrue taken =>
    have can := (Bool.and_eq_true _ _ ▸ taken).1
    exact takeRequest_effect .refl can (fun _ _ _ => handled can) _ _
  case isFalse => exact .work (.quiet (.receive s p _))

theorem Works.offer {handle : State → State} (works : Works R p handle) (sound : R → s.RepliesSound)
    (payload : List Byte) : Effect R c s (s.offer p kind tag payload handle) :=
  offer_effect fun can => .work (works s kind tag can sound)

end Taking

/-- What the owner of a request kind does with a frame (R175): work, or one of the clock's two requests that can put
another D in force. -/
theorem handOver_cases (R : Prop) {kind : Byte} {p : Pipe} {least most : Nat}
    (h : requestKind kind = some (p, least, most)) (payload : List Byte) :
    Works R p (handOver kind payload) ∨
    p = .command ∧ ((∃ target, handOver kind payload = setClockTaken target) ∨ handOver kind payload = wakeTaken) := by
  unfold requestKind at h
  split at h
  case h_44 => cases h
  all_goals
    rename_i code
    obtain ⟨rfl, -, -⟩ : _ = p ∧ _ = least ∧ _ = most := by simpa using h
    unfold handOver
    simp only [code, true_and]
  · exact .inr (.inl ⟨_, rfl⟩)
  · exact .inl .park
  · exact .inr (.inr trivial)
  · exact .inl .clockStop
  · exact .inl (.setTiming _ _ _)
  · exact .inl (.setReadyLimit _)
  · exact .inl (.setRefresh _)
  · exact .inl .busStatus
  · exact .inl (.powerOn _)
  · exact .inl (.powerOff _)
  · exact .inl (.isolate _)
  · exact .inl (.connect _)
  · exact .inl (.slotReset _ _)
  · exact .inl (.setLimit _ _)
  · exact .inl (.slotStatus _)
  · exact .inl (.mapAdd _)
  · exact .inl (.mapRemove _)
  · exact .inl .mapList
  · exact .inl (.shadowRead _ _ _)
  · exact .inl (.shadowClear _ _)
  · exact .inl (.string _ _ _ _)
  · exact .inl (.string _ _ _ _)
  · exact .inl (.string _ _ _ _)
  · exact .inl (.string _ _ _ _)
  · exact .inl (.pair _ _ _)
  · exact .inl (.pair _ _ _)
  · exact .inl (.poll _)
  · exact .inl (.chConfigure _ _)
  · exact .inl (.chArm _)
  · exact .inl (.chPause _)
  · exact .inl (.chResume _)
  · exact .inl (.chClear _)
  · exact .inl (.chRelease _)
  · exact .inl (.chStatus _)
  · exact .inl (.intConfigure _ _ _)
  · exact .inl (.intMask _ _ _)
  · exact .inl (.intStatus _)
  · exact .inl .info
  · exact .inl .resetPart
  · exact .inl (.ringWrite _ _)
  · exact .inl (.ringRead _ _)
  · exact .inl (.intAck _ _)
  · exact .inl (.cancel _)

/-- The rules on replies are about the essential figures. -/
theorem repliesSound_of_essentials {s t : State} (same : t.essentials = s.essentials) (h : s.RepliesSound) :
    t.RepliesSound := by
  simp only [State.essentials, Essentials.mk.injEq, funext_iff] at same
  obtain ⟨-, -, -, clockReply, holder, -, -, -, slotReply, phase, access, -, -, -, chanReply, command, stream, reserved,
    pending⟩ := same
  have owes : ∀ d, t.owes d → s.owes d := fun d => by
    cases d <;> simp only [State.owes, clockReply, slotReply, chanReply, phase, imp_self]
  exact ⟨fun d e hd he => h.one d e (owes d hd) (owes e he),
    fun d hd => by rw [command, pending]; exact h.progress d (owes d hd),
    by rw [command, stream, reserved, pending]; exact h.places,
    by rw [holder, phase]; exact h.running, by rw [phase, access]; exact h.idle⟩

theorem Quiet.repliesSound {s t : State} (q : Quiet s t) : s.RepliesSound → t.RepliesSound :=
  repliesSound_of_essentials q.same

/-- FRAME_TAKE takes the head of an intake queue (R173). -/
theorem frameTakes_effect {R : Prop} {s : State} (p : Pipe) (sound : R → s.RepliesSound) :
    Effect R (.frameTake p) s (frameTakes p s) := by
  unfold frameTakes
  split
  case h_2 => exact .work .refl
  case h_1 bytes rest head =>
    split
    case isFalse => exact .work .refl
    case isTrue can =>
      have q : Quiet s (s.updMl fun m => m.setIntake p rest) := .takeHead head
      have can' : (s.updMl fun m => m.setIntake p rest).ml.canTake p = true := (canTake_setIntake ..).trans can
      unfold State.takeBytes
      split
      · exact .work ((Moves.quiet q).tail (.reply p _ can'))
      · refine takeRequest_effect (.quiet q) can' (fun least most known => ?_) _ _
        obtain works | ⟨rfl, ⟨target, clock⟩ | clock⟩ := handOver_cases R known (bytes.drop 6)
        · exact .work ((Moves.quiet q).trans (works _ _ _ can' fun r => q.repliesSound (sound r)))
        · rw [clock]; exact setClock_effect (.inr rfl) (.quiet q) ⟨rfl, rfl⟩ can' target
        · rw [clock]; exact wake_effect (.quiet q) ⟨rfl, rfl⟩ can'

theorem State.RepliesSound.aeSound {s : State} (h : s.RepliesSound) : s.AeSound := ⟨h.running, h.idle⟩

/-! ## The end of a cycle -/

/-- The requester takes the result: a transfer counts in the burst, and the rest is work (R27, R34). -/
theorem takeResult_moves {R : Prop} {a : State} (c : Cycle) (timedOut : Bool) (data : Half) (r : CycleResult)
    (sound : R → a.AeSound) : ∃ burst ≤ a.sbc.burst + 1,
      ((∀ n, a.sbc.holder ≠ some (.channel n)) → burst = a.sbc.burst) ∧
      Moves R (a.updSbc fun b => { b with cycle := none, burst := burst })
        (((a.updSbc fun b => { b with cycle := none }).handResult r).takeResult c timedOut data) := by
  have plain : ∀ {t}, Moves R ((a.updSbc fun b => { b with cycle := none }).handResult r) t →
      Moves R (a.updSbc fun b => { b with cycle := none, burst := a.sbc.burst }) t := fun m =>
    (Moves.quiet (.handResult _ r)).trans m
  unfold State.takeResult
  split
  case h_1 =>
    refine ⟨a.sbc.burst, by omega, fun _ => rfl, plain (.quiet (.updSbc rfl rfl rfl fun b => ?_))⟩
    exact ⟨(Nat.sub_le _ _).trans b.debt, b.readyLimit, b.interval, b.countdown, b.timing⟩
  case h_2 n holder =>
    have holder : a.sbc.holder = some (.channel n) := holder
    refine ⟨a.sbc.burst + 1, le_rfl, fun others => absurd holder (others n), ?_⟩
    have handed := Moves.quiet (R := R)
      (.handResult (a.updSbc fun b => { b with cycle := none, burst := a.sbc.burst + 1 }) r)
    split
    · exact handed.tail (.channel n _ (by rintro (h | h) <;> cases h))
    · exact (handed.trans (Moves.applyTransfer _ n _ _ _)).trans (Moves.serveChannel _ n)
  case h_3 holder =>
    refine ⟨a.sbc.burst, by omega, fun _ => rfl, plain (.takeAccessResult timedOut data fun hr => ?_)⟩
    exact (sound hr).running holder
  case h_4 => exact ⟨a.sbc.burst, by omega, fun _ => rfl, plain .refl⟩

theorem finishCycle_effect {R : Prop} {i : Instr} {s a : State} (before : Moves R s a) (sound : R → a.AeSound)
    (c : Cycle) (timedOut : Bool) (data : Half) (length : Nat) :
    Effect R i s (a.finishCycle c timedOut data length) := by
  unfold State.finishCycle
  obtain ⟨burst, less, same, taken⟩ := takeResult_moves c timedOut data
    ⟨if timedOut then .timedOut else .done, data, c.target, length⟩ sound
  exact .cycleEnd before burst less same ((taken.trans (Moves.chanBoundaries _)).trans (Moves.slotBoundaries _))
    (Moves.settle _)

theorem cycleEnds_effect {R : Prop} {i : Instr} {s : State} (extension : Nat) (card : CardData) (sound : R → s.AeSound) :
    Effect R i s (cycleEnds extension card s) := by
  unfold cycleEnds
  cases s.sbc.cycle with
  | none => exact .work .refl
  | some c =>
    dsimp only
    generalize (if c.kind = .refresh then 0 else c.limit) = most
    split
    · exact finishCycle_effect .refl sound ..
    · exact .work .refl

theorem readyTimesOut_effect {R : Prop} {i : Instr} {s : State} (sound : R → s.AeSound) :
    Effect R i s (readyTimesOut s) := by
  unfold readyTimesOut
  split
  · exact finishCycle_effect (Moves.recordFault ..) (fun r => ⟨(sound r).running, (sound r).idle⟩) ..
  · exact .work .refl

/-! ## Events of the link -/

theorem Quiet.linkComesUp (s : State) : Quiet s (linkComesUp s) := by
  unfold Machine.linkComesUp
  split
  · exact refl s
  · exact (updMl rfl rfl rfl rfl le_rfl fun b => ⟨b.commandIn, b.streamIn, b.notices⟩).trans (admitOffers _)

theorem Ml.transmit_cases (m : Ml) (c : FrameClass) :
    m.transmit c = m ∨
    (∃ f rest, m.replies = f :: rest ∧
      m.transmit c = { m with sending := some f, replies := rest, lastClass := .reply }) ∨
    ∃ n rest, m.notices = n :: rest ∧
      m.transmit c = { m with sending := some n.frame, notices := rest, lastClass := .notice } := by
  unfold Ml.transmit
  split
  case h_1 replies => exact .inr (.inl ⟨_, _, replies, rfl⟩)
  case h_2 notices => exact .inr (.inr ⟨_, _, notices, rfl⟩)
  case h_3 => exact .inl rfl

theorem Quiet.transmit (s : State) (c : FrameClass) : Quiet s (s.updMl fun m => m.transmit c) := by
  obtain h | ⟨f, rest, replies, h⟩ | ⟨n, rest, notices, h⟩ := s.ml.transmit_cases c
  · apply updMl <;> rw [h]
    exact id
  · apply updMl <;> rw [h]
    · simp [replies]
    · exact fun b => ⟨b.commandIn, b.streamIn, b.notices⟩
  · apply updMl <;> rw [h]
    exact fun b => ⟨b.commandIn, b.streamIn, by have := b.notices; rw [notices] at this; exact Nat.le_of_succ_le this⟩

theorem Quiet.frameTransmits (s : State) : Quiet s (frameTransmits s) := by
  have unqueued : Quiet s s.unqueue := by
    unfold State.unqueue
    split
    · exact modInput s _ _
    · exact refl s
  unfold Machine.frameTransmits
  split
  · split
    · exact (transmit s .reply).trans (admitOffers _)
    · exact (unqueued.trans (transmit _ .notice)).trans (admitOffers _)
    · exact refl s
  · exact refl s

theorem framesSent_effect {R : Prop} (s : State) : Effect R .frameSent s (framesSent s) := by
  unfold framesSent
  split
  · split
    case isTrue h => exact .resetEvent rfl (Bool.and_eq_true _ _ ▸ h).1
    case isFalse =>
      exact .work (.quiet (.updMl rfl rfl rfl rfl le_rfl fun b => ⟨b.commandIn, b.streamIn, b.notices⟩))
  · exact .work .refl

theorem linkResets_effect {R : Prop} {i : Instr} (s : State) : Effect R i s (linkResets s) := by
  by_cases up : s.ml.up = true
  · exact .linkReset up
  · have same : linkResets s = s := by unfold linkResets; rw [if_neg up]
    exact same.symm ▸ .work .refl

end Sys2Proof.Machine
end

