-- ==== Sys2Proof/Proofs/Settling.lean ====
section
/-! SUPPORT. What the steps that close an event (log 14) leave as it is, and what they make of the clock. -/

namespace Sys2Proof.Machine

open Sys2Proof

/-! ## Folds that change every record alike -/

theorem modInput_same {s : State} {i : InputId} {f : Input → Input} (h : f (s.input i) = s.input i) :
    s.modInput i f = s := by
  have same : s.inputs.set i (f (s.input i)) = s.inputs := by rw [h]; exact Vector.set_getElem_self _
  exact congrArg (fun x => { s with inputs := x }) same

theorem modChan_same {s : State} {n : ChanId} {f : Channel → Channel} (h : f (s.chan n) = s.chan n) :
    s.modChan n f = s := by
  have same : s.chans.set n (f (s.chan n)) = s.chans := by rw [h]; exact Vector.set_getElem_self _
  exact congrArg (fun x => { s with chans := x }) same

/-- A fold whose updates change the inputs alone changes the inputs alone. -/
theorem forInputs_only {f : InputId → State → State} (h : ∀ i s, f i s = { s with inputs := (f i s).inputs })
    (s : State) : forInputs f s = { s with inputs := (forInputs f s).inputs } := by
  have rest : ∀ (l : List InputId) (s : State),
      l.foldl (fun s i => f i s) s = { s with inputs := (l.foldl (fun s i => f i s) s).inputs } := fun l => by
    induction l with
    | nil => exact fun s => rfl
    | cons i l ih => intro s; rw [List.foldl_cons, ih, h]
  exact rest _ s

/-- A fold that updates every record of one vector of the state alike maps the vector. -/
theorem foldl_map {n : Nat} {β : Type} {f : Fin n → State → State} {get : State → Vector β n}
    {put : State → Vector β n → State} {g : β → β} (get_put : ∀ s v, get (put s v) = v)
    (put_put : ∀ s v w, put (put s v) w = put s w) (put_get : ∀ s, put s (get s) = s)
    (h : ∀ i s, f i s = put s ((get s).set i (g (get s)[i]))) (s : State) :
    (List.finRange n).foldl (fun s i => f i s) s = put s ((get s).map g) := by
  have rest : ∀ (l : List (Fin n)) (s : State),
      l.foldl (fun s i => f i s) s = put s (get (l.foldl (fun s i => f i s) s)) := fun l => by
    induction l with
    | nil => exact fun s => (put_get s).symm
    | cons i l ih => intro s; rw [List.foldl_cons, ih, h, put_put, get_put]
  have each : ∀ i : Fin n, (get ((List.finRange n).foldl (fun s i => f i s) s))[i] = g (get s)[i] := fun i =>
    (foldl_read (read := fun s (i : Fin n) => (get s)[i]) (kept := fun _ => ()) (upd := fun _ _ x => g x) (fun _ _ => rfl)
      (fun i s j => by
        rw [h, get_put, Fin.getElem_fin, Fin.getElem_fin, Vector.getElem_set]
        by_cases same : i = j
        · subst same; rw [if_pos rfl, if_pos rfl]; rfl
        · rw [if_neg same, if_neg (Fin.val_ne_of_ne same)]; rfl)
      (List.finRange n) (List.nodup_finRange n) s i).trans (if_pos (List.mem_finRange i))
  refine (rest _ s).trans (congrArg (put s) ?_)
  ext1 i hi
  rw [Vector.getElem_map]
  exact each ⟨i, hi⟩

theorem forInputs_map {f : InputId → State → State} {g : Input → Input} (h : ∀ i s, f i s = s.modInput i g) (s : State) :
    forInputs f s = { s with inputs := s.inputs.map g } :=
  foldl_map (get := State.inputs) (put := fun s v => { s with inputs := v }) (fun _ _ => rfl) (fun _ _ _ => rfl)
    (fun _ => rfl) h s

theorem forSlots_map {f : SlotId → State → State} {g : Slot → Slot} (h : ∀ i s, f i s = s.modSlot i g) (s : State) :
    forSlots f s = { s with slots := s.slots.map g } :=
  foldl_map (get := State.slots) (put := fun s v => { s with slots := v }) (fun _ _ => rfl) (fun _ _ _ => rfl)
    (fun _ => rfl) h s

theorem forChans_map {f : ChanId → State → State} {g : Channel → Channel} (h : ∀ n s, f n s = s.modChan n g) (s : State) :
    forChans f s = { s with chans := s.chans.map g } :=
  foldl_map (get := State.chans) (put := fun s v => { s with chans := v }) (fun _ _ => rfl) (fun _ _ _ => rfl)
    (fun _ => rfl) h s

/-! ## Boundaries leave the clock and the bus -/

theorem chanBoundary_keeps (s : State) (n : ChanId) :
    (s.chanBoundary n).bcu = s.bcu ∧ (s.chanBoundary n).sbc = s.sbc ∧ (s.chanBoundary n).slots = s.slots := by
  unfold State.chanBoundary
  split
  · exact ⟨rfl, rfl, rfl⟩
  · split
    · simp [answerChannel_keeps, State.releaseChannel]
    · split
      · simp [answerChannel_keeps]
      · exact ⟨rfl, rfl, rfl⟩

theorem chanBoundaries_keeps (s : State) :
    s.chanBoundaries.bcu = s.bcu ∧ s.chanBoundaries.sbc = s.sbc ∧ s.chanBoundaries.slots = s.slots :=
  ⟨forChans_keeps (g := State.bcu) (fun n s => (chanBoundary_keeps s n).1) s,
    forChans_keeps (g := State.sbc) (fun n s => (chanBoundary_keeps s n).2.1) s,
    forChans_keeps (g := State.slots) (fun n s => (chanBoundary_keeps s n).2.2) s⟩

theorem makeChange_keeps (s : State) (i : SlotId) (change : SlotChange) :
    (s.makeChange i change).bcu = s.bcu ∧ (s.makeChange i change).sbc = s.sbc := by
  have entered : ∀ new, ((s.modSlot i fun t => { t with waiting := none }).enterState i new).bcu = s.bcu ∧
      ((s.modSlot i fun t => { t with waiting := none }).enterState i new).sbc = s.sbc := fun new => by
    have h := (OnlySlotWork.enterState (s.modSlot i fun t => { t with waiting := none }) i new).keeps
    exact ⟨h.1, h.2.1⟩
  cases change with
  | powerOff | isolate =>
    simp only [State.makeChange, answerSlot_keeps, entered, and_self]
  | slotReset width => exact entered .resetting

theorem slotBoundary_keeps (s : State) (i : SlotId) :
    (s.slotBoundary i).bcu = s.bcu ∧ (s.slotBoundary i).sbc = s.sbc := by
  unfold State.slotBoundary
  split
  · split
    · exact ⟨rfl, rfl⟩
    · exact makeChange_keeps s i _
  · exact ⟨rfl, rfl⟩

theorem slotBoundaries_keeps (s : State) : s.slotBoundaries.bcu = s.bcu ∧ s.slotBoundaries.sbc = s.sbc :=
  ⟨forSlots_keeps (g := State.bcu) (fun i s => (slotBoundary_keeps s i).1) s,
    forSlots_keeps (g := State.sbc) (fun i s => (slotBoundary_keeps s i).2) s⟩

theorem serveChannel_keeps (s : State) (n : ChanId) :
    (s.serveChannel n).bcu = s.bcu ∧ (s.serveChannel n).sbc = s.sbc := by
  unfold State.serveChannel
  dsimp only
  split
  · split
    · split <;> exact ⟨rfl, rfl⟩
    · exact ⟨rfl, rfl⟩
  · exact ⟨rfl, rfl⟩

theorem serveChannels_keeps (s : State) : s.serveChannels.bcu = s.bcu ∧ s.serveChannels.sbc = s.sbc :=
  ⟨forChans_keeps (g := State.bcu) (fun n s => (serveChannel_keeps s n).1) s,
    forChans_keeps (g := State.sbc) (fun n s => (serveChannel_keeps s n).2) s⟩

/-! ## The clock at a free bus -/

/-- The clock once the bus is FREE (R8, R10, R15). -/
def Bcu.atFreeBus (b : Bcu) : Bcu :=
  match b.clock, b.waiting with
  | .retuning, _ => if b.settling = none then { b with settling := some Config.settlingPeriods } else b
  | .run, some w =>
    { b with clock := if w = .park then .parked else .stopped, waiting := none, deferred := none }
  | _, _ => b

/-- A filtered input whose sampling is suspended (R156). -/
def Input.suspend (x : Input) : Input := if x.filter = 0 then x else { x with run := 0, changeDue := false }

theorem suspendSampling_eq (s : State) : s.suspendSampling = { s with inputs := s.inputs.map Input.suspend } :=
  forInputs_map (fun i s => by
    by_cases unfiltered : (s.input i).filter = 0
    · rw [if_neg (not_not.mpr unfiltered)]
      have same : (s.input i).suspend = s.input i := if_pos unfiltered
      exact (modInput_same same).symm
    · rw [if_pos unfiltered]
      exact congrArg (fun x => { s with inputs := s.inputs.set i x }) (if_neg unfiltered).symm) s

/-- The part once a waiting PARK or CLOCK_STOP is carried out, but for its reply. -/
def State.halted (s : State) (w : ClockWait) : State :=
  { s with
    bcu := { s.bcu with clock := if w = .park then .parked else .stopped, waiting := none, deferred := none }
    inputs := s.inputs.map Input.suspend }

theorem clockBoundary_retuning {s : State} (free : s.sbc.holder = none) (clock : s.bcu.clock = .retuning)
    (settling : s.bcu.settling = none) :
    s.clockBoundary = s.updBcu fun b => { b with settling := some Config.settlingPeriods } := by
  simp [State.clockBoundary, free, clock, settling]

theorem clockBoundary_waiting {s : State} {w : ClockWait} (free : s.sbc.holder = none) (clock : s.bcu.clock = .run)
    (waiting : s.bcu.waiting = some w) :
    s.clockBoundary = if s.bcu.deferred = none then s.halted w
      else (s.halted w).replyCommand .ok (s.halted w).clockReport := by
  unfold State.clockBoundary
  rw [if_neg (not_not.mpr free), clock, waiting]
  simp only [suspendSampling_eq]
  by_cases none : s.bcu.deferred = none
  · rw [if_pos none]
    exact (if_pos none).trans (by simp [State.halted, State.updBcu, none])
  · rw [if_neg none]
    exact if_neg none

theorem clockBoundary_otherwise {s : State}
    (h : s.sbc.holder = none → (s.bcu.clock = .retuning → s.bcu.settling ≠ none) ∧
      (s.bcu.clock = .run → s.bcu.waiting = none)) : s.clockBoundary = s := by
  unfold State.clockBoundary
  split
  · rfl
  case isFalse held =>
    obtain ⟨settles, runs⟩ := h (not_not.mp held)
    split
    case h_1 clock => rw [if_neg (settles clock)]
    case h_2 w clock waiting => rw [runs clock] at waiting; cases waiting
    case h_3 => rfl

theorem clockBoundary_bcu (s : State) :
    s.clockBoundary.bcu = if s.sbc.holder = none then s.bcu.atFreeBus else s.bcu := by
  split
  case isFalse held => rw [clockBoundary_otherwise fun free => absurd free held]
  case isTrue free =>
    unfold Bcu.atFreeBus
    split
    case h_1 clock =>
      split
      case isTrue settling => rw [clockBoundary_retuning free clock settling]; rfl
      case isFalse settling => rw [clockBoundary_otherwise fun _ => ⟨fun _ => settling, fun run => by simp [clock] at run⟩]
    case h_2 w clock waiting =>
      rw [clockBoundary_waiting free clock waiting]
      split
      · rfl
      · exact (replyCommand_keeps ..).1
    case h_3 notRetuning notWaiting =>
      rw [clockBoundary_otherwise fun _ => ⟨fun clock => (notRetuning clock).elim, fun clock => ?_⟩]
      exact Option.eq_none_iff_forall_ne_some.mpr fun w waiting => notWaiting w clock waiting

theorem beginAccessCycle_bcu (s : State) : s.beginAccessCycle.bcu = s.bcu := by
  unfold State.beginAccessCycle
  split
  · rfl
  · split
    · rfl
    · exact (endAccess_keeps ..).1

theorem arbitrate_bcu (s : State) : s.arbitrate.bcu = s.bcu := by
  unfold State.arbitrate
  split
  · split
    · rfl
    · rfl
    · rfl
    · exact beginAccessCycle_bcu s
  · rfl

/-- What closes an event makes of the clock: its step at a free bus, and perhaps an admitted CLOCK_WOKE record. -/
theorem settle_bcu (s : State) :
    ∃ woke, s.settle.bcu = { (if s.sbc.holder = none then s.bcu.atFreeBus else s.bcu) with woke := woke } := by
  unfold State.settle
  rw [(admitOffers_takes _).bcu, arbitrate_bcu, clockBoundary_bcu, (serveChannels_keeps _).1, (serveChannels_keeps _).2,
    (slotBoundaries_keeps _).1, (slotBoundaries_keeps _).2, (chanBoundaries_keeps _).1, (chanBoundaries_keeps _).2.1]
  exact ⟨_, rfl⟩

theorem Quiet.cycle {s t : State} (q : Quiet s t) : t.sbc.cycle = s.sbc.cycle := congrArg Essentials.cycle q.same

/-- Under a grant, what closes an event leaves the cycle on the bus. -/
theorem settle_cycle {s : State} (held : s.sbc.holder ≠ none) : s.settle.sbc.cycle = s.sbc.cycle := by
  have same : s.chanBoundaries.slotBoundaries.serveChannels.sbc = s.sbc := by
    rw [(serveChannels_keeps _).2, (slotBoundaries_keeps _).2, (chanBoundaries_keeps _).2.1]
  unfold State.settle
  generalize s.chanBoundaries.slotBoundaries.serveChannels = t at same
  have held : t.sbc.holder ≠ none := by rwa [same]
  have clock : t.clockBoundary = t := by unfold State.clockBoundary; rw [if_pos held]
  have bus : t.arbitrate = t := by unfold State.arbitrate; rw [if_neg fun h => held h.1]
  rw [clock, bus, ← same]
  exact (Quiet.admitOffers t).cycle

end Sys2Proof.Machine
end

