-- ==== Sys2Proof/Proofs/Events.lean ====
section
/-! SUPPORT. The effect of every command: the part's own events, and the meanings of all 67 commands together. -/

namespace Sys2Proof.Machine

open Sys2Proof

section Clock

variable {R : Prop}

/-- The reply that the clock owes is made, if there is one. -/
theorem answerClock_eq (s : State) :
    s.bcu.deferred = none ∧ s.answerClock = s.updBcu (fun b => { b with deferred := none }) ∨
    s.bcu.deferred ≠ none ∧ ∃ payload,
      s.answerClock = (s.updBcu fun b => { b with deferred := none }).replyCommand .ok payload := by
  unfold State.answerClock
  dsimp only
  split
  case h_1 present => exact .inr ⟨by simp [present], _, rfl⟩
  case h_2 present => exact .inr ⟨by simp [present], _, rfl⟩
  case h_3 absent => exact .inl ⟨absent, rfl⟩

theorem answerClock_sbc (s : State) : s.answerClock.sbc = s.sbc := by
  obtain ⟨_, h⟩ | ⟨_, payload, h⟩ := answerClock_eq s <;> simp [h]

theorem Moves.answersClock (s : State) : Moves R s s.answerClock := by
  obtain ⟨none, h⟩ | ⟨present, payload, h⟩ := answerClock_eq s
  · exact h ▸ .quiet (.updBcu rfl rfl rfl none.symm)
  · exact h ▸ .of (.answerClock _ _ present)

theorem Moves.startingEnds (s : State) : Moves R s (startingEnds s) := by
  unfold Machine.startingEnds
  split
  case isFalse => exact .refl
  case isTrue due =>
    have runs : Move R s (s.updBcu fun b => { b with clock := .run, settling := none, woke := b.woke.raise }) :=
      .clock _ rfl rfl rfl fun _ _ => rfl
    refine ((Moves.of runs).tail (.quiet (.updSbc rfl rfl rfl fun b => ?_))).trans
      ((Moves.answersClock _).trans (Moves.settle _))
    exact ⟨Nat.zero_le _, b.readyLimit, b.interval, b.interval, b.timing⟩

/-- The clock at the end of a retune (R8). -/
def Bcu.retuned (b : Bcu) : Bcu :=
  { b with clock := .run, settling := none, divider := b.pendingDivider.getD b.divider, pendingDivider := none }

theorem retuneEnds_due {s : State} (clock : s.bcu.clock = .retuning) (settled : s.bcu.settling = some 0) :
    retuneEnds s = (s.updBcu Bcu.retuned).answerClock.settle := if_pos ⟨clock, settled⟩

theorem retuned_change (s : State) : ClockChange s (s.updBcu Bcu.retuned) := by
  refine ⟨⟨_, rfl⟩, rfl, fun h => ⟨?_, fun d pending => by cases pending⟩, fun _ _ => rfl⟩
  cases pending : s.bcu.pendingDivider with
  | none => simpa [Bcu.retuned, pending] using h.divider
  | some d => simpa [Bcu.retuned, pending] using h.pending d pending

theorem retuneEnds_effect (s : State) : Effect R .retuneEnd s (retuneEnds s) := by
  by_cases due : s.bcu.clock = .retuning ∧ s.bcu.settling = some 0
  case neg =>
    have same : retuneEnds s = s := if_neg due
    rw [same]
    exact .work .refl
  case pos =>
    obtain ⟨clock, settled⟩ := due
    rw [retuneEnds_due clock settled]
    have change := retuned_change s
    have retuned : s.bcu.retuned.divider ≠ s.bcu.divider → s.bcu.pendingDivider = some s.bcu.retuned.divider := by
      cases pending : s.bcu.pendingDivider <;> simp [Bcu.retuned, pending]
    have divider : (s.updBcu Bcu.retuned).bcu = s.bcu.retuned := rfl
    have bus : (s.updBcu Bcu.retuned).sbc = s.sbc := rfl
    generalize s.updBcu Bcu.retuned = u at change divider bus
    have after : Moves R u u.answerClock.settle := (Moves.answersClock u).trans (Moves.settle _)
    have last : u.answerClock.settle.bcu.divider = s.bcu.retuned.divider := by rw [Moves.divider after, divider]
    refine Effect.clock (b := u) .refl change after fun changes => .inr (.inl ⟨rfl, clock, settled, ?_, fun held => ?_⟩)
    · rw [last] at changes ⊢
      exact retuned changes
    · rw [settle_cycle (by rwa [answerClock_sbc, bus]), answerClock_sbc, bus]

theorem Moves.refreshTicks (s : State) : Moves R s (refreshTicks s) := by
  unfold Machine.refreshTicks
  split
  case isFalse => exact .refl
  case isTrue =>
    refine (Moves.quiet (.updSbc ?_ ?_ ?_ fun b => ?_)).trans (Moves.settle _)
    · unfold Sbc.tick; dsimp only; split <;> rfl
    · unfold Sbc.tick; dsimp only; split <;> rfl
    · unfold Sbc.tick; dsimp only; split <;> rfl
    · have max : Config.maxDebt = 4 := rfl
      unfold Sbc.tick
      dsimp only
      split
      · exact ⟨by dsimp only; omega, b.readyLimit, b.interval, b.interval, b.timing⟩
      · exact ⟨b.debt, b.readyLimit, b.interval, b.interval, b.timing⟩

end Clock

/-! ## Slots -/

section Slots

variable {R : Prop}

theorem Moves.measureSlots {f : SlotId → Nat} :
    ∀ (l : List SlotId) {s : State}, (R → s.AeSound) → Moves R s (l.foldl (fun s i => s.measureSlot i (f i)) s)
  | [], _, _ => .refl
  | i :: l, s, h => by
    have first := Moves.measureSlot i (f i) h
    exact first.trans (measureSlots l fun r => first.aeSound r (h r))

theorem Moves.measuresCurrents (draw : Vector Nat 4) {s : State} (h : R → s.AeSound) :
    Moves R s (measuresCurrents draw s) := by
  unfold Machine.measuresCurrents
  split
  case isFalse => exact .refl
  case isTrue =>
    have taken : Quiet s (s.updMeasure fun m => { m with due := false }) := .updMeasure s _
    have each := Moves.measureSlots (R := R) (f := fun i => draw[i]) (List.finRange 4)
      (s := s.updMeasure fun m => { m with due := false }) fun r => ⟨(h r).running, (h r).idle⟩
    exact ((Moves.quiet taken).trans each).trans (Moves.settle _)

theorem Quiet.cooldownEnds (i : SlotId) (s : State) : Quiet s (cooldownEnds i s) := by
  unfold Machine.cooldownEnds
  split
  · exact .modSlot rfl rfl
  · exact .refl s

theorem Moves.poweringEnds (i : SlotId) (s : State) : Moves R s (poweringEnds i s) := by
  unfold Machine.poweringEnds
  split
  case isFalse => exact .refl
  case isTrue due =>
    exact (Moves.of (.enter i _ (.inr (.inr (by simp [due.1]))))).tail (.quiet (.modSlot rfl rfl))

/-- A slot whose timed sequence ends enters its next state, answers, and admission follows. -/
theorem Moves.sequenceEnds {s t : State} {i : SlotId} (q : Quiet s t) (new : SlotState)
    (h : new = .enabled ∨ (t.slot i).state = .resetting) :
    Moves R s ((t.enterState i new).answerSlot i .ok).admitOffers :=
  (((Moves.quiet q).tail (.enter i new (.inr (h.imp_right fun state => by simp [state])))).tail
    (.answerSlot i .ok)).tail (.quiet (.admitOffers _))

theorem Moves.resettingEnds (i : SlotId) (s : State) : Moves R s (resettingEnds i s) := by
  unfold Machine.resettingEnds
  split
  · exact Moves.sequenceEnds (.modSlot rfl rfl) _ (.inl rfl)
  · exact .refl

theorem Moves.slotResetEnds (i : SlotId) (s : State) : Moves R s (slotResetEnds i s) := by
  unfold Machine.slotResetEnds
  split
  case isFalse => exact .refl
  case isTrue due => exact Moves.sequenceEnds (.modSlot rfl rfl) _ (.inr (by simp [due.1]))

end Slots

/-! ## Accesses, request lines and interrupt lines -/

theorem Moves.pollIntervalEnds {R : Prop} {s : State} (h : R → s.AeSound) : Moves R s (pollIntervalEnds s) := by
  unfold Machine.pollIntervalEnds
  split
  case h_1 a phase command =>
    split
    · refine (Moves.runPoll a fun r => ⟨?_, fun holder => ?_⟩).trans (Moves.settle _)
      · simp [phase]
      · have := (h r).running holder
        simp [phase] at this
    · exact .refl
  case h_2 => exact .refl

theorem Moves.trqAsserts {R : Prop} (slot : SlotId) (line : ChanId) (s : State) : Moves R s (trqAsserts slot line s) :=
  (Moves.quiet (.updCards s _)).trans (Moves.settle _)

/-- A counted change of an input, with its admission: work on the inputs, or a wake from PARKED as well (R12, R155). -/
theorem countChange_effect {R : Prop} {c : Instr} {s a : State} (before : Quiet s a) (bcu : a.bcu = s.bcu)
    (sbc : a.sbc = s.sbc) (i : InputId) (active : Bool) : Effect R c s (a.countChange i active).admitOffers := by
  have counted : OnlyInputs a (a.modInput i fun x => { x with active := active, run := 0, changeDue := false }) :=
    .modInput a i _
  unfold State.countChange State.activation State.wakeRequest
  dsimp only
  split
  case isFalse => exact .work (Moves.quiet ((before.trans (.onlyInputs counted)).trans (.admitOffers _)))
  case isTrue =>
    have taken := counted.trans (.applyActivation _ i)
    have moved := before.trans (.onlyInputs taken)
    generalize State.applyActivation _ i = u at taken moved
    have same : u.bcu = s.bcu ∧ u.sbc = s.sbc := ⟨taken.keeps.1.trans bcu, taken.keeps.2.1.trans sbc⟩
    have admitted : Effect R c s u.admitOffers := .work (Moves.quiet (moved.trans (.admitOffers u)))
    split
    · split
      case isTrue parked =>
        have wakes : ClockChange u (u.updBcu fun b => { b with
            divider := 12, clock := .starting, settling := some Config.startingPeriods
            woke := .held (inputSlot i) (inputLine i) b.timeBase }) :=
          ⟨⟨_, rfl⟩, rfl, fun h => ⟨⟨by simp, by simp⟩, h.pending⟩, fun _ runs => by simp [Bcu.bclk, parked] at runs⟩
        refine .clock (.quiet moved) wakes (.quiet (.admitOffers _)) fun _ => .inr (.inr ⟨?_, ?_, ?_, ?_⟩)
        · rw [← same.1, parked]
        · rw [(admitOffers_takes _).bcu]; rfl
        · rw [(admitOffers_takes _).bcu]; rfl
        · rw [(Quiet.admitOffers _).cycle, ← same.2]; rfl
      case isFalse => exact admitted
    · exact admitted

theorem irlChanges_effect {R : Prop} {c : Instr} (slot : SlotId) (line : LineId) (high : Bool) (s : State) :
    Effect R c s (irlChanges slot line high s) := by
  unfold irlChanges
  dsimp only
  split
  · exact countChange_effect (.updCards s _) rfl rfl _ _
  · exact .work (Moves.quiet (.updCards s _))

theorem irlFilterChanges_effect {R : Prop} {c : Instr} (slot : SlotId) (line : LineId) (s : State) :
    Effect R c s (irlFilterChanges slot line s) := by
  unfold irlFilterChanges
  dsimp only
  split
  · exact countChange_effect (.refl s) rfl rfl _ _
  · exact .work .refl

/-! ## The time base -/

theorem Sbc.advance_keeps (b : Sbc) (runs : Bool) :
    (b.advance runs).holder = b.holder ∧ (b.advance runs).burst = b.burst ∧ (b.advance runs).cycle = b.cycle ∧
    (b.Bounded → (b.advance runs).Bounded) := by
  unfold Sbc.advance
  split
  · exact ⟨rfl, rfl, rfl, fun h =>
      ⟨h.debt, h.readyLimit, h.interval, (Nat.sub_le _ _).trans h.countdown, h.timing⟩⟩
  · exact ⟨rfl, rfl, rfl, id⟩

theorem bclk_advance (b : Bcu) (timeBase : Word) (k : Nat) :
    ({ b with timeBase := timeBase, settling := b.settling.map (· - k) } : Bcu).bclk = b.bclk := by
  cases b with
  | mk clock _ _ _ _ settling => cases clock <;> cases settling <;> rfl

theorem Quiet.timeBaseAdvances (s : State) : Quiet s (timeBaseAdvances s) := by
  obtain ⟨holder, burst, cycle, bounded⟩ :=
    s.sbc.advance_keeps (s.bcu.clock == .run || s.bcu.clock == .retuning)
  refine ((((updBcu (bclk_advance ..) rfl rfl rfl).trans (updSbc holder burst cycle bounded)).trans
    (foldl (fun i s => modSlot rfl rfl) _ _)).trans (updMeasure _ _)).trans (onlyInputs (.sampleInputs _))

/-! ## Every command -/

/-- What every command makes of a state. -/
theorem exec_effect {R : Prop} {c : Instr} {s t : State} (sound : R → s.RepliesSound) (h : exec c s = .next t) :
    Effect R c s t := by
  have ae : R → s.AeSound := fun r => (sound r).aeSound
  have next : ∀ {u : State}, Effect R c s u → exec c s = .next u → Effect R c s t := fun effect e => by
    rw [e] at h
    cases h
    exact effect
  cases c with
  | partPowerOn => exact next (.powerOn rfl) rfl
  | linkUp => exact next (.work (Moves.quiet (.linkComesUp s))) rfl
  | linkReset => exact next (linkResets_effect s) rfl
  | frameReceive p bytes => exact next (.work (Moves.quiet (.receive s p bytes))) rfl
  | frameTake p => exact next (frameTakes_effect p sound) rfl
  | frameTransmit => exact next (.work (Moves.quiet (.frameTransmits s))) rfl
  | frameSent => exact next (framesSent_effect s) rfl
  | noticeAdmission => exact next (.work (Moves.quiet (.admitOffers s))) rfl
  | setClock tag target =>
    exact next (offer_effect fun can => setClock_effect (.inl ⟨tag, target, rfl⟩) .refl ⟨rfl, rfl⟩ can target) rfl
  | park tag => exact next (Works.park.offer sound _) rfl
  | wake tag => exact next (offer_effect fun can => wake_effect .refl ⟨rfl, rfl⟩ can) rfl
  | clockStop tag => exact next (Works.clockStop.offer sound _) rfl
  | startingEnd => exact next (.work (Moves.startingEnds s)) rfl
  | retuneEnd => exact next (retuneEnds_effect s) rfl
  | refreshTick => exact next (.work (Moves.refreshTicks s)) rfl
  | setTiming tag cls ioWs memWs => exact next ((Works.setTiming _ _ _).offer sound _) rfl
  | setReadyLimit tag limit => exact next ((Works.setReadyLimit _).offer sound _) rfl
  | setRefresh tag interval => exact next ((Works.setRefresh _).offer sound _) rfl
  | busStatus tag => exact next (Works.busStatus.offer sound _) rfl
  | cycleEnd extension card => exact next (cycleEnds_effect extension card ae) rfl
  | readyTimeout => exact next (readyTimesOut_effect ae) rfl
  | currentMeasurement draw => exact next (.work (Moves.measuresCurrents draw ae)) rfl
  | cooldownEnd i => exact next (.work (Moves.quiet (.cooldownEnds i s))) rfl
  | poweringEnd i => exact next (.work (Moves.poweringEnds i s)) rfl
  | resettingEnd i => exact next (.work (Moves.resettingEnds i s)) rfl
  | slotResetEnd i => exact next (.work (Moves.slotResetEnds i s)) rfl
  | powerOn tag slot => exact next ((Works.powerOn _).offer sound _) rfl
  | powerOff tag slot => exact next ((Works.powerOff _).offer sound _) rfl
  | isolate tag slot => exact next ((Works.isolate _).offer sound _) rfl
  | connect tag slot => exact next ((Works.connect _).offer sound _) rfl
  | slotReset tag slot width => exact next ((Works.slotReset _ _).offer sound _) rfl
  | setLimit tag slot limit => exact next ((Works.setLimit _ _).offer sound _) rfl
  | slotStatus tag slot => exact next ((Works.slotStatus _).offer sound _) rfl
  | mapAdd tag fields => exact next ((Works.mapAdd _).offer sound _) rfl
  | mapRemove tag id => exact next ((Works.mapRemove _).offer sound _) rfl
  | mapList tag => exact next (Works.mapList.offer sound _) rfl
  | shadowRead tag port present index => exact next ((Works.shadowRead _ _ _).offer sound _) rfl
  | shadowClear tag present id => exact next ((Works.shadowClear _ _).offer sound _) rfl
  | ioRead tag fields => exact next ((Works.string _ _ _ _).offer sound _) rfl
  | ioWrite tag fields data => exact next ((Works.string _ _ _ _).offer sound _) rfl
  | memRead tag fields => exact next ((Works.string _ _ _ _).offer sound _) rfl
  | memWrite tag fields data => exact next ((Works.string _ _ _ _).offer sound _) rfl
  | pairWrite tag fields data => exact next ((Works.pair _ _ _).offer sound _) rfl
  | pairRead tag fields => exact next ((Works.pair _ _ _).offer sound _) rfl
  | poll tag fields => exact next ((Works.poll _).offer sound _) rfl
  | pollIntervalEnd => exact next (.work (Moves.pollIntervalEnds ae)) rfl
  | cancel tag target => exact next ((Works.cancel _).offer sound _) rfl
  | chConfigure tag channel fields => exact next ((Works.chConfigure _ _).offer sound _) rfl
  | chArm tag channel => exact next ((Works.chArm _).offer sound _) rfl
  | chPause tag channel => exact next ((Works.chPause _).offer sound _) rfl
  | chResume tag channel => exact next ((Works.chResume _).offer sound _) rfl
  | chClear tag channel => exact next ((Works.chClear _).offer sound _) rfl
  | chRelease tag channel => exact next ((Works.chRelease _).offer sound _) rfl
  | chStatus tag channel => exact next ((Works.chStatus _).offer sound _) rfl
  | trqAssert i n => exact next (.work (Moves.trqAsserts i n s)) rfl
  | trqDeassert i n => exact next (.work (Moves.quiet (.updCards s _))) rfl
  | ringWrite tag channel data => exact next ((Works.ringWrite _ _).offer sound _) rfl
  | ringRead tag channel largest => exact next ((Works.ringRead _ _).offer sound _) rfl
  | irlChange i l high => exact next (irlChanges_effect i l high s) rfl
  | irlFilterChange i l => exact next (irlFilterChanges_effect i l s) rfl
  | intConfigure tag slot line fields => exact next ((Works.intConfigure _ _ _).offer sound _) rfl
  | intMask tag slot line mask => exact next ((Works.intMask _ _ _).offer sound _) rfl
  | intStatus tag slot => exact next ((Works.intStatus _).offer sound _) rfl
  | intAck tag slot line => exact next ((Works.intAck _ _).offer sound _) rfl
  | info tag => exact next (Works.info.offer sound _) rfl
  | resetPart tag => exact next (Works.resetPart.offer sound _) rfl
  | timeBaseAdvance => exact next (.work (Moves.quiet (.timeBaseAdvances s))) rfl

end Sys2Proof.Machine
end

