-- ==== Sys2Proof/Proofs/LinkReset.lean ====
section
/-! PROOF. A link reset (O9): what its five parts make of each record of the part. -/

namespace Sys2Proof.Machine

open Sys2Proof

/-! ## Transfer boundaries without a reply owed -/

/-- A transfer cycle of the channel is on the bus. -/
def Sbc.transfers (b : Sbc) (n : ChanId) : Bool := b.cycle.isSome && b.holder == some (.channel n)

/-- The channel after its transfer boundary (R113, R116). -/
def Channel.atBoundary (c : Channel) (transfers : Bool) : Channel :=
  if transfers then c
  else if c.releaseWaits then {}
  else if c.pauseWaits then
    { c with pauseWaits := false, state := if c.state = .running then .paused else c.state }
  else c

/-- The channel and the pages it owns. -/
def State.holding (s : State) (n : ChanId) : Channel × (PageId → Prop) := (s.chan n, fun p => s.stm.pages[p] = some n)

/-- The channel and its pages after its transfer boundary. -/
def Sbc.atBoundary (b : Sbc) (n : ChanId) (h : Channel × (PageId → Prop)) : Channel × (PageId → Prop) :=
  (h.1.atBoundary (b.transfers n), fun p => ¬ (b.transfers n = false ∧ h.1.releaseWaits = true) ∧ h.2 p)

theorem release_pages (m : Stm) (n : ChanId) (p : PageId) :
    (m.release n).pages[p] = if m.pages[p] = some n then none else m.pages[p] := by
  simp [Stm.release]

theorem releaseChannel_holding (s : State) (n j : ChanId) :
    (s.releaseChannel n).holding j = if n = j then ({}, fun _ => False) else s.holding j := by
  have page : ∀ p : PageId, (s.releaseChannel n).stm.pages[p] = if s.stm.pages[p] = some n then none else s.stm.pages[p] :=
    fun p => release_pages s.stm n p
  unfold State.holding
  simp only [page]
  by_cases same : n = j
  · subst same
    rw [if_pos rfl]
    refine Prod.ext (by simp [State.releaseChannel]) (funext fun p => ?_)
    simp only [eq_iff_iff, iff_false]
    split <;> simp_all
  · rw [if_neg same]
    refine Prod.ext (by simp [State.releaseChannel, same]) (funext fun p => ?_)
    simp only [eq_iff_iff]
    split
    case isTrue owned => simp [owned, same]
    case isFalse => rfl

theorem chanBoundary_holding (n : ChanId) (s : State) (j : ChanId) :
    (s.chanBoundary n).holding j = if n = j then s.sbc.atBoundary j (s.holding j) else s.holding j := by
  have answered : ∀ t : State, (t.answerChannel n).holding j = t.holding j := fun t => by
    obtain ⟨-, -, -, -, chans, -, stm⟩ := answerChannel_keeps t n
    simp only [State.holding, State.chan, chans, stm]
  have transferring : s.transferring n = s.sbc.transfers n := rfl
  unfold State.chanBoundary
  rw [transferring]
  split
  case isTrue transfers =>
    split
    case isTrue same => subst same; simp [Sbc.atBoundary, Channel.atBoundary, State.holding, transfers]
    case isFalse => rfl
  case isFalse transfers =>
    have transfers : s.sbc.transfers n = false := by simpa using transfers
    split
    case isTrue release =>
      rw [answered, releaseChannel_holding]
      split
      case isTrue same =>
        subst same
        simp [Sbc.atBoundary, Channel.atBoundary, State.holding, transfers, release]
      case isFalse => rfl
    case isFalse release =>
      split
      case isTrue pause =>
        rw [answered]
        split
        case isTrue same =>
          subst same
          simp only [Sbc.atBoundary, Channel.atBoundary, State.holding, transfers, release, pause, State.modChan_chan,
            State.modChan_stm, if_true, Bool.false_eq_true, if_false, and_false, not_false_eq_true, true_and]
          rfl
        case isFalse other => simp [State.holding, other]
      case isFalse pause =>
        split
        case isTrue same =>
          subst same
          simp [Sbc.atBoundary, Channel.atBoundary, State.holding, transfers, release, pause]
        case isFalse => rfl

/-- Every channel and its pages after the transfer boundaries. -/
theorem chanBoundaries_holding (s : State) (j : ChanId) :
    s.chanBoundaries.holding j = s.sbc.atBoundary j (s.holding j) :=
  forChans_read (read := State.holding) (kept := State.sbc) (upd := Sbc.atBoundary)
    (fun n s => (chanBoundary_keeps s n).2.1) chanBoundary_holding s j

/-- The second state is the first with other channels and pages. -/
def OnlyChannels (s t : State) : Prop := ∃ chans pages, t = { s with chans := chans, stm := { s.stm with pages := pages } }

namespace OnlyChannels

theorem refl (s : State) : OnlyChannels s s := ⟨_, _, rfl⟩

theorem trans {s t u : State} (h : OnlyChannels s t) (k : OnlyChannels t u) : OnlyChannels s u := by
  obtain ⟨_, _, rfl⟩ := h
  obtain ⟨_, _, rfl⟩ := k
  exact ⟨_, _, rfl⟩

theorem modChan (s : State) (n : ChanId) (f : Channel → Channel) : OnlyChannels s (s.modChan n f) := ⟨_, _, rfl⟩

theorem releaseChannel (s : State) (n : ChanId) : OnlyChannels s (s.releaseChannel n) := by
  refine ⟨s.chans.set n {}, (s.stm.release n).pages, ?_⟩
  unfold State.releaseChannel State.modChan State.updStm Stm.release
  rfl

theorem chanBoundary {s : State} (none : s.chanReply = none) (n : ChanId) : OnlyChannels s (s.chanBoundary n) := by
  have answered : ∀ t : State, t.chanReply = s.chanReply → t.answerChannel n = t := fun t h => by
    obtain ⟨_, same⟩ | ⟨owed, _⟩ := answerChannel_eq t n
    · exact same
    · rw [h, none] at owed; cases owed
  unfold State.chanBoundary
  split
  · exact refl s
  · split
    · rw [answered (s.releaseChannel n) (by simp [State.releaseChannel])]; exact .releaseChannel s n
    · split
      · rw [answered (s.modChan n _) rfl]; exact modChan s n _
      · exact refl s

/-- With no reply owed, transfer boundaries change the channels and the pages alone. -/
theorem foldBoundaries : ∀ (l : List ChanId) {s : State}, s.chanReply = none →
    OnlyChannels s (l.foldl (fun s n => s.chanBoundary n) s)
  | [], s, _ => refl s
  | n :: l, s, h => by
    have first := chanBoundary h n
    refine first.trans (foldBoundaries l ?_)
    obtain ⟨_, _, e⟩ := first
    rw [e]
    exact h

end OnlyChannels

/-! ## The parts of a link reset -/

theorem dropRequests_eq (s : State) : s.dropRequests =
    { s with
      ml := { s.ml with
        command := if s.ae.phase = .running then s.ml.command.map Request.unclaimed else none
        stream := if s.ae.phase = .running then s.ml.stream.map Request.unclaimed else none }
      ae := if s.ae.phase = .running then s.ae else {} } := by
  unfold State.dropRequests
  split <;> rfl

theorem dropDeferred_eq (s : State) : s.dropDeferred =
    { s with
      bcu := { s.bcu with deferred := none }
      slots := s.slots.map fun t => { t with deferred := none }
      chanReply := none } :=
  forSlots_map (fun _ _ => rfl) _

/-- A NOTIFIED input at a link reset (R170). -/
def Input.renotify (x : Input) : Input :=
  if x.state = .notified then { x with state := .pending, queued := false } else x

theorem renotify_eq (s : State) : s.renotify = { s with inputs := s.inputs.map Input.renotify } :=
  forInputs_map (fun i s => by
    by_cases notified : (s.input i).state = .notified
    · rw [if_pos notified]
      exact congrArg (fun x => { s with inputs := s.inputs.set i x }) (if_pos notified).symm
    · rw [if_neg notified]
      have same : (s.input i).renotify = s.input i := if_neg notified
      exact (modInput_same same).symm) s

/-- A channel that is to pause at its transfer boundary (R134). -/
def Channel.toPause (c : Channel) : Channel := if c.state = .running then { c with pauseWaits := true } else c

theorem pauseChannels_eq (s : State) :
    s.pauseChannels = ({ s with chans := s.chans.map Channel.toPause } : State).chanBoundaries :=
  congrArg State.chanBoundaries (forChans_map (fun n s => by
    by_cases running : (s.chan n).state = .running
    · rw [if_pos running]
      exact congrArg (fun x => { s with chans := s.chans.set n x }) (if_pos running).symm
    · rw [if_neg running]
      have same : (s.chan n).toPause = s.chan n := if_neg running
      exact (modChan_same same).symm) s)

/-- With no reply owed, the pause at a link reset changes channels and pages alone (R134). -/
theorem pauseChannels_only {s : State} (none : s.chanReply = none) : OnlyChannels s s.pauseChannels := by
  rw [pauseChannels_eq]
  exact .trans ⟨_, s.stm.pages, rfl⟩ (.foldBoundaries _ none)

theorem pauseChannels_holding (s : State) (n : ChanId) :
    s.pauseChannels.holding n = s.sbc.atBoundary n ((s.chan n).toPause, fun p => s.stm.pages[p] = some n) := by
  rw [pauseChannels_eq, chanBoundaries_holding]
  exact congrArg (fun c => s.sbc.atBoundary n (c, fun p => s.stm.pages[p] = some n)) (Vector.getElem_map _ _)

/-! ## The whole link reset -/

/-- What a link reset makes of the part. -/
structure LinkReset (s t : State) : Prop where
  ml        : t.ml = { s.ml.drop with
    command := if s.ae.phase = .running then s.ml.command.map Request.unclaimed else none
    stream := if s.ae.phase = .running then s.ml.stream.map Request.unclaimed else none }
  ae        : t.ae = if s.ae.phase = .running then s.ae else {}
  bcu       : t.bcu = { s.bcu with deferred := none }
  slots     : t.slots = s.slots.map fun t => { t with deferred := none }
  chanReply : t.chanReply = none
  holding   : ∀ n, t.holding n = s.sbc.atBoundary n ((s.chan n).toPause, fun p => s.stm.pages[p] = some n)
  bytes     : t.stm.bytes = s.stm.bytes
  inputs    : t.inputs = s.inputs.map Input.renotify
  others    : t.sbc = s.sbc ∧ t.measure = s.measure ∧ t.rmap = s.rmap ∧ t.cards = s.cards ∧ t.free = s.free ∧
    t.pending = s.pending

/-- The part in a link reset before its channels pause. -/
def State.unlinked (s : State) : State := (s.updMl Ml.drop).dropRequests.dropDeferred

theorem unlinked_eq (s : State) : s.unlinked = { s with
    ml := { s.ml.drop with
      command := if s.ae.phase = .running then s.ml.command.map Request.unclaimed else none
      stream := if s.ae.phase = .running then s.ml.stream.map Request.unclaimed else none }
    ae := if s.ae.phase = .running then s.ae else {}
    bcu := { s.bcu with deferred := none }
    slots := s.slots.map fun t => { t with deferred := none }
    chanReply := none } := by
  unfold State.unlinked
  rw [dropRequests_eq, dropDeferred_eq]
  rfl

theorem linkResets_up {s : State} (up : s.ml.up = true) : LinkReset s (linkResets s) := by
  have parts : linkResets s = s.unlinked.pauseChannels.renotify := if_pos up
  have paused := pauseChannels_holding s.unlinked
  obtain ⟨chans, pages, only⟩ := pauseChannels_only (s := s.unlinked) (by rw [unlinked_eq])
  rw [parts, renotify_eq]
  rw [only] at paused ⊢
  rw [unlinked_eq] at paused ⊢
  exact ⟨rfl, rfl, rfl, rfl, rfl, paused, rfl, rfl, rfl, rfl, rfl, rfl, rfl, rfl⟩

theorem LinkReset.chan {s t : State} (h : LinkReset s t) (n : ChanId) :
    t.chan n = (s.chan n).toPause.atBoundary (s.transferring n) := congrArg Prod.fst (h.holding n)

theorem LinkReset.owns {s t : State} (h : LinkReset s t) (n : ChanId) (p : PageId) :
    t.stm.pages[p] = some n ↔
      ¬ (s.transferring n = false ∧ (s.chan n).toPause.releaseWaits = true) ∧ s.stm.pages[p] = some n :=
  iff_of_eq (congrFun (congrArg Prod.snd (h.holding n)) p)

theorem Channel.toPause_releaseWaits (c : Channel) : c.toPause.releaseWaits = c.releaseWaits := by
  unfold Channel.toPause
  split <;> rfl

theorem LinkReset.slot {s t : State} (h : LinkReset s t) (i : SlotId) :
    t.slot i = { s.slot i with deferred := none } := by
  unfold State.slot
  rw [h.slots]
  exact Vector.getElem_map ..

/-- A channel after a link reset, written out. -/
theorem Channel.toPause_atBoundary (c : Channel) (transfers : Bool) :
    c.toPause.atBoundary transfers =
      if transfers = true then { c with pauseWaits := c.pauseWaits || decide (c.state = .running) }
      else if c.releaseWaits = true then {}
      else { c with state := if c.state = .running then .paused else c.state, pauseWaits := false } := by
  unfold Channel.atBoundary
  rw [Channel.toPause_releaseWaits]
  by_cases running : c.state = .running
  · have paused : c.toPause = { c with pauseWaits := true } := if_pos running
    simp only [paused, running, if_true, decide_true, Bool.or_true]
  · have same : c.toPause = c := if_neg running
    simp only [same, running, decide_false, Bool.or_false, if_false]
    refine ite_congr rfl (fun _ => rfl) fun _ => ite_congr rfl (fun _ => rfl) fun _ => ?_
    split
    case isTrue => rfl
    case isFalse waits =>
      have waits : c.pauseWaits = false := by simpa using waits
      rw [← waits]

/-- Settles O9: the five parts of a link reset, each by what it makes of its records. -/
theorem linkResetKeepsTheWork : Obligations.LinkResetKeepsTheWork := by
  refine ⟨fun s up => ⟨linkResets s, rfl, ?_⟩, fun s down => congrArg Host.Outcome.next (if_neg (by simp [down]))⟩
  have h := linkResets_up up
  obtain ⟨sbc, measure, rmap, cards, free, pending⟩ := h.others
  refine ⟨h.ml, h.ae, h.bcu, h.slot, h.chanReply, fun n => ?_, h.bytes, fun p => ⟨?_, fun kept => ?_⟩, fun i => ?_,
    sbc, measure, rmap, cards, free, pending⟩
  · rw [h.chan, Channel.toPause_atBoundary]
    have reset : State.reset.chan n = {} := Vector.getElem_replicate ..
    rw [reset]
  · rintro ⟨n, owned, released⟩
    refine Option.eq_none_iff_forall_ne_some.mpr fun m owns => ?_
    obtain ⟨unreleased, same⟩ := (h.owns m p).mp owns
    rw [owned] at same
    cases same
    exact unreleased (by rwa [Channel.toPause_releaseWaits])
  · refine Option.ext fun n => ?_
    have owns := h.owns n p
    rw [Channel.toPause_releaseWaits] at owns
    exact owns.trans ⟨fun both => both.2, fun owned => ⟨kept n owned, owned⟩⟩
  · unfold State.input
    rw [h.inputs]
    exact Vector.getElem_map ..

end Sys2Proof.Machine
end

