-- ==== Sys2Proof/Proofs/DividerEvents.lean ====
section
/-! PROOF. D changes only at its events (O18): every other part of an effect keeps it. -/

namespace Sys2Proof.Machine

open Sys2Proof

/-- The end of a cycle leaves D, whether the grant goes on or ends. -/
theorem continueGrant_divider (s : State) : s.continueGrant.bcu.divider = s.bcu.divider := by
  unfold State.continueGrant
  split
  · split <;> rfl
  · split
    · exact (Moves.divider (Moves.accessBoundary (s := s.freeBus) (R := False) False.elim)).trans rfl
    · rw [beginAccessCycle_bcu]
  · rfl

/-- An effect that changes D is one of its events (R1). -/
theorem Effect.divider {R : Prop} {c : Instr} {s t : State} (e : Effect R c s t)
    (changes : t.bcu.divider ≠ s.bcu.divider) :
    DividerCause c s t ∨ (c = .frameSent ∧ s.ml.resetPending = true ∧ t.bcu.divider = 12) ∨
      (c = .partPowerOn ∧ t.bcu.divider = 12) := by
  cases e with
  | work m => exact absurd (Moves.divider m) changes
  | clock before change after cause => exact .inl (cause changes)
  | @cycleEnd a _ _ before burst less same ends goesOn =>
    have begun : a.bcu.divider = s.bcu.divider := Moves.divider before
    have whole := (Moves.divider goesOn).trans ((continueGrant_divider _).trans (Moves.divider ends))
    exact absurd (whole.trans begun) changes
  | linkReset up => exact absurd (congrArg Bcu.divider (linkResets_up up).bcu) changes
  | powerOn hc => exact .inr (.inr ⟨hc, rfl⟩)
  | resetEvent hc pending => exact .inr (.inl ⟨hc, pending, rfl⟩)

/-- Settles O18, from the effect of every command. -/
theorem dividerChangesOnlyAtItsEvents : Obligations.DividerChangesOnlyAtItsEvents := by
  intro c s t h changes
  obtain (start | retune | wake) | reset | powerOn :=
    (exec_effect (R := False) False.elim h).divider changes
  · exact .inl start
  · exact .inr (.inl retune)
  · exact .inr (.inr (.inl wake))
  · exact .inr (.inr (.inr (.inl reset)))
  · exact .inr (.inr (.inr (.inr powerOn)))

end Sys2Proof.Machine
end

