-- ==== Sys2Proof/Proofs/ResetState.lean ====
section
/-! PROOF. The state at reset: the values of every block (O7), and every invariant (O56). -/

namespace Sys2Proof.Machine

open Sys2Proof

/-! ## Records at reset -/

theorem reset_slot (i : SlotId) : State.reset.slot i = {} := Vector.getElem_replicate ..
theorem reset_chan (n : ChanId) : State.reset.chan n = {} := Vector.getElem_replicate ..
theorem reset_input (i : InputId) : State.reset.input i = {} := Vector.getElem_replicate ..
theorem reset_faultRecord (i : SlotId) : State.reset.faultRecord i = {} := Vector.getElem_replicate ..
theorem reset_window (i : WindowId) : State.reset.rmap.windows[i] = none := Vector.getElem_replicate ..
theorem reset_page (p : PageId) : State.reset.stm.pages[p] = none := Vector.getElem_replicate ..

/-- Settles O7: the blocks by their values, the vectors by their replicated records. -/
theorem powerOnValuesOfEveryBlock : Obligations.PowerOnValuesOfEveryBlock := by
  refine ⟨fun s => rfl, rfl, rfl, rfl, rfl, rfl, rfl, rfl, rfl, rfl, rfl, rfl, reset_faultRecord, reset_slot, rfl,
    reset_window, rfl, rfl, fun n => ?_, rfl, reset_page, rfl, reset_input, rfl⟩
  rw [reset_chan]
  exact ⟨rfl, rfl, rfl, rfl, rfl, rfl, rfl, rfl, rfl, rfl, rfl, rfl, rfl, rfl, rfl, rfl, rfl, rfl, rfl, rfl, rfl, rfl,
    rfl, rfl, rfl, rfl, rfl, rfl, rfl, rfl, rfl⟩

/-! ## Invariants at reset -/

/-- Nobody owes a reply at reset. -/
theorem reset_owes (d : Debtor) : ¬ State.reset.owes d := by
  cases d with
  | slot i => simp [State.owes, reset_slot]
  | clock | channel | access => simp [State.owes, State.reset]

theorem reset_clockInRange : State.reset.ClockInRange := ⟨by decide, fun d h => by cases h⟩

theorem reset_busInRange : State.reset.BusInRange :=
  ⟨by decide, by decide, by decide, by decide, by decide, by decide⟩

theorem reset_queuesInRange : State.reset.QueuesInRange := ⟨by decide, by decide, by decide, by decide⟩

theorem reset_repliesSound : State.reset.RepliesSound :=
  ⟨fun d _ h => absurd h (reset_owes d), fun d h => absurd h (reset_owes d), by decide, (fun h => by cases h), fun _ => rfl⟩

theorem reset_cycleSound : State.reset.CycleSound where
  held := rfl
  clocked h := absurd rfl h
  planned u hu := absurd hu List.not_mem_nil
  refresh c h := by cases h
  transfer c n h := by cases h
  access c h := by cases h
  only c i h := by cases h
  connected c h := by cases h

theorem reset_windowsSound : State.reset.WindowsSound where
  aligned i w h := by rw [reset_window] at h; cases h
  disjoint i j v w h := by rw [reset_window] at h; cases h

theorem reset_shadowSound : State.reset.ShadowSound where
  atMost := by decide
  keys := .nil
  windows e h := absurd h List.not_mem_nil

theorem reset_channelsOnEnabledSlots : State.reset.ChannelsOnEnabledSlots := fun n h => by
  rw [reset_chan] at h
  simp at h

theorem reset_channelsSound : State.reset.ChannelsSound where
  block n := by rw [reset_chan]; decide
  done n := by rw [reset_chan]; simp
  free n _ := by rw [reset_chan]; exact ⟨rfl, rfl, rfl⟩
  ring n h := by rw [reset_chan] at h; exact absurd rfl h
  level n := by rw [reset_chan]; decide
  pages n p := by rw [reset_page, reset_chan]; simp
  inFlight := fun n c h => by cases h

theorem reset_noticesSound : State.reset.NoticesSound where
  queued i := by rw [reset_input]; rfl
  notified i h := by rw [reset_input] at h; cases h
  off i _ := by rw [reset_input]
  lost i := by rw [reset_input]; decide

/-- Settles O56, invariant by invariant. -/
theorem invariantsHoldAtReset : Obligations.InvariantsHoldAtReset :=
  ⟨reset_clockInRange, reset_busInRange, reset_queuesInRange, reset_repliesSound, rfl, reset_cycleSound,
    reset_windowsSound, reset_shadowSound, reset_channelsOnEnabledSlots, reset_channelsSound, reset_noticesSound⟩

end Sys2Proof.Machine
end

