-- ==== Sys2Proof/Proofs/ReplyPlaces.lean ====
section
/-! SUPPORT. The reply places (R173, R176): every move keeps the rules on who owes a reply and on the places left. -/

namespace Sys2Proof.Machine

open Sys2Proof

/-! ## The link's places -/

/-- Every claim has its reserved place, and the places suffice (R173, R176). -/
structure Ml.Placed (m : Ml) : Prop where
  claims : (if m.resetPending then 0 else claimedPlaces m.command) + claimedPlaces m.stream ≤ m.reserved
  places : m.replies.length + m.reserved ≤ 16

namespace Ml.Placed

variable {m : Ml} {p : Pipe}

theorem room (can : m.canTake p = true) : m.replies.length + m.reserved < 16 ∧ m.resetPending = false := by
  simp only [Ml.canTake, Bool.and_eq_true, decide_eq_true_eq, Bool.not_eq_eq_eq_not, Bool.not_true] at can
  exact ⟨can.1.2, can.2⟩

theorem reply (h : m.Placed) (can : m.canTake p = true) (f : Frame) :
    ({ m with replies := m.replies ++ [f] } : Ml).Placed := by
  have free := (room can).1
  refine ⟨h.claims, ?_⟩
  simp only [List.length_append, List.length_singleton]
  omega

theorem begin (h : m.Placed) (can : m.canTake p = true) (kind : Byte) (tag : Half) :
    ({ m.setInProgress p (some ⟨kind, tag, true⟩) with reserved := m.reserved + 1 } : Ml).Placed := by
  obtain ⟨free, pending⟩ := room can
  have claims := h.claims
  have off := inProgress_of_canTake can
  cases p with
  | command | stream =>
    simp only [Ml.inProgress] at off
    rw [off] at claims
    simp only [pending, claimedPlaces, Bool.false_eq_true, if_false] at claims
    refine ⟨?_, by simp only [Ml.setInProgress]; omega⟩
    simp only [Ml.setInProgress, pending, Bool.false_eq_true, if_false, claimedPlaces, if_true]
    omega

theorem resetPart (h : m.Placed) (can : m.canTake .command = true) (r : Request) (f : Frame) :
    ({ m with command := some r, replies := m.replies ++ [f], resetPending := true } : Ml).Placed := by
  obtain ⟨free, pending⟩ := room can
  have claims := h.claims
  refine ⟨?_, ?_⟩
  · simp only [if_true]
    omega
  · simp only [List.length_append, List.length_singleton]
    omega

theorem answerCommand (h : m.Placed) (pending : m.resetPending = false) (status : Status) (payload : List Byte) :
    (m.answerCommand status payload).Placed := by
  have claims := h.claims
  have places := h.places
  unfold Ml.answerCommand
  split
  case h_2 => exact h
  case h_1 r command =>
    unfold Ml.complete
    rw [command, pending] at claims
    split
    case isTrue claim =>
      simp only [claimedPlaces, claim, Bool.false_eq_true, if_false, if_true] at claims
      refine ⟨?_, ?_⟩
      · simp only [claimedPlaces, pending, Bool.false_eq_true, if_false]
        omega
      · simp only [List.length_append, List.length_singleton]
        omega
    case isFalse claim =>
      refine ⟨?_, places⟩
      simp only [claimedPlaces, pending, Bool.false_eq_true, if_false]
      simp only [claimedPlaces] at claims
      omega

theorem answerStream (h : m.Placed) (status : Status) (payload : List Byte) : (m.answerStream status payload).Placed := by
  have claims := h.claims
  have places := h.places
  unfold Ml.answerStream
  split
  case h_2 => exact h
  case h_1 r stream =>
    unfold Ml.complete
    rw [stream] at claims
    split
    case isTrue claim =>
      have one : claimedPlaces (some r) = 1 := if_pos claim
      rw [one] at claims
      refine ⟨?_, ?_⟩
      · exact Nat.le_sub_of_add_le claims
      · simp only [List.length_append, List.length_singleton]
        omega
    case isFalse => exact ⟨(Nat.add_le_add_left (Nat.zero_le _) _).trans claims, places⟩

end Ml.Placed

/-! ## The accounts of the whole part -/

/-- The rules on replies over the whole part, with the places that replies and reservations share. -/
structure State.Accounts (s : State) : Prop where
  replies : s.RepliesSound
  places  : s.ml.replies.length + s.ml.reserved ≤ 16

namespace State.Accounts

variable {s t : State}

theorem placed (h : s.Accounts) : s.ml.Placed := ⟨h.replies.places, h.places⟩

/-- Where the pipe takes a command, nobody owes a reply. -/
theorem nobody (h : s.Accounts) (can : s.ml.canTake .command = true) (d : Debtor) : ¬ s.owes d := fun owed =>
  (h.replies.progress d owed).1 (inProgress_of_canTake can)

theorem of_nobody (ae : t.AeSound) (placed : t.ml.Placed) (nobody : ∀ d, ¬ t.owes d) : t.Accounts :=
  ⟨⟨fun d _ owed => absurd owed (nobody d), fun d owed => absurd owed (nobody d), placed.claims, ae.running, ae.idle⟩,
    placed.places⟩

/-- A command is taken, and one debtor owes its reply. -/
theorem of_one (h : s.Accounts) (can : s.ml.canTake .command = true) (ae : t.AeSound) (d : Debtor) (kind : Byte)
    (tag : Half) (ml : t.ml = { s.ml with command := some ⟨kind, tag, true⟩, reserved := s.ml.reserved + 1 })
    (others : ∀ e, e ≠ d → t.owes e → s.owes e) : t.Accounts := by
  have only : ∀ e, t.owes e → e = d := fun e owed =>
    of_not_not fun other => h.nobody can e (others e other owed)
  have placed : t.ml.Placed := ml ▸ h.placed.begin can kind tag
  refine ⟨⟨fun d e hd he => (only d hd).trans (only e he).symm, fun _ _ => ?_, placed.claims, ae.running, ae.idle⟩,
    placed.places⟩
  rw [ml]
  exact ⟨nofun, (Ml.Placed.room can).2⟩

/-- The debtor that owes the reply makes it, and with it perhaps the CANCEL's. -/
theorem of_answer (h : s.Accounts) (ae : t.AeSound) {d : Debtor} (owed : s.owes d) (placed : t.ml.Placed)
    (others : ∀ e, t.owes e → e ≠ d ∧ s.owes e) : t.Accounts :=
  of_nobody ae placed fun e owes => (others e owes).1 (h.replies.one e d (others e owes).2 owed)

/-- The link's requests stay, and nobody comes to owe a reply. -/
theorem of_same (h : s.Accounts) (ae : t.AeSound) (ml : t.ml.command = s.ml.command ∧ t.ml.stream = s.ml.stream ∧
    t.ml.reserved = s.ml.reserved ∧ t.ml.resetPending = s.ml.resetPending ∧ t.ml.replies = s.ml.replies)
    (owes : ∀ d, t.owes d → s.owes d) : t.Accounts := by
  obtain ⟨command, stream, reserved, pending, replies⟩ := ml
  refine ⟨⟨fun d e hd he => h.replies.one d e (owes d hd) (owes e he), fun d hd => ?_, ?_, ae.running, ae.idle⟩, ?_⟩
  · rw [command, pending]
    exact h.replies.progress d (owes d hd)
  · rw [command, stream, reserved, pending]
    exact h.replies.places
  · rw [replies, reserved]
    exact h.places

end State.Accounts

theorem resetPartTaken_begin (s : State) (kind : Byte) (tag : Half) :
    resetPartTaken (s.beginRequest .command kind tag) = s.updMl fun m => { m with
      command := some ⟨kind, tag, true⟩, replies := m.replies ++ [replyFrame ⟨kind, tag, true⟩ .ok []]
      resetPending := true } := rfl

/-- Every move of an engine at work keeps the accounts. -/
theorem Move.accounts {s t : State} (m : Move True s t) (h : s.Accounts) : t.Accounts := by
  have ae : t.AeSound := m.aeSound trivial h.replies.aeSound
  cases m with
  | quiet q =>
    have reserved : t.ml.reserved = s.ml.reserved := congrArg Essentials.reserved q.same
    exact ⟨q.repliesSound h.replies, by rw [reserved]; exact (Nat.add_le_add_right q.replies _).trans h.places⟩
  | reply p f can =>
    exact ⟨⟨h.replies.one, h.replies.progress, h.replies.places, ae.running, ae.idle⟩, (h.placed.reply can f).places⟩
  | resetPart kind tag can =>
    rw [resetPartTaken_begin] at ae ⊢
    exact .of_nobody ae (h.placed.resetPart can _ _) fun d owes =>
      h.nobody can d (by cases d <;> exact owes)
  | beginStream kind tag can =>
    have placed := h.placed.begin can kind tag
    exact ⟨⟨h.replies.one, h.replies.progress, placed.claims, ae.running, ae.idle⟩, placed.places⟩
  | deferClock kind tag f can =>
    refine h.of_one can ae .clock kind tag rfl fun e other owed => ?_
    cases e with
    | clock => exact absurd rfl other
    | slot | channel | access => exact owed
  | deferSlot kind tag i f can =>
    refine h.of_one can ae (.slot i) kind tag rfl fun e other owed => ?_
    cases e with
    | slot j =>
      have apart : i ≠ j := fun e => other (e ▸ rfl)
      simpa [State.owes, apart] using owed
    | clock | channel | access => exact owed
  | deferChannel kind tag n can =>
    refine h.of_one can ae .channel kind tag rfl fun e other owed => ?_
    cases e with
    | channel => exact absurd rfl other
    | slot | clock | access => exact owed
  | beginAccess kind tag a can =>
    refine h.of_one can ae .access kind tag rfl fun e other owed => ?_
    cases e with
    | access => exact absurd rfl other
    | slot | clock | channel => exact owed
  | answerClock status payload present =>
    have owed : s.owes .clock := present
    rw [replyCommand_eq] at ae ⊢
    refine h.of_answer ae owed (h.placed.answerCommand (h.replies.progress _ owed).2 _ _) fun e owes => ?_
    cases e with
    | clock => exact absurd rfl owes
    | slot | channel | access => exact ⟨nofun, owes⟩
  | answerSlot i status =>
    obtain ⟨_, same⟩ | ⟨present, payload, made⟩ := answerSlot_eq s i status
    · rw [same]; exact h
    · have owed : s.owes (.slot i) := present
      rw [made, replyCommand_eq] at ae ⊢
      refine h.of_answer ae owed (h.placed.answerCommand (h.replies.progress _ owed).2 _ _) fun e owes => ?_
      cases e with
      | slot j =>
        by_cases same : i = j
        · subst same; simp [State.owes] at owes
        · exact ⟨fun e => same (Debtor.slot.inj e).symm, by simpa [State.owes, same] using owes⟩
      | clock | channel | access => exact ⟨nofun, owes⟩
  | answerChannel n =>
    obtain ⟨_, same⟩ | ⟨present, payload, made⟩ := answerChannel_eq s n
    · rw [same]; exact h
    · have owed : s.owes .channel := by simp [State.owes, present]
      rw [made, replyCommand_eq] at ae ⊢
      refine h.of_answer ae owed (h.placed.answerCommand (h.replies.progress _ owed).2 _ _) fun e owes => ?_
      cases e with
      | channel => exact absurd rfl owes
      | slot | clock | access => exact ⟨nofun, owes⟩
  | endAccess status work =>
    have owed : s.owes .access := (work trivial).1
    obtain ⟨payload, echo, made⟩ := endAccess_eq s status
    have answered := h.placed.answerCommand (h.replies.progress _ owed).2 status payload
    rw [made] at ae ⊢
    refine h.of_answer ae owed ?_ fun e owes => ?_
    · change Ml.Placed (if _ then _ else _)
      split
      · exact answered.answerStream _ _
      · exact answered
    · cases e with
      | access => exact absurd rfl owes
      | slot | clock | channel => exact ⟨nofun, owes⟩
  | enter i new =>
    obtain ⟨bcu, -, -, engine, chanReply, -, -, -, -, command, stream, replies, reserved, pending, -⟩ :=
      (OnlySlotWork.enterState s i new).keeps
    refine h.of_same ae ⟨command, stream, reserved, pending, replies⟩ fun d owes => ?_
    cases d with
    | slot j =>
      simp only [State.owes, enterState_slot] at owes ⊢
      split at owes
      · next same => subst same; exact owes
      · exact owes
    | clock => simpa only [State.owes, bcu] using owes
    | channel => simpa only [State.owes, chanReply] using owes
    | access => simpa only [State.owes, engine] using owes
  | access f work =>
    refine h.of_same ae ⟨rfl, rfl, rfl, rfl, rfl⟩ fun d owes => ?_
    cases d with
    | access => exact (work trivial).1
    | slot | clock | channel => exact owes
  | grantAccess u p _ _ work =>
    refine h.of_same ae ⟨rfl, rfl, rfl, rfl, rfl⟩ fun d owes => ?_
    cases d with
    | access => exact work trivial
    | slot | clock | channel => exact owes
  | clock f _ _ deferred =>
    refine h.of_same ae ⟨rfl, rfl, rfl, rfl, rfl⟩ fun d owes => ?_
    cases d with
    | clock => simpa [State.owes, deferred] using owes
    | slot | access | channel => exact owes
  | channel | freeBus | grantRefresh | grantTransfer | disconnect =>
    exact h.of_same ae ⟨rfl, rfl, rfl, rfl, rfl⟩ fun d owes => by cases d <;> exact owes

end Sys2Proof.Machine
end

