-- ==== Sys2Proof/Proofs/Ranges.lean ====
section
/-! PROOF. The ranges of clock, bus and queues, the reply places and the storage (O55): every move keeps them, and so
does every other part of an effect. -/

namespace Sys2Proof.Machine

open Sys2Proof

/-! ## Steps and grants -/

/-- A property that does not look at the queue of commands, and that every command keeps, every step keeps. -/
theorem step_keeps {P : State → Prop} (queue : ∀ s cs, P s → P { s with pending := cs })
    (command : ∀ c s t, P s → exec c s = .next t → P t) {s t : State} (h : P s) (hs : step s = .next t) : P t := by
  unfold step at hs
  split at hs
  · cases hs; exact h
  · exact command _ _ _ (queue _ _ h) hs

/-- What becomes of the grant at the end of a cycle: a DEMAND burst or an access goes on, or work ends it (R33, R34). -/
theorem continueGrant_cases {R : Prop} {s : State} (sound : R → s.AeSound) :
    (∃ n, s.sbc.holder = some (.channel n) ∧ s.burstContinues n = true ∧ s.continueGrant = s.beginTransfer n) ∨
    (∃ u p, s.sbc.holder = some .ae ∧ u ∈ s.ae.units ∧ p ∈ u.cycles ∧ s.mayConnect p.slot p.direct = true ∧
      s.continueGrant = s.runPlan p) ∨
    Moves R s.freeBus s.continueGrant := by
  unfold State.continueGrant
  split
  case h_1 n holder =>
    split
    case isTrue continues => exact .inl ⟨n, holder, continues, rfl⟩
    case isFalse => exact .inr (.inr .refl)
  case h_2 holder =>
    have work : R → s.freeBus.AtWork := fun r => ⟨by simp [State.freeBus, (sound r).running holder], nofun⟩
    split
    case isTrue => exact .inr (.inr (Moves.accessBoundary work))
    case isFalse =>
      obtain same | ⟨u, p, hu, hp, connects, same⟩ | ⟨p, same⟩ := beginAccessCycle_cases s
      · exact .inr (.inr (same ▸ .refl))
      · exact .inr (.inl ⟨u, p, holder, hu, hp, connects, same⟩)
      · rw [same]
        exact .inr (.inr ((Moves.quiet (.handResult _ _)).trans (Moves.endAccess _ fun r => ⟨(work r).busy, nofun⟩)))
  case h_3 => exact .inr (.inr .refl)

/-! ## The bounds along the moves -/

theorem Move.pendingDivider {R : Prop} {s t : State} (m : Move R s t) :
    t.bcu.pendingDivider = s.bcu.pendingDivider := by
  cases m with
  | quiet q => exact congrArg Essentials.pendingDivider q.same
  | resetPart => rw [resetPartTaken_bcu]; rfl
  | deferClock _ _ f _ _ pending => exact pending
  | clock f _ pending => exact pending
  | answerClock => simp
  | answerSlot i status => rw [(answerSlot_keeps s i status).1]
  | answerChannel n => rw [(answerChannel_keeps s n).1]
  | endAccess status => rw [(endAccess_keeps s status).1]
  | enter i new => rw [(OnlySlotWork.enterState s i new).keeps.1]
  | _ => rfl

theorem Move.clockInRange {R : Prop} {s t : State} (m : Move R s t) (h : s.ClockInRange) : t.ClockInRange :=
  ⟨m.divider ▸ h.divider, fun d pending => h.pending d (m.pendingDivider ▸ pending)⟩

theorem State.Bounded.answerCommand {s : State} (h : s.Bounded) (status : Status) (payload : List Byte) :
    (s.updMl fun m => m.answerCommand status payload).Bounded := by
  obtain ⟨notices, -, commandIn, streamIn, -⟩ := Ml.answerCommand_keeps s.ml status payload
  exact ⟨h.sbc, ⟨commandIn ▸ h.ml.commandIn, streamIn ▸ h.ml.streamIn, notices ▸ h.ml.notices⟩, h.storage⟩

theorem State.Bounded.answerStream {s : State} (h : s.Bounded) (status : Status) (payload : List Byte) :
    (s.updMl fun m => m.answerStream status payload).Bounded := by
  obtain ⟨notices, -, commandIn, streamIn, -⟩ := Ml.answerStream_keeps s.ml status payload
  exact ⟨h.sbc, ⟨commandIn ▸ h.ml.commandIn, streamIn ▸ h.ml.streamIn, notices ▸ h.ml.notices⟩, h.storage⟩

/-- The bounds speak of the Slot Bus Controller, the link and the storage alone. -/
theorem State.Bounded.of_same {s t : State} (h : s.Bounded) (sbc : t.sbc = s.sbc)
    (ml : t.ml.commandIn = s.ml.commandIn ∧ t.ml.streamIn = s.ml.streamIn ∧
      t.ml.notices.length ≤ s.ml.notices.length) (stm : t.stm = s.stm) : t.Bounded := by
  obtain ⟨commandIn, streamIn, notices⟩ := ml
  refine ⟨sbc ▸ h.sbc, ⟨commandIn ▸ h.ml.commandIn, streamIn ▸ h.ml.streamIn, notices.trans h.ml.notices⟩, ?_⟩
  have storage := h.storage
  unfold State.StorageSound at storage ⊢
  rwa [stm]

/-- Another holder, burst count and cycle leave the bounds. -/
theorem Sbc.Bounded.grant {b : Sbc} (h : b.Bounded) (holder : Option Holder) (burst : Nat) (cycle : Option Cycle) :
    ({ b with holder := holder, burst := burst, cycle := cycle } : Sbc).Bounded :=
  ⟨h.debt, h.readyLimit, h.interval, h.countdown, h.timing⟩

theorem Move.bounded {R : Prop} {s t : State} (m : Move R s t) (h : s.Bounded) : t.Bounded := by
  cases m with
  | quiet q => exact q.bounded h
  | resetPart kind tag => rw [resetPartTaken_begin]; exact h.of_same rfl ⟨rfl, rfl, le_rfl⟩ rfl
  | reply | beginStream | deferClock | deferSlot | deferChannel | beginAccess | access | channel | clock =>
    exact h.of_same rfl ⟨rfl, rfl, le_rfl⟩ rfl
  | answerClock status payload =>
    rw [replyCommand_eq]
    exact (h.of_same (t := s.updBcu _) rfl ⟨rfl, rfl, le_rfl⟩ rfl).answerCommand _ _
  | answerSlot i status =>
    obtain ⟨_, same⟩ | ⟨_, payload, made⟩ := answerSlot_eq s i status
    · rw [same]; exact h
    · rw [made, replyCommand_eq]
      exact (h.of_same (t := s.modSlot i _) rfl ⟨rfl, rfl, le_rfl⟩ rfl).answerCommand _ _
  | answerChannel n =>
    obtain ⟨_, same⟩ | ⟨_, payload, made⟩ := answerChannel_eq s n
    · rw [same]; exact h
    · rw [made, replyCommand_eq]
      exact (h.of_same (t := s.setChanReply none) rfl ⟨rfl, rfl, le_rfl⟩ rfl).answerCommand _ _
  | endAccess status =>
    obtain ⟨payload, echo, made⟩ := endAccess_eq s status
    have off : (s.updAe fun _ => {}).Bounded := h.of_same rfl ⟨rfl, rfl, le_rfl⟩ rfl
    rw [made]
    have answered := off.answerCommand status payload
    cases s.ae.cancelTaken
    · exact answered
    · exact answered.answerStream .ok echo
  | enter i new =>
    obtain ⟨-, sbc, -, -, -, stm, -, -, -, -, -, -, -, -, -, commandIn, streamIn, notices⟩ :=
      (OnlySlotWork.enterState s i new).keeps
    exact h.of_same sbc ⟨commandIn, streamIn, notices⟩ stm
  | freeBus | grantRefresh | grantTransfer | grantAccess | disconnect => exact ⟨h.sbc.grant _ _ _, h.ml, h.storage⟩

/-! ## The burst count -/

/-- The burst count lies below a bound, is 0 on a FREE bus, and reaches 16 under a channel's grant alone (R34). -/
structure State.BurstWithin (k : Nat) (s : State) : Prop where
  less : s.sbc.burst < k
  free : s.sbc.holder = none → s.sbc.burst = 0
  full : 16 ≤ s.sbc.burst → ∃ n, s.sbc.holder = some (.channel n)

namespace State.BurstWithin

variable {k : Nat} {s t : State}

theorem of_same (h : s.BurstWithin k) (sbc : t.sbc.holder = s.sbc.holder ∧ t.sbc.burst = s.sbc.burst) :
    t.BurstWithin k := by
  obtain ⟨holder, burst⟩ := sbc
  exact ⟨burst ▸ h.less, by rw [holder, burst]; exact h.free, by rw [holder, burst]; exact h.full⟩

theorem of_zero (pos : 0 < k) (zero : t.sbc.burst = 0) : t.BurstWithin k :=
  ⟨zero ▸ pos, fun _ => zero, fun full => by omega⟩

theorem pos (h : s.BurstWithin k) : 0 < k := Nat.zero_lt_of_lt h.less

end State.BurstWithin

theorem Move.burstWithin {R : Prop} {k : Nat} {s t : State} (m : Move R s t) (h : s.BurstWithin k) :
    t.BurstWithin k := by
  cases m with
  | quiet q => exact h.of_same ⟨congrArg Essentials.holder q.same, congrArg Essentials.burst q.same⟩
  | resetPart kind tag => rw [resetPartTaken_begin]; exact h.of_same ⟨rfl, rfl⟩
  | answerClock => exact h.of_same (by simp)
  | answerSlot i status => exact h.of_same (by simp [answerSlot_keeps])
  | answerChannel n => exact h.of_same (by simp [answerChannel_keeps])
  | endAccess status => exact h.of_same (by simp [endAccess_keeps])
  | enter i new =>
    have sbc := (OnlySlotWork.enterState s i new).keeps.2.1
    exact h.of_same (by simp [sbc])
  | freeBus => exact .of_zero h.pos rfl
  | grantRefresh free | grantTransfer _ free | grantAccess _ _ free => exact .of_zero h.pos (h.free free)
  | reply | beginStream | deferClock | deferSlot | deferChannel | beginAccess | access | channel | clock | disconnect =>
    exact h.of_same ⟨rfl, rfl⟩

/-! ## The ranges together -/

/-- The ranges, the accounts and the bounds, with a burst count below a bound. -/
structure State.InRange (k : Nat) (s : State) : Prop where
  clock    : s.ClockInRange
  bounded  : s.Bounded
  accounts : s.Accounts
  burst    : s.BurstWithin k

theorem Moves.inRange {k : Nat} {s t : State} (m : Moves True s t) (h : s.InRange k) : t.InRange k :=
  m.keeps (fun _ _ m h => ⟨m.clockInRange h.clock, m.bounded h.bounded, m.accounts h.accounts, m.burstWithin h.burst⟩) h

namespace State.InRange

variable {k : Nat} {s t : State}

/-- Another grant that goes on under the same holder. -/
theorem regrant (h : s.InRange k) {j : Nat} (burst : t.BurstWithin j) (ae : t.AeSound)
    (sbc : s.sbc.Bounded → t.sbc.Bounded) (others : t.bcu = s.bcu ∧ t.ml = s.ml ∧ t.stm = s.stm)
    (owes : ∀ d, t.owes d → s.owes d) : t.InRange j := by
  obtain ⟨bcu, ml, stm⟩ := others
  have storage := h.bounded.storage
  refine ⟨⟨bcu ▸ h.clock.divider, bcu ▸ h.clock.pending⟩, ⟨sbc h.bounded.sbc, ml ▸ h.bounded.ml, ?_⟩,
    h.accounts.of_same ae (by simp [ml]) owes, burst⟩
  unfold State.StorageSound at storage ⊢
  rwa [stm]

/-- A cycle leaves the bus, counted in its burst (R27, R34). -/
theorem cycleOff (h : s.InRange 16) {burst : Nat} (less : burst ≤ s.sbc.burst + 1)
    (same : (∀ n, s.sbc.holder ≠ some (.channel n)) → burst = s.sbc.burst) :
    (s.updSbc fun b => { b with cycle := none, burst := burst }).InRange 17 := by
  have before := h.burst.less
  refine h.regrant ⟨?_, fun free => ?_, fun full => ?_⟩ ⟨h.accounts.replies.running, h.accounts.replies.idle⟩
    (fun b => b.grant _ _ _) ⟨rfl, rfl, rfl⟩ fun d owes => by cases d <;> exact owes
  · change burst < 17
    omega
  · have free : s.sbc.holder = none := free
    exact (same (by simp [free])).trans (h.burst.free free)
  · by_contra other
    have full : 16 ≤ burst := full
    have := same (not_exists.mp other)
    omega

/-- The end of a cycle leaves a grant with a burst count below 16, or the bus FREE (R34). -/
theorem continueGrant (h : s.InRange 17) : s.continueGrant.InRange 16 := by
  have sound := h.accounts.replies.aeSound
  obtain ⟨n, holder, continues, same⟩ | ⟨u, p, holder, -, -, -, same⟩ | moves := continueGrant_cases fun _ : True => sound
  · have less : s.sbc.burst < 16 := by
      simp only [State.burstContinues, Bool.and_eq_true, decide_eq_true_eq] at continues
      exact continues.1.1.1.2
    rw [same]
    exact h.regrant ⟨less, nofun, fun full => by have : 16 ≤ s.sbc.burst := full; omega⟩ ⟨nofun, sound.idle⟩
      (fun b => b.grant _ _ _) ⟨rfl, rfl, rfl⟩ fun d owes => by cases d <;> exact owes
  · have less : s.sbc.burst < 16 := by
      by_contra full
      obtain ⟨n, channel⟩ := h.burst.full (not_lt.mp full)
      rw [holder] at channel
      cases channel
    have running := sound.running holder
    rw [same]
    refine h.regrant ⟨less, nofun, fun full => by have : 16 ≤ s.sbc.burst := full; omega⟩ ⟨fun _ => rfl, nofun⟩
      (fun b => b.grant _ _ _) ⟨rfl, rfl, rfl⟩ fun d owes => ?_
    cases d with
    | access => simp [State.owes, running]
    | clock | slot | channel => exact owes
  · have freed : s.freeBus.InRange 16 := by
      have moved := Moves.inRange (.of .freeBus) h
      exact ⟨moved.clock, moved.bounded, moved.accounts, .of_zero (by decide) rfl⟩
    exact Moves.inRange moves freed

theorem clockChange (h : s.InRange k) (change : ClockChange s t) : t.InRange k := by
  obtain ⟨⟨f, rfl⟩, deferred, range, -⟩ := change
  refine ⟨range h.clock, ⟨h.bounded.sbc, h.bounded.ml, h.bounded.storage⟩,
    h.accounts.of_same ⟨h.accounts.replies.running, h.accounts.replies.idle⟩ ⟨rfl, rfl, rfl, rfl, rfl⟩ fun d owes => ?_,
    ⟨h.burst.less, h.burst.free, h.burst.full⟩⟩
  cases d with
  | clock => exact fun none => owes (deferred.trans none)
  | slot | channel | access => exact owes

/-- A link reset empties the link, and an access with a unit in flight keeps its command (R106, R183, R184). -/
theorem linkReset (h : s.InRange k) (r : LinkReset s t) : t.InRange k := by
  obtain ⟨sbc, -⟩ := r.others
  have storage := h.bounded.storage
  have unclaimed : ∀ r : Option Request, claimedPlaces (if s.ae.phase = .running then r.map Request.unclaimed else none) = 0 :=
    fun r => by split <;> cases r <;> rfl
  have owes : ∀ d, t.owes d → d = .access ∧ s.ae.phase = .running := fun d owed => by
    cases d with
    | clock => simp [State.owes, r.bcu] at owed
    | slot i => simp [State.owes, r.slot] at owed
    | channel => simp [State.owes, r.chanReply] at owed
    | access =>
      refine ⟨rfl, of_not_not fun off => ?_⟩
      simp [State.owes, r.ae, off] at owed
  have ae : t.AeSound := by
    refine ⟨fun holds => ?_, fun idle => ?_⟩
    · have running := h.accounts.replies.running (sbc ▸ holds)
      rw [r.ae, if_pos running, running]
    · rw [r.ae] at idle ⊢
      split at idle
      case isTrue running => rw [running] at idle; cases idle
      case isFalse off => rw [if_neg off]
  refine ⟨⟨r.bcu ▸ h.clock.divider, r.bcu ▸ h.clock.pending⟩, ⟨sbc ▸ h.bounded.sbc, ?_, ?_⟩,
    ⟨⟨fun d e hd he => ?_, fun d hd => ?_, ?_, ae.running, ae.idle⟩, ?_⟩, h.burst.of_same (by simp [sbc])⟩
  · rw [r.ml]
    exact ⟨Nat.zero_le _, Nat.zero_le _, Nat.zero_le _⟩
  · unfold State.StorageSound at storage ⊢
    rwa [r.bytes]
  · rw [(owes d hd).1, (owes e he).1]
  · obtain ⟨rfl, running⟩ := owes d hd
    have command := (h.accounts.replies.progress .access (by simp [State.owes, running])).1
    rw [r.ml]
    simpa [running, Ml.drop] using command
  · rw [r.ml]
    simp only [unclaimed]
    simp [Ml.drop]
  · rw [r.ml]
    simp [Ml.drop]

/-- The figures after a power-on or a reset event are those at reset. -/
theorem powerOn (s : State) (up : Bool) : (s.powerOnValues.updMl fun m => { m with up := up }).InRange 16 where
  clock := ⟨reset_clockInRange.divider, reset_clockInRange.pending⟩
  bounded := ⟨⟨reset_busInRange.debt, reset_busInRange.readyLimit, reset_busInRange.interval, reset_busInRange.countdown,
    reset_busInRange.timing⟩, ⟨Nat.zero_le _, Nat.zero_le _, Nat.zero_le _⟩, rfl⟩
  accounts := ⟨repliesSound_of_essentials (s := State.reset) rfl reset_repliesSound, Nat.zero_le _⟩
  burst := .of_zero (by decide) rfl

/-- Every command keeps the ranges. -/
theorem effect {c : Instr} (h : s.InRange 16) (e : Effect True c s t) : t.InRange 16 := by
  cases e with
  | work m => exact Moves.inRange m h
  | clock before change after => exact Moves.inRange after ((Moves.inRange before h).clockChange change)
  | cycleEnd before burst less same ends goesOn =>
    exact Moves.inRange goesOn (Moves.inRange ends ((Moves.inRange before h).cycleOff less same)).continueGrant
  | linkReset up => exact h.linkReset (linkResets_up up)
  | powerOn => exact powerOn s false
  | resetEvent => exact powerOn s true

/-- The ranges are those of the obligations. -/
theorem iff : s.InRange 16 ↔
    s.ClockInRange ∧ s.BusInRange ∧ s.QueuesInRange ∧ s.RepliesSound ∧ s.StorageSound := by
  constructor
  · rintro ⟨clock, ⟨⟨debt, readyLimit, interval, countdown, timing⟩, ⟨commandIn, streamIn, notices⟩, storage⟩,
      ⟨replies, places⟩, ⟨less, free, -⟩⟩
    exact ⟨clock, ⟨⟨less, free⟩, debt, readyLimit, interval, countdown, timing⟩,
      ⟨places, commandIn, streamIn, notices⟩, replies, storage⟩
  · rintro ⟨clock, ⟨⟨less, free⟩, debt, readyLimit, interval, countdown, timing⟩,
      ⟨places, commandIn, streamIn, notices⟩, replies, storage⟩
    exact ⟨clock, ⟨⟨debt, readyLimit, interval, countdown, timing⟩, ⟨commandIn, streamIn, notices⟩, storage⟩,
      ⟨replies, places⟩, ⟨less, free, fun full => by omega⟩⟩

end State.InRange

/-- Settles O55: the ranges are kept by every command, and do not look at the queue. -/
theorem rangesAndStorageStaySound : Obligations.RangesAndStorageStaySound := by
  intro s t clock bus queues replies storage hs
  refine State.InRange.iff.mp (step_keeps (P := State.InRange 16) (fun s cs h => ?_) (fun c s t h e => ?_)
    (State.InRange.iff.mpr ⟨clock, bus, queues, replies, storage⟩) hs)
  · exact ⟨⟨h.clock.divider, h.clock.pending⟩, ⟨h.bounded.sbc, h.bounded.ml, h.bounded.storage⟩,
      ⟨repliesSound_of_essentials (s := s) rfl h.accounts.replies, h.accounts.places⟩,
      ⟨h.burst.less, h.burst.free, h.burst.full⟩⟩
  · exact h.effect (exec_effect (fun _ => h.accounts.replies) e)

end Sys2Proof.Machine
end

