-- ==== Sys2Proof/Proofs/CyclesOnSlots.lean ====
section
/-! PROOF. Channels and the cycle in flight stay on slots they may use, and the lines follow (O52). -/

namespace Sys2Proof.Machine

open Sys2Proof

/-! ## Channels on ENABLED slots -/

/-- The channels and the slots' states stand as they were. -/
theorem State.ChannelsOnEnabledSlots.of_same {s t : State} (h : s.ChannelsOnEnabledSlots)
    (chans : ∀ n, (t.chan n).state = (s.chan n).state ∧ (t.chan n).slot = (s.chan n).slot)
    (slots : ∀ i, (t.slot i).state = (s.slot i).state) : t.ChannelsOnEnabledSlots := fun n active => by
  rw [(chans n).2, slots]
  exact h n ((chans n).1 ▸ active)

theorem Move.channelsOnEnabledSlots {R : Prop} {s t : State} (m : Move R s t) (h : s.ChannelsOnEnabledSlots) :
    t.ChannelsOnEnabledSlots := by
  have same : ∀ n : ChanId, (s.chan n).state = (s.chan n).state ∧ (s.chan n).slot = (s.chan n).slot := fun _ => ⟨rfl, rfl⟩
  cases m with
  | quiet q =>
    exact h.of_same (fun n => ⟨congrFun (congrArg Essentials.chanState q.same) n,
      congrFun (congrArg Essentials.chanSlot q.same) n⟩) fun i => congrFun (congrArg Essentials.slotState q.same) i
  | resetPart kind tag => rw [resetPartTaken_begin]; exact h
  | deferSlot kind tag i f _ state =>
    refine h.of_same same fun j => ?_
    rw [beginRequest_slot, State.modSlot_slot]
    split
    · next e => subst e; exact state
    · rfl
  | answerClock => exact h.of_same (by simp [State.chan]) (by simp [State.slot])
  | answerSlot i status => exact h.of_same (by simp [answerSlot_keeps]) (by simp [answerSlot_keeps])
  | answerChannel n =>
    exact h.of_same (by simp [State.chan, answerChannel_keeps]) (by simp [State.slot, answerChannel_keeps])
  | endAccess status =>
    exact h.of_same (by simp [State.chan, endAccess_keeps]) (by simp [State.slot, endAccess_keeps])
  | channel n f changed =>
    intro k active
    rw [State.modChan_chan] at active ⊢
    split at active
    case isTrue e =>
      subst e
      rw [if_pos rfl]
      obtain enabled | ⟨before, slot⟩ := changed active
      · exact enabled
      · rw [slot]; exact h n before
    case isFalse other => rw [if_neg other]; exact h k active
  | enter i new =>
    intro n active
    rw [enterState_chan] at active ⊢
    split at active
    case isTrue => rcases active with e | e <;> cases e
    case isFalse stays =>
      rw [if_neg stays, enterState_slot]
      have enabled := h n active
      split
      case isTrue e =>
        subst e
        by_contra leaves
        exact stays ⟨⟨enabled, leaves⟩, rfl, active⟩
      case isFalse => exact enabled
  | reply | beginStream | deferClock | deferChannel | beginAccess | access | clock | freeBus | grantRefresh
  | grantTransfer | grantAccess | disconnect => exact h

/-- The end of a cycle leaves the channels and the slots' states. -/
theorem State.ChannelsOnEnabledSlots.continueGrant {s : State} (h : s.ChannelsOnEnabledSlots) :
    s.continueGrant.ChannelsOnEnabledSlots := by
  obtain ⟨n, -, -, same⟩ | ⟨u, p, -, -, -, -, same⟩ | moves := continueGrant_cases (R := False) (s := s) False.elim
  · exact same ▸ h
  · exact same ▸ h
  · exact Moves.keeps (fun _ _ m => m.channelsOnEnabledSlots) moves h

/-- A channel that is active after a link reset was active before it, on the same slot. -/
theorem Channel.active_of_reset {c : Channel} {transfers : Bool} (h : (c.toPause.atBoundary transfers).state.active) :
    c.state.active ∧ (c.toPause.atBoundary transfers).slot = c.slot := by
  rw [Channel.toPause_atBoundary] at h ⊢
  split at h
  case isTrue e => rw [if_pos e]; exact ⟨h, rfl⟩
  case isFalse e =>
    rw [if_neg e]
    split at h
    case isTrue => rcases h with h | h <;> cases h
    case isFalse kept =>
      rw [if_neg kept]
      refine ⟨?_, rfl⟩
      dsimp only at h
      split at h
      case isTrue running => exact .inl running
      case isFalse => exact h

theorem Effect.channelsOnEnabledSlots {R : Prop} {c : Instr} {s t : State} (e : Effect R c s t)
    (h : s.ChannelsOnEnabledSlots) : t.ChannelsOnEnabledSlots := by
  have moved : ∀ {s t : State}, Moves R s t → s.ChannelsOnEnabledSlots → t.ChannelsOnEnabledSlots :=
    fun m => Moves.keeps (fun _ _ m => m.channelsOnEnabledSlots) m
  cases e with
  | work m => exact moved m h
  | @clock a _ _ before change after =>
    obtain ⟨⟨f, rfl⟩, -⟩ := change
    have begun : a.ChannelsOnEnabledSlots := moved before h
    exact moved after (begun.of_same (fun _ => ⟨rfl, rfl⟩) fun _ => rfl)
  | @cycleEnd a _ _ before burst _ _ ends goesOn =>
    have begun : a.ChannelsOnEnabledSlots := moved before h
    exact moved goesOn (moved ends (begun.of_same (fun _ => ⟨rfl, rfl⟩) fun _ => rfl)).continueGrant
  | linkReset up =>
    intro n active
    have r := linkResets_up up
    rw [r.chan] at active ⊢
    obtain ⟨before, slot⟩ := Channel.active_of_reset active
    rw [r.slot, slot]
    exact h n before
  | powerOn | resetEvent => exact reset_channelsOnEnabledSlots.of_same (fun _ => ⟨rfl, rfl⟩) fun _ => rfl

/-! ## The cycle in flight -/

/-- A cycle fits its holder and the states of the slots it connects (R19, R21, R30, R49, R119). -/
structure Cycle.Fits (c : Cycle) (h : Holder) (state : SlotId → SlotState) : Prop where
  refresh   : h = .refresh → c.kind = .refresh ∧ c.target = none ∧ c.eob = false
  transfer  : ∀ n, h = .channel n → (c.kind = .transferOut ∨ c.kind = .transferIn) ∧ c.target ≠ none ∧ c.direct = false
  access    : h = .ae → c.kind.isAccess ∧ c.target ≠ none ∧ c.eob = false
  only      : ∀ i, c.target = some i → ∀ j : SlotId, c.connected[j] = true ↔ j = i
  connected : ∀ i : SlotId, c.connected[i] = true →
    state i = .enabled ∨ (c.direct = true ∧ c.target = some i ∧ state i = .isolated)

/-- The states of the slots. -/
def State.states (s : State) (i : SlotId) : SlotState := (s.slot i).state

/-- The cycle on the bus, if there is one, fits the grant in force, under which BCLK runs. -/
structure State.BusFits (s : State) : Prop where
  fits    : ∀ c, s.sbc.cycle = some c → ∃ h, s.sbc.holder = some h ∧ c.Fits h s.states
  clocked : s.sbc.holder ≠ none → s.bcu.bclk = some s.bcu.divider
  planned : Planned s.ae.units

/-- Between events there is a cycle on the bus exactly under a grant. -/
def State.CycleHeld (s : State) : Prop := s.sbc.cycle.isSome = s.sbc.holder.isSome

theorem cycleSound_iff (s : State) : s.CycleSound ↔ s.BusFits ∧ s.CycleHeld := by
  constructor
  · intro h
    refine ⟨⟨fun c cycle => ?_, fun held => h.clocked fun none => ?_, h.planned⟩, h.held⟩
    · have held := h.held
      rw [cycle] at held
      obtain ⟨g, holder⟩ := Option.isSome_iff_exists.mp held.symm
      refine ⟨g, holder, ⟨fun e => h.refresh c cycle (e ▸ holder), fun n e => h.transfer c n cycle (e ▸ holder),
        fun e => h.access c cycle (e ▸ holder), fun i => h.only c i cycle, h.connected c cycle⟩⟩
    · have both := h.held
      rw [none] at both
      exact held (by simpa using both.symm)
  · rintro ⟨h, held⟩
    have of : ∀ {c g}, s.sbc.cycle = some c → s.sbc.holder = some g → c.Fits g s.states := fun cycle holder => by
      obtain ⟨g, e, fits⟩ := h.fits _ cycle
      rw [holder] at e
      cases e
      exact fits
    refine ⟨held, fun cycle => h.clocked ?_, h.planned, fun c cycle holder => (of cycle holder).refresh rfl,
      fun c n cycle holder => (of cycle holder).transfer n rfl, fun c cycle holder => (of cycle holder).access rfl,
      fun c i cycle => ?_, fun c cycle => ?_⟩
    · obtain ⟨c, cycle⟩ := Option.ne_none_iff_exists'.mp cycle
      obtain ⟨g, holder, -⟩ := h.fits c cycle
      simp [holder]
    · obtain ⟨g, -, fits⟩ := h.fits c cycle
      exact fits.only i
    · obtain ⟨g, -, fits⟩ := h.fits c cycle
      exact fits.connected

/-! ### The cycles a grant begins -/

theorem beginRefresh_fits (s : State) :
    ∃ c, s.beginRefresh.sbc.cycle = some c ∧ c.Fits .refresh s.states := by
  refine ⟨_, rfl, fun _ => ⟨rfl, rfl, rfl⟩, nofun, nofun, nofun, fun i h => .inl ?_⟩
  simpa [State.newCycle, State.states] using h

theorem onlySlot_connects (i j : SlotId) : (onlySlot i)[j] = true ↔ j = i := by
  rw [onlySlot_get, decide_eq_true_eq]

theorem beginTransfer_fits {s : State} {n : ChanId} (enabled : (s.slot (s.chan n).slot).state = .enabled) :
    ∃ c, (s.beginTransfer n).sbc.cycle = some c ∧ c.Fits (.channel n) s.states := by
  refine ⟨_, rfl, nofun, fun _ _ => ⟨?_, nofun, rfl⟩, nofun, fun i target j => ?_, fun i h => .inl ?_⟩
  · by_cases out : (s.chan n).direction = .out
    · exact .inl (if_pos out)
    · exact .inr (if_neg out)
  · cases target
    exact onlySlot_connects _ _
  · have same : i = (s.chan n).slot := (onlySlot_connects _ _).mp h
    subst same
    exact enabled

theorem runPlan_fits {s : State} {p : CyclePlan} (access : p.kind.isAccess)
    (connects : s.mayConnect p.slot p.direct = true) :
    ∃ c, (s.runPlan p).sbc.cycle = some c ∧ c.Fits .ae s.states := by
  refine ⟨_, rfl, nofun, nofun, fun _ => ⟨access, nofun, rfl⟩, fun i target j => ?_, fun i h => ?_⟩
  · cases target
    exact onlySlot_connects _ _
  · have same : i = p.slot := (onlySlot_connects _ _).mp h
    subst same
    simp only [State.mayConnect, Bool.or_eq_true, beq_iff_eq, Bool.and_eq_true] at connects
    exact connects.imp_right fun ⟨direct, isolated⟩ => ⟨direct, rfl, isolated⟩

/-! ### Along the moves -/

namespace State.BusFits

variable {s t : State}

theorem of_same (h : s.BusFits) (sbc : t.sbc.holder = s.sbc.holder ∧ t.sbc.cycle = s.sbc.cycle)
    (bcu : t.bcu.bclk = s.bcu.bclk ∧ t.bcu.divider = s.bcu.divider) (units : Planned t.ae.units)
    (states : t.states = s.states) : t.BusFits := by
  obtain ⟨holder, cycle⟩ := sbc
  obtain ⟨bclk, divider⟩ := bcu
  refine ⟨?_, ?_, units⟩
  · rw [holder, cycle, states]; exact h.fits
  · rw [holder, bclk, divider]; exact h.clocked

/-- A grant: a cycle that fits it is on the bus, and BCLK runs. -/
theorem granted (h : s.BusFits) {g : Holder} (holder : t.sbc.holder = some g)
    (begun : ∃ c, t.sbc.cycle = some c ∧ c.Fits g s.states) (bclk : s.bcu.bclk = some s.bcu.divider)
    (bcu : t.bcu = s.bcu) (units : t.ae.units = s.ae.units) (states : t.states = s.states) : t.BusFits := by
  obtain ⟨c, cycle, fits⟩ := begun
  refine ⟨fun d e => ?_, fun _ => bcu ▸ bclk, units ▸ h.planned⟩
  rw [cycle] at e
  cases e
  exact ⟨g, holder, states ▸ fits⟩

/-- No cycle on the bus. -/
theorem off (h : s.BusFits) (cycle : t.sbc.cycle = none) (holder : t.sbc.holder = s.sbc.holder ∨ t.sbc.holder = none)
    (bcu : t.bcu = s.bcu) (units : t.ae = s.ae) : t.BusFits := by
  refine ⟨fun c e => absurd (cycle.symm.trans e) nofun, fun held => ?_, units ▸ h.planned⟩
  obtain same | none := holder
  · rw [bcu]; exact h.clocked (same ▸ held)
  · exact absurd none held

end State.BusFits

theorem states_of_slots {s t : State} (h : t.slots = s.slots) : t.states = s.states := by
  unfold State.states State.slot
  rw [h]

theorem Move.busFits {R : Prop} {s t : State} (m : Move R s t) (h : s.BusFits) : t.BusFits := by
  cases m with
  | quiet q =>
    have same := q.same
    refine h.of_same ⟨congrArg Essentials.holder same, congrArg Essentials.cycle same⟩
      ⟨congrArg Essentials.bclk same, congrArg Essentials.divider same⟩ ?_ (congrArg Essentials.slotState same)
    have units : t.ae.units = s.ae.units := congrArg Essentials.units same
    exact units ▸ h.planned
  | resetPart kind tag => rw [resetPartTaken_begin]; exact h.of_same ⟨rfl, rfl⟩ ⟨rfl, rfl⟩ h.planned rfl
  | reply | beginStream | deferChannel | channel => exact h.of_same ⟨rfl, rfl⟩ ⟨rfl, rfl⟩ h.planned rfl
  | deferClock kind tag f _ divider _ bclk => exact h.of_same ⟨rfl, rfl⟩ ⟨bclk, divider⟩ h.planned rfl
  | deferSlot kind tag i f _ state =>
    refine h.of_same ⟨rfl, rfl⟩ ⟨rfl, rfl⟩ h.planned (funext fun j => ?_)
    unfold State.states
    rw [beginRequest_slot, State.modSlot_slot]
    split
    · next e => subst e; exact state
    · rfl
  | beginAccess => exact h.of_same ⟨rfl, rfl⟩ ⟨rfl, rfl⟩ (fun u hu => absurd hu List.not_mem_nil) rfl
  | answerClock =>
    refine h.of_same (by simp) ?_ (by simpa using h.planned) (states_of_slots (by simp))
    simp only [replyCommand_keeps]
    exact ⟨rfl, rfl⟩
  | answerSlot i status =>
    refine h.of_same ?_ ?_ ?_ (funext (answerSlot_keeps s i status).2.2.2.2.2.2) <;> simp only [answerSlot_keeps]
    exacts [⟨trivial, trivial⟩, ⟨trivial, trivial⟩, h.planned]
  | answerChannel n =>
    refine h.of_same ?_ ?_ ?_ (states_of_slots ?_) <;> simp only [answerChannel_keeps]
    exacts [⟨trivial, trivial⟩, ⟨trivial, trivial⟩, h.planned]
  | endAccess status =>
    refine h.of_same ?_ ?_ ?_ (states_of_slots ?_) <;> simp only [endAccess_keeps]
    exacts [⟨trivial, trivial⟩, ⟨trivial, trivial⟩, fun u hu => absurd hu List.not_mem_nil]
  | access f _ _ planned => exact h.of_same ⟨rfl, rfl⟩ ⟨rfl, rfl⟩ (planned h.planned) rfl
  | enter i new leaves =>
    obtain ⟨bcu, sbc, -, ae, -⟩ := (OnlySlotWork.enterState s i new).keeps
    refine ⟨fun c cycle => ?_, by rw [sbc, bcu]; exact h.clocked, by rw [ae]; exact h.planned⟩
    rw [sbc] at cycle ⊢
    obtain ⟨g, holder, fits⟩ := h.fits c cycle
    refine ⟨g, holder, fits.refresh, fits.transfer, fits.access, fits.only, fun j connected => ?_⟩
    have before := fits.connected j connected
    unfold State.states at before ⊢
    rw [enterState_slot]
    split
    case isFalse => exact before
    case isTrue e =>
      subst e
      obtain apart | enabled | ⟨notEnabled, notIsolated⟩ := leaves
      · simp only [State.connects, cycle] at apart
        rw [apart] at connected
        cases connected
      · exact .inl enabled
      · obtain enabled | ⟨-, -, isolated⟩ := before
        · exact absurd enabled notEnabled
        · exact absurd isolated notIsolated
  | clock f divider _ _ bclk =>
    refine ⟨h.fits, fun held => ?_, h.planned⟩
    have runs := bclk held (h.clocked held)
    rw [← divider] at runs
    exact runs
  | freeBus => exact h.off rfl (.inr rfl) rfl rfl
  | grantRefresh _ bclk => exact h.granted rfl (beginRefresh_fits s) bclk rfl rfl rfl
  | grantTransfer n _ bclk enabled => exact h.granted rfl (beginTransfer_fits enabled) bclk rfl rfl rfl
  | grantAccess u p _ bclk _ hu hp connects =>
    exact h.granted rfl (runPlan_fits (h.planned u hu p hp) connects) bclk rfl rfl rfl
  | disconnect c i flight refresh =>
    obtain ⟨g, holder, fits⟩ := h.fits c flight
    refine ⟨fun d cycle => ?_, h.clocked, h.planned⟩
    cases cycle
    have target : c.target = none := by
      cases g with
      | refresh => exact (fits.refresh rfl).2.1
      | channel n => rcases (fits.transfer n rfl).1 with e | e <;> rw [refresh] at e <;> cases e
      | ae => exact absurd refresh (fits.access rfl).1.2.2
    refine ⟨g, holder, fits.refresh, fits.transfer, fits.access, fun j e => ?_, fun j connected => ?_⟩
    · exact absurd e (by simp [target])
    · refine fits.connected j ?_
      simp only [Fin.getElem_fin, Vector.getElem_set] at connected ⊢
      split at connected
      · cases connected
      · exact connected

theorem Move.cycleHeld {R : Prop} {s t : State} (m : Move R s t) (h : s.CycleHeld) : t.CycleHeld := by
  have same : ∀ {t : State}, t.sbc = s.sbc → t.CycleHeld := fun sbc => by
    unfold State.CycleHeld
    rw [sbc]
    exact h
  cases m with
  | quiet q =>
    have holder : t.sbc.holder = s.sbc.holder := congrArg Essentials.holder q.same
    unfold State.CycleHeld
    rw [holder, q.cycle]
    exact h
  | resetPart kind tag => rw [resetPartTaken_begin]; exact h
  | answerClock => exact same (by simp)
  | answerSlot i status => exact same (answerSlot_keeps s i status).2.1
  | answerChannel n => exact same (answerChannel_keeps s n).2.1
  | endAccess status => exact same (endAccess_keeps s status).2.1
  | enter i new => exact same (OnlySlotWork.enterState s i new).keeps.2.1
  | freeBus | grantRefresh | grantTransfer | grantAccess => rfl
  | disconnect c i flight =>
    unfold State.CycleHeld at h
    rw [flight] at h
    exact h
  | reply | beginStream | deferClock | deferSlot | deferChannel | beginAccess | access | channel | clock => exact h

/-! ### Along the effects -/

/-- The end of a cycle leaves another cycle under the grant, or the bus FREE. -/
theorem State.BusFits.continueGrant {s : State} (h : s.BusFits) : s.continueGrant.BusFits ∧ s.continueGrant.CycleHeld := by
  obtain ⟨n, holder, continues, same⟩ | ⟨u, p, holder, hu, hp, connects, same⟩ | moves :=
    continueGrant_cases (R := False) (s := s) False.elim
  · have enabled : (s.slot (s.chan n).slot).state = .enabled := by
      simp only [State.burstContinues, Bool.and_eq_true] at continues
      exact enabled_of_chanRequests continues.1.1.2
    rw [same]
    exact ⟨h.granted rfl (beginTransfer_fits enabled) (h.clocked (by simp [holder])) rfl rfl rfl, rfl⟩
  · rw [same]
    exact ⟨h.granted rfl (runPlan_fits (h.planned u hu p hp) connects) (h.clocked (by simp [holder])) rfl rfl rfl, rfl⟩
  · have freed : s.freeBus.BusFits ∧ s.freeBus.CycleHeld := ⟨h.off rfl (.inr rfl) rfl rfl, rfl⟩
    exact Moves.keeps (P := fun t => t.BusFits ∧ t.CycleHeld)
      (fun _ _ m k => ⟨m.busFits k.1, m.cycleHeld k.2⟩) moves freed

theorem Effect.cycleSound {R : Prop} {c : Instr} {s t : State} (e : Effect R c s t) (h : s.CycleSound) : t.CycleSound := by
  rw [cycleSound_iff] at h ⊢
  have moved : ∀ {s t : State}, Moves R s t → s.BusFits ∧ s.CycleHeld → t.BusFits ∧ t.CycleHeld :=
    fun m => Moves.keeps (P := fun t => t.BusFits ∧ t.CycleHeld) (fun _ _ m k => ⟨m.busFits k.1, m.cycleHeld k.2⟩) m
  cases e with
  | work m => exact moved m h
  | @clock a b _ before change after =>
    obtain ⟨begun, held⟩ := moved before h
    obtain ⟨⟨f, rfl⟩, -, -, bclk⟩ := change
    exact moved after ⟨⟨begun.fits, fun grant => bclk grant (begun.clocked grant), begun.planned⟩, held⟩
  | @cycleEnd a _ _ before burst _ _ ends goesOn =>
    have begun : a.BusFits := (moved before h).1
    have off : (a.updSbc fun b => { b with cycle := none, burst := burst }).BusFits := begun.off rfl (.inl rfl) rfl rfl
    exact moved goesOn (State.BusFits.continueGrant (Moves.keeps (fun _ _ m => m.busFits) ends off))
  | linkReset up =>
    have r := linkResets_up up
    obtain ⟨sbc, -⟩ := r.others
    refine ⟨h.1.of_same (by simp [sbc]) (by rw [r.bcu]; exact ⟨rfl, rfl⟩) ?_ ?_, ?_⟩
    · rw [r.ae]
      split
      · exact h.1.planned
      · exact fun u hu => absurd hu List.not_mem_nil
    · unfold State.states
      simp only [r.slot]
    · unfold State.CycleHeld
      rw [sbc]
      exact h.2
  | powerOn | resetEvent => exact ⟨⟨nofun, fun held => absurd rfl held, fun u hu => absurd hu List.not_mem_nil⟩, rfl⟩

/-! ## The lines -/

section Lines

variable {s : State} {i : SlotId}

theorem railsClosed_iff (t : SlotState) : t.railsClosed = true ↔ ¬ (t = .off ∨ t = .fault) := by
  cases t <;> simp [SlotState.railsClosed]

/-- A connected slot has its rails closed (R19, R49). -/
theorem State.CycleSound.railsClosed (h : s.CycleSound) (connects : s.connects i = true) :
    (s.slot i).state.railsClosed = true := by
  unfold State.connects at connects
  split at connects
  case h_2 => cases connects
  case h_1 c cycle =>
    obtain enabled | ⟨-, -, isolated⟩ := h.connected c cycle i connects
    · rw [enabled]; rfl
    · rw [isolated]; rfl

/-- Under a channel's grant the connected slot is the cycle's target. -/
theorem State.CycleSound.connected_iff {c : Cycle} {n : ChanId} (h : s.CycleSound) (cycle : s.sbc.cycle = some c)
    (holder : s.sbc.holder = some (.channel n)) : c.connected[i] = true ↔ c.target = some i := by
  obtain ⟨-, target, -⟩ := h.transfer c n cycle holder
  obtain ⟨k, target⟩ := Option.ne_none_iff_exists'.mp target
  rw [h.only c k cycle target i, target, Option.some_inj, eq_comm]

theorem tak_iff (h : s.CycleSound) (n : ChanId) :
    (s.transferring n && s.connects i) = true ↔
      ∃ c, s.sbc.cycle = some c ∧ c.target = some i ∧ s.sbc.holder = some (.channel n) := by
  simp only [State.transferring, State.connects, Bool.and_eq_true, beq_iff_eq]
  constructor
  · rintro ⟨⟨-, holder⟩, connects⟩
    split at connects
    case h_2 => cases connects
    case h_1 c cycle => exact ⟨c, cycle, (h.connected_iff cycle holder).mp connects, holder⟩
  · rintro ⟨c, cycle, target, holder⟩
    rw [cycle]
    exact ⟨⟨rfl, holder⟩, (h.connected_iff cycle holder).mpr target⟩

/-- EOB is asserted only in a transfer cycle (R119). -/
theorem eob_iff (h : s.CycleSound) {c : Cycle} (cycle : s.sbc.cycle = some c) :
    (c.eob && c.connected[i]) = true ↔
      ∃ d n, s.sbc.cycle = some d ∧ d.target = some i ∧ s.sbc.holder = some (.channel n) ∧ d.eob = true := by
  rw [Bool.and_eq_true]
  constructor
  · rintro ⟨eob, connected⟩
    have held := h.held
    rw [cycle] at held
    obtain ⟨g, holder⟩ := Option.isSome_iff_exists.mp held.symm
    cases g with
    | refresh => rw [(h.refresh c cycle holder).2.2] at eob; cases eob
    | ae => rw [(h.access c cycle holder).2.2] at eob; cases eob
    | channel n => exact ⟨c, n, cycle, (h.connected_iff cycle holder).mp connected, holder, eob⟩
  · rintro ⟨d, n, same, target, holder, eob⟩
    rw [cycle] at same
    cases same
    exact ⟨eob, (h.connected_iff cycle holder).mpr target⟩

theorem drives_iff (k : CycleKind) : k.drives = true ↔
    k = .transferOut ∨ k = .ioByteWrite ∨ k = .ioWordWrite ∨ k = .memByteWrite ∨ k = .memWordWrite := by
  cases k <;> simp [CycleKind.drives, CycleKind.reads]

theorem chanWidth_wide (n : ChanId) : (chanWidth n == 2) = decide (4 ≤ n.val) := by
  unfold chanWidth
  split <;> simp <;> omega

theorem bclk_eq (b : Bcu) : b.bclk =
    if b.clock = .run ∨ (b.clock = .retuning ∧ b.settling = none) then some b.divider else none := by
  unfold Bcu.bclk
  cases b.clock <;> simp

/-- With the rails open a slot's own lines are not driven, and no cycle connects it (R43). -/
theorem lines_open (h : s.CycleSound) (dark : (s.slot i).state = .off ∨ (s.slot i).state = .fault) :
    s.slotBclk i = none ∧ s.srst i = none ∧ (∀ n, s.tak i n = none) ∧ s.eob i = none ∧ s.connects i = false := by
  have rails : (s.slot i).state.railsClosed = false := by
    rw [← Bool.not_eq_true, railsClosed_iff, not_not]
    exact dark
  refine ⟨by simp [State.slotBclk, rails], ?_, fun n => by simp [State.tak, rails], by simp [State.eob, rails], ?_⟩
  · unfold State.srst
    rcases dark with e | e <;> rw [e]
  · rw [← Bool.not_eq_true]
    intro connects
    rw [h.railsClosed connects] at rails
    cases rails

/-- A slot that is not connected sees idle lines (R19). -/
theorem sharedLines_open (apart : s.connects i = false) : s.sharedLines i = SharedLines.idle := by
  unfold State.connects at apart
  unfold State.sharedLines
  cases cycle : s.sbc.cycle with
  | none => rfl
  | some c =>
    rw [cycle] at apart
    exact if_neg (by simpa using apart)

/-- A connected slot sees the strobe, RFSH, the address and the data of its cycle (R19, R21). -/
theorem sharedLines_connected {c : Cycle} (cycle : s.sbc.cycle = some c) (connected : c.connected[i] = true) :
    s.sharedLines i = {
      strobe := some c.kind.strobe, rfsh := decide (c.kind = .refresh), crdy := .card, address := some c.address
      dataLow := if c.kind.drives then some (lowByte c.driven) else none
      dataHigh := if c.kind.drives && s.cycleWide c.kind then some (highByte c.driven) else none } := by
  unfold State.sharedLines
  rw [cycle]
  exact if_pos connected

/-- With the rails closed a slot's own lines are driven by the clock, its state and the transfer to it (R43, R108). -/
theorem lines_closed (h : s.CycleSound) (closed : ¬ ((s.slot i).state = .off ∨ (s.slot i).state = .fault)) :
    s.slotBclk i = some s.bcu.bclk ∧
    s.srst i = some (decide ((s.slot i).state = .powering ∨ (s.slot i).state = .resetting)) ∧
    (∀ n, s.tak i n = some (s.transferring n && s.connects i)) ∧
    ∃ on : Bool, s.eob i = some on ∧
      (on = true ↔ ∃ c n, s.sbc.cycle = some c ∧ c.target = some i ∧ s.sbc.holder = some (.channel n) ∧ c.eob = true) := by
  have rails := (railsClosed_iff (s.slot i).state).mpr closed
  refine ⟨if_pos rails, ?_, fun n => if_pos rails, _, if_pos rails, ?_⟩
  · unfold State.srst
    split <;> simp_all
  · cases cycle : s.sbc.cycle with
    | none => simp
    | some c => simpa only [cycle] using eob_iff h cycle

end Lines

/-- Settles O52: the channels and the cycle along the effects, and the lines from the cycle. -/
theorem runningChannelsStayOnEnabledSlots : Obligations.RunningChannelsStayOnEnabledSlots := by
  refine ⟨fun s t h => step_keeps (fun s _ h => h.of_same (fun _ => ⟨rfl, rfl⟩) fun _ => rfl)
      (fun c s t h e => (exec_effect (R := False) False.elim e).channelsOnEnabledSlots h) h,
    fun s t h => step_keeps
      (fun s _ h => ⟨h.held, h.clocked, h.planned, h.refresh, h.transfer, h.access, h.only, h.connected⟩)
      (fun c s t h e => (exec_effect (R := False) False.elim e).cycleSound h) h,
    fun s i h => ⟨lines_open h, fun closed => ?_, sharedLines_open, fun c cycle connected => ?_⟩⟩
  · obtain ⟨bclk, srst, tak, eob⟩ := lines_closed h closed
    rw [bclk_eq] at bclk
    exact ⟨bclk, srst, fun n => ⟨_, tak n, tak_iff h n⟩, eob⟩
  · rw [sharedLines_connected cycle connected]
    simp only [SharedLines.mk.injEq, true_and]
    refine ⟨?_, if_congr (drives_iff _) rfl rfl, if_congr ?_ rfl rfl⟩
    · cases c.kind <;> rfl
    · rw [Bool.and_eq_true, drives_iff]
      refine and_congr_right fun _ => ?_
      unfold State.cycleWide
      generalize s.sbc.holder = holder
      cases holder with
      | none => exact Iff.rfl
      | some g =>
        cases g with
        | channel n => exact iff_of_eq (congrArg (· = true) (chanWidth_wide n))
        | refresh | ae => exact Iff.rfl

end Sys2Proof.Machine
end

