-- ==== Sys2Proof/Proofs/ClockRequests.lean ====
section
/-! PROOF. SET_CLOCK (O11, O16), PARK and CLOCK_STOP (O12), WAKE (O13), and the end of settling (O14). -/

namespace Sys2Proof.Machine

open Sys2Proof

/-! ## Requests taken at once -/

section Taken

variable {s : State} {tag : Half}

theorem State.ready.command (h : s.ready .command) : s.ml.command = none := h.idle

theorem exec_setClock (h : s.ready .command) (target : Half) :
    exec (.setClock tag target) s = .next (setClockTaken target (s.beginRequest .command 0x10 tag)) :=
  congrArg Host.Outcome.next (offer_ready h rfl (by simp) (by simp) (by simp) _)

theorem exec_park (h : s.ready .command) :
    exec (.park tag) s = .next (parkTaken (s.beginRequest .command 0x11 tag)) :=
  congrArg Host.Outcome.next (offer_ready h rfl (Nat.zero_le _) (Nat.zero_le _) (Nat.zero_le _) _)

theorem exec_wake (h : s.ready .command) :
    exec (.wake tag) s = .next (wakeTaken (s.beginRequest .command 0x12 tag)) :=
  congrArg Host.Outcome.next (offer_ready h rfl (Nat.zero_le _) (Nat.zero_le _) (Nat.zero_le _) _)

theorem exec_clockStop (h : s.ready .command) :
    exec (.clockStop tag) s = .next (clockStopTaken (s.beginRequest .command 0x13 tag)) :=
  congrArg Host.Outcome.next (offer_ready h rfl (Nat.zero_le _) (Nat.zero_le _) (Nat.zero_le _) _)

/-- Settles O13, by the clock state. -/
theorem wakeByClockState : Obligations.WakeByClockState := by
  intro s tag h
  rw [exec_wake h]
  have answered := replyCommand_begin (kind := 0x12) (tag := tag) h.command .ok s.clockReport
  unfold wakeTaken
  rw [beginRequest_bcu]
  cases s.bcu.clock with
  | parked | starting => rfl
  | run | retuning | stopped => exact congrArg Host.Outcome.next answered

/-! ## SET_CLOCK -/

theorem setClockPayload_eq (s : State) (target error : Half) (clamped : Bool) :
    s.setClockPayload target error clamped =
      s.clockReport ++ le 2 target.toNat ++ le 2 error.toNat ++ [if clamped then 1 else 0] := by
  have flags : replyFlags clamped = if clamped then 1 else 0 := by cases clamped <;> rfl
  rw [State.setClockPayload, flags]

theorem refuseSetClock_begin (h : s.ml.command = none) (target : Half) (status : Status) :
    (s.beginRequest .command 0x10 tag).refuseSetClock target status =
      s.replyAtOnce ⟨0x90, status.code, tag, s.clockReport ++ le 2 target.toNat ++ [0, 0, 0]⟩ := by
  unfold State.refuseSetClock
  rw [replyCommand_begin h]
  have payload : (s.beginRequest .command 0x10 tag).setClockPayload target 0 false =
      s.clockReport ++ le 2 target.toNat ++ [0, 0, 0] := List.append_assoc _ [0, 0] [0]
  rw [payload]
  rfl

theorem setClock_zero {target : Half} (zero : target.toNat = 0) :
    setClockTaken target s = s.refuseSetClock target .badArg := if_pos zero

/-- The clock while a SET_CLOCK in RUN waits for its retune (R8). -/
def Bcu.retuneTo (b : Bcu) (divider : Nat) (deferred : ClockReply) : Bcu :=
  { b with pendingDivider := some divider, clock := .retuning, settling := none, deferred := some deferred }

/-- A SET_CLOCK in RUN that changes D begins a retune (R8). -/
theorem setClock_retunes {target : Half} (positive : target.toNat ≠ 0) (run : s.bcu.clock = .run)
    (idle : s.bcu.waiting = none) (changes : clampDivider (nearestDivider target.toNat) ≠ s.bcu.divider) :
    setClockTaken target (s.beginRequest .command 0x10 tag) =
      ((s.updBcu fun b => b.retuneTo (clampDivider (nearestDivider target.toNat)) (.setClock target
        (clockError target.toNat (clampDivider (nearestDivider target.toNat)))
        (decide (clampDivider (nearestDivider target.toNat) ≠ nearestDivider target.toNat)))).beginRequest
          .command 0x10 tag).settle := by
  unfold setClockTaken
  rw [beginRequest_bcu, run, if_neg positive]
  dsimp only
  rw [if_neg (not_not.mpr idle), if_neg changes]
  rfl

/-- A retune begins to settle in the event that finds the bus FREE; D stays until it ends (R8). -/
theorem retune_settles {u : State} {b : Bcu} {d : Nat} {r : ClockReply} (bcu : u.bcu = b.retuneTo d r) :
    u.settle.bcu.clock = .retuning ∧ u.settle.bcu.settling = (if u.sbc.holder = none then some 2400 else none) ∧
    u.settle.bcu.divider = b.divider ∧ u.settle.bcu.pendingDivider = some d ∧ u.settle.bcu.deferred = some r := by
  obtain ⟨woke, clock⟩ := settle_bcu u
  rw [clock, bcu]
  split <;> exact ⟨rfl, rfl, rfl, rfl, rfl⟩

/-- Settles O11, by the clock state; what a retune makes of the clock is what closes its event. -/
theorem setClockByClockState : Obligations.SetClockByClockState := by
  intro s tag target h t nearest divider error clamped refuse
  have refused := refuseSetClock_begin (tag := tag) h.command target
  rw [exec_setClock h]
  refine ⟨fun positive run idle changes => ⟨_, rfl, ?_⟩, congrArg Host.Outcome.next ?_⟩
  · rw [setClock_retunes positive run idle changes]
    exact retune_settles rfl
  · by_cases zero : t = 0
    · rw [if_pos zero]
      exact (setClock_zero zero).trans (refused .badArg)
    · rw [if_neg zero]
      cases clock : s.bcu.clock with
      | run =>
        by_cases waits : s.bcu.waiting ≠ none
        · rw [if_pos waits]
          unfold setClockTaken
          rw [beginRequest_bcu, clock, if_neg zero]
          exact (if_pos waits).trans (refused .busy)
        · by_cases equal : divider = s.bcu.divider
          · rw [if_neg waits, if_pos equal]
            unfold setClockTaken
            rw [beginRequest_bcu, clock, if_neg zero]
            refine (if_neg waits).trans ((if_pos equal).trans ?_)
            rw [replyCommand_begin h.command, setClockPayload_eq]
            rfl
          · have idle : s.bcu.waiting = none := not_not.mp waits
            rw [setClock_retunes zero clock idle equal, if_neg waits, if_neg equal]
            rfl
      | stopped =>
        unfold setClockTaken
        rw [beginRequest_bcu, clock, if_neg zero]
        rfl
      | starting | retuning | parked =>
        unfold setClockTaken
        rw [beginRequest_bcu, clock, if_neg zero]
        exact refused _

/-- What the divider computation gives for a target (R2). -/
theorem nearestDivider_spec {t : Nat} (positive : t ≠ 0) :
    2 * nearestDivider t * t ≤ 96000 + t ∧ 96000 < (2 * nearestDivider t + 1) * t := by
  have pos : 0 < 2 * t := by omega
  have low := Nat.div_mul_le_self (96000 + t) (2 * t)
  have high := Nat.lt_div_mul_add pos (a := 96000 + t)
  unfold nearestDivider
  constructor <;> nlinarith

/-- No larger divider is as near to the target (R2). -/
theorem nearestDivider_largest {t : Nat} (positive : t ≠ 0) (e : Nat)
    (near : (48000 - (e * t : Int)).natAbs ≤ (48000 - (nearestDivider t * t : Int)).natAbs) : e ≤ nearestDivider t := by
  obtain ⟨low, high⟩ := nearestDivider_spec positive
  by_contra more
  have farther : nearestDivider t * t + t ≤ e * t := by
    rw [← Nat.succ_mul]
    exact Nat.mul_le_mul_right t (not_le.mp more)
  have low : 2 * (nearestDivider t * t) ≤ 96000 + t := by rwa [← Nat.mul_assoc]
  have high : 96000 < 2 * (nearestDivider t * t) + t := by rwa [Nat.add_mul, Nat.mul_assoc, Nat.one_mul] at high
  rw [← Nat.cast_mul, ← Nat.cast_mul] at near
  generalize nearestDivider t * t = x at *
  generalize e * t = y at *
  omega

theorem clampDivider_eq (d : Nat) : clampDivider d = if d < 5 then 5 else if 12 < d then 12 else d := by
  unfold clampDivider
  split
  · omega
  · split <;> omega

/-- Settles O16, from a SET_CLOCK taken in STOPPED. -/
theorem dividerIsNearestAndClamped : Obligations.DividerIsNearestAndClamped := by
  intro s tag target h stopped positive
  have positive : target.toNat ≠ 0 := fun zero => positive (BitVec.eq_of_toNat_eq zero)
  have less := target.isLt
  obtain ⟨low, high⟩ := nearestDivider_spec positive
  have taken := (setClockByClockState s tag target h).2
  rw [if_neg positive, stopped] at taken
  exact ⟨_, nearestDivider target.toNat, clampDivider (nearestDivider target.toNat), _, _, taken, rfl, low, high,
    nearestDivider_largest positive, Nat.div_pos (by omega) (by omega), clampDivider_eq _, decide_eq_true_iff, rfl, rfl, rfl⟩

/-! ## PARK and CLOCK_STOP -/

theorem anyRunning_iff (s : State) :
    s.chans.toList.any (fun c => c.state == .running) = true ↔ ∃ n, (s.chan n).state = .running := by
  simp only [List.any_eq_true, Vector.mem_toList_iff, beq_iff_eq]
  constructor
  · rintro ⟨c, mem, running⟩
    obtain ⟨n, hn, rfl⟩ := Vector.mem_iff_getElem.mp mem
    exact ⟨⟨n, hn⟩, running⟩
  · rintro ⟨n, running⟩
    exact ⟨s.chan n, Vector.getElem_mem n.isLt, running⟩

/-- No pause, release or slot change waits. -/
structure State.NothingWaits (s : State) : Prop where
  slots : ∀ i, (s.slot i).waiting = none
  chans : ∀ n, (s.chan n).pauseWaits = false ∧ (s.chan n).releaseWaits = false

theorem State.NothingWaits.chanBoundaries (h : s.NothingWaits) : s.chanBoundaries = s :=
  List.foldl_fixed' (fun n => by simp [State.chanBoundary, h.chans n]) _

theorem State.NothingWaits.slotBoundaries (h : s.NothingWaits) : s.slotBoundaries = s :=
  List.foldl_fixed' (fun i => by simp [State.slotBoundary, h.slots i]) _

theorem serveChannels_same (h : ∀ n, s.cardAsks n = false) : s.serveChannels = s :=
  List.foldl_fixed' (fun n => by simp [State.serveChannel, h n]) _

/-- With nothing else to do, what closes the event carries the wait out, replies and admits (R10, R15). -/
theorem settle_waiting {w : ClockWait} (free : s.sbc.holder = none) (run : s.bcu.clock = .run)
    (waiting : s.bcu.waiting = some w) (deferred : s.bcu.deferred ≠ none) (nothing : s.NothingWaits)
    (asks : ∀ n, s.cardAsks n = false) :
    s.settle = ((s.halted w).replyCommand .ok (s.halted w).clockReport).admitOffers := by
  have stopped : ∀ u : State, u.bcu.clock ≠ .run → u.arbitrate = u := fun u clock => by
    simp [State.arbitrate, State.grantsAllowed, clock]
  unfold State.settle
  rw [nothing.chanBoundaries, nothing.slotBoundaries, serveChannels_same asks, clockBoundary_waiting free run waiting,
    if_neg deferred, stopped]
  rw [(replyCommand_keeps ..).1]
  cases w <;> nofun

/-- The part while a PARK or CLOCK_STOP waits (R10, R15). -/
def State.waits (s : State) (w : ClockWait) (r : ClockReply) : State :=
  s.updBcu fun b => { b with waiting := some w, deferred := some r }

/-- A wait is carried out in the event that finds the bus FREE. -/
theorem waits_clock {u : State} {w : ClockWait} {r : ClockReply} (run : s.bcu.clock = .run)
    (bcu : u.bcu = (s.waits w r).bcu) :
    u.settle.bcu.clock = if u.sbc.holder = none then (if w = .park then .parked else .stopped) else .run := by
  obtain ⟨woke, clock⟩ := settle_bcu u
  rw [clock, bcu]
  split
  · simp [State.waits, Bcu.atFreeBus, run]
  · exact run

/-- A request that waits, with nothing else to do, is answered in its event. -/
theorem waits_settle {w : ClockWait} {r : ClockReply} {kind : Byte} (h : s.ml.command = none) (free : s.sbc.holder = none)
    (run : s.bcu.clock = .run) (nothing : s.NothingWaits) (asks : ∀ n, s.cardAsks n = false) :
    ((s.waits w r).beginRequest .command kind tag).settle =
      ((s.halted w).replyAtOnce ⟨kind + 0x80, Status.ok.code, tag, (s.halted w).clockReport⟩).admitOffers := by
  rw [settle_waiting (s := (s.waits w r).beginRequest .command kind tag) free run rfl nofun ⟨nothing.slots, nothing.chans⟩
    asks]
  exact congrArg State.admitOffers (replyCommand_begin (s := s.halted w) h .ok _)

theorem allSlotsOff_iff (s : State) : s.allSlotsOff = true ↔ ∀ i, (s.slot i).state = .off := by
  unfold State.allSlotsOff
  simp only [List.all_eq_true, Vector.mem_toList_iff, beq_iff_eq]
  constructor
  · exact fun all i => all _ (Vector.getElem_mem i.isLt)
  · intro all t mem
    obtain ⟨i, hi, rfl⟩ := Vector.mem_iff_getElem.mp mem
    exact all ⟨i, hi⟩

theorem park_busy (run : s.bcu.clock = .run) (busy : s.bcu.waiting ≠ none ∨ ∃ n, (s.chan n).state = .running) :
    parkTaken s = s.replyCommand .busy s.clockReport := by
  unfold parkTaken
  rw [run]
  refine if_pos ?_
  rw [anyRunning_iff]
  exact busy

theorem park_waits (run : s.bcu.clock = .run) (idle : s.bcu.waiting = none) (still : ∀ n, (s.chan n).state ≠ .running) :
    parkTaken s = (s.waits .park .park).settle := by
  unfold parkTaken
  rw [run]
  refine if_neg ?_
  rw [anyRunning_iff]
  rintro (waits | ⟨n, running⟩)
  · exact waits idle
  · exact still n running

theorem park_parked (clock : s.bcu.clock = .parked) : parkTaken s = s.replyCommand .ok s.clockReport := by
  unfold parkTaken
  rw [clock]

theorem park_stopped (clock : s.bcu.clock = .stopped) : parkTaken s = s.replyCommand .noClock s.clockReport := by
  unfold parkTaken
  rw [clock]

theorem park_settling (clock : s.bcu.clock = .starting ∨ s.bcu.clock = .retuning) :
    parkTaken s = s.replyCommand .busy s.clockReport := by
  unfold parkTaken
  rcases clock with clock | clock <;> rw [clock]

theorem not_allSlotsOff (on : ∃ i, (s.slot i).state ≠ .off) : ¬ s.allSlotsOff = true := fun all =>
  on.elim fun i on => on ((allSlotsOff_iff s).mp all i)

theorem clockStop_busy (run : s.bcu.clock = .run) (busy : s.bcu.waiting ≠ none ∨ ∃ i, (s.slot i).state ≠ .off) :
    clockStopTaken s = s.replyCommand .busy s.clockReport := by
  unfold clockStopTaken
  rw [run]
  exact if_pos (busy.imp_right not_allSlotsOff)

theorem clockStop_waits (run : s.bcu.clock = .run) (idle : s.bcu.waiting = none) (off : ∀ i, (s.slot i).state = .off) :
    clockStopTaken s = (s.waits .clockStop .clockStop).settle := by
  unfold clockStopTaken
  rw [run]
  refine if_neg ?_
  rintro (waits | notOff)
  · exact waits idle
  · exact notOff ((allSlotsOff_iff s).mpr off)

theorem clockStop_parked (clock : s.bcu.clock = .parked) (off : ∀ i, (s.slot i).state = .off) :
    clockStopTaken s = (s.updBcu fun b => { b with clock := .stopped }).replyCommand .ok
      (s.updBcu fun b => { b with clock := .stopped }).clockReport := by
  unfold clockStopTaken
  rw [clock]
  exact if_pos ((allSlotsOff_iff s).mpr off)

theorem clockStop_parked_busy (clock : s.bcu.clock = .parked) (on : ∃ i, (s.slot i).state ≠ .off) :
    clockStopTaken s = s.replyCommand .busy s.clockReport := by
  unfold clockStopTaken
  rw [clock]
  exact if_neg (not_allSlotsOff on)

theorem clockStop_stopped (clock : s.bcu.clock = .stopped) : clockStopTaken s = s.replyCommand .ok s.clockReport := by
  unfold clockStopTaken
  rw [clock]

theorem clockStop_settling (clock : s.bcu.clock = .starting ∨ s.bcu.clock = .retuning) :
    clockStopTaken s = s.replyCommand .busy s.clockReport := by
  unfold clockStopTaken
  rcases clock with clock | clock <;> rw [clock]

end Taken

/-- Settles O12: PARK and CLOCK_STOP by the clock state, and the clock at a free bus. -/
theorem parkAndClockStopByClockState : Obligations.ParkAndClockStopByClockState := by
  unfold Obligations.ParkAndClockStopByClockState
  intro halted nothingWaits
  refine ⟨fun s free => ⟨clockBoundary_retuning free, fun w clock waiting => ?_⟩, fun s tag h => ?_, fun s tag h => ?_⟩
  · refine (clockBoundary_waiting free clock waiting).trans ?_
    cases w <;> rfl
  · intro answer waits
    rw [exec_park h]
    have answered := replyCommand_begin (kind := 0x11) (tag := tag) h.command
    refine ⟨fun run busy => congrArg _ ?_, fun run idle still => ⟨congrArg _ ?_, waits_clock (w := .park) run rfl⟩,
      fun run idle still nothing => congrArg _ ?_, fun clock => congrArg _ ?_, fun clock => congrArg _ ?_,
      fun clock => congrArg _ ?_⟩
    · exact (park_busy (s := s.beginRequest .command 0x11 tag) run busy).trans (answered _ _)
    · exact park_waits (s := s.beginRequest .command 0x11 tag) run idle still
    · have asks : ∀ n, s.cardAsks n = false := fun n => by simp [State.cardAsks, still n]
      exact (park_waits (s := s.beginRequest .command 0x11 tag) run idle still).trans
        (waits_settle h.command nothing.1 run ⟨nothing.2.1, nothing.2.2⟩ asks)
    · exact (park_parked (s := s.beginRequest .command 0x11 tag) clock).trans (answered _ _)
    · exact (park_stopped (s := s.beginRequest .command 0x11 tag) clock).trans (answered _ _)
    · exact (park_settling (s := s.beginRequest .command 0x11 tag) clock).trans (answered _ _)
  · intro answer waits
    rw [exec_clockStop h]
    have answered := replyCommand_begin (kind := 0x13) (tag := tag) h.command
    refine ⟨fun run busy => congrArg _ ?_, fun run idle off => ⟨congrArg _ ?_, waits_clock (w := .clockStop) run rfl⟩,
      fun run idle off nothing => congrArg _ ?_, fun clock off => congrArg _ ?_, fun clock on => congrArg _ ?_,
      fun clock => congrArg _ ?_, fun clock => congrArg _ ?_⟩
    · exact (clockStop_busy (s := s.beginRequest .command 0x13 tag) run busy).trans (answered _ _)
    · exact clockStop_waits (s := s.beginRequest .command 0x13 tag) run idle off
    · have asks : ∀ n, s.cardAsks n = false := fun n => by simp [State.cardAsks, off]
      exact (clockStop_waits (s := s.beginRequest .command 0x13 tag) run idle off).trans
        (waits_settle h.command nothing.1 run ⟨nothing.2.1, nothing.2.2⟩ asks)
    · exact (clockStop_parked (s := s.beginRequest .command 0x13 tag) clock off).trans
        (replyCommand_begin (s := s.updBcu fun b => { b with clock := .stopped }) h.command _ _)
    · exact (clockStop_parked_busy (s := s.beginRequest .command 0x13 tag) clock on).trans (answered _ _)
    · exact (clockStop_stopped (s := s.beginRequest .command 0x13 tag) clock).trans (answered _ _)
    · exact (clockStop_settling (s := s.beginRequest .command 0x13 tag) clock).trans (answered _ _)

/-! ## The end of settling -/

theorem startingEnds_due {s : State} (clock : s.bcu.clock = .starting) (settled : s.bcu.settling = some 0) :
    startingEnds s = ((s.updBcu fun b => { b with clock := .run, settling := none, woke := b.woke.raise }).updSbc
      fun b => { b with debt := 0, countdown := b.interval, tickDue := false }).answerClock.settle :=
  if_pos ⟨clock, settled⟩

/-- Settles O14: each end, when due, is its change of the clock, the clock's reply and what closes the event. -/
theorem clockSettlingEnds : Obligations.ClockSettlingEnds := by
  unfold Obligations.ClockSettlingEnds
  intro reply
  have answers : ∀ s : State, s.answerClock = reply (s.updBcu fun b => { b with deferred := none }) s.bcu.deferred :=
    fun s => by
      unfold State.answerClock
      cases s.bcu.deferred with
      | none => rfl
      | some r =>
        cases r with
        | setClock target error clamped => dsimp only [reply]; rw [setClockPayload_eq]
        | park | wake | clockStop => dsimp only [reply]
  refine ⟨fun s clock settled => congrArg Host.Outcome.next ?_, fun s early => congrArg Host.Outcome.next (if_neg ?_),
    fun s d clock settled pending => congrArg Host.Outcome.next ?_,
    fun s early => congrArg Host.Outcome.next (if_neg ?_)⟩
  · have raised : s.bcu.woke.raise = (match s.bcu.woke with
        | .held slot line time => .raised slot line time
        | w => w) := by cases s.bcu.woke <;> rfl
    rw [startingEnds_due clock settled, answers]
    exact congrArg (fun w => (reply { s with
      bcu := { s.bcu with clock := .run, settling := none, deferred := none, woke := w }
      sbc := { s.sbc with debt := 0, countdown := s.sbc.interval, tickDue := false } } s.bcu.deferred).settle) raised
  · rintro ⟨clock, settled⟩
    exact early.elim (· clock) (· settled)
  · have inForce : s.bcu.pendingDivider.getD s.bcu.divider = d := by rw [pending, Option.getD_some]
    rw [retuneEnds_due clock settled, answers]
    exact congrArg (fun d => (reply { s with
      bcu := { s.bcu with clock := .run, settling := none, deferred := none, divider := d, pendingDivider := none } }
        s.bcu.deferred).settle) inForce
  · rintro ⟨clock, settled⟩
    exact early.elim (· clock) (· settled)

end Sys2Proof.Machine
end

