-- ==== Sys2Proof/Proofs/ClockError.lean ====
section
/-! PROOF. The clock error is rounded, with halves away from zero, and saturates (O17). -/

namespace Sys2Proof.Machine

open Sys2Proof

/-! ## Rounding -/

/-- The rounded quotient lies within half the divisor of the number, and an exact half goes away from zero (R3). -/
theorem roundHalfAway_near (num : Int) {den : Nat} (pos : 0 < den) :
    2 * (roundHalfAway num den * den - num).natAbs ≤ den ∧
    (2 * (roundHalfAway num den * den - num).natAbs = den → num.natAbs ≤ (roundHalfAway num den * den).natAbs) := by
  have low := Nat.div_mul_le_self (2 * num.natAbs + den) (2 * den)
  have high := Nat.lt_div_mul_add (a := 2 * num.natAbs + den) (show 0 < 2 * den by omega)
  unfold roundHalfAway
  generalize (2 * num.natAbs + den) / (2 * den) = q at *
  have product : q * (2 * den) = 2 * (q * den) := by ring
  rw [product] at low high
  have signed : ((q : Int) * den) = ((q * den : Nat) : Int) := by push_cast; rfl
  split
  · rw [signed]
    generalize q * den = x at *
    omega
  · rw [Int.neg_mul, signed]
    generalize q * den = x at *
    omega

/-- A rounded quotient is below a bound when the number is below the bound and a half. -/
theorem roundHalfAway_le {num b : Int} {den : Nat} (pos : 0 < den) (h : 2 * num < (2 * b + 1) * den) :
    roundHalfAway num den ≤ b := by
  have near := (roundHalfAway_near num pos).1
  by_contra more
  have step : (b + 1) * den ≤ roundHalfAway num den * den :=
    Int.mul_le_mul_of_nonneg_right (by omega) (Int.natCast_nonneg den)
  have split : (2 * b + 1) * (den : Int) = 2 * ((b + 1) * den) - den := by ring
  generalize roundHalfAway num den * (den : Int) = x at *
  generalize (b + 1) * (den : Int) = y at *
  omega

/-- A rounded quotient is above a bound when the number is above the bound less a half. -/
theorem le_roundHalfAway {num b : Int} {den : Nat} (pos : 0 < den) (h : (2 * b - 1) * den < 2 * num) :
    b ≤ roundHalfAway num den := by
  have near := (roundHalfAway_near num pos).1
  by_contra less
  have step : roundHalfAway num den * den ≤ (b - 1) * den :=
    Int.mul_le_mul_of_nonneg_right (by omega) (Int.natCast_nonneg den)
  have split : (2 * b - 1) * (den : Int) = 2 * ((b - 1) * den) + den := by ring
  generalize roundHalfAway num den * (den : Int) = x at *
  generalize (b - 1) * (den : Int) = y at *
  omega

/-! ## The error of a clock -/

/-- What is rounded: 10000 × (A − 1000t) (R3). -/
def errorNumerator (t divider : Nat) : Int := 10000 * ((achievedClock divider : Int) - 1000 * (t : Int))

/-- The error, where it does not fall below what 16 bits hold (R3). -/
theorem clockError_toInt {t d : Nat} (low : -32768 ≤ roundHalfAway (errorNumerator t d) (1000 * t)) :
    (clockError t d).toInt = min (roundHalfAway (errorNumerator t d) (1000 * t)) 32767 := by
  have e : clockError t d = BitVec.ofInt 16 (min (roundHalfAway (errorNumerator t d) (1000 * t)) 32767) := rfl
  rw [e, BitVec.toInt_ofInt]
  exact Int.bmod_eq_of_le (by omega) (by omega)

/-- A target lies between the two dividers' halves that its divider stands for, but at the ends of the range (R2). -/
theorem target_of_divider {t : Nat} (pos : 1 ≤ t) :
    (clampDivider (nearestDivider t) < 12 → 96000 < (2 * clampDivider (nearestDivider t) + 1) * t) ∧
    (5 < clampDivider (nearestDivider t) → 2 * clampDivider (nearestDivider t) * t ≤ 96000 + t) := by
  obtain ⟨low, high⟩ := nearestDivider_spec (t := t) (by omega)
  have above : clampDivider (nearestDivider t) < 12 → nearestDivider t ≤ clampDivider (nearestDivider t) := by
    unfold clampDivider
    omega
  have below : 5 < clampDivider (nearestDivider t) → clampDivider (nearestDivider t) ≤ nearestDivider t := by
    unfold clampDivider
    omega
  refine ⟨fun less => high.trans_le (Nat.mul_le_mul_right t ?_), fun more => (Nat.mul_le_mul_right t ?_).trans low⟩
  · have := above less
    omega
  · have := below more
    omega

/-- The divider of a slow target is clamped (R2, R3). -/
theorem divider_of_slow {t : Nat} (pos : 1 ≤ t) (slow : t ≤ 935) :
    clampDivider (nearestDivider t) = 12 ∧ 12 < nearestDivider t := by
  obtain ⟨-, high⟩ := nearestDivider_spec (t := t) (by omega)
  have more : 12 < nearestDivider t := by
    by_contra few
    have := Nat.mul_le_mul_right t (show 2 * nearestDivider t + 1 ≤ 25 by omega)
    omega
  exact ⟨by unfold clampDivider; omega, more⟩

/-- What is rounded lies between −8535 and, for all but the slow targets, 32767 (R3). -/
theorem errorNumerator_bounds {t : Nat} (pos : 1 ≤ t) (most : t ≤ 65535) :
    (2 * (-8535) - 1) * ((1000 * t : Nat) : Int) < 2 * errorNumerator t (clampDivider (nearestDivider t)) ∧
    (935 < t → 2 * errorNumerator t (clampDivider (nearestDivider t)) < (2 * 32767 + 1) * ((1000 * t : Nat) : Int)) := by
  obtain ⟨low, high⟩ := target_of_divider pos
  obtain ⟨five, twelve⟩ := clampDivider_range (nearestDivider t)
  generalize clampDivider (nearestDivider t) = d at *
  unfold errorNumerator achievedClock
  interval_cases d <;> omega

theorem clockError_signs {t d : Nat} (pos : 1 ≤ t) (low : -8535 ≤ roundHalfAway (errorNumerator t d) (1000 * t)) :
    (0 < (clockError t d).toInt → 1000 * (t : Int) < achievedClock d) ∧
    ((clockError t d).toInt < 0 → (achievedClock d : Int) < 1000 * t) := by
  have den : 0 < 1000 * t := by omega
  rw [clockError_toInt (by omega)]
  constructor
  · intro positive
    by_contra slower
    have none : roundHalfAway (errorNumerator t d) (1000 * t) ≤ 0 :=
      roundHalfAway_le den (by unfold errorNumerator; omega)
    omega
  · intro negative
    by_contra faster
    have none : 0 ≤ roundHalfAway (errorNumerator t d) (1000 * t) :=
      le_roundHalfAway den (by unfold errorNumerator; omega)
    omega

/-- Settles O17, from the bounds on what is rounded. -/
theorem clockErrorIsRounded : Obligations.ClockErrorIsRounded := by
  refine ⟨fun t pos most => ?_, fun s tag h => ?_⟩
  · intro d0 d a e exact
    have den : 0 < 1000 * t := by omega
    obtain ⟨low, high⟩ := errorNumerator_bounds pos most
    have least : -8535 ≤ roundHalfAway (errorNumerator t d) (1000 * t) := le_roundHalfAway den low
    have value : e = min (roundHalfAway (errorNumerator t d) (1000 * t)) 32767 := clockError_toInt (by omega)
    have scale : ((1000 * t : Nat) : Int) = 1000 * (t : Int) := by push_cast; rfl
    obtain ⟨faster, slower⟩ := clockError_signs pos least
    refine ⟨fun fast => ?_, fun slow => ?_, by omega, fun last => ?_, faster, slower⟩
    · have unclamped : e = roundHalfAway (errorNumerator t d) (1000 * t) :=
        value.trans (min_eq_left (roundHalfAway_le den (high fast)))
      have near := roundHalfAway_near (errorNumerator t d) den
      rw [← unclamped, scale] at near
      exact near
    · obtain ⟨twelve, more⟩ := divider_of_slow pos slow
      have twelve : d = 12 := twelve
      have clock : a = 4000000 := by
        change ((48000000 / d : Nat) : Int) = 4000000
        rw [twelve]
        rfl
      have saturates : 32767 ≤ roundHalfAway (errorNumerator t d) (1000 * t) := by
        refine le_roundHalfAway den ?_
        change _ < 2 * exact
        simp only [exact, clock]
        omega
      have apart : d ≠ d0 := by
        have : 12 < d0 := more
        omega
      refine ⟨by omega, ?_, apart⟩
      simp only [exact, clock]
      omega
    · subst last
      decide
  · rw [exec_setClock h]
    refine congrArg Host.Outcome.next ((setClock_zero rfl).trans ((refuseSetClock_begin h.command 0 .badArg).trans ?_))
    rw [List.append_assoc]
    rfl

end Sys2Proof.Machine
end

