-- ==== Sys2Proof/Proofs/TimeBase.lean ====
section
/-! PROOF. One advance of the time base (O15): what it makes of each timer and each sampled line. -/

namespace Sys2Proof.Machine

open Sys2Proof

/-! ## Samples -/

/-- An input after one sample of its line, by the slots and the cards' lines (R155). -/
def Input.sampled (x : Input) (slots : Vector Slot 4) (cards : Cards) (i : InputId) : Input :=
  if x.mode ≠ .off ∧ slots[inputSlot i].state = .enabled ∧ x.filter ≠ 0 ∧ x.changeDue = false then
    if (cards.irl[i] != x.activeLow) = x.active then { x with run := 0 }
    else if x.run < x.samples - 1 then { x with run := x.run + 1 }
    else { x with changeDue := true }
  else x

theorem sampleInput_eq (s : State) (i : InputId) :
    s.sampleInput i = s.modInput i fun x => x.sampled s.slots s.cards i := by
  have taken : ∀ {x : Input}, (s.input i).sampled s.slots s.cards i = x →
      s.modInput i (fun x => x.sampled s.slots s.cards i) = s.modInput i fun _ => x := fun e =>
    congrArg (fun x => { s with inputs := s.inputs.set i x }) e
  unfold State.sampleInput
  dsimp only
  by_cases samples : (s.input i).mode ≠ .off ∧ s.slots[inputSlot i].state = .enabled ∧ (s.input i).filter ≠ 0 ∧
      (s.input i).changeDue = false
  · rw [if_pos (by simpa [State.watched, State.slot, and_assoc] using samples)]
    by_cases level : s.lineActive i = (s.input i).active
    · rw [if_pos level]
      exact (taken ((if_pos samples).trans (if_pos level))).symm
    · rw [if_neg level]
      by_cases short : (s.input i).run < (s.input i).samples - 1
      · rw [if_pos short]
        exact (taken ((if_pos samples).trans ((if_neg level).trans (if_pos short)))).symm
      · rw [if_neg short]
        exact (taken ((if_pos samples).trans ((if_neg level).trans (if_neg short)))).symm
  · rw [if_neg (by simpa [State.watched, State.slot, and_assoc] using samples)]
    exact (modInput_same (if_neg samples)).symm

theorem forInputs_sample (s : State) :
    forInputs (fun i s => s.sampleInput i) s =
      { s with inputs := (forInputs (fun i s => s.sampleInput i) s).inputs } ∧
    ∀ i, (forInputs (fun i s => s.sampleInput i) s).input i = (s.input i).sampled s.slots s.cards i := by
  refine ⟨forInputs_only (fun i s => by rw [sampleInput_eq]; rfl) s, fun i => ?_⟩
  exact forInputs_read (read := State.input) (kept := fun s => (s.slots, s.cards))
    (upd := fun k i x => x.sampled k.1 k.2 i) (fun i s => by rw [sampleInput_eq]; rfl)
    (fun i s j => by
      rw [sampleInput_eq, State.modInput_input]
      by_cases same : i = j
      · subst same; rfl
      · rw [if_neg same, if_neg same]) s i

/-! ## The advance -/

/-- The part at an advance of the time base before its lines are sampled. -/
def State.timersOn (s : State) : State := { s with
  bcu := { s.bcu with timeBase := s.bcu.timeBase + 1, settling := s.bcu.settling.map (· - Config.periodsPerMicrosecond) }
  sbc := s.sbc.advance (s.bcu.clock == .run || s.bcu.clock == .retuning)
  slots := s.slots.map Slot.advance
  measure := s.measure.advance }

theorem timeBaseAdvances_eq (s : State) : timeBaseAdvances s = s.timersOn.sampleInputs := by
  unfold timeBaseAdvances
  dsimp only
  rw [forSlots_map (g := Slot.advance) fun _ _ => rfl]
  rfl

theorem timersOn_slot (s : State) (i : SlotId) : s.timersOn.slot i = (s.slot i).advance := Vector.getElem_map ..

theorem Slot.advance_eq (t : Slot) : t.advance = { t with
    cooldown := t.cooldown.map fun n => n - 1
    sequence := t.sequence.map fun q => match q with
      | .powering n => .powering (n - 1)
      | .powerOnReset n => .powerOnReset (n - 1)
      | .slotReset n => .slotReset (n - 1) } :=
  congrArg (fun f => { t with cooldown := t.cooldown.map fun n => n - 1, sequence := t.sequence.map f })
    (funext fun q => by cases q <;> rfl)

theorem Sbc.advance_eq (b : Sbc) {runs : Bool} {p : Prop} [Decidable p] (h : runs = true ↔ p) : b.advance runs =
    if p ∧ 0 < b.countdown then
      { b with countdown := b.countdown - 1, tickDue := b.tickDue || decide (b.countdown = 1) }
    else b :=
  if_congr (by simp [h]) (by rw [beq_eq_decide]) rfl

/-- Sampling changes the inputs alone. -/
theorem timeBaseAdvances_only (s : State) :
    timeBaseAdvances s = { s.timersOn with inputs := (timeBaseAdvances s).inputs } := by
  rw [timeBaseAdvances_eq]
  unfold State.sampleInputs
  split
  · exact (forInputs_sample s.timersOn).1
  · rfl

theorem timeBaseAdvances_input (s : State) (i : InputId) :
    (timeBaseAdvances s).input i = if s.bcu.clock = .run ∨ s.bcu.clock = .retuning then
      (s.input i).sampled s.timersOn.slots s.cards i else s.input i := by
  rw [timeBaseAdvances_eq]
  unfold State.sampleInputs
  split
  case isTrue runs => exact ((forInputs_sample s.timersOn).2 i).trans (if_pos runs).symm
  case isFalse rests => exact (if_neg rests).symm

/-- Settles O15, from the timers and the samples. -/
theorem timeBaseAdvanceMovesTheTimers : Obligations.TimeBaseAdvanceMovesTheTimers := by
  intro s
  refine ⟨timeBaseAdvances s, rfl, ?_⟩
  intro runs
  have running : (s.bcu.clock == .run || s.bcu.clock == .retuning) = true ↔ runs := by simp [runs]
  have input := timeBaseAdvances_input s
  rw [timeBaseAdvances_only] at input ⊢
  refine ⟨rfl, s.sbc.advance_eq running, fun i => (timersOn_slot s i).trans (Slot.advance_eq _), ?_, fun i => ?_, rfl, rfl, rfl,
    rfl, rfl, rfl, rfl, rfl, rfl⟩
  · rfl
  · refine (input i).trans ?_
    have enabled : s.timersOn.slots[inputSlot i].state = (s.slot (inputSlot i)).state :=
      (congrArg Slot.state (timersOn_slot s (inputSlot i))).trans rfl
    unfold Input.sampled
    rw [enabled]
    refine (ite_and ..).symm.trans (if_congr Iff.rfl (if_congr ?_ rfl rfl) rfl)
    exact bne_eq_false_iff_eq.symm

end Sys2Proof.Machine
end

