-- ==== Sys2Proof/Proofs/InterruptLines.lean ====
section
/-! PROOF. Interrupt lines capture, count lost edges and wake the clock (O59). -/

namespace Sys2Proof.Machine

open Sys2Proof

theorem inputSlot_inputId (i : SlotId) (line : LineId) : inputSlot (inputId i line) = i := by
  apply Fin.ext
  simp only [inputSlot, inputId]
  omega

theorem watched_iff (s : State) (i : InputId) :
    s.watched i = true ↔ (s.input i).mode ≠ .off ∧ (s.slot (inputSlot i)).state = .enabled := by
  simp [State.watched]

/-- The part with a card's line driven to a level. -/
def State.drive (s : State) (i : InputId) (high : Bool) : State :=
  { s with cards := { s.cards with irl := s.cards.irl.set i high } }

theorem drive_lineActive (s : State) (i : InputId) (high : Bool) :
    (s.drive i high).lineActive i = (high != (s.input i).activeLow) := by
  have level : (s.drive i high).irlHigh i = high := Vector.getElem_set_self ..
  unfold State.lineActive
  rw [level]
  rfl

/-- A change of a watched, unfiltered line is counted at once, and any other is stored alone (R154, R155). -/
theorem irlChanges_eq (s : State) (i : SlotId) (line : LineId) (high : Bool) :
    let k := inputId i line
    let x := s.input k
    irlChanges i line high s =
      if x.mode ≠ .off ∧ (s.slot i).state = .enabled ∧ x.filter = 0 ∧ (high != x.activeLow) ≠ x.active then
        ((s.drive k high).countChange k (high != x.activeLow)).admitOffers
      else s.drive k high := by
  intro k x
  have level := drive_lineActive s k high
  have watched := watched_iff (s.drive k high) k
  have slot : inputSlot k = i := inputSlot_inputId i line
  rw [slot] at watched
  change (if (s.drive k high).watched k && x.filter == 0 && (s.drive k high).lineActive k != x.active then
    ((s.drive k high).countChange k ((s.drive k high).lineActive k)).admitOffers else s.drive k high) = _
  rw [level]
  refine if_congr ?_ rfl rfl
  rw [Bool.and_eq_true, Bool.and_eq_true, watched, beq_iff_eq, bne_iff_ne, and_assoc, and_assoc]
  rfl

theorem irlFilterChanges_eq (s : State) (i : SlotId) (line : LineId) :
    let k := inputId i line
    let x := s.input k
    irlFilterChanges i line s =
      if x.changeDue = true ∧ x.mode ≠ .off ∧ (s.slot i).state = .enabled then
        (s.countChange k (!x.active)).admitOffers
      else s := by
  intro k x
  have watched := watched_iff s k
  have slot : inputSlot k = i := inputSlot_inputId i line
  rw [slot] at watched
  exact if_congr (and_congr_right fun _ => watched) rfl rfl

/-- An activation wakes the clock from PARKED where its input is eligible (R12, R168). -/
theorem activation_eq (s : State) (k : InputId) :
    let x := s.input k
    s.activation k = { s.applyActivation k with
      bcu := if s.bcu.clock = .parked ∧ x.wake = true ∧ x.mask = false ∧ x.mode ≠ .off ∧
          (s.slot (inputSlot k)).state = .enabled ∧ x.filter = 0 then
          { s.bcu with
            divider := 12, clock := .starting, settling := some 9600
            woke := .held (inputSlot k) (inputLine k) s.bcu.timeBase }
        else s.bcu } := by
  intro x
  have bcu : (s.applyActivation k).bcu = s.bcu := (OnlyInputs.applyActivation s k).keeps.1
  have eligible : (s.wakeEligible k && s.bcu.clock == .parked) = true ↔
      s.bcu.clock = .parked ∧ x.wake = true ∧ x.mask = false ∧ x.mode ≠ .off ∧
        (s.slot (inputSlot k)).state = .enabled ∧ x.filter = 0 := by
    simp only [State.wakeEligible, Bool.and_eq_true, watched_iff, beq_iff_eq, Bool.not_eq_true', x]
    tauto
  unfold State.activation
  dsimp only
  by_cases wakes : (s.wakeEligible k && s.bcu.clock == .parked) = true
  · rw [if_pos wakes, if_pos (eligible.mp wakes)]
    unfold State.wakeRequest
    rw [if_pos (by rw [bcu]; exact (eligible.mp wakes).1)]
    unfold State.updBcu
    rw [bcu]
    rfl
  · rw [if_neg wakes, if_neg (mt eligible.mpr wakes)]
    rw [← bcu]

/-- An input after an activation at a time, with the snapshot a capture takes (R157, R158). -/
def Input.activated (x : Input) (time : Word) (snapshot : List SnapshotEntry) : Input :=
  match x.mode, x.state with
  | .edge, .idle => { x with state := .pending, captureTime := time, snapshot := snapshot, repeated := false }
  | .edge, .pending => { x with lost := if x.lost < 65535 then x.lost + 1 else x.lost }
  | .edge, .notified =>
    if x.again = true then { x with lost := if x.lost < 65535 then x.lost + 1 else x.lost }
    else { x with again := true, againTime := time }
  | .level, .idle => { x with state := .pending, captureTime := time, snapshot := snapshot, repeated := false }
  | .level, .pending => x
  | .level, .notified => x
  | .off, _ => x

section Activated

variable {x : Input} (time : Word) (snapshot : List SnapshotEntry)

theorem activated_off (mode : x.mode = .off) : x.activated time snapshot = x := by
  unfold Input.activated
  rw [mode]

theorem activated_idle (mode : x.mode ≠ .off) (state : x.state = .idle) : x.activated time snapshot =
    { x with state := .pending, captureTime := time, snapshot := snapshot, repeated := false } := by
  obtain ⟨m⟩ := x
  cases state
  cases m with
  | off => exact absurd rfl mode
  | edge | level => rfl

theorem activated_lost (mode : x.mode = .edge) (state : x.state = .pending ∨ (x.state = .notified ∧ x.again = true)) :
    x.activated time snapshot = x.loseEdge := by
  obtain ⟨m⟩ := x
  cases mode
  obtain state | ⟨state, again⟩ := state
  · cases state; rfl
  · cases state; cases again; rfl

theorem activated_again (mode : x.mode = .edge) (state : x.state = .notified) (again : ¬ x.again = true) :
    x.activated time snapshot = { x with again := true, againTime := time } := by
  obtain ⟨m⟩ := x
  cases mode
  cases state
  exact if_neg again

theorem activated_level (mode : x.mode = .level) (state : x.state ≠ .idle) : x.activated time snapshot = x := by
  obtain ⟨m, _, _, _, _, st⟩ := x
  cases mode
  cases st with
  | idle => exact absurd rfl state
  | pending | notified => rfl

end Activated

/-- What an activation does to its input. -/
theorem applyActivation_eq (s : State) (k : InputId) :
    s.applyActivation k = s.modInput k fun x => x.activated s.bcu.timeBase (s.takeSnapshot (inputSlot k)) := by
  have becomes : ∀ {y : Input}, (s.input k).activated s.bcu.timeBase (s.takeSnapshot (inputSlot k)) = y →
      (s.modInput k fun _ => y) = s.modInput k fun x => x.activated s.bcu.timeBase (s.takeSnapshot (inputSlot k)) :=
    fun e => congrArg (fun y => { s with inputs := s.inputs.set k y }) e.symm
  have stays := modInput_same (s := s) (i := k)
    (f := fun x => x.activated s.bcu.timeBase (s.takeSnapshot (inputSlot k)))
  unfold State.applyActivation
  dsimp only
  split
  case h_1 mode => exact (stays (activated_off _ _ mode)).symm
  case h_2 mode state => exact becomes (activated_idle _ _ (by simp [mode]) state)
  case h_3 mode state => exact becomes (activated_lost _ _ mode (.inl state))
  case h_4 mode state =>
    split
    case isTrue again => exact becomes (activated_lost _ _ mode (.inr ⟨state, again⟩))
    case isFalse again => exact becomes (activated_again _ _ mode state again)
  case h_5 mode state => exact becomes (activated_idle _ _ (by simp [mode]) state)
  case h_6 mode notIdle => exact (stays (activated_level _ _ mode notIdle)).symm

/-- Settles O59, function by function. -/
theorem interruptLinesCapture : Obligations.InterruptLinesCapture := by
  refine ⟨fun s i line high => ⟨fun counts => ?_, fun rests => ?_⟩, fun s i line => ⟨fun counts => ?_, fun rests => ?_⟩,
    fun s k => ⟨rfl, rfl⟩, activation_eq, applyActivation_eq⟩
  · exact congrArg Host.Outcome.next ((irlChanges_eq s i line high).trans (if_pos counts))
  · exact congrArg Host.Outcome.next ((irlChanges_eq s i line high).trans (if_neg rests))
  · exact congrArg Host.Outcome.next ((irlFilterChanges_eq s i line).trans (if_pos counts))
  · exact congrArg Host.Outcome.next ((irlFilterChanges_eq s i line).trans (if_neg rests))

end Sys2Proof.Machine
end

