-- ==== Sys2Proof/Proofs/Arbiter.lean ====
section
/-! PROOF. The arbiter's order, and the cycle each grant begins (O25). -/

namespace Sys2Proof.Machine

open Sys2Proof

/-! ## Transfer cycles -/

section Transfer

variable {s : State} {n : ChanId}

/-- A real OUT transfer drives the ring's bytes at take: one on channels 0 to 3, two on 4 and 5 (R108, R119). -/
theorem nextTransfer_out_real (out : (s.chan n).direction = .out) (real : chanWidth n ≤ (s.chan n).level) :
    s.nextTransfer n = (.real, (if n.val < 4 then (0 : Byte)
      else Memory.read s.stm.bytes ((s.chan n).address ((s.chan n).take + 1))) ++
        Memory.read s.stm.bytes ((s.chan n).address (s.chan n).take)) := by
  unfold State.nextTransfer
  dsimp only
  rw [out]
  dsimp only
  rw [if_pos real]
  by_cases narrow : n.val < 4
  · have width : chanWidth n = 1 := if_pos narrow
    rw [width, if_pos narrow]
    rfl
  · have width : chanWidth n = 2 := if_neg narrow
    rw [width, if_neg narrow]
    rfl

theorem nextTransfer_out_filler (out : (s.chan n).direction = .out) (short : ¬ chanWidth n ≤ (s.chan n).level) :
    s.nextTransfer n = (.filler, (s.chan n).lastDelivered) := by
  unfold State.nextTransfer
  dsimp only
  rw [out]
  exact if_neg short

theorem nextTransfer_into (into : (s.chan n).direction = .into) :
    s.nextTransfer n = (if chanWidth n ≤ (s.chan n).freeSpace then .real else .filler, 0) := by
  unfold State.nextTransfer
  dsimp only
  rw [into]
  dsimp only
  split <;> rfl

/-- The transfer cycle that begins, by the kind and data that are next (R22, R24, R119). -/
theorem beginTransfer_eq {kind : CycleKind} {transfer : TransferKind} {driven : Half}
    (direction : (if (s.chan n).direction = .out then CycleKind.transferOut else .transferIn) = kind)
    (next : s.nextTransfer n = (transfer, driven)) :
    s.beginTransfer n = { s with sbc := { s.sbc with
      holder := some (.channel n)
      cycle := some {
        kind := kind, target := some (s.chan n).slot, connected := onlySlot (s.chan n).slot, address := 0
        driven := driven, length := 5 + s.sbc.timing[(s.chan n).cls].ioWs
        limit := readyLimitPeriods s.sbc.readyLimit s.bcu.divider, eob := decide ((s.chan n).remaining = 1)
        transfer := transfer, direct := false } } } := by
  have length : kind.baseLength + kind.waitStates s.sbc.timing[(s.chan n).cls] =
      5 + s.sbc.timing[(s.chan n).cls].ioWs := by
    subst direction
    split <;> rfl
  unfold State.beginTransfer
  dsimp only
  rw [next, direction, ← length]
  rfl

end Transfer

/-! ## Access cycles -/

section Access

variable {s : State} {u : AccessUnit} {us : List AccessUnit} {p : CyclePlan} {ps : List CyclePlan}

theorem mayConnect_iff (s : State) (i : SlotId) (direct : Bool) : s.mayConnect i direct = true ↔
    (s.slot i).state = .enabled ∨ (direct = true ∧ (s.slot i).state = .isolated) := by
  simp [State.mayConnect]

theorem beginAccessCycle_connects (units : s.ae.units = u :: us) (cycles : u.cycles = p :: ps)
    (connects : s.mayConnect p.slot p.direct = true) : s.beginAccessCycle = s.runPlan p := by
  unfold State.beginAccessCycle
  rw [units, List.head?_cons, Option.bind_some, cycles]
  exact if_pos connects

theorem beginAccessCycle_refused (units : s.ae.units = u :: us) (cycles : u.cycles = p :: ps)
    (open_ : ¬ s.mayConnect p.slot p.direct = true) :
    s.beginAccessCycle = (s.freeBus.handResult ⟨.refused, 0, some p.slot, 0⟩).endAccess .notReady := by
  unfold State.beginAccessCycle
  rw [units, List.head?_cons, Option.bind_some, cycles]
  exact if_neg open_

end Access

/-! ## The order of the arbiter -/

section Order

variable {s : State}

theorem firstRequest_full (debt : 4 ≤ s.sbc.debt) : s.firstRequest = some .refresh := if_pos debt

theorem firstRequest_first {n : ChanId} (debt : s.sbc.debt < 4) (asks : s.chanRequests n = true)
    (first : ∀ m < n, s.chanRequests m = false) : s.firstRequest = some (.channel n) := by
  have found : (List.finRange 6).find? s.chanRequests = some n := by
    refine List.find?_eq_some_iff_getElem.mpr ⟨asks, n.val, by simp, by simp, fun j before => ?_⟩
    rw [List.getElem_finRange]
    simp [first ⟨j, by omega⟩ before]
  have below : ¬ Config.maxDebt ≤ s.sbc.debt := not_le.mpr debt
  unfold State.firstRequest
  rw [if_neg below, found]

/-- With no channel asking, refresh comes before the Access Engine (R32). -/
theorem firstRequest_rest (debt : s.sbc.debt < 4) (quiet : ∀ n, s.chanRequests n = false) :
    s.firstRequest = if 1 ≤ s.sbc.debt then some .refresh else if s.ae.phase = .waiting then some .ae else none := by
  have none : (List.finRange 6).find? s.chanRequests = none := List.find?_eq_none.mpr fun n _ => by simp [quiet n]
  have below : ¬ Config.maxDebt ≤ s.sbc.debt := not_le.mpr debt
  unfold State.firstRequest
  rw [if_neg below, none]

theorem grantsAllowed_iff (s : State) : s.grantsAllowed = true ↔ s.bcu.clock = .run ∧ s.bcu.waiting = none := by
  simp [State.grantsAllowed]

theorem arbitrate_rests (h : s.sbc.holder ≠ none ∨ s.bcu.clock ≠ .run ∨ s.bcu.waiting ≠ none) : s.arbitrate = s := by
  refine if_neg ?_
  rw [grantsAllowed_iff]
  tauto

/-- On a FREE bus with grants allowed the first request is granted (R4, R32). -/
theorem arbitrate_grants (free : s.sbc.holder = none) (run : s.bcu.clock = .run) (idle : s.bcu.waiting = none)
    {r : Option Holder} (first : s.firstRequest = r) :
    (r = none → s.arbitrate = s) ∧ (r = some .refresh → s.arbitrate = s.beginRefresh) ∧
    (∀ n, r = some (.channel n) → s.arbitrate = s.beginTransfer n) ∧
    (r = some .ae → s.arbitrate = s.beginAccessCycle) := by
  subst first
  unfold State.arbitrate
  rw [if_pos ⟨free, (grantsAllowed_iff s).mpr ⟨run, idle⟩⟩]
  refine ⟨fun first => ?_, fun first => ?_, fun n first => ?_, fun first => ?_⟩ <;> rw [first]

theorem chanRequests_iff (s : State) (n : ChanId) : s.chanRequests n = true ↔
    (s.chan n).state = .running ∧ (s.slot (s.chan n).slot).state = .enabled ∧ s.trq (s.chan n).slot n = true ∧
      (s.chan n).able (chanWidth n) = true := by
  simp [State.chanRequests, State.cardAsks, and_assoc]

end Order

/-- Settles O25: the cycles by their equations, the order by the first request. -/
theorem arbiterGrantsInOrder : Obligations.ArbiterGrantsInOrder := by
  unfold Obligations.ArbiterGrantsInOrder
  intro limit only
  refine ⟨fun s => ?_, fun s n => ?_, fun s u us p ps units cycles => ?_, fun s => arbitrate_rests, fun s free run idle => ?_,
    fun s n => ?_⟩
  · rfl
  · intro c w out real byte
    have next : s.nextTransfer n = (if real then .real else .filler,
        if ¬ out then 0 else if ¬ real then c.lastDelivered
          else (if n.val < 4 then (0 : Byte) else byte (c.take + 1)) ++ byte c.take) := by
      by_cases direction : out
      · have level : real = (chanWidth n ≤ c.level) := if_pos direction
        by_cases full : real
        · rw [if_pos full, if_neg (not_not.mpr direction), if_neg (not_not.mpr full)]
          exact nextTransfer_out_real direction (level ▸ full)
        · rw [if_neg full, if_neg (not_not.mpr direction), if_pos full]
          exact nextTransfer_out_filler direction (level ▸ full)
      · have space : real = (chanWidth n ≤ c.freeSpace) := if_neg direction
        have into : c.direction = .into := by
          cases e : c.direction with
          | out => exact absurd e direction
          | into => rfl
        rw [if_pos direction, nextTransfer_into into]
        exact congrArg (fun k => (k, (0 : Half))) (if_congr (iff_of_eq space.symm) rfl rfl)
    exact beginTransfer_eq rfl next
  · intro connects waits
    have may : s.mayConnect p.slot p.direct = true ↔ connects := mayConnect_iff s p.slot p.direct
    refine ⟨fun joined => ?_, fun apart => beginAccessCycle_refused units cycles (mt may.mp apart)⟩
    refine (beginAccessCycle_connects units cycles (may.mpr joined)).trans ?_
    obtain ⟨_, kind, _⟩ := p
    cases kind <;> rfl
  · have grants := fun {r} => arbitrate_grants (r := r) free run idle
    refine ⟨fun full => ?_, fun n debt asks first => ?_, fun debt quiet owed => ?_, fun debt quiet waits => ?_,
      fun debt quiet rests => ?_⟩
    · exact (grants (firstRequest_full full)).2.1 rfl
    · exact (grants (firstRequest_first debt asks first)).2.2.1 n rfl
    · exact (grants (firstRequest_rest debt quiet)).2.1 (if_pos owed)
    · exact (grants (firstRequest_rest (by omega) quiet)).2.2.2 (by simp [debt, waits])
    · exact (grants (firstRequest_rest (by omega) quiet)).1 (by simp [debt, rests])
  · rw [chanRequests_iff]
    unfold Channel.able
    cases (s.chan n).direction <;> simp

end Sys2Proof.Machine
end

