-- ==== Sys2Proof/Proofs/BusRequests.lean ====
section
/-! PROOF. SET_TIMING (O19), SET_READY_LIMIT (O20), SET_REFRESH and REFRESH_TICK (O21), BUS_STATUS (O22). -/

namespace Sys2Proof.Machine

open Sys2Proof

theorem replyFlags_eq (clamped : Bool) : replyFlags clamped = if clamped then 1 else 0 := by cases clamped <;> rfl

section Taken

variable {s : State} {tag : Half}

theorem exec_setTiming (h : s.ready .command) (cls io mem : Byte) :
    exec (.setTiming tag cls io mem) s = .next (setTimingTaken cls io mem (s.beginRequest .command 0x18 tag)) :=
  congrArg Host.Outcome.next (offer_ready h rfl (by simp) (by simp) (by simp) _)

theorem exec_setReadyLimit (h : s.ready .command) (limit : Byte) :
    exec (.setReadyLimit tag limit) s = .next (setReadyLimitTaken limit (s.beginRequest .command 0x19 tag)) :=
  congrArg Host.Outcome.next (offer_ready h rfl (by simp) (by simp) (by simp) _)

theorem exec_setRefresh (h : s.ready .command) (interval : Byte) :
    exec (.setRefresh tag interval) s = .next (setRefreshTaken interval (s.beginRequest .command 0x1A tag)) :=
  congrArg Host.Outcome.next (offer_ready h rfl (by simp) (by simp) (by simp) _)

theorem exec_busStatus (h : s.ready .command) :
    exec (.busStatus tag) s = .next (busStatusTaken (s.beginRequest .command 0x1B tag)) :=
  congrArg Host.Outcome.next (offer_ready h rfl (Nat.zero_le _) (Nat.zero_le _) (Nat.zero_le _) _)

end Taken

/-! ## SET_TIMING -/

theorem readIndex_of_eq {n : Nat} {b : Byte} {k : Fin n} (h : b.toNat = k.val) : readIndex n b = some k := by
  have below : b.toNat < n := h ▸ k.isLt
  unfold readIndex
  rw [dif_pos below]
  exact congrArg some (Fin.ext h)

theorem readIndex_of_le {n : Nat} {b : Byte} (h : n ≤ b.toNat) : readIndex n b = none :=
  dif_neg (not_lt.mpr h)

/-- A table of wait states with one class replaced (R37). -/
def State.withTiming (s : State) (k : ClassId) (t : TimingClass) : State :=
  s.updSbc fun b => { b with timing := b.timing.set k t }

theorem withTiming_get (s : State) (k : ClassId) (t : TimingClass) : (s.withTiming k t).sbc.timing[k] = t :=
  Vector.getElem_set_self ..

theorem setTimingTaken_known {cls io mem : Byte} {k : ClassId} (named : cls.toNat = k.val) (s : State) :
    setTimingTaken cls io mem s =
      if 15 < io.toNat ∨ 15 < mem.toNat then s.replyCommand .badArg ([cls] ++ s.sbc.timing[k].bytes)
      else (s.withTiming k ⟨io.toNat, mem.toNat⟩).replyCommand .ok [cls, io, mem] := by
  have table : (s.withTiming k ⟨io.toNat, mem.toNat⟩).sbc.timing[k].bytes = [io, mem] := by
    rw [withTiming_get, TimingClass.bytes, BitVec.ofNat_toNat, BitVec.ofNat_toNat]
    rfl
  unfold setTimingTaken
  rw [readIndex_of_eq named]
  refine if_congr Iff.rfl rfl ?_
  exact congrArg (fun bytes => (s.withTiming k ⟨io.toNat, mem.toNat⟩).replyCommand .ok ([cls] ++ bytes)) table

theorem setTimingTaken_unknown {cls : Byte} (named : 3 < cls.toNat) (io mem : Byte) (s : State) :
    setTimingTaken cls io mem s = s.replyCommand .badArg [cls, 0, 0] := by
  unfold setTimingTaken
  rw [readIndex_of_le named]
  rfl

/-- Settles O19, by the class and the range of its two values. -/
theorem setTimingReplacesOneClass : Obligations.SetTimingReplacesOneClass := by
  refine ⟨fun s tag k cls io mem h named => ⟨fun io15 mem15 => ?_, fun above => ?_⟩,
    fun s tag cls io mem h above => ?_⟩
  · refine ⟨_, exec_setTiming h cls io mem, ?_, fun kind i v a d => ?_⟩
    all_goals rw [setTimingTaken_known named, if_neg (by omega)]
    · exact replyCommand_begin (s := s.withTiming k ⟨io.toNat, mem.toNat⟩) h.command .ok [cls, io, mem]
    · have table : (((s.beginRequest .command 0x18 tag).withTiming k ⟨io.toNat, mem.toNat⟩).replyCommand .ok
          [cls, io, mem]).sbc.timing[k] = ⟨io.toNat, mem.toNat⟩ := by
        simp only [replyCommand_keeps, withTiming_get]
      exact congrArg (fun t => kind.baseLength + kind.waitStates t) table
  · rw [exec_setTiming h, setTimingTaken_known named, if_pos above]
    exact congrArg Host.Outcome.next (replyCommand_begin h.command .badArg _)
  · rw [exec_setTiming h, setTimingTaken_unknown above]
    exact congrArg Host.Outcome.next (replyCommand_begin h.command .badArg _)

/-! ## SET_READY_LIMIT -/

/-- What is done with the value taken, the larger of 1 and the one given. -/
theorem setReadyLimitTaken_eq (limit : Byte) (s : State) : setReadyLimitTaken limit s =
    let taken := if limit = 0 then 1 else limit.toNat
    (s.updSbc fun b => { b with readyLimit := taken }).replyCommand .ok
      ([BitVec.ofNat 8 taken] ++ le 2 (readyLimitPeriods taken s.bcu.divider) ++ [if limit = 0 then 1 else 0]) := by
  have most : max 1 limit.toNat = if limit = 0 then 1 else limit.toNat := by
    split
    case isTrue zero => simp [zero]
    case isFalse positive => bv_omega
  unfold setReadyLimitTaken
  simp only [most, replyFlags_eq, decide_eq_true_eq]
  rfl

/-- Settles O20: the reply and the cycles that begin read the limit taken. -/
theorem setReadyLimitTakesALimit : Obligations.SetReadyLimitTakesALimit := by
  intro s tag limit h
  have taken := setReadyLimitTaken_eq limit (s.beginRequest .command 0x19 tag)
  dsimp only at taken ⊢
  rw [exec_setReadyLimit h, taken]
  generalize (if limit = 0 then 1 else limit.toNat) = taken
  have answered := replyCommand_begin (s := s.updSbc fun b => { b with readyLimit := taken })
    (kind := 0x19) (tag := tag) h.command .ok ([BitVec.ofNat 8 taken] ++ le 2 (readyLimitPeriods taken s.bcu.divider) ++
      [if limit = 0 then 1 else 0])
  exact ⟨_, congrArg Host.Outcome.next answered, rfl, fun kind k i v a d => rfl⟩

/-! ## SET_REFRESH and its ticks -/

theorem setRefreshTaken_eq (interval : Byte) (s : State) : setRefreshTaken interval s =
    let taken := if 63 < interval.toNat then 63 else interval.toNat
    (s.updSbc fun b => { b with
      interval := taken
      countdown := if b.countdown = 0 ∧ b.tickDue = false then taken else b.countdown }).replyCommand .ok
        [BitVec.ofNat 8 taken, if 63 < interval.toNat then 1 else 0] := by
  have least : min 63 interval.toNat = if 63 < interval.toNat then 63 else interval.toNat := by split <;> omega
  unfold setRefreshTaken
  simp only [least, Bool.not_eq_true, replyFlags_eq, decide_eq_true_eq]
  rfl

theorem Sbc.tick_eq (b : Sbc) : b.tick = { b with
    tickDue := false, countdown := b.interval
    debt := if b.debt < 4 then b.debt + 1 else b.debt
    slips := if b.debt < 4 then b.slips else b.slips + 1 } := by
  by_cases owed : b.debt < 4
  · rw [if_pos owed, if_pos owed]
    exact if_pos owed
  · rw [if_neg owed, if_neg owed]
    exact if_neg owed

/-- Settles O21: the request by its equation, the tick by whether it is due in a clock state that takes it. -/
theorem refreshSettingAndTicks : Obligations.RefreshSettingAndTicks := by
  refine ⟨?_, fun s due runs => ?_, fun s rests => ?_⟩
  · intro s tag interval h taken
    rw [exec_setRefresh h, setRefreshTaken_eq]
    exact congrArg Host.Outcome.next (replyCommand_begin
      (s := s.updSbc fun b => { b with
        interval := taken, countdown := if b.countdown = 0 ∧ b.tickDue = false then taken else b.countdown })
      h.command .ok _)
  · refine congrArg Host.Outcome.next ((if_pos ⟨due, runs⟩).trans ?_)
    exact congrArg (fun b => State.settle { s with sbc := b }) s.sbc.tick_eq
  · refine congrArg Host.Outcome.next (if_neg ?_)
    rintro ⟨due, runs⟩
    rcases rests with none | ⟨notRun, notRetuning⟩
    · exact absurd due (by simp [none])
    · exact runs.elim notRun notRetuning

/-! ## BUS_STATUS -/

theorem toList_flatMap {α β : Type} (v : Vector α 4) (f : α → List β) :
    v.toList.flatMap f = (List.finRange 4).flatMap fun i => f v[i] := by
  rw [← List.flatMap_map (f := fun i : Fin 4 => v[i])]
  congr 1
  refine List.ext_getElem (by simp) fun i _ _ => by simp

/-- Settles O22: the payload reads the state before the request, which taking it does not change. -/
theorem busStatusReportsTheBus : Obligations.BusStatusReportsTheBus := by
  intro s tag h
  rw [exec_busStatus h]
  refine congrArg Host.Outcome.next ((replyCommand_begin h.command .ok _).trans ?_)
  refine congrArg (fun payload => s.replyAtOnce ⟨0x9B, 0x00, tag, payload⟩) ?_
  refine (?_ : s.busStatusPayload = _)
  unfold State.busStatusPayload
  rw [toList_flatMap, toList_flatMap]
  rfl

end Sys2Proof.Machine
end

