-- ==== Sys2Proof/Proofs/RequestLines.lean ====
section
/-! PROOF. The cards' request lines, and the stalls and overrun halts that follow from them (O50). -/

namespace Sys2Proof.Machine

open Sys2Proof

/-! ## One channel -/

/-- The card of the channel's slot asks on its line, by the slots and the cards' lines (R118). -/
abbrev Channel.asked (c : Channel) (slots : Vector Slot 4) (cards : Cards) (n : ChanId) : Prop :=
  c.state = .running ∧ slots[c.slot].state = .enabled ∧ cards.trq[trqIndex c.slot n] = true

theorem cardAsks_iff (s : State) (n : ChanId) : s.cardAsks n = true ↔ (s.chan n).asked s.slots s.cards n := by
  simp [State.cardAsks, Channel.asked, State.slot, State.trq, and_assoc]

/-- A stall begins on an asking channel without data, once an episode (R123). -/
abbrev Channel.lacksData (c : Channel) (w : Nat) : Prop :=
  c.direction = .out ∧ c.level < w ∧ c.policy ≠ .hold ∧ c.stallEpisode = false

/-- An asking channel without room is halted under HALT (R125). -/
abbrev Channel.lacksRoom (c : Channel) (w : Nat) : Prop :=
  c.direction = .into ∧ c.freeSpace < w ∧ c.policy ≠ .drop

/-- A channel after its request line is looked at, by the slots and the cards' lines (R123, R125). -/
def Channel.served (c : Channel) (slots : Vector Slot 4) (cards : Cards) (n : ChanId) : Channel :=
  if c.asked slots cards n ∧ c.lacksData (chanWidth n) then { c with stallEpisode := true }.raiseStall
  else if c.asked slots cards n ∧ c.lacksRoom (chanWidth n) then c.haltWith .overrun
  else c

section Served

variable {c : Channel} {slots : Vector Slot 4} {cards : Cards} {n : ChanId}

theorem served_stalls (asked : c.asked slots cards n) (stalls : c.lacksData (chanWidth n)) :
    c.served slots cards n = { c with stallEpisode := true }.raiseStall := if_pos ⟨asked, stalls⟩

theorem served_overruns (asked : c.asked slots cards n) (overruns : c.lacksRoom (chanWidth n)) :
    c.served slots cards n = c.haltWith .overrun := by
  have out : ¬ c.lacksData (chanWidth n) := fun stalls => by cases stalls.1.symm.trans overruns.1
  exact (if_neg fun h => out h.2).trans (if_pos ⟨asked, overruns⟩)

theorem served_rests (stalls : ¬ (c.asked slots cards n ∧ c.lacksData (chanWidth n)))
    (overruns : ¬ (c.asked slots cards n ∧ c.lacksRoom (chanWidth n))) : c.served slots cards n = c :=
  (if_neg stalls).trans (if_neg overruns)

end Served

theorem serveChannel_eq (s : State) (n : ChanId) :
    s.serveChannel n = s.modChan n fun c => c.served s.slots s.cards n := by
  have becomes : ∀ {c : Channel}, (s.chan n).served s.slots s.cards n = c →
      (s.modChan n fun _ => c) = s.modChan n fun c => c.served s.slots s.cards n :=
    fun e => congrArg (fun c => { s with chans := s.chans.set n c }) e.symm
  have stays : ¬ ((s.chan n).asked s.slots s.cards n ∧ (s.chan n).lacksData (chanWidth n)) →
      ¬ ((s.chan n).asked s.slots s.cards n ∧ (s.chan n).lacksRoom (chanWidth n)) →
      s = s.modChan n fun c => c.served s.slots s.cards n :=
    fun stalls overruns => (modChan_same (served_rests stalls overruns)).symm
  unfold State.serveChannel
  dsimp only
  split
  case isTrue lacks =>
    rw [Bool.and_eq_true, cardAsks_iff] at lacks
    obtain ⟨asked, unable⟩ := lacks
    unfold Channel.able at unable
    split
    case h_1 out =>
      have lacks : (s.chan n).level < chanWidth n ∧ (s.chan n).policy ≠ .hold := by simpa [out] using unable
      split
      case isTrue episode =>
        exact stays (fun ⟨_, _, _, _, fresh⟩ => by rw [fresh] at episode; cases episode)
          (fun ⟨_, into, _⟩ => by rw [into] at out; cases out)
      case isFalse fresh =>
        exact becomes (served_stalls asked ⟨out, lacks.1, lacks.2, by simpa using fresh⟩)
    case h_2 into =>
      have lacks : (s.chan n).freeSpace < chanWidth n ∧ (s.chan n).policy ≠ .drop := by simpa [into] using unable
      exact becomes (served_overruns asked ⟨into, lacks⟩)
  case isFalse serves =>
    refine stays (fun ⟨asked, out, short, policy, _⟩ => serves ?_) (fun ⟨asked, into, full, policy⟩ => serves ?_)
    · rw [Bool.and_eq_true, cardAsks_iff]
      exact ⟨asked, by simp [Channel.able, out, short, policy]⟩
    · rw [Bool.and_eq_true, cardAsks_iff]
      exact ⟨asked, by simp [Channel.able, into, full, policy]⟩

/-! ## The six channels -/

theorem serveChannels_chan (s : State) (n : ChanId) :
    s.serveChannels.chan n = (s.chan n).served s.slots s.cards n :=
  forChans_read (read := State.chan) (kept := fun s => (s.slots, s.cards)) (upd := fun k n c => c.served k.1 k.2 n)
    (fun n s => by rw [serveChannel_eq]; rfl)
    (fun n s j => by
      rw [serveChannel_eq, State.modChan_chan]
      by_cases same : n = j
      · subst same; rfl
      · rw [if_neg same, if_neg same]) s n

/-- Two states that agree with the channels of one put in the other differ in the channels alone. -/
theorem eq_with_chans {s t : State} (h : { t with chans := s.chans } = s) : t = { s with chans := t.chans } :=
  congrArg (fun u : State => { u with chans := t.chans }) h

/-- Serving the channels changes the channels alone. -/
theorem serveChannels_only (s : State) : s.serveChannels = { s with chans := s.serveChannels.chans } :=
  eq_with_chans (forChans_keeps (g := fun t => { t with chans := s.chans }) (fun n t => by rw [serveChannel_eq]; rfl) s)

/-- Settles O50, by the three ways a channel is served. -/
theorem requestLinesAndServing : Obligations.RequestLinesAndServing := by
  refine ⟨fun s i line => rfl, fun s i line => rfl, fun s n => ?_⟩
  intro c w asks stalls overruns e stalled overrun
  have served : ∀ {x : Channel}, c.served s.slots s.cards n = x →
      s.serveChannels.chan n = x ∧ s.serveChannel n = { s with chans := s.chans.set n x } := fun h =>
    ⟨(serveChannels_chan s n).trans h,
      (serveChannel_eq s n).trans (congrArg (fun x => { s with chans := s.chans.set n x }) h)⟩
  refine ⟨fun ⟨asked, lacks⟩ => served (served_stalls asked lacks),
    fun ⟨asked, lacks⟩ => served (served_overruns asked lacks), fun noStall noOverrun => ?_, serveChannels_only s⟩
  have rests : c.served s.slots s.cards n = c := served_rests noStall noOverrun
  exact ⟨(served rests).1, (serveChannel_eq s n).trans (modChan_same rests)⟩

end Sys2Proof.Machine
end

