-- ==== Sys2Proof/Proofs/CycleEnds.lean ====
section
/-! PROOF. A cycle's end hands its result and what waits follows (O23); a ready timeout faults the slot (O24). -/

namespace Sys2Proof.Machine

open Sys2Proof

/-! ## The result -/

/-- The width of the cycle in flight: a transfer is as wide as its channel, an access as its kind (R21, R108). -/
theorem cycleWide_eq (s : State) (k : CycleKind) : s.cycleWide k =
    match s.sbc.holder with
    | some (.channel n) => decide (4 ≤ n.val)
    | _ => k.wide := by
  unfold State.cycleWide
  generalize s.sbc.holder = holder
  rcases holder with _ | _ | n | _
  case some.channel =>
    show (chanWidth n == 2) = decide (4 ≤ n.val)
    rw [Bool.eq_iff_iff, beq_iff_eq, decide_eq_true_iff, chanWidth]
    split <;> omega
  all_goals rfl

theorem resultData_eq (s : State) (k : CycleKind) (lines : Half) : s.resultData k lines =
    if k.reads = true then (if s.cycleWide k = true then lines else lines &&& 0x00FF) else 0 := by
  unfold State.resultData
  refine if_congr Iff.rfl ?_ rfl
  cases s.cycleWide k with
  | false => rfl
  | true => exact BitVec.and_allOnes

/-- The part with the cycle off the bus and its result handed (R27). -/
def State.handed (s : State) (r : CycleResult) : State :=
  { s with sbc := { s.sbc with cycle := none, lastResult := some r } }

/-! ## The grant after a cycle -/

section Grant

variable {s : State}

theorem continueGrant_refresh (holder : s.sbc.holder = some .refresh) : s.continueGrant = s.freeBus := by
  unfold State.continueGrant
  rw [holder]

theorem continueGrant_channel {n : ChanId} (holder : s.sbc.holder = some (.channel n)) :
    s.continueGrant = if s.burstContinues n = true then s.beginTransfer n else s.freeBus := by
  unfold State.continueGrant
  rw [holder]

theorem continueGrant_ae (holder : s.sbc.holder = some .ae) :
    s.continueGrant = if s.ae.units = [] then s.freeBus.accessBoundary else s.beginAccessCycle := by
  unfold State.continueGrant
  rw [holder]
  exact if_congr List.isEmpty_iff rfl rfl

/-- What waits at a boundary leaves the grant. -/
theorem boundaries_holder (s : State) : s.chanBoundaries.slotBoundaries.sbc.holder = s.sbc.holder := by
  rw [(slotBoundaries_keeps _).2, (chanBoundaries_keeps s).2.1]

theorem burstContinues_iff (s : State) (n : ChanId) : s.burstContinues n = true ↔
    (s.chan n).demand = true ∧ s.sbc.burst < 16 ∧ s.chanRequests n = true ∧ s.sbc.debt < 4 ∧
      s.bcu.clock = .run ∧ s.bcu.waiting = none := by
  simp only [State.burstContinues, Bool.and_eq_true, grantsAllowed_iff, decide_eq_true_iff, and_assoc]
  rfl

end Grant

/-! ## The requester takes the result -/

section Requester

variable {s : State} {c : Cycle}

theorem takeResult_refresh (holder : s.sbc.holder = some .refresh) (timedOut : Bool) (data : Half) :
    s.takeResult c timedOut data = s.updSbc fun b => { b with row := b.row + 1, debt := b.debt - 1 } := by
  unfold State.takeResult
  rw [holder]

theorem takeResult_done {n : ChanId} (holder : s.sbc.holder = some (.channel n)) (data : Half) :
    s.takeResult c false data =
      ((s.updSbc fun b => { b with burst := b.burst + 1 }).applyTransfer n c.transfer c.driven data).serveChannel n := by
  unfold State.takeResult
  rw [holder]
  rfl

theorem takeResult_timedOut {n : ChanId} (holder : s.sbc.holder = some (.channel n)) (data : Half) :
    s.takeResult c true data =
      (s.updSbc fun b => { b with burst := b.burst + 1 }).modChan n fun x => x.haltWith .busTimeout := by
  unfold State.takeResult
  rw [holder]
  rfl

theorem takeResult_ae (holder : s.sbc.holder = some .ae) (timedOut : Bool) (data : Half) :
    s.takeResult c timedOut data = s.takeAccessResult timedOut data := by
  unfold State.takeResult
  rw [holder]

theorem applyTransfer_sbc (s : State) (n : ChanId) (kind : TransferKind) (driven sampled : Half) :
    (s.applyTransfer n kind driven sampled).sbc = s.sbc := by
  unfold State.applyTransfer
  dsimp only
  split <;> rfl

theorem takeAccessResult_eq {u : AccessUnit} {us : List AccessUnit} {p : CyclePlan} {ps : List CyclePlan}
    (units : s.ae.units = u :: us) (cycles : u.cycles = p :: ps) (timedOut : Bool) (data : Half) :
    s.takeAccessResult timedOut data = { s with
      rmap := s.rmap.recordAll p.records
      ae := closeUnits ({ u with
        cycles := ps, value := if u.read = true then u.merge p.part data else u.value
        timedOut := u.timedOut || timedOut } :: us) s.ae } := by
  unfold State.takeAccessResult
  rw [units]
  dsimp only
  rw [cycles]
  rfl

theorem takeAccessResult_sbc (s : State) (timedOut : Bool) (data : Half) :
    (s.takeAccessResult timedOut data).sbc = s.sbc := by
  unfold State.takeAccessResult
  split
  · split <;> rfl
  · rfl

/-- The grant is still in force when the requester has the result. -/
theorem takeResult_holder (s : State) (c : Cycle) (timedOut : Bool) (data : Half) :
    (s.takeResult c timedOut data).sbc.holder = s.sbc.holder := by
  unfold State.takeResult
  split
  case h_1 => rfl
  case h_2 =>
    dsimp only
    split
    · rfl
    · rw [(serveChannel_keeps _ _).2, applyTransfer_sbc]
      rfl
  case h_3 => rw [takeAccessResult_sbc]
  case h_4 => rfl

end Requester

/-! ## The end, by the holder -/

/-- The result of a cycle that ends at its full length or times out (R27). -/
abbrev endResult (c : Cycle) (timedOut : Bool) (data : Half) (length : Nat) : CycleResult :=
  ⟨if timedOut then .timedOut else .done, data, c.target, length⟩

/-- Once the requester has taken the result, what waits follows, and then the grant in force goes on or ends. -/
theorem finishCycle_taken {s u t : State} {c : Cycle} {timedOut : Bool} {data : Half} {length : Nat}
    (handed : s.handed (endResult c timedOut data length) = u) (taken : u.takeResult c timedOut data = t) :
    s.finishCycle c timedOut data length = t.chanBoundaries.slotBoundaries.continueGrant.settle ∧
    t.chanBoundaries.slotBoundaries.sbc.holder = s.sbc.holder := by
  subst handed taken
  refine ⟨rfl, ?_⟩
  rw [boundaries_holder, takeResult_holder]
  rfl

/-! ## A boundary at which nothing waits -/

theorem chanBoundaries_rests {s : State}
    (h : ∀ n : ChanId, (s.chan n).pauseWaits = false ∧ (s.chan n).releaseWaits = false) : s.chanBoundaries = s :=
  List.foldl_fixed' (fun n => by simp [State.chanBoundary, h n]) _

theorem slotBoundaries_rests {s : State} (h : ∀ i : SlotId, (s.slot i).waiting = none) : s.slotBoundaries = s :=
  List.foldl_fixed' (fun i => by simp [State.slotBoundary, h i]) _

/-! ## CYCLE_END -/

theorem cycleEnds_within {s : State} {c : Cycle} {extension : Nat} (flight : s.sbc.cycle = some c)
    (within : extension ≤ (if c.kind = .refresh then 0 else c.limit)) (card : CardData) :
    cycleEnds extension card s =
      s.finishCycle c false (s.resultData c.kind (c.dataLines card)) (c.length + extension) := by
  unfold cycleEnds
  rw [flight]
  exact if_pos within

theorem cycleEnds_beyond {s : State} {c : Cycle} {extension : Nat} (flight : s.sbc.cycle = some c)
    (beyond : (if c.kind = .refresh then 0 else c.limit) < extension) (card : CardData) :
    cycleEnds extension card s = s := by
  unfold cycleEnds
  rw [flight]
  exact if_neg (not_le.mpr beyond)

theorem cycleEnds_none {s : State} (none : s.sbc.cycle = none) (extension : Nat) (card : CardData) :
    cycleEnds extension card s = s := by
  unfold cycleEnds
  rw [none]

/-- Settles O23: the end by its holder, the result joined to its access, and each part of the follow-on work. -/
theorem cycleEndHandsItsResult : Obligations.CycleEndHandsItsResult := by
  refine ⟨?_, fun s timedOut data u us p ps units cycles => ?_, fun s => ⟨rfl, rfl, rfl, rfl⟩,
    fun s => chanBoundaries_rests, fun s => slotBoundaries_rests, fun s rests => ?_, burstContinues_iff,
    fun s extension card none => congrArg Host.Outcome.next (cycleEnds_none none extension card),
    fun s c extension card flight beyond => congrArg Host.Outcome.next (cycleEnds_beyond flight beyond card)⟩
  · intro s c extension card flight within wide lines data u
    have result : s.resultData c.kind (c.dataLines card) = data := by
      rw [resultData_eq, cycleWide_eq]
      rfl
    have finish := cycleEnds_within flight within card
    rw [result] at finish
    have handed : s.handed (endResult c false data (c.length + extension)) = u := rfl
    refine ⟨fun holder => congrArg Host.Outcome.next (finish.trans ?_), fun n holder => ?_, fun holder => ?_⟩
    · obtain ⟨ends, grant⟩ := finishCycle_taken handed (takeResult_refresh (s := u) (c := c) holder false data)
      rw [ends, continueGrant_refresh (grant.trans holder)]
      rfl
    · obtain ⟨ends, grant⟩ := finishCycle_taken handed (takeResult_done (s := u) (c := c) holder data)
      refine congrArg Host.Outcome.next (finish.trans (ends.trans ?_))
      rw [continueGrant_channel (grant.trans holder)]
      rfl
    · obtain ⟨ends, grant⟩ := finishCycle_taken handed (takeResult_ae (s := u) (c := c) holder false data)
      refine congrArg Host.Outcome.next (finish.trans (ends.trans ?_))
      rw [continueGrant_ae (grant.trans holder)]
  · intro value
    exact takeAccessResult_eq units cycles timedOut data
  · refine clockBoundary_otherwise fun free => ?_
    rcases rests with held | ⟨idle, settles⟩
    · exact absurd free held
    · exact ⟨settles, fun _ => idle⟩

/-! ## READY_TIMEOUT -/

theorem readyTimesOut_target {s : State} {c : Cycle} {i : SlotId} (flight : s.sbc.cycle = some c)
    (target : c.target = some i) : readyTimesOut s =
      (s.recordFault i .readyTimeout c).finishCycle c true (s.resultData c.kind 0xFFFF) (c.length + c.limit) := by
  unfold readyTimesOut
  rw [flight, Option.bind_some, target]

theorem readyTimesOut_rests {s : State}
    (h : s.sbc.cycle = none ∨ ∃ c, s.sbc.cycle = some c ∧ c.target = none) : readyTimesOut s = s := by
  unfold readyTimesOut
  rcases h with none | ⟨c, flight, none⟩
  · rw [none]
  · rw [flight, Option.bind_some, none]

/-- Settles O24: the fault is recorded, and the cycle ends with the timeout as its result. -/
theorem readyTimeoutFaultsTheSlot : Obligations.ReadyTimeoutFaultsTheSlot := by
  refine ⟨?_, fun s none => congrArg Host.Outcome.next (readyTimesOut_rests none)⟩
  intro s c i flight target fault wide data u
  have result : s.resultData c.kind 0xFFFF = data := by
    rw [resultData_eq, cycleWide_eq]
    rfl
  have out := readyTimesOut_target flight target
  rw [result] at out
  have handed : (s.recordFault i .readyTimeout c).handed (endResult c true data (c.length + c.limit)) = u := by
    rw [endResult, target]
    rfl
  refine ⟨fun n holder => congrArg Host.Outcome.next (out.trans ?_),
    fun holder => congrArg Host.Outcome.next (out.trans ?_)⟩
  · exact (finishCycle_taken handed (takeResult_timedOut (s := u) holder data)).1
  · exact (finishCycle_taken handed (takeResult_ae (s := u) holder true data)).1

end Sys2Proof.Machine
end

