-- ==== Sys2Proof/Proofs/Trips.lean ====
section
/-! PROOF. A trip opens its slot, halts its channels, stops its inputs, cuts its cycle and sends the deferred reply
(O34). -/

namespace Sys2Proof.Machine

open Sys2Proof

/-! ## The cycle in flight -/

/-- A trip of the slot cuts the cycle in flight (R26). -/
def State.cuts (s : State) (i : SlotId) : Bool :=
  s.sbc.cycle.any fun c => c.connected[i] && decide (c.kind ≠ .refresh)

/-- The part with the access ended whose cycle a trip of the slot cuts (R26, R94). -/
def State.stopped (s : State) (i : SlotId) : State :=
  if s.cuts i = true ∧ s.sbc.holder = some .ae then s.endAccess .notReady else s

/-- The end of an access neither reads nor changes the bus and the free values. -/
theorem endAccess_with (s : State) (status : Status) (sbc : Sbc) (free : Nat) :
    ({ s with sbc := sbc, free := free } : State).endAccess status =
      { s.endAccess status with sbc := sbc, free := free } := by
  unfold State.endAccess
  simp only [replyCommand_eq, replyStream_eq]
  cases s.ae.cancelTaken <;> rfl

section Cut

variable {s : State} {c : Cycle} {i : SlotId}

theorem cuts_flight (flight : s.sbc.cycle = some c) (connected : c.connected[i] = true) :
    s.cuts i = decide (c.kind ≠ .refresh) := by
  unfold State.cuts
  rw [flight, Option.any_some, connected, Bool.true_and]

theorem connects_flight (flight : s.sbc.cycle = some c) : s.connects i = c.connected[i] := by
  unfold State.connects
  rw [flight]

/-- A cycle that does not connect the slot is left alone. -/
theorem cutCycle_open (open_ : s.connects i = false) : s.cutCycle i = s ∧ s.cuts i = false := by
  cases flight : s.sbc.cycle with
  | none => exact ⟨by simp [State.cutCycle, flight], by simp [State.cuts, flight]⟩
  | some c =>
    rw [connects_flight flight] at open_
    exact ⟨by simp [State.cutCycle, flight, open_],
      by rw [State.cuts, flight, Option.any_some, open_, Bool.false_and]⟩

/-- A refresh goes on without the slot (R26, R35). -/
theorem cutCycle_refresh (flight : s.sbc.cycle = some c) (connected : c.connected[i] = true)
    (refresh : c.kind = .refresh) : s.cutCycle i =
      (s.recordFault i .slotLost c).updSbc fun b =>
        { b with cycle := some { c with connected := c.connected.set i false } } := by
  unfold State.cutCycle
  rw [flight]
  exact (if_pos connected).trans (if_pos refresh)

/-- Any other cycle is cut: the bus is FREE, and the access that held it ends (R26, R27, R35, R94). -/
theorem cutCycle_cut (flight : s.sbc.cycle = some c) (connected : c.connected[i] = true) (other : c.kind ≠ .refresh) :
    s.cutCycle i = { s.stopped i with
      sbc := { (s.recordFault i .slotLost c).sbc with
        cycle := none, holder := none, burst := 0
        lastResult := some ⟨.cut, s.resultData c.kind 0xFFFF, some i, Config.cutLength s.free⟩ }
      free := s.free + 1 } := by
  have cut : s.cuts i = true := (cuts_flight flight connected).trans (decide_eq_true other)
  unfold State.cutCycle
  rw [flight]
  refine (if_pos connected).trans ((if_neg other).trans ?_)
  by_cases holds : s.sbc.holder = some .ae
  · have stopped : s.stopped i = s.endAccess .notReady := if_pos ⟨cut, holds⟩
    rw [stopped, ← endAccess_with]
    exact if_pos holds
  · have stopped : s.stopped i = s := if_neg fun h => holds h.2
    rw [stopped]
    exact if_neg holds

/-- Beside the bus and the free values a trip's work on the cycle in flight is the end of the access. -/
theorem cutCycle_only (s : State) (i : SlotId) : s.cutCycle i = { s.stopped i with
    sbc := (s.cutCycle i).sbc, free := if s.cuts i = true then s.free + 1 else s.free } := by
  have stays : s.cuts i = false → s.stopped i = s := fun h => if_neg fun g => by rw [h] at g; cases g.1
  cases connects : s.connects i with
  | false =>
    obtain ⟨same, none⟩ := cutCycle_open connects
    rw [same, stays none, none]
    rfl
  | true =>
    cases flight : s.sbc.cycle with
    | none => simp [State.connects, flight] at connects
    | some c =>
      have connected : c.connected[i] = true := (connects_flight flight).symm.trans connects
      have cut := cuts_flight flight connected
      by_cases refresh : c.kind = .refresh
      · have none : s.cuts i = false := cut.trans (decide_eq_false (not_not.mpr refresh))
        rw [cutCycle_refresh flight connected refresh, stays none, none]
        rfl
      · rw [cutCycle_cut flight connected refresh, cut.trans (decide_eq_true refresh)]
        rfl

/-- The end of an access leaves all but the link and the Access Engine. -/
theorem stopped_keeps (s : State) (i : SlotId) :
    (s.stopped i).bcu = s.bcu ∧ (s.stopped i).slots = s.slots ∧ (s.stopped i).measure = s.measure ∧
    (s.stopped i).rmap = s.rmap ∧ (s.stopped i).chans = s.chans ∧ (s.stopped i).chanReply = s.chanReply ∧
    (s.stopped i).stm = s.stm ∧ (s.stopped i).inputs = s.inputs ∧ (s.stopped i).cards = s.cards ∧
    (s.stopped i).pending = s.pending ∧ (s.stopped i).ml.notices = s.ml.notices := by
  unfold State.stopped
  split
  · obtain ⟨payload, echo, e⟩ := endAccess_eq s .notReady
    rw [e]
    refine ⟨rfl, rfl, rfl, rfl, rfl, rfl, rfl, rfl, rfl, rfl, ?_⟩
    rw [State.updMl_ml]
    split
    · rw [(Ml.answerStream_keeps ..).1, (Ml.answerCommand_keeps ..).1]
      rfl
    · exact (Ml.answerCommand_keeps ..).1
  · exact ⟨rfl, rfl, rfl, rfl, rfl, rfl, rfl, rfl, rfl, rfl, rfl⟩

/-- What a trip's work on the cycle in flight leaves. -/
theorem cutCycle_keeps (s : State) (i : SlotId) :
    (s.cutCycle i).bcu = s.bcu ∧ (s.cutCycle i).measure = s.measure ∧ (s.cutCycle i).rmap = s.rmap ∧
    (s.cutCycle i).chanReply = s.chanReply ∧ (s.cutCycle i).stm = s.stm ∧ (s.cutCycle i).cards = s.cards ∧
    (s.cutCycle i).pending = s.pending ∧ (∀ j, (s.cutCycle i).slot j = s.slot j) ∧
    (∀ n, (s.cutCycle i).chan n = s.chan n) ∧ (s.cutCycle i).inputs = s.inputs := by
  obtain ⟨bcu, slots, measure, rmap, chans, chanReply, stm, inputs, cards, pending, -⟩ := stopped_keeps s i
  rw [cutCycle_only]
  exact ⟨bcu, measure, rmap, chanReply, stm, cards, pending, fun j => congrArg (fun v : Vector Slot 4 => v[j]) slots,
    fun n => congrArg (fun v : Vector Channel 6 => v[n]) chans, inputs⟩

end Cut

/-! ## The inputs of a slot that leaves ENABLED -/

/-- An input that is IDLE and unwatched, its captures and its queued notice gone (R167). -/
def Input.released (x : Input) : Input := { x with
  state := .idle, active := false, run := 0, changeDue := false, again := false, againTime := 0, lost := 0
  repeated := false, snapshot := [], queued := false }

/-- A notice that no input of the slot withdraws (R161). -/
def Notice.stays (n : Notice) (inputs : Vector Input 48) (slot : SlotId) : Bool :=
  match n.input with
  | some x => decide (¬ (inputSlot x = slot ∧ inputs[x].queued = true))
  | none => true

theorem withdraw_input (s : State) (i j : InputId) :
    (s.withdraw i).input j = if i = j then { s.input i with queued := false } else s.input j := by
  unfold State.withdraw
  split
  case isTrue => rw [State.modInput_input]; rfl
  case isFalse unqueued =>
    have same : { s.input i with queued := false } = s.input i := by
      rw [Bool.not_eq_true] at unqueued
      rw [← unqueued]
    rw [same]
    split
    case isTrue e => rw [e]
    case isFalse => rfl

theorem withdraw_notices (s : State) (i : InputId) : (s.withdraw i).ml.notices =
    s.ml.notices.filter fun n => decide (¬ ((s.input i).queued = true ∧ n.input = some i)) := by
  unfold State.withdraw
  split
  case isTrue queued =>
    refine List.filter_congr fun n _ => ?_
    simp only [queued, true_and]
    rw [bne, beq_eq_decide, ← decide_not]
  case isFalse unqueued =>
    refine (List.filter_eq_self.mpr fun n _ => ?_).symm
    simp [unqueued]

theorem releaseInput_input (s : State) (i j : InputId) :
    (s.releaseInput i).input j = if i = j then (s.input i).released else s.input j := by
  unfold State.releaseInput
  rw [State.modInput_input, withdraw_input, withdraw_input, if_pos rfl]
  split <;> rfl

theorem releaseSlotInputs_input (s : State) (slot : SlotId) (j : InputId) :
    (s.releaseSlotInputs slot).input j = if inputSlot j = slot then (s.input j).released else s.input j :=
  forInputs_read (read := State.input) (kept := fun _ => ())
    (upd := fun _ j x => if inputSlot j = slot then x.released else x) (fun _ _ => rfl)
    (fun i s j => by
      by_cases same : i = j
      · subst same
        rw [if_pos rfl]
        split
        · rw [releaseInput_input, if_pos rfl]
        · rfl
      · rw [if_neg same]
        split
        · rw [releaseInput_input, if_neg same]
        · rfl) s j

/-- The notices that stay when the inputs of a list are released, those of a slot (R161, R167). -/
theorem foldl_release_notices (slot : SlotId) : ∀ (l : List InputId), l.Nodup → ∀ s : State,
    (l.foldl (fun s i => if inputSlot i = slot then s.releaseInput i else s) s).ml.notices =
      s.ml.notices.filter fun n =>
        decide (∀ x ∈ l, ¬ (n.input = some x ∧ inputSlot x = slot ∧ (s.input x).queued = true))
  | [], _, s => by simp
  | i :: l, nodup, s => by
    obtain ⟨fresh, nodup⟩ := List.nodup_cons.mp nodup
    rw [List.foldl_cons, foldl_release_notices slot l nodup]
    by_cases own : inputSlot i = slot
    · have notices : (s.releaseInput i).ml.notices = (s.withdraw i).ml.notices := rfl
      have others : ∀ x ∈ l, (s.releaseInput i).input x = s.input x := fun x hx => by
        rw [releaseInput_input, if_neg (by rintro rfl; exact fresh hx)]
      rw [if_pos own, notices, withdraw_notices, List.filter_filter]
      refine List.filter_congr fun n _ => ?_
      rw [← Bool.decide_and]
      refine decide_eq_decide.mpr ?_
      rw [List.forall_mem_cons, and_comm]
      refine and_congr (by simp [own, and_comm]) (forall₂_congr fun x hx => ?_)
      rw [others x hx]
    · rw [if_neg own]
      refine List.filter_congr fun n _ => decide_eq_decide.mpr ?_
      rw [List.forall_mem_cons]
      exact ⟨fun h => ⟨fun g => own g.2.1, h⟩, And.right⟩

theorem releaseSlotInputs_ml (s : State) (slot : SlotId) :
    (s.releaseSlotInputs slot).ml =
      { s.ml with notices := s.ml.notices.filter fun n => n.stays s.inputs slot } := by
  have notices : (s.releaseSlotInputs slot).ml.notices = s.ml.notices.filter fun n => n.stays s.inputs slot := by
    refine (foldl_release_notices slot _ (List.nodup_finRange 48) s).trans (List.filter_congr fun n _ => ?_)
    unfold Notice.stays
    cases n.input with
    | none => simp
    | some x =>
      refine decide_eq_decide.mpr ⟨fun h g => h x (List.mem_finRange x) ⟨rfl, g⟩, fun h y _ g => ?_⟩
      obtain ⟨same, g⟩ := g
      exact h (Option.some.inj same ▸ g)
  obtain ⟨inputs, rest, e, -⟩ := OnlyInputs.releaseSlotInputs s slot
  rw [← notices, e]

/-! ## Entering a state -/

section Enter

variable (s : State) (i : SlotId) (new : SlotState)

theorem enterState_rmap : (s.enterState i new).rmap =
    if new = .resetting ∨ new = .off ∨ new = .fault then s.rmap.clearSlot i else s.rmap := by
  have halted : ∀ (t : State) (c : HaltCause), (t.haltSlotChannels i c).rmap = t.rmap :=
    fun t c => forChans_keeps (g := State.rmap) (fun n t => by split <;> rfl) t
  have released : ∀ t : State, (t.releaseSlotInputs i).rmap = t.rmap :=
    fun t => by have h := (OnlyInputs.releaseSlotInputs t i).keeps; simp only [h]
  have watched : ∀ t : State, (t.watchSlot i).rmap = t.rmap :=
    fun t => by have h := (OnlyInputs.watchSlot t i).keeps; simp only [h]
  unfold State.enterState
  simp only [apply_ite State.rmap, halted, released, watched, State.updRmap_rmap, State.modSlot_rmap, ite_self]

variable {new} in
/-- What entering a state other than ENABLED does to the inputs and the link: on leaving ENABLED the inputs of the slot
are released, and their notices withdrawn (R161, R167). -/
theorem enterState_released (other : new ≠ .enabled) :
    (∀ x, (s.enterState i new).input x =
      if (s.slot i).state = .enabled ∧ inputSlot x = i then (s.input x).released else s.input x) ∧
    (s.enterState i new).ml = { s.ml with
      notices := if (s.slot i).state = .enabled then s.ml.notices.filter fun n => n.stays s.inputs i
        else s.ml.notices } := by
  have halted : ∀ (t : State) (c : HaltCause),
      (t.haltSlotChannels i c).inputs = t.inputs ∧ (t.haltSlotChannels i c).ml = t.ml := fun t c =>
    ⟨forChans_keeps (g := State.inputs) (fun n t => by split <;> rfl) t,
      forChans_keeps (g := State.ml) (fun n t => by split <;> rfl) t⟩
  have haltedInput : ∀ (t : State) (c : HaltCause) x, (t.haltSlotChannels i c).input x = t.input x := fun t c x =>
    congrArg (fun v : Vector Input 48 => v[x]) (halted t c).1
  unfold State.enterState
  refine ⟨fun x => ?_, ?_⟩
  · simp only [apply_ite fun t : State => t.input x, releaseSlotInputs_input, haltedInput, State.updRmap_input,
      State.modSlot_input, ite_self, other, ne_eq, not_false_eq_true, and_true, false_and, if_false]
    exact (ite_and ..).symm
  · simp only [apply_ite State.ml, releaseSlotInputs_ml, halted, State.updRmap_ml,
      State.modSlot_ml, State.modSlot_inputs, ite_self, other, ne_eq, not_false_eq_true, and_true, false_and, if_false]
    split <;> rfl

end Enter

/-! ## The trip -/

/-- A slot with a trip recorded, and nothing that waits or runs (R47). -/
def Slot.noted (x : Slot) (trip : Trip) : Slot := { x with
  lastTrip := some trip, cooldown := some Config.cooldownTime, faultRaised := true, sequence := none, waiting := none }

/-- The part with the cycle in flight met, the slot in FAULT and its trip recorded. -/
def State.faulted (s : State) (i : SlotId) (trip : Trip) : State :=
  ((s.cutCycle i).enterState i .fault).modSlot i fun t => t.noted trip

/-- The part after a trip, but for the slot's deferred reply: a POWER_OFF that waited takes the slot on to OFF (R55). -/
def State.tripped (s : State) (i : SlotId) (trip : Trip) : State :=
  if (s.slot i).waiting = some .powerOff then (s.faulted i trip).enterState i .off else s.faulted i trip

section Trip

variable (s : State) (i : SlotId) (trip : Trip)

theorem trip_eq (kind : TripKind) (reading : Nat) : s.trip i kind reading =
    (s.tripped i ⟨kind, s.bcu.timeBase, reading⟩).answerSlot i
      (if (s.slot i).waiting = some .powerOff then .ok else .faulted) := by
  obtain ⟨bcu, -, -, -, -, -, -, slot, -⟩ := cutCycle_keeps s i
  have time : ((s.cutCycle i).enterState i .fault).bcu = s.bcu := (OnlySlotWork.enterState _ i .fault).keeps.1.trans bcu
  have waiting : (((s.cutCycle i).enterState i .fault).slot i).waiting = (s.slot i).waiting := by
    rw [enterState_slot, if_pos rfl, slot]
  unfold State.trip State.tripped State.faulted
  dsimp only
  rw [waiting, time]
  split <;> rfl

theorem faulted_work : OnlySlotWork (s.cutCycle i) (s.faulted i trip) :=
  (OnlySlotWork.enterState (s.cutCycle i) i .fault).trans ⟨_, _, _, _, _, rfl, le_rfl⟩

theorem tripped_work : OnlySlotWork (s.cutCycle i) (s.tripped i trip) := by
  unfold State.tripped
  split
  · exact (faulted_work s i trip).trans (.enterState _ i .off)
  · exact faulted_work s i trip

/-! ### The slots -/

theorem faulted_slot (j : SlotId) : (s.faulted i trip).slot j =
    if i = j then { (s.slot i).noted trip with state := .fault, softRun := 0 } else s.slot j := by
  obtain ⟨-, -, -, -, -, -, -, slot, -⟩ := cutCycle_keeps s i
  unfold State.faulted
  rw [State.modSlot_slot, enterState_slot, enterState_slot, slot, slot, if_pos rfl]
  split <;> rfl

theorem tripped_slot (j : SlotId) : (s.tripped i trip).slot j =
    if i = j then { (s.slot i).noted trip with
      state := if (s.slot i).waiting = some .powerOff then .off else .fault, softRun := 0 } else s.slot j := by
  unfold State.tripped
  split
  · rw [enterState_slot, faulted_slot, faulted_slot, if_pos rfl]
    split <;> rfl
  · exact faulted_slot s i trip j

theorem faulted_state : ((s.faulted i trip).slot i).state = .fault := by
  rw [faulted_slot, if_pos rfl]

/-! ### The channels, the inputs and the notices -/

theorem tripped_chan (n : ChanId) : (s.tripped i trip).chan n =
    if (s.slot i).state = .enabled ∧ (s.chan n).slot = i ∧
        ((s.chan n).state = .running ∨ (s.chan n).state = .paused) then (s.chan n).haltWith .slotLost
    else s.chan n := by
  obtain ⟨-, -, -, -, -, -, -, slot, chan, -⟩ := cutCycle_keeps s i
  have faulted : (s.faulted i trip).chan n = ((s.cutCycle i).enterState i .fault).chan n := rfl
  have tripped : (s.tripped i trip).chan n = (s.faulted i trip).chan n := by
    unfold State.tripped
    split
    · rw [enterState_chan, faulted_state, if_neg (by simp)]
    · rfl
  rw [tripped, faulted, enterState_chan, slot, chan]
  simp [leaveCause]

theorem tripped_input (x : InputId) : (s.tripped i trip).input x =
    if (s.slot i).state = .enabled ∧ inputSlot x = i then (s.input x).released else s.input x := by
  obtain ⟨-, -, -, -, -, -, -, slot, -, inputs⟩ := cutCycle_keeps s i
  have faulted : (s.faulted i trip).input x = ((s.cutCycle i).enterState i .fault).input x := rfl
  have tripped : (s.tripped i trip).input x = (s.faulted i trip).input x := by
    unfold State.tripped
    split
    · rw [(enterState_released _ i (by simp)).1, faulted_state, if_neg (by simp)]
    · rfl
  have input : (s.cutCycle i).input x = s.input x := congrArg (fun v : Vector Input 48 => v[x]) inputs
  rw [tripped, faulted, (enterState_released _ i (by simp)).1, slot, input]

theorem tripped_ml : (s.tripped i trip).ml = { (s.stopped i).ml with
    notices := if (s.slot i).state = .enabled then s.ml.notices.filter fun n => n.stays s.inputs i
      else s.ml.notices } := by
  obtain ⟨-, -, -, -, -, -, -, slot, -, inputs⟩ := cutCycle_keeps s i
  obtain ⟨-, -, -, -, -, -, -, -, -, -, notices⟩ := stopped_keeps s i
  have faulted : (s.faulted i trip).ml = ((s.cutCycle i).enterState i .fault).ml := rfl
  have tripped : (s.tripped i trip).ml = (s.faulted i trip).ml := by
    unfold State.tripped
    split
    · rw [(enterState_released _ i (by simp)).2, faulted_state, if_neg (by simp)]
    · rfl
  have ml : (s.cutCycle i).ml = (s.stopped i).ml := by rw [cutCycle_only]
  rw [tripped, faulted, (enterState_released _ i (by simp)).2, slot, inputs, ml, notices]

/-! ### The Shadow List -/

theorem clearSlot_clearSlot (m : Rmap) : (m.clearSlot i).clearSlot i = m.clearSlot i :=
  congrArg (fun shadow => { m with shadow := shadow }) (by simp [Rmap.clearSlot, List.filter_filter])

theorem tripped_rmap : (s.tripped i trip).rmap = s.rmap.clearSlot i := by
  obtain ⟨-, -, rmap, -⟩ := cutCycle_keeps s i
  have faulted : (s.faulted i trip).rmap = s.rmap.clearSlot i := by
    refine (enterState_rmap _ i .fault).trans ?_
    rw [if_pos (by simp), rmap]
  unfold State.tripped
  split
  · rw [enterState_rmap, if_pos (by simp), faulted, clearSlot_clearSlot]
  · exact faulted

end Trip

/-! ## The deferred reply -/

section Answer

variable (s : State) (i : SlotId) (status : Status)

theorem answerSlot_slot (j : SlotId) : (s.answerSlot i status).slot j =
    if i = j then { s.slot i with deferred := none } else s.slot j := by
  obtain ⟨absent, same⟩ | ⟨-, payload, answered⟩ := answerSlot_eq s i status
  · have stays : { s.slot i with deferred := none } = s.slot i := by rw [← absent]
    rw [same, stays]
    split
    case isTrue e => rw [e]
    case isFalse => rfl
  · rw [answered, replyCommand_eq, State.updMl_slot, State.modSlot_slot]

/-- Beside the link and the deferred reply, answering a slot's request leaves the part. -/
theorem answerSlot_only : s.answerSlot i status =
    { s with slots := (s.answerSlot i status).slots, ml := (s.answerSlot i status).ml } := by
  obtain ⟨-, same⟩ | ⟨-, payload, answered⟩ := answerSlot_eq s i status
  · rw [same]
  · rw [answered, replyCommand_eq]
    rfl

/-- What a request's reply has beside the slot's report: SLOT_RESET's width and its flag (R58). -/
def SlotReply.tail : SlotReply → List Byte
  | .slotReset width clamped => [BitVec.ofNat 8 width, replyFlags clamped]
  | .powerOn | .powerOff | .isolate => []

theorem answerSlot_ml {r : SlotReply} (deferred : (s.slot i).deferred = some r) : (s.answerSlot i status).ml =
    s.ml.answerCommand status ((s.answerSlot i status).slotReply i ++ r.tail) := by
  have reply : (s.answerSlot i status).slotReply i =
      (s.modSlot i fun t => { t with deferred := none }).slotReply i := by
    unfold State.slotReply State.slotReport
    rw [answerSlot_slot, State.modSlot_slot]
  rw [reply]
  unfold State.answerSlot
  rw [deferred]
  cases r with
  | slotReset width clamped => simp only [replyCommand_eq, State.updMl_ml, State.modSlot_ml, SlotReply.tail]
  | powerOn | powerOff | isolate =>
    simp only [replyCommand_eq, State.updMl_ml, State.modSlot_ml, SlotReply.tail, List.append_nil]

end Answer

/-! ## The whole trip -/

section Whole

variable (s : State) (i : SlotId) (kind : TripKind) (reading : Nat)

/-- Beside the slots and the link a trip is what meets the cycle and opens the slot. -/
theorem trip_only : s.trip i kind reading = { s.tripped i ⟨kind, s.bcu.timeBase, reading⟩ with
    slots := (s.trip i kind reading).slots, ml := (s.trip i kind reading).ml } := by
  rw [trip_eq]
  exact answerSlot_only ..

theorem trip_slot (j : SlotId) : (s.trip i kind reading).slot j =
    if i = j then { (s.slot i).noted ⟨kind, s.bcu.timeBase, reading⟩ with
      state := if (s.slot i).waiting = some .powerOff then .off else .fault, softRun := 0, deferred := none }
    else s.slot j := by
  rw [trip_eq, answerSlot_slot, tripped_slot, tripped_slot, if_pos rfl]
  split <;> rfl

/-- The blocks a trip leaves, and what it does to the bus, the Access Engine and the free values (R26). -/
theorem trip_keeps :
    (s.trip i kind reading).sbc = (s.cutCycle i).sbc ∧ (s.trip i kind reading).ae = (s.stopped i).ae ∧
    (s.trip i kind reading).free = (if s.cuts i = true then s.free + 1 else s.free) ∧
    (s.trip i kind reading).bcu = s.bcu ∧ (s.trip i kind reading).stm = s.stm ∧
    (s.trip i kind reading).measure = s.measure ∧ (s.trip i kind reading).cards = s.cards ∧
    (s.trip i kind reading).chanReply = s.chanReply ∧ (s.trip i kind reading).pending = s.pending := by
  obtain ⟨bcu, sbc, measure, ae, chanReply, stm, cards, free, pending, -⟩ :=
    (tripped_work s i ⟨kind, s.bcu.timeBase, reading⟩).keeps
  obtain ⟨bcu', measure', -, chanReply', stm', cards', pending', -⟩ := cutCycle_keeps s i
  have ae' : (s.cutCycle i).ae = (s.stopped i).ae := by rw [cutCycle_only]
  have free' : (s.cutCycle i).free = if s.cuts i = true then s.free + 1 else s.free := by rw [cutCycle_only]
  rw [trip_only]
  exact ⟨sbc, ae.trans ae', free.trans free', bcu.trans bcu', stm.trans stm', measure.trans measure',
    cards.trans cards', chanReply.trans chanReply', pending.trans pending'⟩

theorem trip_chan (n : ChanId) : (s.trip i kind reading).chan n =
    if (s.slot i).state = .enabled ∧ (s.chan n).slot = i ∧
        ((s.chan n).state = .running ∨ (s.chan n).state = .paused) then (s.chan n).haltWith .slotLost
    else s.chan n := by
  rw [trip_only]
  exact tripped_chan s i _ n

theorem trip_input (x : InputId) : (s.trip i kind reading).input x =
    if (s.slot i).state = .enabled ∧ inputSlot x = i then (s.input x).released else s.input x := by
  rw [trip_only]
  exact tripped_input s i _ x

theorem trip_rmap : (s.trip i kind reading).rmap = s.rmap.clearSlot i := by
  rw [trip_only]
  exact tripped_rmap s i _

theorem trip_ml_none (absent : (s.slot i).deferred = none) :
    (s.trip i kind reading).ml = (s.tripped i ⟨kind, s.bcu.timeBase, reading⟩).ml := by
  have absent : ((s.tripped i ⟨kind, s.bcu.timeBase, reading⟩).slot i).deferred = none := by
    rw [tripped_slot, if_pos rfl]
    exact absent
  rw [trip_eq]
  unfold State.answerSlot
  rw [absent]

theorem trip_ml_some {r : SlotReply} (owed : (s.slot i).deferred = some r) :
    (s.trip i kind reading).ml = (s.tripped i ⟨kind, s.bcu.timeBase, reading⟩).ml.answerCommand
      (if (s.slot i).waiting = some .powerOff then .ok else .faulted)
      ((s.trip i kind reading).slotReply i ++ r.tail) := by
  have owed : ((s.tripped i ⟨kind, s.bcu.timeBase, reading⟩).slot i).deferred = some r := by
    rw [tripped_slot, if_pos rfl]
    exact owed
  rw [trip_eq]
  exact answerSlot_ml _ i _ owed

end Whole

/-- Settles O34, block by block. -/
theorem tripOpensTheSlot : Obligations.TripOpensTheSlot := by
  intro s i kind reading _ t leaves off cut stopped
  have slot : ∀ j, t.slot j = _ := trip_slot s i kind reading
  have rmap : t.rmap = _ := trip_rmap s i kind reading
  obtain ⟨sbc, ae, free, kept⟩ := trip_keeps s i kind reading
  refine ⟨(slot i).trans (if_pos rfl), fun j other => (slot j).trans (if_neg other.symm),
    trip_chan s i kind reading, trip_input s i kind reading, by rw [rmap]; rfl, ?shadow, ae, ?ml,
    fun c flight connected => ?flight,
    fun open_ => sbc.trans (congrArg State.sbc (cutCycle_open open_).1), free, kept⟩
  case shadow =>
    refine (congrArg Rmap.shadow rmap).trans (List.filter_congr fun e _ => ?_)
    cases s.rmap.windows[e.window] with
    | none => rfl
    | some w => simp [bne, beq_eq_decide]
  case ml =>
    intro noted status
    have linked : (s.tripped i ⟨kind, s.bcu.timeBase, reading⟩).ml = noted.ml := tripped_ml s i _
    have sent : ∀ payload,
        noted.ml.answerCommand status payload = (noted.replyCommand status payload).ml := fun payload => by
      rw [replyCommand_eq, State.updMl_ml]
    cases owed : (s.slot i).deferred with
    | none => exact (trip_ml_none s i kind reading owed).trans linked
    | some r =>
      have reply := trip_ml_some s i kind reading owed
      rw [linked] at reply
      cases r with
      | slotReset width clamped =>
        rw [SlotReply.tail, replyFlags_eq] at reply
        exact reply.trans (sent _)
      | powerOn | powerOff | isolate =>
        rw [SlotReply.tail, List.append_nil] at reply
        exact reply.trans (sent _)
  case flight =>
    intro fault wide data faults
    have result : s.resultData c.kind 0xFFFF = data := by
      rw [resultData_eq, cycleWide_eq]
      rfl
    refine ⟨fun refresh => sbc.trans ?_, fun other => sbc.trans ?_⟩
    · rw [cutCycle_refresh flight connected refresh]
      rfl
    · rw [cutCycle_cut flight connected other, result]
      rfl

end Sys2Proof.Machine
end

