-- ==== Sys2Proof/Proofs/SlotChanges.lean ====
section
/-! PROOF. A slot's change of state makes its announcements (O35). -/

namespace Sys2Proof.Machine

open Sys2Proof

/-! ## Inputs that begin to be watched -/

/-- An input whose watching begins with its line at a level: a LEVEL input found active captures (R154, R158). -/
def Input.watchedFrom (x : Input) (active : Bool) (time : Word) (snapshot : List SnapshotEntry) : Input :=
  if x.mode = .level ∧ active = true ∧ x.state = .idle then
    { x with active := active, run := 0, changeDue := false, state := .pending, captureTime := time
             snapshot := snapshot, repeated := false }
  else { x with active := active, run := 0, changeDue := false }

/-- What the watching of a slot's inputs makes of an input's record (R154). -/
def State.watchInput (s : State) (slot : SlotId) (j : InputId) (x : Input) : Input :=
  if inputSlot j = slot ∧ x.mode ≠ .off ∧ (s.slot slot).state = .enabled then
    x.watchedFrom (s.irlHigh j != x.activeLow) s.bcu.timeBase (s.takeSnapshot slot)
  else x

theorem modInput_modInput (s : State) (j : InputId) (f g : Input → Input) :
    (s.modInput j f).modInput j g = s.modInput j fun x => g (f x) := by
  unfold State.modInput
  simp

theorem beginWatch_watched {s : State} {j : InputId} (watched : s.watched j = true) : s.beginWatch j =
    s.modInput j fun x => x.watchedFrom (s.lineActive j) s.bcu.timeBase (s.takeSnapshot (inputSlot j)) := by
  have becomes {y : Input}
      (e : y = (s.input j).watchedFrom (s.lineActive j) s.bcu.timeBase (s.takeSnapshot (inputSlot j))) :
      (s.modInput j fun _ => y) =
        s.modInput j fun x => x.watchedFrom (s.lineActive j) s.bcu.timeBase (s.takeSnapshot (inputSlot j)) :=
    congrArg (fun y => { s with inputs := s.inputs.set j y }) e
  unfold State.beginWatch
  rw [if_pos watched]
  simp only [State.modInput_input, if_true]
  split
  case isTrue captures => exact (modInput_modInput ..).trans (becomes (if_pos captures).symm)
  case isFalse rests => exact becomes (if_neg rests).symm

theorem watch_eq (s : State) (slot : SlotId) (j : InputId) :
    (if inputSlot j = slot then s.beginWatch j else s) = s.modInput j (s.watchInput slot j) := by
  have stays (out : ¬ (inputSlot j = slot ∧ (s.input j).mode ≠ .off ∧ (s.slot slot).state = .enabled)) :
      s.modInput j (s.watchInput slot j) = s := modInput_same (if_neg out)
  split
  case isFalse other => exact (stays fun h => other h.1).symm
  case isTrue own =>
    subst own
    by_cases watched : s.watched j = true
    · rw [beginWatch_watched watched]
      have taken : s.watchInput (inputSlot j) j (s.input j) = _ := if_pos ⟨rfl, (watched_iff s j).mp watched⟩
      exact congrArg (fun x => { s with inputs := s.inputs.set j x }) taken.symm
    · rw [stays fun h => watched ((watched_iff s j).mpr h.2)]
      exact if_neg watched

theorem watchSlot_eq (s : State) (slot : SlotId) :
    s.watchSlot slot = forInputs (fun j t => t.modInput j (t.watchInput slot j)) s := by
  unfold State.watchSlot
  simp only [watch_eq]

theorem watchSlot_input (s : State) (slot : SlotId) (j : InputId) :
    (s.watchSlot slot).input j = s.watchInput slot j (s.input j) := by
  rw [watchSlot_eq]
  refine forInputs_read (f := fun j t => t.modInput j (t.watchInput slot j)) (read := State.input)
    (kept := fun t => { t with inputs := s.inputs }) (upd := fun t j x => t.watchInput slot j x) (fun i t => rfl)
    (fun i t j => ?_) s j
  rw [State.modInput_input]
  refine ite_congr rfl (fun same => ?_) fun _ => rfl
  subst same
  rfl

theorem watchSlot_only (s : State) (slot : SlotId) :
    s.watchSlot slot = { s with inputs := (s.watchSlot slot).inputs } := by
  rw [watchSlot_eq]
  exact forInputs_only (fun j t => rfl) s

/-! ## Entering a state -/

theorem modSlot_modSlot (s : State) (i : SlotId) (f g : Slot → Slot) :
    (s.modSlot i f).modSlot i g = s.modSlot i fun t => g (f t) := by
  unfold State.modSlot
  simp

section Enter

variable (s : State) (i : SlotId) {new : SlotState}

/-- The way into ENABLED: the slot's inputs begin to be watched, unless it was ENABLED (R154). -/
theorem enterState_enabled : s.enterState i .enabled =
    if (s.slot i).state = .enabled then s.modSlot i fun t => { t with state := .enabled, softRun := 0 }
    else (s.modSlot i fun t => { t with state := .enabled, softRun := 0 }).watchSlot i := by
  unfold State.enterState
  by_cases old : (s.slot i).state = .enabled <;> simp [old]

/-- Between states other than ENABLED only the Resource Map is told (R62). -/
theorem enterState_unannounced (old : (s.slot i).state ≠ .enabled) (other : new ≠ .enabled) : s.enterState i new =
    (if new = .resetting ∨ new = .off ∨ new = .fault then s.updRmap fun m => m.clearSlot i else s).modSlot i
      fun t => { t with state := new, softRun := 0 } := by
  unfold State.enterState
  simp only [old, other, false_and, if_false]
  split <;> rfl

theorem enterState_input (x : InputId) : (s.enterState i new).input x =
    if inputSlot x = i ∧ (s.slot i).state = .enabled ∧ new ≠ .enabled then (s.input x).released
    else if inputSlot x = i ∧ (s.slot i).state ≠ .enabled ∧ new = .enabled ∧ (s.input x).mode ≠ .off then
      (s.input x).watchedFrom (s.irlHigh x != (s.input x).activeLow) s.bcu.timeBase (s.takeSnapshot i)
    else s.input x := by
  by_cases enabled : new = .enabled
  · subst enabled
    rw [if_neg (by simp), enterState_enabled]
    by_cases old : (s.slot i).state = .enabled
    · rw [if_pos old, if_neg (by simp [old])]
      rfl
    · rw [if_neg old, watchSlot_input]
      refine if_congr ?_ rfl rfl
      simp [old]
  · rw [(enterState_released s i enabled).1]
    simp only [enabled, false_and, and_false, if_false, ne_eq, not_false_eq_true, and_true]
    exact if_congr and_comm rfl rfl

theorem enterState_ml : (s.enterState i new).ml =
    if (s.slot i).state = .enabled ∧ new ≠ .enabled then
      { s.ml with notices := s.ml.notices.filter fun n => n.stays s.inputs i }
    else s.ml := by
  by_cases enabled : new = .enabled
  · subst enabled
    rw [if_neg (by simp), enterState_enabled]
    split
    · rfl
    · rw [watchSlot_only]
      rfl
  · rw [(enterState_released s i enabled).2]
    by_cases old : (s.slot i).state = .enabled
    · rw [if_pos old, if_pos ⟨old, enabled⟩]
    · rw [if_neg old, if_neg (by simp [old])]

end Enter

/-- Settles O35, block by block. -/
theorem slotChangesAreAnnounced : Obligations.SlotChangesAreAnnounced := by
  intro s i new t leaves enters
  have input : ∀ x, t.input x = _ := enterState_input s i
  have rmap : t.rmap = _ := enterState_rmap s i new
  obtain ⟨bcu, sbc, measure, ae, chanReply, stm, cards, free, pending, -⟩ := (OnlySlotWork.enterState s i new).keeps
  refine ⟨fun j => ?slot, enterState_chan s i new, ?windows, ?shadow, fun x own left => ?released,
    fun x own entered configured => ?watched, fun x rests => ?others, enterState_ml s i, bcu, sbc, measure, ae,
    chanReply, stm, cards, free, pending⟩
  case slot => exact (enterState_slot s i new j).trans (if_congr eq_comm rfl rfl)
  case windows =>
    rw [rmap]
    split <;> rfl
  case shadow =>
    rw [rmap]
    refine (apply_ite Rmap.shadow ..).trans (if_congr Iff.rfl (List.filter_congr fun e _ => ?_) rfl)
    cases s.rmap.windows[e.window] with
    | none => rfl
    | some w => simp [bne, beq_eq_decide]
  case released => exact (input x).trans (if_pos ⟨own, left⟩)
  case watched =>
    exact (input x).trans ((if_neg fun left => left.2.2 entered.2).trans
      (if_pos ⟨own, entered.1, entered.2, configured⟩))
  case others =>
    refine (input x).trans ((if_neg ?_).trans (if_neg ?_))
    · rintro ⟨own, left⟩
      rcases rests with other | ⟨stays, -⟩ | ⟨entered, -⟩
      exacts [other own, stays left, entered.1 left.1]
    · rintro ⟨own, old, enabled, configured⟩
      rcases rests with other | ⟨-, stays⟩ | ⟨-, off⟩
      exacts [other own, stays ⟨old, enabled⟩, configured off]

end Sys2Proof.Machine
end

