-- ==== Sys2Proof/Proofs/SlotBoundaries.lean ====
section
/-! SUPPORT. A slot request's deferred reply, the orderly changes at the boundary of a slot's cycle (R50), and what the
steps that close an event (log 14) make of a slot. -/

namespace Sys2Proof.Machine

open Sys2Proof

/-! ## The deferred reply -/

section Answer

variable {s : State} {i : SlotId}

theorem answerSlot_none (none : (s.slot i).deferred = none) (status : Status) : s.answerSlot i status = s := by
  unfold State.answerSlot
  rw [none]

theorem answerSlot_some {r : SlotReply} (deferred : (s.slot i).deferred = some r) (status : Status) :
    s.answerSlot i status =
      (s.modSlot i fun t => { t with deferred := none }).replyCommand status (s.slotReply i ++ r.tail) := by
  have report : (s.modSlot i fun t => { t with deferred := none }).slotReply i = s.slotReply i := by
    unfold State.slotReply State.slotReport
    rw [State.modSlot_slot, if_pos rfl]
    rfl
  unfold State.answerSlot
  rw [deferred]
  cases r with
  | slotReset width clamped => simp only [report, SlotReply.tail]
  | powerOn | powerOff | isolate => simp only [report, SlotReply.tail, List.append_nil]

/-- The reply of a SLOT_RESET has the width taken and CLAMPED, whatever its status (R58). -/
theorem answerSlot_slotReset {width : Nat} {clamped : Bool}
    (deferred : (s.slot i).deferred = some (.slotReset width clamped)) (status : Status) : s.answerSlot i status =
      (s.modSlot i fun t => { t with deferred := none }).replyCommand status
        (s.slotReply i ++ [BitVec.ofNat 8 width, if clamped then 1 else 0]) := by
  rw [answerSlot_some deferred, SlotReply.tail, replyFlags_eq]

/-- Any other reply is the slot's report. -/
theorem answerSlot_report {r : SlotReply} (deferred : (s.slot i).deferred = some r) (report : r.tail = [])
    (status : Status) : s.answerSlot i status =
      (s.modSlot i fun t => { t with deferred := none }).replyCommand status (s.slotReply i) := by
  rw [answerSlot_some deferred, report, List.append_nil]

end Answer

/-! ## Orderly changes -/

/-- A slot once an orderly change of it is made (R55, R56, R59). -/
def Slot.changed (t : Slot) : SlotChange → Slot
  | .powerOff => { t with waiting := none, state := .off, softRun := 0, deferred := none }
  | .isolate => { t with waiting := none, state := .isolated, softRun := 0, deferred := none }
  | .slotReset width =>
    { t with waiting := none, state := .resetting, softRun := 0, sequence := some (.slotReset (width * 1000)) }

/-- A slot once the change that waits, if there is one, is made. -/
def Slot.atBoundary (t : Slot) : Slot :=
  match t.waiting with
  | some change => t.changed change
  | none => t

section Boundary

variable {s : State} {i : SlotId} {change : SlotChange}

theorem slotBoundary_idle (idle : (s.slot i).waiting = none) : s.slotBoundary i = s := by
  unfold State.slotBoundary
  rw [idle]

theorem slotBoundary_connected (waiting : (s.slot i).waiting = some change) (connects : s.connects i = true) :
    s.slotBoundary i = s := by
  unfold State.slotBoundary
  rw [waiting]
  exact if_pos connects

theorem slotBoundary_made (waiting : (s.slot i).waiting = some change) (connects : s.connects i = false) :
    s.slotBoundary i = s.makeChange i change := by
  unfold State.slotBoundary
  rw [waiting]
  exact if_neg (by rw [connects]; nofun)

theorem makeChange_slot (s : State) (i j : SlotId) (change : SlotChange) :
    (s.makeChange i change).slot j = if i = j then (s.slot i).changed change else s.slot j := by
  by_cases same : i = j
  · subst same
    unfold State.makeChange
    cases change <;> simp [answerSlot_slot, enterState_slot, Slot.changed]
  · unfold State.makeChange
    cases change <;> simp [answerSlot_slot, enterState_slot, same]

theorem slotBoundary_slot (s : State) (i j : SlotId) : (s.slotBoundary i).slot j =
    if i = j then (if s.connects j = true then s.slot j else (s.slot j).atBoundary) else s.slot j := by
  unfold Slot.atBoundary
  cases waiting : (s.slot i).waiting with
  | none =>
    rw [slotBoundary_idle waiting]
    split
    case isTrue same => subst same; simp [waiting]
    case isFalse => rfl
  | some change =>
    cases connects : s.connects i with
    | true =>
      rw [slotBoundary_connected waiting connects]
      split
      case isTrue same => subst same; simp [connects]
      case isFalse => rfl
    | false =>
      rw [slotBoundary_made waiting connects, makeChange_slot]
      split
      case isTrue same => subst same; simp [connects, waiting]
      case isFalse => rfl

theorem connects_congr {s t : State} (bus : t.sbc = s.sbc) : t.connects = s.connects := by
  unfold State.connects
  rw [bus]

theorem slotBoundaries_slot (s : State) (i : SlotId) : s.slotBoundaries.slot i =
    if s.connects i = true then s.slot i else (s.slot i).atBoundary :=
  (foldl_read (f := fun i t => t.slotBoundary i) (read := State.slot) (kept := State.connects)
    (upd := fun connects i t => if connects i = true then t else t.atBoundary)
    (fun i t => connects_congr (slotBoundary_keeps t i).2) (fun i t j => slotBoundary_slot t i j) (List.finRange 4)
    (List.nodup_finRange 4) s i).trans (if_pos (List.mem_finRange i))

end Boundary

/-! ## The steps that close an event -/

theorem serveChannels_slots (s : State) : s.serveChannels.slots = s.slots :=
  forChans_keeps (g := State.slots) (fun n t => by
    unfold State.serveChannel
    dsimp only
    split
    · split
      · split <;> rfl
      · rfl
    · rfl) s

theorem clockBoundary_slots (s : State) : s.clockBoundary.slots = s.slots := by
  have suspended (t : State) : t.suspendSampling.slots = t.slots := by rw [suspendSampling_eq]
  unfold State.clockBoundary
  split
  · rfl
  · split
    · split <;> rfl
    · simp [apply_ite State.slots, suspended]
    · rfl

theorem arbitrate_slots (s : State) : s.arbitrate.slots = s.slots := by
  have access : s.beginAccessCycle.slots = s.slots := by
    obtain e | ⟨u, p, -, -, -, e⟩ | ⟨p, e⟩ := beginAccessCycle_cases s
    · rw [e]; rfl
    · rw [e]; rfl
    · rw [e]
      exact (endAccess_keeps ..).2.2.2.1
  unfold State.arbitrate
  split
  · split
    · rfl
    · rfl
    · rfl
    · exact access
  · rfl

/-- What closes an event makes the slot's waiting change where no cycle connects the slot, and perhaps admits its
SLOT_FAULT record. -/
theorem settle_slot (s : State) (i : SlotId) : ∃ raised, s.settle.slot i =
    { (if s.connects i = true then s.slot i else (s.slot i).atBoundary) with faultRaised := raised } := by
  have chans : s.chanBoundaries.slot i = s.slot i :=
    congrArg (fun v : Vector Slot 4 => v[i]) (chanBoundaries_keeps s).2.2
  have before : (s.chanBoundaries.slotBoundaries.serveChannels.clockBoundary.arbitrate).slot i =
      if s.connects i = true then s.slot i else (s.slot i).atBoundary := by
    have slots : (s.chanBoundaries.slotBoundaries.serveChannels.clockBoundary.arbitrate).slots =
        s.chanBoundaries.slotBoundaries.slots := by
      rw [arbitrate_slots, clockBoundary_slots, serveChannels_slots]
    refine (congrArg (fun v : Vector Slot 4 => v[i]) slots).trans ((slotBoundaries_slot _ i).trans ?_)
    rw [connects_congr (chanBoundaries_keeps s).2.1, chans]
  unfold State.settle
  rw [(admitOffers_takes _).slot, before]
  split
  · exact ⟨false, rfl⟩
  · exact ⟨_, rfl⟩

end Sys2Proof.Machine
end

