-- ==== Sys2Proof/Proofs/SlotRequests.lean ====
section
/-! PROOF. POWER_ON (O26), POWER_OFF (O27), ISOLATE and CONNECT (O28), SLOT_RESET (O29), SET_LIMIT (O30) and SLOT_STATUS
(O31). -/

namespace Sys2Proof.Machine

open Sys2Proof

/-! ## Requests taken at once -/

section Taken

variable {s : State} {tag : Half}

theorem exec_powerOn (h : s.ready .command) (slot : Byte) :
    exec (.powerOn tag slot) s = .next (powerOnTaken slot (s.beginRequest .command 0x20 tag)) :=
  congrArg Host.Outcome.next (offer_ready h rfl (by simp) (by simp) (by simp) _)

theorem exec_powerOff (h : s.ready .command) (slot : Byte) :
    exec (.powerOff tag slot) s = .next (powerOffTaken slot (s.beginRequest .command 0x21 tag)) :=
  congrArg Host.Outcome.next (offer_ready h rfl (by simp) (by simp) (by simp) _)

theorem exec_isolate (h : s.ready .command) (slot : Byte) :
    exec (.isolate tag slot) s = .next (isolateTaken slot (s.beginRequest .command 0x22 tag)) :=
  congrArg Host.Outcome.next (offer_ready h rfl (by simp) (by simp) (by simp) _)

theorem exec_connect (h : s.ready .command) (slot : Byte) :
    exec (.connect tag slot) s = .next (connectTaken slot (s.beginRequest .command 0x23 tag)) :=
  congrArg Host.Outcome.next (offer_ready h rfl (by simp) (by simp) (by simp) _)

theorem exec_slotReset (h : s.ready .command) (slot width : Byte) :
    exec (.slotReset tag slot width) s = .next (slotResetTaken slot width (s.beginRequest .command 0x24 tag)) :=
  congrArg Host.Outcome.next (offer_ready h rfl (by simp) (by simp) (by simp) _)

theorem exec_setLimit (h : s.ready .command) (slot : Byte) (limit : Half) :
    exec (.setLimit tag slot limit) s = .next (setLimitTaken slot limit (s.beginRequest .command 0x25 tag)) :=
  congrArg Host.Outcome.next (offer_ready h rfl (by simp) (by simp) (by simp) _)

theorem exec_slotStatus (h : s.ready .command) (slot : Byte) :
    exec (.slotStatus tag slot) s = .next (slotStatusTaken slot (s.beginRequest .command 0x26 tag)) :=
  congrArg Host.Outcome.next (offer_ready h rfl (by simp) (by simp) (by simp) _)

/-- A slot above 3 is refused with BAD_ARG (R190, log 17). -/
theorem withSlot_above (h : s.ready .command) {slot : Byte} (above : 3 < slot.toNat) (kind : Byte) (n : Nat)
    (f : SlotId → State) : (s.beginRequest .command kind tag).withSlot slot n f =
      s.replyAtOnce ⟨kind + 0x80, 0x13, tag, [slot] ++ List.replicate n 0⟩ := by
  unfold State.withSlot
  rw [readIndex_of_le above]
  exact replyCommand_begin h.command .badArg _

/-- What becomes in its own event of a slot whose record a request changes: the change that waits is made where no cycle
connects the slot (R50). -/
theorem settle_begun (s : State) (kind : Byte) (tag : Half) (i : SlotId) (f : Slot → Slot) : ∃ raised,
    ((s.beginRequest .command kind tag).modSlot i f).settle.slot i =
      { (if s.connects i = true then f (s.slot i) else (f (s.slot i)).atBoundary) with faultRaised := raised } := by
  have own : ((s.beginRequest .command kind tag).modSlot i f).slot i = f (s.slot i) :=
    (State.modSlot_slot ..).trans (if_pos rfl)
  have settled := settle_slot ((s.beginRequest .command kind tag).modSlot i f) i
  rw [own] at settled
  exact settled

end Taken

/-! ## Requests by the slot they name -/

theorem withSlot_named {slot : Byte} {i : SlotId} (named : slot.toNat = i.val) (s : State) (n : Nat)
    (f : SlotId → State) : s.withSlot slot n f = f i := by
  unfold State.withSlot
  rw [readIndex_of_eq named]

theorem slotReport_named {slot : Byte} {i : SlotId} (named : slot.toNat = i.val) (s : State) : s.slotReport i =
    [slot, (s.slot i).state.code, if (s.slot i).present then 1 else 0] ++ le 2 (s.slot i).current := by
  have echoed : BitVec.ofNat 8 i.val = slot := by rw [← named, BitVec.ofNat_toNat, BitVec.setWidth_eq]
  unfold State.slotReport
  rw [echoed]
  rfl

theorem cooldownLeft_eq (t : Slot) : t.cooldownLeft = match t.cooldown with
    | some n => n
    | none => 0 := by
  unfold Slot.cooldownLeft
  cases t.cooldown <;> rfl

/-! ## POWER_ON -/

theorem powerOnTaken_named {slot : Byte} {i : SlotId} (named : slot.toNat = i.val) (s : State) : powerOnTaken slot s =
    if (s.slot i).state = .fault then s.replyCommand .faulted (s.slotReply i)
    else if (s.slot i).state ≠ .off then s.replyCommand .ok (s.slotReply i)
    else if 0 < (s.slot i).cooldownLeft then s.replyCommand .cooldown (s.slotReply i)
    else if s.bcu.clock ≠ .run ∨ s.bcu.waiting = some .clockStop then s.replyCommand .noClock (s.slotReply i)
    else s.modSlot i fun t =>
      { t with state := .powering, softRun := 0, peak := 0, deferred := some .powerOn
               sequence := some (.powering 2000) } := by
  unfold powerOnTaken
  rw [withSlot_named named]
  dsimp only
  cases state : (s.slot i).state with
  | off =>
    have entered : s.enterState i .powering = s.modSlot i fun t => { t with state := .powering, softRun := 0 } :=
      (enterState_unannounced s i (by simp [state]) (by simp)).trans (by simp)
    rw [entered, modSlot_modSlot]
    rfl
  | powering | resetting | enabled | isolated | fault => rfl

theorem slotReply_named {slot : Byte} {i : SlotId} (named : slot.toNat = i.val) (s : State) : s.slotReply i =
    [slot, (s.slot i).state.code, if (s.slot i).present then 1 else 0] ++ le 2 (s.slot i).current ++
      tripRecord (s.slot i).lastTrip ++ le 4 (s.slot i).cooldownLeft := by
  unfold State.slotReply
  rw [slotReport_named named]

/-- Settles O26, along the chain of checks. -/
theorem powerOnByTheFirstCheck : Obligations.PowerOnByTheFirstCheck := by
  refine ⟨?_, fun s tag slot h above => ?_⟩
  · intro s tag i slot h named left answer
    have remaining : (s.slot i).cooldownLeft = left := cooldownLeft_eq _
    have answered (status : Status) : (s.beginRequest .command 0x20 tag).replyCommand status
        ((s.beginRequest .command 0x20 tag).slotReply i) = answer status.code := by
      refine (replyCommand_begin h.command status _).trans ?_
      rw [slotReply_named named, beginRequest_slot, remaining]
      rfl
    rw [exec_powerOn h, powerOnTaken_named named, beginRequest_slot, beginRequest_bcu, remaining]
    refine ⟨fun fault => ?_, fun on => ?_, fun off cools => ?_, fun off cool stops => ?_,
      fun off cool run stays => ?_⟩
    all_goals refine congrArg Host.Outcome.next ?_
    · exact (if_pos fault).trans (answered .faulted)
    · have other : (s.slot i).state ≠ .fault ∧ (s.slot i).state ≠ .off := by
        rcases on with on | on | on | on <;> simp [on]
      rw [if_neg other.1, if_pos other.2]
      exact answered .ok
    all_goals rw [if_neg (by simp [off]), if_neg (not_not.mpr off)]
    · rw [if_pos cools]
      exact answered .cooldown
    · rw [if_neg (by omega), if_pos stops]
      exact answered .noClock
    · rw [if_neg (by omega), if_neg (by simp [run, stays])]
  · rw [exec_powerOn h]
    exact congrArg Host.Outcome.next (withSlot_above h above ..)

/-! ## POWER_OFF -/

theorem powerOffTaken_named {slot : Byte} {i : SlotId} (named : slot.toNat = i.val) (s : State) : powerOffTaken slot s =
    if (s.slot i).waiting ≠ none then s.replyCommand .busy (s.slotReply i)
    else if (s.slot i).state = .enabled ∨ (s.slot i).state = .isolated then
      (s.modSlot i fun t => { t with waiting := some .powerOff, deferred := some .powerOff }).settle
    else if (s.slot i).state = .off then s.replyCommand .ok (s.slotReply i)
    else
      let u := (s.updRmap fun m => m.clearSlot i).modSlot i fun t =>
        { t with state := .off, softRun := 0, sequence := none }
      u.replyCommand .ok (u.slotReply i) := by
  have stops (other : (s.slot i).state ≠ .enabled) :
      (s.enterState i .off).modSlot i (fun t => { t with sequence := none }) =
        (s.updRmap fun m => m.clearSlot i).modSlot i fun t =>
          { t with state := .off, softRun := 0, sequence := none } := by
    rw [enterState_unannounced s i other (by simp), if_pos (by simp), modSlot_modSlot]
  unfold powerOffTaken
  rw [withSlot_named named]
  dsimp only
  refine if_congr Iff.rfl rfl ?_
  cases state : (s.slot i).state with
  | enabled | isolated => exact (if_pos (by simp)).symm
  | off => exact ((if_neg (by simp)).trans (if_pos rfl)).symm
  | powering | resetting | fault =>
    rw [stops (by simp [state])]
    exact ((if_neg (by simp)).trans (if_neg (by simp))).symm

/-- Settles O27: the request by the slot's state, the change at the boundary, and its reply. -/
theorem powerOffBySlotState : Obligations.PowerOffBySlotState := by
  refine ⟨?_, fun s i waiting => ⟨slotBoundary_connected waiting, slotBoundary_made waiting⟩,
    fun s i status => ⟨fun none => answerSlot_none none status, fun deferred => answerSlot_report deferred rfl status⟩,
    fun s tag slot h above => ?_⟩
  · intro s tag i slot h named answer waits
    have answered (u : State) (link : u.ml = s.ml) (status : Status) :
        (u.beginRequest .command 0x21 tag).replyCommand status (u.slotReply i) = answer u status.code :=
      replyCommand_begin (link ▸ h.command) status _
    rw [exec_powerOff h, powerOffTaken_named named]
    dsimp only
    rw [beginRequest_slot]
    refine ⟨fun busy => ?_, fun idle orderly => ⟨?_, ?_⟩, fun idle other => ?_, fun idle off => ?_⟩
    · rw [if_pos busy]
      exact congrArg Host.Outcome.next (answered s rfl .busy)
    · rw [if_neg (not_not.mpr idle), if_pos orderly]
    · obtain ⟨raised, changed⟩ := settle_begun s 0x21 tag i fun t =>
        { t with waiting := some .powerOff, deferred := some .powerOff }
      rw [changed]
      split <;> rfl
    · have others : ¬ ((s.slot i).state = .enabled ∨ (s.slot i).state = .isolated) ∧ (s.slot i).state ≠ .off := by
        rcases other with e | e | e <;> simp [e]
      rw [if_neg (not_not.mpr idle), if_neg others.1, if_neg others.2]
      exact congrArg Host.Outcome.next (answered ((s.updRmap fun m => m.clearSlot i).modSlot i fun t =>
        { t with state := .off, softRun := 0, sequence := none }) rfl .ok)
    · rw [if_neg (not_not.mpr idle), if_neg (by simp [off]), if_pos off]
      exact congrArg Host.Outcome.next (answered s rfl .ok)
  · rw [exec_powerOff h]
    exact congrArg Host.Outcome.next (withSlot_above h above ..)

/-! ## ISOLATE and CONNECT -/

theorem isolateTaken_named {slot : Byte} {i : SlotId} (named : slot.toNat = i.val) (s : State) : isolateTaken slot s =
    if (s.slot i).waiting ≠ none then s.replyCommand .busy (s.slotReply i)
    else if (s.slot i).state = .enabled then
      (s.modSlot i fun t => { t with waiting := some .isolate, deferred := some .isolate }).settle
    else if (s.slot i).state = .isolated then s.replyCommand .ok (s.slotReply i)
    else s.replyCommand .notReady (s.slotReply i) := by
  unfold isolateTaken
  rw [withSlot_named named]
  dsimp only
  refine if_congr Iff.rfl rfl ?_
  cases (s.slot i).state <;> simp

theorem connectTaken_named {slot : Byte} {i : SlotId} (named : slot.toNat = i.val) (s : State) : connectTaken slot s =
    if (s.slot i).state = .isolated then
      ((s.enterState i .enabled).replyCommand .ok ((s.enterState i .enabled).slotReply i)).admitOffers
    else if (s.slot i).state = .enabled then s.replyCommand .ok (s.slotReply i)
    else s.replyCommand .notReady (s.slotReply i) := by
  unfold connectTaken
  rw [withSlot_named named]
  dsimp only
  cases (s.slot i).state <;> simp

/-- Settles O28: each request by the slot's state, ISOLATE's change at the boundary, and its reply. -/
theorem isolateAndConnectBySlotState : Obligations.IsolateAndConnectBySlotState := by
  refine ⟨?isolate, fun s i waiting => ⟨slotBoundary_connected waiting, slotBoundary_made waiting⟩,
    fun s i status deferred => answerSlot_report deferred rfl status, fun s tag slot h above => ⟨?_, ?_⟩, ?connect⟩
  case isolate =>
    intro s tag i slot h named answer waits
    have answered (status : Status) : (s.beginRequest .command 0x22 tag).replyCommand status (s.slotReply i) =
        answer status.code := replyCommand_begin h.command status _
    rw [exec_isolate h, isolateTaken_named named, beginRequest_slot]
    refine ⟨fun busy => ?_, fun idle enabled => ⟨?_, ?_⟩, fun idle isolated => ?_, fun idle other => ?_⟩
    · rw [if_pos busy]
      exact congrArg Host.Outcome.next (answered .busy)
    · rw [if_neg (not_not.mpr idle), if_pos enabled]
    · obtain ⟨raised, changed⟩ := settle_begun s 0x22 tag i fun t =>
        { t with waiting := some .isolate, deferred := some .isolate }
      rw [changed]
      split
      · exact enabled
      · rfl
    · rw [if_neg (not_not.mpr idle), if_neg (by simp [isolated]), if_pos isolated]
      exact congrArg Host.Outcome.next (answered .ok)
    · have others : (s.slot i).state ≠ .enabled ∧ (s.slot i).state ≠ .isolated := by
        rcases other with e | e | e | e <;> simp [e]
      rw [if_neg (not_not.mpr idle), if_neg others.1, if_neg others.2]
      exact congrArg Host.Outcome.next (answered .notReady)
  case connect =>
    intro s tag i slot h named answer
    have answered (u : State) (command : u.ml.command = none) (status : Status) :
        (u.beginRequest .command 0x23 tag).replyCommand status (u.slotReply i) = answer u status.code :=
      replyCommand_begin command status _
    rw [exec_connect h, connectTaken_named named, beginRequest_slot]
    refine ⟨fun isolated => ?_, fun enabled => ?_, fun other => ?_⟩
    · have command : (s.enterState i .enabled).ml.command = none := by
        rw [enterState_ml, if_neg (by simp)]
        exact h.command
      rw [if_pos isolated, enterState_beginRequest _ _ _ _ _ _ (by simp [isolated])]
      exact congrArg (fun t => Host.Outcome.next (State.admitOffers t)) (answered _ command .ok)
    · rw [if_neg (by simp [enabled]), if_pos enabled]
      exact congrArg Host.Outcome.next (answered s h.command .ok)
    · have others : (s.slot i).state ≠ .isolated ∧ (s.slot i).state ≠ .enabled := by
        rcases other with e | e | e | e <;> simp [e]
      rw [if_neg others.1, if_neg others.2]
      exact congrArg Host.Outcome.next (answered s h.command .notReady)
  · rw [exec_isolate h]
    exact congrArg Host.Outcome.next (withSlot_above h above ..)
  · rw [exec_connect h]
    exact congrArg Host.Outcome.next (withSlot_above h above ..)

/-! ## SLOT_RESET -/

theorem resetWidth_eq (width : Byte) : resetWidth width = if width = 0 then 1 else width.toNat := by
  unfold resetWidth
  split
  case isTrue zero => simp [zero]
  case isFalse positive => bv_omega

theorem resetFields_eq (width : Byte) :
    resetFields width = [BitVec.ofNat 8 (resetWidth width), if width = 0 then 1 else 0] := by
  unfold resetFields
  rw [replyFlags_eq]
  simp

theorem slotResetTaken_named {slot : Byte} {i : SlotId} (named : slot.toNat = i.val) (width : Byte)
    (s : State) : slotResetTaken slot width s =
    if (s.slot i).waiting ≠ none then s.refuseReset i width .busy
    else if s.bcu.clock ≠ .run then s.refuseReset i width .noClock
    else if (s.slot i).state = .enabled ∨ (s.slot i).state = .isolated then
      (s.modSlot i fun t =>
        { t with returnState := if t.state = .isolated then .isolated else .enabled
                 waiting := some (.slotReset (resetWidth width))
                 deferred := some (.slotReset (resetWidth width) (decide (width = 0))) }).settle
    else s.refuseReset i width .notReady := by
  unfold slotResetTaken
  rw [readIndex_of_eq named]
  dsimp only
  refine if_congr Iff.rfl rfl (if_congr Iff.rfl rfl ?_)
  cases (s.slot i).state with
  | enabled | isolated => exact (if_pos (by simp)).symm
  | off | powering | resetting | fault => exact (if_neg (by simp)).symm

/-- Settles O29, along the chain of checks; the change and its reply at the boundary. -/
theorem slotResetByTheFirstCheck : Obligations.SlotResetByTheFirstCheck := by
  refine ⟨?named, fun s tag slot width h above => ?above,
    fun s i width waiting => ⟨slotBoundary_connected waiting, slotBoundary_made waiting⟩,
    fun s i status width clamped deferred => answerSlot_slotReset deferred status⟩
  case named =>
    intro s tag i slot width h named taken refuse waits
    have width_eq : resetWidth width = taken := resetWidth_eq width
    have refused (status : Status) :
        (s.beginRequest .command 0x24 tag).refuseReset i width status = refuse status.code := by
      unfold State.refuseReset
      rw [resetFields_eq, width_eq]
      exact replyCommand_begin h.command status _
    rw [exec_slotReset h, slotResetTaken_named named, beginRequest_slot, beginRequest_bcu, width_eq]
    refine ⟨fun busy => ?_, fun idle stopped => ?_, fun idle run notEnabled notIsolated => ?_,
      fun idle run orderly => ⟨?_, ?_⟩⟩
    · rw [if_pos busy]
      exact congrArg Host.Outcome.next (refused .busy)
    · rw [if_neg (not_not.mpr idle), if_pos stopped]
      exact congrArg Host.Outcome.next (refused .noClock)
    · rw [if_neg (not_not.mpr idle), if_neg (not_not.mpr run), if_neg (not_or.mpr ⟨notEnabled, notIsolated⟩)]
      exact congrArg Host.Outcome.next (refused .notReady)
    · rw [if_neg (not_not.mpr idle), if_neg (not_not.mpr run), if_pos orderly]
    · obtain ⟨raised, changed⟩ := settle_begun s 0x24 tag i fun t =>
        { t with returnState := if t.state = .isolated then .isolated else .enabled
                 waiting := some (.slotReset taken), deferred := some (.slotReset taken (decide (width = 0))) }
      rw [changed]
      refine ⟨fun open_ => ?_, fun connected => ?_⟩
      · rw [if_neg (by simp [open_])]
        exact ⟨rfl, rfl⟩
      · rw [if_pos connected]
        exact ⟨rfl, rfl⟩
  case above =>
    have byte : BitVec.ofNat 8 (resetWidth width) = if width = 0 then 1 else width := by
      rw [resetWidth_eq]
      split
      · rfl
      · rw [BitVec.ofNat_toNat, BitVec.setWidth_eq]
    rw [exec_slotReset h]
    unfold slotResetTaken
    rw [readIndex_of_le above, resetFields_eq, byte]
    exact congrArg Host.Outcome.next (replyCommand_begin h.command .badArg _)

/-! ## SET_LIMIT and SLOT_STATUS -/

/-- A limit from 100 to 3000 is rounded down to a multiple of 50 (R60). -/
theorem takenLimit_rounds {limit : Nat} (least : 100 ≤ limit) (most : limit ≤ 3000) :
    takenLimit limit ≤ limit ∧ limit < takenLimit limit + 50 ∧ 50 ∣ takenLimit limit := by
  unfold takenLimit
  rw [if_neg (by omega), if_neg (by omega)]
  omega

theorem hardThreshold_eq (limit : Nat) : hardThreshold limit = if 2 * limit < 4000 then 2 * limit else 4000 := by
  have saturated : Config.saturatedReading = 4000 := rfl
  unfold hardThreshold
  split <;> omega

theorem setLimitTaken_named {slot : Byte} {i : SlotId} (named : slot.toNat = i.val) (limit : Half)
    (s : State) : setLimitTaken slot limit s =
    let taken := takenLimit limit.toNat
    (s.modSlot i fun t => { t with limit := taken }).replyCommand .ok
      (s.slotReport i ++ le 2 taken ++ le 2 (if 2 * taken < 4000 then 2 * taken else 4000) ++
        [if taken = limit.toNat then 0 else 1]) := by
  have report (taken : Nat) : (s.modSlot i fun t => { t with limit := taken }).slotReport i = s.slotReport i := by
    unfold State.slotReport
    rw [State.modSlot_slot, if_pos rfl]
  unfold setLimitTaken
  rw [withSlot_named named]
  simp only [report, hardThreshold_eq, replyFlags_eq, decide_eq_true_eq, ne_eq, ite_not]

/-- Settles O30: the limit taken by its three ranges. -/
theorem setLimitTakesALimit : Obligations.SetLimitTakesALimit := by
  refine ⟨fun s tag limit slot h above => ?_, fun s tag limit i slot h named =>
    ⟨takenLimit limit.toNat, fun below => if_pos below, fun above => ?_, takenLimit_rounds, ?_⟩⟩
  · rw [exec_setLimit h]
    exact congrArg Host.Outcome.next (withSlot_above h above ..)
  · exact (if_neg (by omega)).trans (if_pos above)
  · rw [exec_setLimit h, setLimitTaken_named named]
    exact congrArg Host.Outcome.next (replyCommand_begin
      (s := s.modSlot i fun t => { t with limit := takenLimit limit.toNat }) h.command .ok _)

/-- The byte of a return state (R188). -/
theorem returnState_code (r : ReturnState) : r.slotState.code = match r with
    | .enabled => (3 : Byte)
    | .isolated => 4 := by
  cases r <;> rfl

/-- A trip record with its bytes (R188). -/
theorem tripRecord_eq (trip : Option Trip) : tripRecord trip = match trip with
    | some p => [(match p.kind with
        | .soft => (1 : Byte)
        | .hard => 2)] ++ le 4 p.time.toNat ++ le 2 p.current
    | none => List.replicate 7 0 := by
  cases trip <;> rfl

/-- A last fault with its bytes; the space is NONE for a transfer or refresh cycle (R188). -/
theorem lastFaultRecord_eq (last : Option LastFault) : lastFaultRecord last = match last with
    | some f => [(match f.kind with
        | .readyTimeout => (1 : Byte)
        | .slotLost => 2)] ++ le 4 f.time.toNat ++ [f.cycle.code, (match f.space with
          | some .io => (0 : Byte)
          | some .mem => 1
          | none => 2)] ++ le 4 f.address
    | none => List.replicate 11 0 := by
  rcases last with _ | ⟨kind, time, cycle, space, address⟩
  · rfl
  · rcases space with _ | space
    · rfl
    · cases space <;> rfl

/-- Settles O31: the payload is the slot's and the fault record's fields in turn. -/
theorem slotStatusReportsTheSlot : Obligations.SlotStatusReportsTheSlot := by
  refine ⟨fun s tag slot h above => ?_, ?_⟩
  · rw [exec_slotStatus h]
    exact congrArg Host.Outcome.next (withSlot_above h above ..)
  · intro s tag i slot h named t r
    have taken : slotStatusTaken slot (s.beginRequest .command 0x26 tag) =
        s.replyAtOnce ⟨0xA6, 0x00, tag, s.slotStatusPayload i⟩ :=
      (withSlot_named named ..).trans (replyCommand_begin h.command .ok _)
    rw [exec_slotStatus h, taken]
    refine congrArg (fun payload => Host.Outcome.next (s.replyAtOnce ⟨0xA6, 0x00, tag, payload⟩)) ?_
    unfold State.slotStatusPayload
    dsimp only
    rw [slotReport_named named, returnState_code, tripRecord_eq, cooldownLeft_eq]
    exact congrArg (List.append _) (lastFaultRecord_eq r.last)

end Sys2Proof.Machine
end

