-- ==== Sys2Proof/Proofs/SlotTimers.lean ====
section
/-! PROOF. The ends of a slot's timers (O32) and the measurement of its current (O33). -/

namespace Sys2Proof.Machine

open Sys2Proof

/-! ## Timers -/

theorem modSlot_congr {s : State} {i : SlotId} {f g : Slot → Slot} (h : f (s.slot i) = g (s.slot i)) :
    s.modSlot i f = s.modSlot i g :=
  congrArg (fun t => { s with slots := s.slots.set i t }) h

section Timers

variable {s : State} {i : SlotId}

theorem poweringEnds_due (state : (s.slot i).state = .powering) (due : (s.slot i).sequence = some (.powering 0)) :
    poweringEnds i s = (s.updRmap fun m => m.clearSlot i).modSlot i fun t =>
      { t with state := .resetting, softRun := 0, sequence := some (.powerOnReset 5000) } := by
  refine (if_pos ⟨state, due⟩).trans ?_
  rw [enterState_unannounced s i (by simp [state]) (by simp), if_pos (by simp), modSlot_modSlot]
  rfl

/-- From a state other than ENABLED a slot whose record has changed goes to where a SLOT_RESET returns it (R59). -/
theorem enterState_return {f : Slot → Slot} (old : (f (s.slot i)).state ≠ .enabled) (r : ReturnState) :
    (s.modSlot i f).enterState i r.slotState =
      let back := s.modSlot i fun t => { f t with state := r.slotState, softRun := 0 }
      if r = .enabled then back.watchSlot i else back := by
  have own : (s.modSlot i f).slot i = f (s.slot i) := (State.modSlot_slot ..).trans (if_pos rfl)
  rw [← own] at old
  cases r with
  | enabled => exact (enterState_enabled _ i).trans ((if_neg old).trans (by rw [modSlot_modSlot]; rfl))
  | isolated =>
    refine (enterState_unannounced _ i old (by simp [ReturnState.slotState])).trans ?_
    rw [if_neg (by simp [ReturnState.slotState]), modSlot_modSlot]
    rfl

theorem resettingEnds_due (state : (s.slot i).state = .resetting) (due : (s.slot i).sequence = some (.powerOnReset 0)) :
    resettingEnds i s = (((s.modSlot i fun t =>
      { t with state := .enabled, softRun := 0, sequence := none, present := decide (20 ≤ t.current) }).watchSlot
        i).answerSlot i .ok).admitOffers := by
  refine (if_pos ⟨state, due⟩).trans (congrArg (fun t => ((State.answerSlot t i .ok).admitOffers)) ?_)
  exact enterState_return (f := fun t => { t with sequence := none, present := decide (20 ≤ t.current) })
    (by simp [state]) .enabled

theorem slotResetEnds_due (state : (s.slot i).state = .resetting) (due : (s.slot i).sequence = some (.slotReset 0)) :
    slotResetEnds i s =
      let back := s.modSlot i fun t =>
        { t with state := (s.slot i).returnState.slotState, softRun := 0, sequence := none }
      ((if (s.slot i).returnState = .enabled then back.watchSlot i else back).answerSlot i .ok).admitOffers := by
  refine (if_pos ⟨state, due⟩).trans (congrArg (fun t => ((State.answerSlot t i .ok).admitOffers)) ?_)
  exact enterState_return (f := fun t => { t with sequence := none }) (by simp [state]) _

end Timers

/-- Settles O32: the replies by what is deferred, the timers by whether they are due. -/
theorem slotTimersEnd : Obligations.SlotTimersEnd := by
  refine ⟨fun s i status => ⟨fun none => answerSlot_none none status,
      fun deferred => answerSlot_report deferred rfl status,
      fun width clamped deferred => answerSlot_slotReset deferred status⟩,
    fun s i => ⟨rfl, fun state due => congrArg Host.Outcome.next (poweringEnds_due state due), fun early => ?_,
      fun state due => congrArg Host.Outcome.next (resettingEnds_due state due), fun early => ?_,
      fun state due => ?returns, fun early => ?_⟩⟩
  case returns =>
    refine congrArg Host.Outcome.next ((slotResetEnds_due state due).trans ?_)
    have back : (s.modSlot i fun t =>
        { t with state := (s.slot i).returnState.slotState, softRun := 0, sequence := none }) =
        s.modSlot i fun t => { t with state := t.returnState.slotState, softRun := 0, sequence := none } :=
      modSlot_congr rfl
    dsimp only
    rw [back]
    rfl
  all_goals
    refine congrArg Host.Outcome.next (if_neg ?_)
    rintro ⟨state, due⟩
    exact early.elim (· state) (· due)

/-! ## Measurement -/

/-- A slot's record with a reading stored (R44). -/
def Slot.stored (t : Slot) (reading : Nat) : Slot :=
  { t with current := reading, peak := if t.peak < reading then reading else t.peak }

@[simp] theorem Slot.stored_state (t : Slot) (reading : Nat) : (t.stored reading).state = t.state := rfl
@[simp] theorem Slot.stored_limit (t : Slot) (reading : Nat) : (t.stored reading).limit = t.limit := rfl
@[simp] theorem Slot.stored_softRun (t : Slot) (reading : Nat) : (t.stored reading).softRun = t.softRun := rfl

theorem reading_eq (t : Slot) (draw : Nat) : t.reading draw =
    if t.state = .off ∨ t.state = .fault then 0 else if 4000 ≤ draw / 10 * 10 then 4000 else draw / 10 * 10 := by
  have saturated : Config.saturatedReading = 4000 := rfl
  unfold Slot.reading
  refine if_congr Iff.rfl rfl ?_
  split <;> omega

theorem reading_le (t : Slot) (draw : Nat) : t.reading draw ≤ 4000 := by
  have saturated : Config.saturatedReading = 4000 := rfl
  unfold Slot.reading
  split <;> omega

/-- Of the readings only 4000 stands above 4000 mA (R44). -/
theorem readingAbove_iff {reading : Nat} (most : reading ≤ 4000) (threshold : Nat) :
    readingAbove reading threshold = true ↔ reading = 4000 ∨ threshold < reading := by
  have saturated : Config.saturatedReading = 4000 := rfl
  rw [readingAbove, saturated, Bool.or_eq_true, decide_eq_true_iff, decide_eq_true_iff]
  omega

section Measure

variable {s : State} {i : SlotId} {draw reading : Nat}

/-- A slot is measured: its reading is stored, and compared by the state it is in (R44, R45, R46). -/
theorem measureSlot_eq (read : (s.slot i).reading draw = reading) : s.measureSlot i draw =
    let u := s.modSlot i fun t => t.stored reading
    if (s.slot i).state = .off ∨ (s.slot i).state = .fault then u
    else if (s.slot i).state = .powering then if reading = 4000 then u.trip i .hard reading else u
    else if reading = 4000 ∨ hardThreshold (s.slot i).limit < reading then u.trip i .hard reading
    else if (s.slot i).limit < reading then
      if 10 ≤ (s.slot i).softRun then u.trip i .soft reading
      else u.modSlot i fun t => { t with softRun := t.softRun + 1 }
    else u.modSlot i fun t => { t with softRun := 0 } := by
  have most : reading ≤ 4000 := read ▸ reading_le ..
  have stored : (s.modSlot i fun t => { t with current := reading, peak := max t.peak reading }) =
      s.modSlot i fun t => t.stored reading := by
    refine modSlot_congr (congrArg (fun peak => { s.slot i with current := reading, peak := peak }) ?_)
    split <;> omega
  have own : (s.modSlot i fun t => t.stored reading).slot i = (s.slot i).stored reading :=
    (State.modSlot_slot ..).trans (if_pos rfl)
  have none : ¬ Config.saturatedReading < reading := not_lt.mpr most
  unfold State.measureSlot
  simp only [read, stored, own, Slot.stored_state, Slot.stored_limit, Slot.stored_softRun, readingAbove_iff most, none,
    or_false]
  cases (s.slot i).state <;> simp

end Measure

theorem forSlots_eq (f : SlotId → State → State) (s : State) : forSlots f s = f 3 (f 2 (f 1 (f 0 s))) := rfl

/-- Settles O33: the slots in turn, and a slot by its state and its reading. -/
theorem measurementStoresAndCompares : Obligations.MeasurementStoresAndCompares := by
  refine ⟨fun s draw => congrArg Host.Outcome.next ?_, ?_⟩
  · refine ite_congr rfl (fun _ => congrArg State.settle ?_) fun _ => rfl
    rw [forSlots_eq]
    rfl
  intro s i draw state limit reading stored hard
  have read : (s.slot i).reading draw = reading := reading_eq ..
  have measured := measureSlot_eq read
  have threshold : reading = 4000 ∨ hardThreshold limit < reading ↔ hard := by
    have most : reading ≤ 4000 := read ▸ reading_le ..
    have hard_iff : hard ↔ reading = 4000 ∨ (2 * limit < 4000 ∧ 2 * limit < reading) := Iff.rfl
    rw [hard_iff, hardThreshold_eq]
    generalize reading = reading at most
    split <;> omega
  refine ⟨fun open_ => measured.trans (if_pos open_), fun powering => ?_, fun powered => ?_⟩
  · have others : ¬ (state = .off ∨ state = .fault) := by simp [powering]
    exact measured.trans ((if_neg others).trans (if_pos powering))
  · have others : ¬ (state = .off ∨ state = .fault) ∧ state ≠ .powering := by
      rcases powered with e | e | e <;> simp [e]
    have compared := measured.trans ((if_neg others.1).trans (if_neg others.2))
    refine ⟨fun trips => compared.trans (if_pos (threshold.mpr trips)), fun holds within => ?_,
      fun holds above counts => ?_, fun holds above full => ?_⟩
    all_goals refine compared.trans ((if_neg (mt threshold.mp holds)).trans ?_)
    · exact if_neg (not_lt.mpr within)
    · exact (if_pos above).trans (if_neg (not_le.mpr counts))
    · exact (if_pos above).trans (if_pos full)

end Sys2Proof.Machine
end

