-- ==== Sys2Proof/Proofs/MapChanges.lean ====
section
/-! SUPPORT. What any event or request can make of the Resource Map, said once for all commands: a few kinds of change,
each of which keeps the windows apart and the Shadow List sound (R69, R71, R81 to R87). -/

namespace Sys2Proof.Machine

open Sys2Proof

/-! ## Windows and entries -/

theorem claims_iff (w : Window) (space : Space) (a : Nat) :
    w.claims space a = true ↔ w.space = space ∧ w.base ≤ a ∧ a < w.base + w.size := by
  simp only [Window.claims, Bool.and_eq_true, beq_iff_eq, decide_eq_true_eq, and_assoc]

theorem overlaps_iff (v w : Window) : v.overlaps w = true ↔
    v.space = w.space ∧ v.base < w.base + w.size ∧ w.base < v.base + v.size := by
  simp only [Window.overlaps, Bool.and_eq_true, beq_iff_eq, decide_eq_true_eq, and_assoc]

/-- Windows that claim an address in common overlap (R69). -/
theorem overlaps_of_claims {v w : Window} {a : Nat} (hv : v.claims w.space a = true) (hw : w.claims w.space a = true) :
    v.overlaps w = true := by
  obtain ⟨spaceV, aboveV, belowV⟩ := (claims_iff ..).mp hv
  obtain ⟨spaceW, aboveW, belowW⟩ := (claims_iff ..).mp hw
  exact (overlaps_iff ..).mpr ⟨spaceV.trans spaceW.symm, by omega, by omega⟩

theorem hasKey_iff (e : ShadowEntry) (port : Half) (index : Option Byte) :
    e.hasKey port index = true ↔ e.port = port ∧ e.index = index := by
  simp only [ShadowEntry.hasKey, Bool.and_eq_true, beq_iff_eq]

theorem any_hasKey_iff (list : List ShadowEntry) (port : Half) (index : Option Byte) :
    (list.any fun x => x.hasKey port index) = true ↔ ∃ x ∈ list, x.port = port ∧ x.index = index := by
  simp only [List.any_eq_true, hasKey_iff]

/-- An entry is kept for recording while its window is ACTIVE, with shadow ON, and claims its port (R81, log 28). -/
theorem keeps_iff (m : Rmap) (e : ShadowEntry) : m.keeps e = true ↔
    ∃ w, m.windows[e.window] = some w ∧ w.shadow = true ∧ w.claims .io e.port.toNat = true := by
  unfold Rmap.keeps
  cases m.windows[e.window] with
  | none => simp
  | some w => simp

/-- No ACTIVE window has an address in common with a window that meets no conflict (R69). -/
theorem apart_of_conflict {m : Rmap} {w v : Window} {i : WindowId} (h : m.conflict w = none)
    (hv : m.windows[i] = some v) (a : Nat) : ¬ (v.claims w.space a = true ∧ w.claims w.space a = true) := by
  rintro ⟨inV, inW⟩
  have apart := List.find?_eq_none.mp h i (List.mem_finRange i)
  rw [hv] at apart
  exact apart (overlaps_of_claims inV inW)

/-! ## Sound records -/

/-- The windows of a Resource Map lie aligned and apart (R69). -/
structure Rmap.WindowsApart (m : Rmap) : Prop where
  aligned  : ∀ (i : WindowId) (w : Window), m.windows[i] = some w → w.base % w.size = 0
  disjoint : ∀ (i j : WindowId) (v w : Window), m.windows[i] = some v → m.windows[j] = some w →
    i ≠ j → ∀ a : Nat, ¬ (v.claims v.space a = true ∧ w.claims v.space a = true)

/-- A Shadow List of at most 256 entries with distinct keys, each of a window that keeps it (R81). -/
structure Rmap.ListSound (m : Rmap) : Prop where
  atMost : m.shadow.length ≤ 256
  keys   : m.shadow.Pairwise fun a b => ¬ (a.port = b.port ∧ a.index = b.index)
  kept   : ∀ e ∈ m.shadow, m.keeps e = true

/-- The Resource Map is sound. -/
structure Rmap.Sound (m : Rmap) : Prop where
  windows : m.WindowsApart
  list    : m.ListSound

theorem rmapSound_iff (s : State) : s.rmap.Sound ↔ s.WindowsSound ∧ s.ShadowSound := by
  constructor
  · rintro ⟨⟨aligned, disjoint⟩, ⟨atMost, keys, kept⟩⟩
    exact ⟨⟨aligned, disjoint⟩, ⟨atMost, keys, fun e he => (keeps_iff _ e).mp (kept e he)⟩⟩
  · rintro ⟨⟨aligned, disjoint⟩, ⟨atMost, keys, windows⟩⟩
    exact ⟨⟨aligned, disjoint⟩, ⟨atMost, keys, fun e he => (keeps_iff _ e).mpr (windows e he)⟩⟩

/-! ## The kinds of change -/

/-- One change of the Resource Map. -/
inductive Rmap.Change (m : Rmap) : Rmap → Prop
  /-- Entries leave the Shadow List (R86, R87). -/
  | forget (kept : List ShadowEntry) (h : kept.Sublist m.shadow) : Change m { m with shadow := kept }
  /-- A byte is recorded for a window that keeps it (R82 to R84). -/
  | record (e : ShadowEntry) (h : m.keeps e = true) : Change m { m with shadow := recordShadow m.shadow e }
  /-- A window is added at a FREE id, aligned and apart from the others (R69, R70). -/
  | add (id : WindowId) (w : Window) (free : m.windows[id] = none) (aligned : w.base % w.size = 0)
      (apart : m.conflict w = none) : Change m { m with windows := m.windows.set id (some w) }
  /-- A window is removed, and its entries with it (R71). -/
  | remove (id : WindowId) : Change m { m.dropWindow id with windows := m.windows.set id none }
  /-- The part is reset (R88). -/
  | reset : Change m {}

theorem windows_set_get (m : Rmap) (id j : WindowId) (w : Option Window) :
    (m.windows.set id w)[j] = if id = j then w else m.windows[j] := by
  simp only [Fin.getElem_fin, Vector.getElem_set, Fin.ext_iff]

/-- The entries of a list after a byte is recorded: the new one, and entries that stood there under another key (R84). -/
theorem mem_recordShadow {list : List ShadowEntry} {e x : ShadowEntry} (h : x ∈ recordShadow list e) :
    x = e ∨ x ∈ list := by
  unfold recordShadow at h
  split at h
  · exact (List.mem_append.mp h).elim (fun h => .inr (List.mem_of_mem_filter h)) fun h => .inl (List.mem_singleton.mp h)
  · split at h
    · exact (List.mem_append.mp h).elim .inr fun h => .inl (List.mem_singleton.mp h)
    · exact (List.mem_append.mp h).elim (fun h => .inr (List.mem_of_mem_drop h)) fun h => .inl (List.mem_singleton.mp h)

theorem recordShadow_length {list : List ShadowEntry} (e : ShadowEntry) (h : list.length ≤ 256) :
    (recordShadow list e).length ≤ 256 := by
  unfold recordShadow
  split
  case isTrue there =>
    obtain ⟨x, hx, key⟩ := List.any_eq_true.mp there
    have shorter : (list.filter fun x => !x.hasKey e.port e.index).length < list.length :=
      List.length_filter_lt_length_iff_exists.mpr ⟨x, hx, by simp [key]⟩
    simp only [List.length_append, List.length_singleton]
    omega
  case isFalse =>
    split
    case isTrue room =>
      have room : list.length < 256 := room
      simp only [List.length_append, List.length_singleton]
      omega
    case isFalse =>
      simp only [List.length_append, List.length_drop, List.length_singleton]
      omega

/-- Recording keeps the keys distinct: no other entry has the new key (R84). -/
theorem recordShadow_keys {list : List ShadowEntry} (e : ShadowEntry)
    (h : list.Pairwise fun a b => ¬ (a.port = b.port ∧ a.index = b.index)) :
    (recordShadow list e).Pairwise fun a b => ¬ (a.port = b.port ∧ a.index = b.index) := by
  have joins : ∀ kept : List ShadowEntry, kept.Sublist list → (∀ x ∈ kept, ¬ (x.port = e.port ∧ x.index = e.index)) →
      (kept ++ [e]).Pairwise fun a b => ¬ (a.port = b.port ∧ a.index = b.index) := fun kept sub other =>
    List.pairwise_append.mpr ⟨h.sublist sub, List.pairwise_singleton .., fun x hx y hy =>
      List.mem_singleton.mp hy ▸ other x hx⟩
  unfold recordShadow
  split
  case isTrue =>
    refine joins _ List.filter_sublist fun x hx key => ?_
    have other := (List.mem_filter.mp hx).2
    rw [(hasKey_iff ..).mpr key] at other
    cases other
  case isFalse new =>
    have other : ∀ x ∈ list, ¬ (x.port = e.port ∧ x.index = e.index) := fun x hx key =>
      new ((any_hasKey_iff ..).mpr ⟨x, hx, key⟩)
    split
    · exact joins _ (.refl _) other
    · exact joins _ (List.drop_sublist ..) fun x hx => other x (List.mem_of_mem_drop hx)

theorem Rmap.WindowsApart.set {m : Rmap} (h : m.WindowsApart) (id : WindowId) (new : Option Window)
    (aligned : ∀ w, new = some w → w.base % w.size = 0)
    (apart : ∀ w, new = some w → ∀ (i : WindowId) (v : Window), m.windows[i] = some v →
      ∀ a, ¬ (v.claims w.space a = true ∧ w.claims w.space a = true)) (shadow : List ShadowEntry) :
    Rmap.WindowsApart ⟨m.windows.set id new, shadow⟩ := by
  refine ⟨fun i w hw => ?_, fun i j v w hv hw other a claims => ?_⟩
  · rw [windows_set_get] at hw
    split at hw
    · exact aligned w hw
    · exact h.aligned i w hw
  · obtain ⟨inV, inW⟩ := claims
    have space : w.space = v.space := ((claims_iff ..).mp inW).1
    rw [windows_set_get] at hv hw
    split at hv
    case isTrue same =>
      rw [if_neg (by rintro rfl; exact other same.symm)] at hw
      exact apart v hv j w hw a ⟨inW, inV⟩
    case isFalse =>
      split at hw
      · exact apart w hw i v hv a (space ▸ ⟨inV, inW⟩)
      · exact h.disjoint i j v w hv hw other a ⟨inV, inW⟩

/-- Every change keeps the Resource Map sound. -/
theorem Rmap.Change.sound {m m' : Rmap} (c : m.Change m') (h : m.Sound) : m'.Sound := by
  cases c with
  | forget kept sub =>
    exact ⟨⟨h.windows.aligned, h.windows.disjoint⟩, ⟨sub.length_le.trans h.list.atMost, h.list.keys.sublist sub,
      fun e he => h.list.kept e (sub.subset he)⟩⟩
  | record e keeps =>
    refine ⟨⟨h.windows.aligned, h.windows.disjoint⟩,
      ⟨recordShadow_length e h.list.atMost, recordShadow_keys e h.list.keys, fun x hx => ?_⟩⟩
    obtain rfl | stood := mem_recordShadow hx
    · exact keeps
    · exact h.list.kept x stood
  | add id w free aligned apart =>
    refine ⟨h.windows.set id (some w) (by rintro _ ⟨⟩; exact aligned) ?_ _, ⟨h.list.atMost, h.list.keys, fun e he => ?_⟩⟩
    · rintro _ ⟨⟩ i v hv
      exact apart_of_conflict apart hv
    · obtain ⟨v, hv, on⟩ := (keeps_iff m e).mp (h.list.kept e he)
      refine (keeps_iff _ e).mpr ⟨v, (windows_set_get ..).trans ((if_neg ?_).trans hv), on⟩
      rintro rfl
      rw [free] at hv
      cases hv
  | remove id =>
    refine ⟨h.windows.set id none nofun nofun _, ⟨(List.length_filter_le ..).trans h.list.atMost,
      h.list.keys.sublist List.filter_sublist, fun e he => ?_⟩⟩
    obtain ⟨listed, other⟩ := List.mem_filter.mp he
    obtain ⟨v, hv, on⟩ := (keeps_iff m e).mp (h.list.kept e listed)
    refine (keeps_iff _ e).mpr ⟨v, (windows_set_get ..).trans ((if_neg ?_).trans hv), on⟩
    rintro rfl
    simp at other
  | reset =>
    exact (rmapSound_iff State.reset).mpr ⟨reset_windowsSound, reset_shadowSound⟩

end Sys2Proof.Machine
end

