-- ==== Sys2Proof/Proofs/MapWork.lean ====
section
/-! PROOF. Every command changes the Resource Map by the changes of Proofs/MapChanges.lean alone, so every step keeps
its windows and its Shadow List sound (O41). -/

namespace Sys2Proof.Machine

open Sys2Proof

/-- The second state's Resource Map is the first's after some changes. -/
def MapWork (s t : State) : Prop := Relation.ReflTransGen Rmap.Change s.rmap t.rmap

/-! ## The work inside an event -/

namespace MapWork

variable {s t u : State}

theorem same (h : t.rmap = s.rmap) : MapWork s t := by
  unfold MapWork
  rw [h]

theorem trans (h : MapWork s t) (k : MapWork t u) : MapWork s u := Relation.ReflTransGen.trans h k

/-- Work from a state with the same Resource Map. -/
theorem of_same (h : MapWork t u) (k : t.rmap = s.rmap) : MapWork s u := (same k).trans h

theorem change (h : s.rmap.Change t.rmap) : MapWork s t := .single h

theorem foldl {α : Type} {f : α → State → State} (h : ∀ a s, MapWork s (f a s)) :
    ∀ (l : List α) (s : State), MapWork s (l.foldl (fun s a => f a s) s)
  | [], _ => same rfl
  | a :: l, s => (h a s).trans (foldl h l (f a s))

/-- A reply does not touch the Resource Map. -/
theorem answered {status : Status} {payload : List Byte} (h : MapWork s t) :
    MapWork s (t.replyCommand status payload) :=
  h.trans (same (replyCommand_keeps ..).2.2.2.2.1)

theorem answeredStream {status : Status} {payload : List Byte} (h : MapWork s t) :
    MapWork s (t.replyStream status payload) :=
  h.trans (same (by rw [replyStream_eq]; rfl))

theorem onlyInputs (h : MapWork s t) (k : OnlyInputs t u) : MapWork s u :=
  h.trans (same k.keeps.2.2.2.2.1)

theorem admitted (h : MapWork s t) : MapWork s t.admitOffers := h.trans (same (admitOffers_takes t).keeps.2.2.1)

/-- Work that is made on a condition. -/
theorem ite {p : Prop} [Decidable p] (h : p → MapWork s t) (k : ¬ p → MapWork s u) : MapWork s (if p then t else u) := by
  split
  case isTrue yes => exact h yes
  case isFalse no => exact k no

/-! ### Slots -/

/-- Entering RESETTING, OFF or FAULT clears the Shadow List for the slot (R62, R87). -/
theorem entered {i : SlotId} {new : SlotState} (h : MapWork s t) : MapWork s (t.enterState i new) := by
  refine h.trans ?_
  by_cases clears : new = .resetting ∨ new = .off ∨ new = .fault
  · refine change ?_
    rw [enterState_rmap, if_pos clears]
    exact .forget _ List.filter_sublist
  · exact same ((enterState_rmap ..).trans (if_neg clears))

theorem answeredSlot {i : SlotId} {status : Status} (h : MapWork s t) : MapWork s (t.answerSlot i status) :=
  h.trans (same (by rw [answerSlot_only]))

theorem makeChange (s : State) (i : SlotId) (change : SlotChange) : MapWork s (s.makeChange i change) := by
  have begun : MapWork s (s.modSlot i fun t => { t with waiting := none }) := same rfl
  cases change with
  | powerOff | isolate => exact begun.entered.answeredSlot
  | slotReset width => exact begun.entered.trans (same rfl)

theorem slotBoundaries (s : State) : MapWork s s.slotBoundaries :=
  foldl (fun i s => by
    unfold State.slotBoundary
    split
    · exact ite (fun _ => same rfl) fun _ => makeChange s i _
    · exact same rfl) _ s

/-- A trip clears the Shadow List for its slot (R47, R87). -/
theorem tripped {i : SlotId} {kind : TripKind} {reading : Nat} (h : MapWork s t) : MapWork s (t.trip i kind reading) :=
  h.trans (change (trip_rmap t i kind reading ▸ .forget _ List.filter_sublist))

theorem measured (s : State) (i : SlotId) (draw : Nat) : MapWork s (s.measureSlot i draw) := by
  unfold State.measureSlot
  dsimp only
  have read : MapWork s (s.modSlot i fun t => { t with
      current := (s.slot i).reading draw, peak := max t.peak ((s.slot i).reading draw) }) := same rfl
  split
  · exact read
  · exact read
  · exact ite (fun _ => read.tripped) fun _ => read
  all_goals
    exact ite (fun _ => read.tripped) fun _ => ite (fun _ => ite (fun _ => read.tripped) fun _ => read.trans (same rfl))
      fun _ => read.trans (same rfl)

/-! ### Channels, the clock and accesses -/

theorem chanBoundaries (s : State) : MapWork s s.chanBoundaries :=
  foldl (fun n s => by
    have answered (t : State) : MapWork t (t.answerChannel n) := by
      obtain ⟨-, e⟩ | ⟨-, payload, e⟩ := answerChannel_eq t n
      · exact same (by rw [e])
      · rw [e]
        exact answered (same rfl)
    unfold State.chanBoundary
    split
    · exact same rfl
    · split
      · exact (answered (s.releaseChannel n)).of_same ((State.modChan_rmap ..).trans (State.updStm_rmap ..))
      · split
        · exact (answered _).of_same rfl
        · exact same rfl) _ s

theorem clockBoundary (s : State) : MapWork s s.clockBoundary := by
  unfold State.clockBoundary
  split
  · exact same rfl
  · split
    · split <;> exact same rfl
    case h_2 w _ _ =>
      have halted := onlyInputs (s := s) (t := s.updBcu fun b => { b with
        clock := if w = .park then .parked else .stopped, waiting := none }) (same rfl) (.suspendSampling _)
      exact ite (fun _ => halted) fun _ => answered (halted.trans (same (State.updBcu_rmap ..)))
    · exact same rfl

/-- The end of an access does not touch the Resource Map. -/
theorem ended {status : Status} (h : MapWork s t) : MapWork s (t.endAccess status) := by
  obtain ⟨payload, echo, e⟩ := endAccess_eq t status
  exact h.trans (same (by rw [e]; rfl))

theorem beginAccessCycle (s : State) : MapWork s s.beginAccessCycle := by
  obtain e | ⟨u, p, -, -, -, e⟩ | ⟨p, e⟩ := beginAccessCycle_cases s
  · exact same (by rw [e]; rfl)
  · exact same (by rw [e]; rfl)
  · rw [e]
    exact ended (same rfl)

theorem arbitrate (s : State) : MapWork s s.arbitrate := by
  unfold State.arbitrate
  refine ite (fun _ => ?_) fun _ => same rfl
  split
  case h_4 => exact beginAccessCycle s
  all_goals exact same rfl

/-- The follow-on work of an event (log 14). -/
theorem settled (h : MapWork s t) : MapWork s t.settle := by
  have served : MapWork t.chanBoundaries.slotBoundaries t.chanBoundaries.slotBoundaries.serveChannels :=
    same (by rw [serveChannels_only])
  exact admitted ((((h.trans (chanBoundaries t)).trans (slotBoundaries _)).trans served).trans
    ((clockBoundary _).trans (arbitrate _)))

theorem runString (a : StringAccess) (left : Nat) (s : State) : MapWork s (Machine.runString a left s) := by
  induction left generalizing s with
  | zero => exact ended (same rfl)
  | succ left ih =>
    unfold Machine.runString
    dsimp only
    split
    · exact ended (same rfl)
    · exact ite (fun _ => (ih _).of_same rfl) fun _ => same rfl

theorem runPair (a : PairAccess) (s : State) : MapWork s (Machine.runPair a s) := by
  unfold Machine.runPair
  split
  · exact ite (fun _ => ended (same rfl)) fun _ => same rfl
  · exact ended (same rfl)

theorem decidePoll (a : PollAccess) (h : MapWork s t) : MapWork s (Machine.decidePoll a t) := by
  unfold Machine.decidePoll
  exact ite (fun _ => h.ended) fun _ => ite (fun _ => h.ended) fun _ => h.trans (same rfl)

theorem runPoll (a : PollAccess) (s : State) : MapWork s (Machine.runPoll a s) := by
  unfold Machine.runPoll
  dsimp only
  split
  · exact ended (same rfl)
  · exact ite (fun _ => decidePoll a (same rfl)) fun _ => same rfl

theorem beginAccess (s : State) (a : Access) : MapWork s (s.beginAccess a) := by
  have begun : MapWork s (s.updAe fun _ => { phase := .routing, command := some a }) := same rfl
  cases a with
  | string x => exact begun.trans (runString x x.count _)
  | pair x => exact begun.trans (runPair x _)
  | poll x => exact begun.trans (runPoll x _)

theorem accessBoundary (s : State) : MapWork s s.accessBoundary := by
  unfold State.accessBoundary
  refine ite (fun _ => ended (same rfl)) fun _ => ite (fun _ => ended (same rfl)) fun _ => ?_
  split
  · exact runString _ _ s
  · exact ended (same rfl)
  case h_3 x _ =>
    have decided := decidePoll x (same (s := s) rfl)
    exact ite (fun _ => decided.trans (runPoll _ _)) fun _ => decided
  · exact same rfl

/-! ### Cycles end -/

/-- A cycle's bytes are recorded for the windows that keep them (R82, log 28). -/
theorem recordAll (entries : List ShadowEntry) (m : Rmap) : Relation.ReflTransGen Rmap.Change m (m.recordAll entries) := by
  induction entries generalizing m with
  | nil => exact .refl
  | cons e es ih =>
    refine .trans ?_ (ih _)
    dsimp only
    split
    case isTrue keeps => exact .single (.record e keeps)
    case isFalse => exact .refl

theorem takeAccessResult (s : State) (timedOut : Bool) (data : Half) : MapWork s (s.takeAccessResult timedOut data) := by
  unfold State.takeAccessResult
  split
  · split
    · exact recordAll _ s.rmap
    · exact same rfl
  · exact same rfl

theorem takeResult (s : State) (c : Cycle) (timedOut : Bool) (data : Half) :
    MapWork s (s.takeResult c timedOut data) := by
  have applied (t : State) (n : ChanId) : (t.applyTransfer n c.transfer c.driven data).rmap = t.rmap := by
    unfold State.applyTransfer
    dsimp only
    split <;> rfl
  have served (t : State) (n : ChanId) : (t.serveChannel n).rmap = t.rmap := by
    unfold State.serveChannel
    dsimp only
    split
    · split
      · split <;> rfl
      · rfl
    · rfl
  unfold State.takeResult
  split
  · exact same rfl
  · exact ite (fun _ => same rfl) fun _ => same ((served ..).trans (applied ..))
  · exact takeAccessResult s timedOut data
  · exact same rfl

theorem continueGrant (s : State) : MapWork s s.continueGrant := by
  unfold State.continueGrant
  split
  · exact ite (fun _ => same rfl) fun _ => same rfl
  · exact ite (fun _ => (accessBoundary s.freeBus).of_same rfl) fun _ => beginAccessCycle s
  · exact same rfl

theorem finishCycle {c : Cycle} {timedOut : Bool} {data : Half} {length : Nat} (h : MapWork s t) :
    MapWork s (t.finishCycle c timedOut data length) := by
  unfold State.finishCycle
  have taken := (h.trans (same rfl)).trans (takeResult ((t.updSbc fun b => { b with cycle := none }).handResult
    ⟨if timedOut then .timedOut else .done, data, c.target, length⟩) c timedOut data)
  exact settled (((taken.trans (chanBoundaries _)).trans (slotBoundaries _)).trans (continueGrant _))

end MapWork

/-! ## Requests taken -/

/-- A request's owner changes the Resource Map by such changes alone. -/
def WorksOnMap (handle : State → State) : Prop := ∀ s, MapWork s (handle s)

namespace WorksOnMap

open MapWork

theorem withSlot {slot : Byte} {n : Nat} {f : State → SlotId → State} (h : ∀ i, WorksOnMap fun s => f s i) :
    WorksOnMap fun s => s.withSlot slot n (f s) := by
  intro s
  dsimp only [State.withSlot]
  split
  · exact h _ s
  · exact answered (same rfl)

theorem withChan {channel : Byte} {n : Nat} {f : State → ChanId → State} (h : ∀ c, WorksOnMap fun s => f s c) :
    WorksOnMap fun s => s.withChan channel n (f s) := by
  intro s
  dsimp only [State.withChan]
  split
  · exact h _ s
  · exact answered (same rfl)

/-! ### The clock and the slot bus (chapters 1 and 2) -/

theorem setClock (target : Half) : WorksOnMap (setClockTaken target) := by
  intro s
  unfold setClockTaken
  refine ite (fun _ => answered (same rfl)) fun _ => ?_
  split
  · exact same rfl
  · exact ite (fun _ => answered (same rfl)) fun _ => ite (fun _ => answered (same rfl)) fun _ => settled (same rfl)
  all_goals exact answered (same rfl)

theorem park : WorksOnMap parkTaken := by
  intro s
  unfold parkTaken
  split
  · exact ite (fun _ => answered (same rfl)) fun _ => settled (same rfl)
  all_goals exact answered (same rfl)

theorem wake : WorksOnMap wakeTaken := by
  intro s
  unfold wakeTaken
  split
  · exact same rfl
  · exact same rfl
  all_goals exact answered (same rfl)

theorem clockStop : WorksOnMap clockStopTaken := by
  intro s
  unfold clockStopTaken
  split
  · exact ite (fun _ => answered (same rfl)) fun _ => settled (same rfl)
  · exact ite (fun _ => answered (same rfl)) fun _ => answered (same rfl)
  all_goals exact answered (same rfl)

theorem setTiming (cls ioWs memWs : Byte) : WorksOnMap (setTimingTaken cls ioWs memWs) := by
  intro s
  unfold setTimingTaken
  split
  · exact answered (same rfl)
  · exact ite (fun _ => answered (same rfl)) fun _ => answered (same rfl)

theorem setReadyLimit (limit : Byte) : WorksOnMap (setReadyLimitTaken limit) := fun _ => answered (same rfl)

theorem setRefresh (interval : Byte) : WorksOnMap (setRefreshTaken interval) := fun _ => answered (same rfl)

theorem busStatus : WorksOnMap busStatusTaken := fun _ => answered (same rfl)

/-! ### Slot power (chapter 3) -/

theorem powerOn (slot : Byte) : WorksOnMap (powerOnTaken slot) :=
  withSlot fun i s => by
    dsimp only
    split
    case h_6 =>
      exact ite (fun _ => answered (same rfl)) fun _ => ite (fun _ => answered (same rfl)) fun _ =>
        (entered (same rfl)).trans (same rfl)
    all_goals exact answered (same rfl)

theorem powerOff (slot : Byte) : WorksOnMap (powerOffTaken slot) :=
  withSlot fun i s => by
    dsimp only
    refine ite (fun _ => answered (same rfl)) fun _ => ?_
    have stopped : MapWork s ((s.enterState i .off).modSlot i fun t => { t with sequence := none }) :=
      (entered (same rfl)).trans (same rfl)
    split
    case h_1 | h_2 => exact settled (same rfl)
    case h_3 | h_4 | h_5 => exact answered stopped
    case h_6 => exact answered (same rfl)

theorem isolate (slot : Byte) : WorksOnMap (isolateTaken slot) :=
  withSlot fun i s => by
    refine ite (fun _ => answered (same rfl)) fun _ => ?_
    split
    · exact settled (same rfl)
    all_goals exact answered (same rfl)

theorem connect (slot : Byte) : WorksOnMap (connectTaken slot) :=
  withSlot fun i s => by
    dsimp only
    split
    · exact admitted (answered (entered (same rfl)))
    all_goals exact answered (same rfl)

theorem slotReset (slot width : Byte) : WorksOnMap (slotResetTaken slot width) := by
  intro s
  unfold slotResetTaken
  split
  · exact answered (same rfl)
  · refine ite (fun _ => answered (same rfl)) fun _ => ite (fun _ => answered (same rfl)) fun _ => ?_
    split
    case h_1 | h_2 => exact settled (same rfl)
    all_goals exact answered (same rfl)

theorem setLimit (slot : Byte) (limit : Half) : WorksOnMap (setLimitTaken slot limit) :=
  withSlot fun _ _ => answered (same rfl)

theorem slotStatus (slot : Byte) : WorksOnMap (slotStatusTaken slot) := withSlot fun _ _ => answered (same rfl)

/-! ### The Resource Map (chapter 4) -/

/-- The id of the window that a MAP_ADD gives is the one it names. -/
theorem readWindowFields_id {f : WindowFields} {id : WindowId} {w : Window} (h : readWindowFields f = some (id, w)) :
    readIndex 32 f.id = some id := by
  unfold readWindowFields at h
  simp only [Option.bind_eq_bind, Option.bind_eq_some_iff] at h
  obtain ⟨id', named, slot, -, space, -, wide, -, cls, -, shadow, -, source, -, h⟩ := h
  split at h
  · cases h; exact named
  · cases h

/-- MAP_ADD adds a window only at a FREE id, aligned and apart from the others (R67 to R70). -/
theorem mapAdd (f : WindowFields) : WorksOnMap (mapAddTaken f) := by
  intro s
  unfold mapAddTaken
  refine ite (fun _ => answered (same rfl)) fun inactive => ?_
  split
  · exact answered (same rfl)
  case h_2 id w read =>
    refine ite (fun _ => answered (same rfl)) fun aligned => ?_
    split
    · exact answered (same rfl)
    case h_2 apart =>
      have free : s.rmap.windows[id] = none := by
        simpa [Rmap.activeId, readWindowFields_id read] using inactive
      exact answered (change (.add id w free (not_not.mp aligned) apart))

theorem mapRemove (id : Byte) : WorksOnMap (mapRemoveTaken id) := by
  intro s
  unfold mapRemoveTaken
  split
  · exact answered (same rfl)
  · split
    · exact answered (same rfl)
    · exact answered (change (.remove _))

theorem mapList : WorksOnMap mapListTaken := fun _ => answered (same rfl)

theorem shadowRead (port : Half) (present index : Byte) : WorksOnMap (shadowReadTaken port present index) := by
  intro s
  unfold shadowReadTaken
  dsimp only
  split
  · exact answered (same rfl)
  · split <;> exact answered (same rfl)

theorem shadowClear (present id : Byte) : WorksOnMap (shadowClearTaken present id) := by
  intro s
  unfold shadowClearTaken
  split
  · exact answered (same rfl)
  · exact answered (change (.forget [] (List.nil_sublist _)))
  · split
    · exact answered (same rfl)
    · split
      · exact answered (same rfl)
      case h_2 =>
        exact answered (t := s.updRmap fun m => m.dropWindow _) (change (.forget _ List.filter_sublist))

/-! ### Accesses (chapter 5) -/

theorem startAccess (a : Access) : WorksOnMap fun s => s.startAccess a := by
  intro s
  dsimp only [State.startAccess]
  split
  · exact answered (same rfl)
  · exact settled (beginAccess s a)

theorem string (write : Bool) (space : Space) (f : AccessFields) (data : List Byte) :
    WorksOnMap (stringTaken write space f data) := by
  intro s
  unfold stringTaken
  split
  · exact answered (same rfl)
  · exact ite (fun _ => startAccess _ s) fun _ => answered (same rfl)

theorem pair (write : Bool) (f : PairFields) (data : List Byte) : WorksOnMap (pairTaken write f data) := by
  intro s
  unfold pairTaken
  split
  · exact answered (same rfl)
  · exact ite (fun _ => startAccess _ s) fun _ => answered (same rfl)

theorem refusePoll (width : Byte) (status : Status) : WorksOnMap fun s => s.refusePoll width status := by
  intro s
  dsimp only [State.refusePoll]
  split <;> exact (answered (same rfl)).trans (same rfl)

theorem poll (f : PollFields) : WorksOnMap (pollTaken f) := by
  intro s
  unfold pollTaken
  split
  · exact refusePoll _ _ s
  · split
    · exact refusePoll _ _ s
    · exact settled (beginAccess s _)

theorem cancel (target : Half) : WorksOnMap (cancelTaken target) := by
  intro s
  unfold cancelTaken
  dsimp only
  split
  · exact answeredStream (same rfl)
  · refine ite (fun _ => ?_) fun _ => answeredStream (same rfl)
    split
    · exact answeredStream (same rfl)
    · exact ite (fun _ => ite (fun _ => same rfl) fun _ => ended (same rfl)) fun _ => answeredStream (same rfl)

/-! ### Channels and rings (chapters 6 and 7) -/

theorem chConfigure (channel : Byte) (f : ConfigureFields) : WorksOnMap (chConfigureTaken channel f) :=
  withChan fun n s => by
    dsimp only
    split
    · exact answered (same rfl)
    · split
      · exact answered (same rfl)
      · split
        · exact answered (same rfl)
        · exact answered (same ((State.modChan_rmap ..).trans (State.updStm_rmap ..)))

theorem chArm (channel : Byte) : WorksOnMap (chArmTaken channel) :=
  withChan fun n s => by
    dsimp only
    split
    case h_5 | h_6 =>
      split
      · exact answered (same rfl)
      · exact settled (answered (same rfl))
    all_goals exact answered (same rfl)

theorem chPause (channel : Byte) : WorksOnMap (chPauseTaken channel) :=
  withChan fun n s => by
    dsimp only
    split
    case h_2 => exact settled (same rfl)
    all_goals exact answered (same rfl)

theorem chResume (channel : Byte) : WorksOnMap (chResumeTaken channel) :=
  withChan fun n s => by
    dsimp only
    split
    case h_2 =>
      exact ite (fun _ => answered (same rfl)) fun _ => ite (fun _ => answered (same rfl)) fun _ =>
        settled (answered (same rfl))
    all_goals exact answered (same rfl)

theorem chClear (channel : Byte) : WorksOnMap (chClearTaken channel) :=
  withChan fun _ _ => ite (fun _ => answered (same rfl)) fun _ => answered (same rfl)

theorem chRelease (channel : Byte) : WorksOnMap (chReleaseTaken channel) :=
  withChan fun _ _ => ite (fun _ => answered (same rfl)) fun _ => settled (same rfl)

theorem chStatus (channel : Byte) : WorksOnMap (chStatusTaken channel) :=
  withChan fun _ _ => (answered (same rfl)).trans (same rfl)

theorem ringWrite (channel : Byte) (data : List Byte) : WorksOnMap (ringWriteTaken channel data) := by
  intro s
  unfold ringWriteTaken
  split
  · exact answeredStream (same rfl)
  · exact settled (answeredStream (same rfl))

theorem ringRead (channel : Byte) (largest : Half) : WorksOnMap (ringReadTaken channel largest) := by
  intro s
  unfold ringReadTaken
  split
  · exact answeredStream (same rfl)
  · exact settled (answeredStream (same rfl))

/-! ### Interrupts and the link (chapters 8 and 9) -/

theorem intConfigure (slot line : Byte) (f : InputFields) : WorksOnMap (intConfigureTaken slot line f) := by
  intro s
  unfold intConfigureTaken
  split
  · exact answered (same rfl)
  case h_2 i l _ =>
    split
    · exact answered (same rfl)
    case h_2 new _ =>
      have watched := ((OnlyInputs.withdraw s (inputId i l)).trans (.modInput _ (inputId i l) fun _ => new)).trans
        (.beginWatch _ (inputId i l))
      exact admitted (answered (onlyInputs (same rfl) watched))

theorem intMask (slot line mask : Byte) : WorksOnMap (intMaskTaken slot line mask) := by
  intro s
  unfold intMaskTaken
  split
  · exact answered (same rfl)
  · split
    · exact answered (same rfl)
    · exact admitted (answered (same rfl))

theorem intStatus (slot : Byte) : WorksOnMap (intStatusTaken slot) := by
  intro s
  unfold intStatusTaken
  split <;> exact answered (same rfl)

theorem intAck (slot line : Byte) : WorksOnMap (intAckTaken slot line) := by
  intro s
  unfold intAckTaken
  split
  · exact answeredStream (same rfl)
  · exact ite (fun _ => admitted (answeredStream (onlyInputs (same rfl) (.acknowledge s _))))
      fun _ => answeredStream (same rfl)

theorem info : WorksOnMap infoTaken := fun _ => answered (same rfl)

theorem resetPart : WorksOnMap resetPartTaken := by
  intro s
  unfold resetPartTaken
  split <;> exact same rfl

/-! ### Frames taken (R174, R175) -/

/-- Every owner works on the Resource Map by such changes alone. -/
theorem handOver (kind : Byte) (p : List Byte) : WorksOnMap (Machine.handOver kind p) := by
  unfold Machine.handOver
  split
  · exact setClock _
  · exact park
  · exact wake
  · exact clockStop
  · exact setTiming _ _ _
  · exact setReadyLimit _
  · exact setRefresh _
  · exact busStatus
  · exact powerOn _
  · exact powerOff _
  · exact isolate _
  · exact connect _
  · exact slotReset _ _
  · exact setLimit _ _
  · exact slotStatus _
  · exact mapAdd _
  · exact mapRemove _
  · exact mapList
  · exact shadowRead _ _ _
  · exact shadowClear _ _
  · exact string _ _ _ _
  · exact string _ _ _ _
  · exact string _ _ _ _
  · exact string _ _ _ _
  · exact pair _ _ _
  · exact pair _ _ _
  · exact poll _
  · exact chConfigure _ _
  · exact chArm _
  · exact chPause _
  · exact chResume _
  · exact chClear _
  · exact chRelease _
  · exact chStatus _
  · exact intConfigure _ _ _
  · exact intMask _ _ _
  · exact intStatus _
  · exact info
  · exact resetPart
  · exact ringWrite _ _
  · exact ringRead _ _
  · exact intAck _ _
  · exact cancel _
  · exact fun _ => same rfl

theorem takeRequest {handle : State → State} (works : WorksOnMap handle) (s : State) (p : Pipe) (kind : Byte)
    (tag : Half) (declared : Nat) (payload : List Byte) :
    MapWork s (s.takeRequest p kind tag declared payload handle) := by
  unfold State.takeRequest
  split
  · exact same rfl
  · exact ite (fun _ => same rfl) fun _ => ite (fun _ => same rfl) fun _ =>
      (works (s.beginRequest p kind tag)).of_same rfl

/-- A request command is taken in its step, or joins its intake queue (log 1). -/
theorem offer {handle : State → State} (works : WorksOnMap handle) {s : State} {p : Pipe} {kind : Byte} {tag : Half}
    {payload : List Byte} : MapWork s (s.offer p kind tag payload handle) := by
  unfold State.offer
  exact ite (fun _ => takeRequest works ..) fun _ => same rfl

end WorksOnMap

/-! ## Events -/

namespace MapWork

theorem frameTakes (p : Pipe) (s : State) : MapWork s (Machine.frameTakes p s) := by
  unfold Machine.frameTakes
  split
  · refine ite (fun _ => ?_) fun _ => same rfl
    unfold State.takeBytes
    exact ite (fun _ => same rfl) fun _ => (WorksOnMap.takeRequest (WorksOnMap.handOver _ _) _ ..).of_same rfl
  · exact same rfl

theorem frameTransmits (s : State) : MapWork s (Machine.frameTransmits s) := by
  have unqueued : MapWork s s.unqueue := by
    unfold State.unqueue
    split <;> exact same rfl
  unfold Machine.frameTransmits
  refine ite (fun _ => ?_) fun _ => same rfl
  split
  · exact admitted (same rfl)
  · exact admitted (unqueued.trans (same rfl))
  · exact same rfl

theorem framesSent (s : State) : MapWork s (Machine.framesSent s) := by
  unfold Machine.framesSent
  split
  · exact ite (fun _ => change .reset) fun _ => same rfl
  · exact same rfl

theorem answeredClock {s t : State} (h : MapWork s t) : MapWork s t.answerClock := by
  unfold State.answerClock
  dsimp only
  split
  · exact answered (h.trans (same rfl))
  · exact answered (h.trans (same rfl))
  · exact h.trans (same rfl)

theorem linkComesUp (s : State) : MapWork s (Machine.linkComesUp s) := by
  unfold Machine.linkComesUp
  exact ite (fun _ => same rfl) fun _ => admitted (same rfl)

theorem linkResets (s : State) : MapWork s (Machine.linkResets s) := by
  by_cases up : s.ml.up = true
  · exact same (linkResets_up up).others.2.2.1
  · exact same (by rw [Machine.linkResets, if_neg up])

theorem startingEnds (s : State) : MapWork s (Machine.startingEnds s) := by
  unfold Machine.startingEnds
  exact ite (fun _ => settled (answeredClock (same rfl))) fun _ => same rfl

theorem retuneEnds (s : State) : MapWork s (Machine.retuneEnds s) := by
  unfold Machine.retuneEnds
  exact ite (fun _ => settled (answeredClock (same rfl))) fun _ => same rfl

theorem refreshTicks (s : State) : MapWork s (Machine.refreshTicks s) := by
  unfold Machine.refreshTicks
  exact ite (fun _ => settled (same rfl)) fun _ => same rfl

theorem cycleEnds (extension : Nat) (card : CardData) (s : State) : MapWork s (Machine.cycleEnds extension card s) := by
  unfold Machine.cycleEnds
  split
  · exact same rfl
  · exact ite (fun _ => finishCycle (same rfl)) fun _ => same rfl

theorem readyTimesOut (s : State) : MapWork s (Machine.readyTimesOut s) := by
  unfold Machine.readyTimesOut
  split
  · exact finishCycle (same rfl)
  · exact same rfl

theorem measuresCurrents (draw : Vector Nat 4) (s : State) : MapWork s (Machine.measuresCurrents draw s) := by
  unfold Machine.measuresCurrents
  refine ite (fun _ => settled ?_) fun _ => same rfl
  exact (foldl (fun i t => measured t i draw[i]) (List.finRange 4) _).of_same rfl

theorem cooldownEnds (i : SlotId) (s : State) : MapWork s (Machine.cooldownEnds i s) := by
  unfold Machine.cooldownEnds
  exact ite (fun _ => same rfl) fun _ => same rfl

theorem poweringEnds (i : SlotId) (s : State) : MapWork s (Machine.poweringEnds i s) := by
  unfold Machine.poweringEnds
  exact ite (fun _ => (entered (same rfl)).trans (same rfl)) fun _ => same rfl

theorem resettingEnds (i : SlotId) (s : State) : MapWork s (Machine.resettingEnds i s) := by
  unfold Machine.resettingEnds
  exact ite (fun _ => admitted (answeredSlot (entered (same rfl)))) fun _ => same rfl

theorem slotResetEnds (i : SlotId) (s : State) : MapWork s (Machine.slotResetEnds i s) := by
  unfold Machine.slotResetEnds
  exact ite (fun _ => admitted (answeredSlot (entered (same rfl)))) fun _ => same rfl

theorem pollIntervalEnds (s : State) : MapWork s (Machine.pollIntervalEnds s) := by
  unfold Machine.pollIntervalEnds
  split
  · exact ite (fun _ => settled (runPoll _ s)) fun _ => same rfl
  · exact same rfl

theorem countedChange {s t : State} (h : MapWork s t) (i : InputId) (active : Bool) :
    MapWork s (t.countChange i active) := by
  unfold State.countChange State.activation State.wakeRequest
  dsimp only
  have counted : MapWork s (t.modInput i fun x => { x with active := active, run := 0, changeDue := false }) :=
    h.trans (same rfl)
  have applied := counted.onlyInputs (.applyActivation _ i)
  exact ite (fun _ => ite (fun _ => ite (fun _ => applied.trans (same rfl)) fun _ => applied) fun _ => applied)
    fun _ => counted

theorem irlChanges (slot : SlotId) (line : LineId) (high : Bool) (s : State) :
    MapWork s (Machine.irlChanges slot line high s) := by
  unfold Machine.irlChanges
  exact ite (fun _ => admitted (countedChange (t := s.updCards _) (same rfl) _ _)) fun _ => same rfl

theorem irlFilterChanges (slot : SlotId) (line : LineId) (s : State) :
    MapWork s (Machine.irlFilterChanges slot line s) := by
  unfold Machine.irlFilterChanges
  exact ite (fun _ => admitted (countedChange (same rfl) _ _)) fun _ => same rfl

theorem timeBaseAdvances (s : State) : MapWork s (Machine.timeBaseAdvances s) := by
  unfold Machine.timeBaseAdvances
  refine onlyInputs (.trans ?_ (same rfl)) (.sampleInputs _)
  exact (foldl (f := fun i s => s.modSlot i Slot.advance) (fun _ _ => same rfl) _ _).of_same rfl

end MapWork

/-- Every command changes the Resource Map by such changes alone. -/
theorem exec_mapWork {c : Instr} {s t : State} (h : exec c s = .next t) : MapWork s t := by
  have next : ∀ {u : State}, MapWork s u → exec c s = .next u → MapWork s t := fun work e => by
    rw [e] at h
    cases h
    exact work
  cases c with
  | partPowerOn => exact next (MapWork.change .reset) rfl
  | linkUp => exact next (MapWork.linkComesUp s) rfl
  | linkReset => exact next (MapWork.linkResets s) rfl
  | frameReceive p bytes => exact next (u := s.updMl fun m => m.receive p bytes) (MapWork.same rfl) rfl
  | frameTake p => exact next (MapWork.frameTakes p s) rfl
  | frameTransmit => exact next (MapWork.frameTransmits s) rfl
  | frameSent => exact next (MapWork.framesSent s) rfl
  | noticeAdmission => exact next (u := s.admitOffers) (MapWork.admitted (MapWork.same rfl)) rfl
  | startingEnd => exact next (MapWork.startingEnds s) rfl
  | retuneEnd => exact next (MapWork.retuneEnds s) rfl
  | refreshTick => exact next (MapWork.refreshTicks s) rfl
  | cycleEnd extension card => exact next (MapWork.cycleEnds extension card s) rfl
  | readyTimeout => exact next (MapWork.readyTimesOut s) rfl
  | currentMeasurement draw => exact next (MapWork.measuresCurrents draw s) rfl
  | cooldownEnd i => exact next (MapWork.cooldownEnds i s) rfl
  | poweringEnd i => exact next (MapWork.poweringEnds i s) rfl
  | resettingEnd i => exact next (MapWork.resettingEnds i s) rfl
  | slotResetEnd i => exact next (MapWork.slotResetEnds i s) rfl
  | pollIntervalEnd => exact next (MapWork.pollIntervalEnds s) rfl
  | trqAssert i n => exact next (u := trqAsserts i n s) (MapWork.settled (MapWork.same rfl)) rfl
  | trqDeassert i n => exact next (u := trqDeasserts i n s) (MapWork.same rfl) rfl
  | irlChange i l high => exact next (MapWork.irlChanges i l high s) rfl
  | irlFilterChange i l => exact next (MapWork.irlFilterChanges i l s) rfl
  | timeBaseAdvance => exact next (MapWork.timeBaseAdvances s) rfl
  | setClock tag target => exact next (WorksOnMap.offer (WorksOnMap.setClock _)) rfl
  | park tag => exact next (WorksOnMap.offer WorksOnMap.park) rfl
  | wake tag => exact next (WorksOnMap.offer WorksOnMap.wake) rfl
  | clockStop tag => exact next (WorksOnMap.offer WorksOnMap.clockStop) rfl
  | setTiming tag cls ioWs memWs => exact next (WorksOnMap.offer (WorksOnMap.setTiming _ _ _)) rfl
  | setReadyLimit tag limit => exact next (WorksOnMap.offer (WorksOnMap.setReadyLimit _)) rfl
  | setRefresh tag interval => exact next (WorksOnMap.offer (WorksOnMap.setRefresh _)) rfl
  | busStatus tag => exact next (WorksOnMap.offer WorksOnMap.busStatus) rfl
  | powerOn tag slot => exact next (WorksOnMap.offer (WorksOnMap.powerOn _)) rfl
  | powerOff tag slot => exact next (WorksOnMap.offer (WorksOnMap.powerOff _)) rfl
  | isolate tag slot => exact next (WorksOnMap.offer (WorksOnMap.isolate _)) rfl
  | connect tag slot => exact next (WorksOnMap.offer (WorksOnMap.connect _)) rfl
  | slotReset tag slot width => exact next (WorksOnMap.offer (WorksOnMap.slotReset _ _)) rfl
  | setLimit tag slot limit => exact next (WorksOnMap.offer (WorksOnMap.setLimit _ _)) rfl
  | slotStatus tag slot => exact next (WorksOnMap.offer (WorksOnMap.slotStatus _)) rfl
  | mapAdd tag fields => exact next (WorksOnMap.offer (WorksOnMap.mapAdd _)) rfl
  | mapRemove tag id => exact next (WorksOnMap.offer (WorksOnMap.mapRemove _)) rfl
  | mapList tag => exact next (WorksOnMap.offer WorksOnMap.mapList) rfl
  | shadowRead tag port present index => exact next (WorksOnMap.offer (WorksOnMap.shadowRead _ _ _)) rfl
  | shadowClear tag present id => exact next (WorksOnMap.offer (WorksOnMap.shadowClear _ _)) rfl
  | ioRead tag fields => exact next (WorksOnMap.offer (WorksOnMap.string _ _ _ _)) rfl
  | ioWrite tag fields data => exact next (WorksOnMap.offer (WorksOnMap.string _ _ _ _)) rfl
  | memRead tag fields => exact next (WorksOnMap.offer (WorksOnMap.string _ _ _ _)) rfl
  | memWrite tag fields data => exact next (WorksOnMap.offer (WorksOnMap.string _ _ _ _)) rfl
  | pairWrite tag fields data => exact next (WorksOnMap.offer (WorksOnMap.pair _ _ _)) rfl
  | pairRead tag fields => exact next (WorksOnMap.offer (WorksOnMap.pair _ _ _)) rfl
  | poll tag fields => exact next (WorksOnMap.offer (WorksOnMap.poll _)) rfl
  | cancel tag target => exact next (WorksOnMap.offer (WorksOnMap.cancel _)) rfl
  | chConfigure tag channel fields => exact next (WorksOnMap.offer (WorksOnMap.chConfigure _ _)) rfl
  | chArm tag channel => exact next (WorksOnMap.offer (WorksOnMap.chArm _)) rfl
  | chPause tag channel => exact next (WorksOnMap.offer (WorksOnMap.chPause _)) rfl
  | chResume tag channel => exact next (WorksOnMap.offer (WorksOnMap.chResume _)) rfl
  | chClear tag channel => exact next (WorksOnMap.offer (WorksOnMap.chClear _)) rfl
  | chRelease tag channel => exact next (WorksOnMap.offer (WorksOnMap.chRelease _)) rfl
  | chStatus tag channel => exact next (WorksOnMap.offer (WorksOnMap.chStatus _)) rfl
  | ringWrite tag channel data => exact next (WorksOnMap.offer (WorksOnMap.ringWrite _ _)) rfl
  | ringRead tag channel largest => exact next (WorksOnMap.offer (WorksOnMap.ringRead _ _)) rfl
  | intConfigure tag slot line fields => exact next (WorksOnMap.offer (WorksOnMap.intConfigure _ _ _)) rfl
  | intMask tag slot line mask => exact next (WorksOnMap.offer (WorksOnMap.intMask _ _ _)) rfl
  | intStatus tag slot => exact next (WorksOnMap.offer (WorksOnMap.intStatus _)) rfl
  | intAck tag slot line => exact next (WorksOnMap.offer (WorksOnMap.intAck _ _)) rfl
  | info tag => exact next (WorksOnMap.offer WorksOnMap.info) rfl
  | resetPart tag => exact next (WorksOnMap.offer WorksOnMap.resetPart) rfl

theorem Rmap.Sound.after {m m' : Rmap} (sound : m.Sound) (h : Relation.ReflTransGen Rmap.Change m m') : m'.Sound := by
  induction h with
  | refl => exact sound
  | tail _ change ih => exact change.sound ih

/-- Settles O41: every command changes the Resource Map by changes that keep it sound. -/
theorem windowsAndShadowStaySound : Obligations.WindowsAndShadowStaySound := by
  intro s t windows shadow hs
  refine (rmapSound_iff t).mp (step_keeps (P := fun s => s.rmap.Sound) (fun _ _ h => h) (fun c s t h e => ?_)
    ((rmapSound_iff s).mpr ⟨windows, shadow⟩) hs)
  exact h.after (exec_mapWork e)

end Sys2Proof.Machine
end

