-- ==== Sys2Proof/Proofs/MapAdd.lean ====
section
/-! PROOF. MAP_ADD (O36): the readers of its fields, the windows its checks let pass, and the lowest id in conflict. -/

namespace Sys2Proof.Machine

open Sys2Proof

/-! ## Bytes and what they name (R188) -/

theorem readIndex_eq_some_iff {n : Nat} {b : Byte} {k : Fin n} : readIndex n b = some k ↔ b.toNat = k.val := by
  refine ⟨fun h => ?_, readIndex_of_eq⟩
  unfold readIndex at h
  split at h
  · exact congrArg Fin.val (Option.some.inj h)
  · cases h

theorem readFlag_eq_some_iff {b : Byte} {x : Bool} : readFlag b = some x ↔ b = yesNo x := by
  unfold readFlag
  cases x <;> grind [yesNo]

theorem readWidth_eq_some_iff {b : Byte} {x : Bool} : readWidth b = some x ↔ b = widthCode x := by
  unfold readWidth
  cases x <;> grind [widthCode]

theorem readSpace_eq_some_iff {b : Byte} {x : Space} : readSpace b = some x ↔ b = x.code := by
  unfold readSpace
  cases x <;> grind [Space.code]

theorem exists_yesNo {b : Byte} (h : ¬ 1 < b.toNat) : ∃ x, b = yesNo x := by
  have two : b = 0 ∨ b = 1 := by bv_omega
  exact two.elim (⟨false, ·⟩) (⟨true, ·⟩)

theorem exists_space {b : Byte} (h : ¬ 1 < b.toNat) : ∃ x : Space, b = x.code := by
  have two : b = 0 ∨ b = 1 := by bv_omega
  exact two.elim (⟨.io, ·⟩) (⟨.mem, ·⟩)

theorem exists_widthCode {b : Byte} (h : ¬ (b ≠ 8 ∧ b ≠ 16)) : ∃ x, b = widthCode x := by
  have two : b = 8 ∨ b = 16 := by tauto
  exact two.elim (⟨false, ·⟩) (⟨true, ·⟩)

theorem yesNo_eq_one_iff (x : Bool) : yesNo x = 1 ↔ x = true := by cases x <;> decide

theorem yesNo_eq_zero_iff (x : Bool) : yesNo x = 0 ↔ x = false := by cases x <;> decide

theorem yesNo_toNat_le (x : Bool) : (yesNo x).toNat ≤ 1 := by cases x <;> decide

theorem readFlag_of_bad {b : Byte} (h : 1 < b.toNat) : readFlag b = none :=
  Option.eq_none_iff_forall_ne_some.mpr fun x read => h.not_ge (readFlag_eq_some_iff.mp read ▸ yesNo_toNat_le x)

theorem widthCode_eq_iff (x : Bool) : widthCode x = 16 ↔ x = true := by cases x <;> decide

theorem powerBetween_iff (lo hi n : Nat) : powerBetween lo hi n = true ↔ ∃ k, lo ≤ k ∧ k ≤ hi ∧ n = 2 ^ k := by
  simp only [powerBetween, List.any_eq_true, List.mem_range, Bool.and_eq_true, decide_eq_true_eq, beq_iff_eq,
    Nat.lt_succ_iff]
  exact exists_congr fun k => and_left_comm

/-! ## The fields of a window (R68) -/

/-- The fields name the id and the window, each in its own code. -/
structure FieldsName (f : WindowFields) (id : WindowId) (w : Window) : Prop where
  id     : f.id.toNat = id.val
  slot   : f.slot.toNat = w.slot.val
  space  : f.space = w.space.code
  base   : f.base.toNat = w.base
  size   : f.size.toNat = w.size
  width  : f.width = widthCode w.wide
  cls    : f.cls.toNat = w.cls.val
  shadow : f.shadow = yesNo w.shadow
  source : f.source = yesNo w.fromShadow

/-- The window lies in its space, with a size of that space, and its other fields agree. -/
structure Window.Fits (w : Window) : Prop where
  inSpace : w.base < w.space.size
  sized   : sizeAllowed w.space w.size = true
  width   : ¬ (w.wide = true ∧ w.size = 1)
  shadow  : ¬ (w.shadow = true ∧ w.space = .mem)
  source  : ¬ (w.fromShadow = true ∧ ¬ w.shadow = true)

/-- R68's BAD_ARG: a field out of range, or two that do not agree. -/
def BadWindowFields (f : WindowFields) : Prop :=
  31 < f.id.toNat ∨ 3 < f.slot.toNat ∨ 1 < f.space.toNat ∨
    (f.space = 0 ∧ 0xFFFF < f.base.toNat) ∨ (f.space = 1 ∧ 0xFFFFFF < f.base.toNat) ∨
    (f.space = 0 ∧ ∀ k ≤ 10, f.size.toNat ≠ 2 ^ k) ∨
    (f.space = 1 ∧ ∀ k, 11 ≤ k → k ≤ 17 → f.size.toNat ≠ 2 ^ k) ∨
    (f.width ≠ 8 ∧ f.width ≠ 16) ∨ (f.width = 16 ∧ f.size = 1) ∨ 3 < f.cls.toNat ∨
    1 < f.shadow.toNat ∨ 1 < f.source.toNat ∨ (f.shadow = 1 ∧ f.space = 1) ∨ (f.source = 1 ∧ f.shadow = 0)

theorem readWindowFields_eq_some_iff {f : WindowFields} {id : WindowId} {w : Window} :
    readWindowFields f = some (id, w) ↔ FieldsName f id w ∧ w.Fits := by
  unfold readWindowFields
  simp only [Option.bind_eq_bind, Option.bind_eq_some_iff, readIndex_eq_some_iff, readSpace_eq_some_iff,
    readWidth_eq_some_iff, readFlag_eq_some_iff, Option.ite_none_right_eq_some, Option.some.injEq, Prod.mk.injEq]
  constructor
  · rintro ⟨_, id, slot, hslot, space, hspace, wide, hwide, cls, hcls, shadow, hshadow, source, hsource,
      ⟨inSpace, sized, width, agree, from_⟩, rfl, rfl⟩
    exact ⟨⟨id, hslot, hspace, rfl, rfl, hwide, hcls, hshadow, hsource⟩, ⟨inSpace, sized, width, agree, from_⟩⟩
  · rintro ⟨⟨hid, hslot, hspace, hbase, hsize, hwide, hcls, hshadow, hsource⟩, ⟨inSpace, sized, width, agree, from_⟩⟩
    refine ⟨_, hid, _, hslot, _, hspace, _, hwide, _, hcls, _, hshadow, _, hsource, ?_, rfl, ?_⟩
    · rw [hbase, hsize]
      exact ⟨inSpace, sized, width, agree, from_⟩
    · rw [hbase, hsize]

theorem below_size_iff (x : Space) (base : Nat) :
    base < x.size ↔ ¬ (x.code = 0 ∧ 0xFFFF < base) ∧ ¬ (x.code = 1 ∧ 0xFFFFFF < base) := by
  have io : Space.io.size = 0x10000 := rfl
  have mem : Space.mem.size = 0x1000000 := rfl
  have code : Space.io.code ≠ 1 ∧ Space.mem.code ≠ 0 := by decide
  cases x
  · exact ⟨fun h => ⟨fun above => by omega, fun above => code.1 above.1⟩, fun h => by have := not_and.mp h.1 rfl; omega⟩
  · exact ⟨fun h => ⟨fun above => code.2 above.1, fun above => by omega⟩, fun h => by have := not_and.mp h.2 rfl; omega⟩

theorem sizeAllowed_iff (x : Space) (size : Nat) : sizeAllowed x size = true ↔
    ¬ (x.code = 0 ∧ ∀ k ≤ 10, size ≠ 2 ^ k) ∧ ¬ (x.code = 1 ∧ ∀ k, 11 ≤ k → k ≤ 17 → size ≠ 2 ^ k) := by
  cases x <;> simp [Space.code, sizeAllowed, powerBetween_iff]

theorem FieldsName.bytesInRange {f : WindowFields} {id : WindowId} {w : Window} (h : FieldsName f id w) :
    ¬ 31 < f.id.toNat ∧ ¬ 3 < f.slot.toNat ∧ ¬ 1 < f.space.toNat ∧ ¬ (f.width ≠ 8 ∧ f.width ≠ 16) ∧
      ¬ 3 < f.cls.toNat ∧ ¬ 1 < f.shadow.toNat ∧ ¬ 1 < f.source.toNat := by
  rw [h.id, h.slot, h.space, h.width, h.cls, h.shadow, h.source]
  refine ⟨by omega, by omega, ?_, ?_, by omega, (yesNo_toNat_le _).not_gt, (yesNo_toNat_le _).not_gt⟩
  · cases w.space <;> decide
  · cases w.wide <;> decide

/-- Fields that name a window are bad exactly when the window does not fit. -/
theorem FieldsName.badArg_iff {f : WindowFields} {id : WindowId} {w : Window} (h : FieldsName f id w) :
    BadWindowFields f ↔ ¬ w.Fits := by
  obtain ⟨id31, slot3, space1, width, cls3, shadow1, source1⟩ := h.bytesInRange
  have inSpace := below_size_iff w.space w.base
  have sized := sizeAllowed_iff w.space w.size
  have one : f.size = 1 ↔ w.size = 1 := by rw [← h.size]; bv_omega
  have wide : f.width = 16 ↔ w.wide = true := h.width ▸ widthCode_eq_iff _
  have on : f.shadow = 1 ↔ w.shadow = true := h.shadow ▸ yesNo_eq_one_iff _
  have off : f.shadow = 0 ↔ ¬ w.shadow = true := by rw [h.shadow, yesNo_eq_zero_iff, Bool.not_eq_true]
  have from_ : f.source = 1 ↔ w.fromShadow = true := h.source ▸ yesNo_eq_one_iff _
  have mem : f.space = 1 ↔ w.space = .mem := by rw [h.space]; cases w.space <;> decide
  rw [← h.space, ← h.base] at inSpace
  rw [← h.space, ← h.size] at sized
  constructor
  · rintro (k | k | k | k | k | k | k | k | k | k | k | k | k | k) fits
    · exact id31 k
    · exact slot3 k
    · exact space1 k
    · exact (inSpace.mp (h.base ▸ fits.inSpace)).1 k
    · exact (inSpace.mp (h.base ▸ fits.inSpace)).2 k
    · exact (sized.mp (h.size ▸ fits.sized)).1 k
    · exact (sized.mp (h.size ▸ fits.sized)).2 k
    · exact width k
    · exact fits.width ⟨wide.mp k.1, one.mp k.2⟩
    · exact cls3 k
    · exact shadow1 k
    · exact source1 k
    · exact fits.shadow ⟨on.mp k.1, mem.mp k.2⟩
    · exact fits.source ⟨from_.mp k.1, off.mp k.2⟩
  · refine fun misfit => not_not.mp fun good => misfit ?_
    simp only [BadWindowFields, not_or] at good
    obtain ⟨-, -, -, io, memory, ioSize, memSize, -, byte, -, -, -, noShadow, noSource⟩ := good
    exact ⟨h.base ▸ inSpace.mpr ⟨io, memory⟩, h.size ▸ sized.mpr ⟨ioSize, memSize⟩,
      fun k => byte ⟨wide.mpr k.1, one.mpr k.2⟩, fun k => noShadow ⟨on.mpr k.1, mem.mpr k.2⟩,
      fun k => noSource ⟨from_.mpr k.1, off.mpr k.2⟩⟩

theorem exists_fieldsName {f : WindowFields} (h : ¬ BadWindowFields f) : ∃ id w, FieldsName f id w := by
  simp only [BadWindowFields, not_or] at h
  obtain ⟨id, slot, space, -, -, -, -, width, -, cls, shadow, source, -⟩ := h
  obtain ⟨space, hspace⟩ := exists_space space
  obtain ⟨wide, hwide⟩ := exists_widthCode width
  obtain ⟨shadow, hshadow⟩ := exists_yesNo shadow
  obtain ⟨source, hsource⟩ := exists_yesNo source
  exact ⟨⟨f.id.toNat, by omega⟩, ⟨⟨f.slot.toNat, by omega⟩, space, f.base.toNat, f.size.toNat, wide,
    ⟨f.cls.toNat, by omega⟩, shadow, source⟩, ⟨rfl, rfl, hspace, rfl, rfl, hwide, rfl, hshadow, hsource⟩⟩

/-! ## Windows in conflict (R69) -/

/-- The window with the id claims an address that the new one claims. -/
def Rmap.Shares (m : Rmap) (w : Window) (j : WindowId) : Prop :=
  ∃ (v : Window) (a : Nat), m.windows[j] = some v ∧ v.claims w.space a = true ∧ w.claims w.space a = true

/-- Windows that overlap share an address, the larger of their bases: an aligned window without addresses lies at 0,
below no other. -/
theorem exists_claims_of_overlaps {v w : Window} (aligned : v.base % v.size = 0) (hw : 0 < w.size)
    (h : v.overlaps w = true) : ∃ a, v.claims w.space a = true ∧ w.claims w.space a = true := by
  obtain ⟨space, aboveV, aboveW⟩ := (overlaps_iff ..).mp h
  have hv : 0 < v.size := by
    rcases Nat.eq_zero_or_pos v.size with zero | positive
    · rw [zero, Nat.mod_zero] at aligned
      omega
    · exact positive
  exact ⟨max v.base w.base, (claims_iff ..).mpr ⟨space, by omega, by omega⟩,
    (claims_iff ..).mpr ⟨rfl, by omega, by omega⟩⟩

/-- The record with the id is ACTIVE and overlaps the window. -/
def Rmap.overlapsAt (m : Rmap) (w : Window) (j : WindowId) : Bool :=
  match m.windows[j] with
  | some v => v.overlaps w
  | none => false

theorem conflict_eq (m : Rmap) (w : Window) : m.conflict w = (List.finRange 32).find? (m.overlapsAt w) := rfl

theorem overlapsAt_iff {m : Rmap} (h : m.WindowsApart) {w : Window} (hw : 0 < w.size) (j : WindowId) :
    m.overlapsAt w j = true ↔ m.Shares w j := by
  unfold Rmap.overlapsAt Rmap.Shares
  cases stored : m.windows[j] with
  | none => simp
  | some v =>
    refine ⟨fun overlaps => ?_, ?_⟩
    · obtain ⟨a, claims⟩ := exists_claims_of_overlaps (h.aligned j v stored) hw overlaps
      exact ⟨v, a, rfl, claims⟩
    · rintro ⟨_, a, ⟨⟩, inV, inW⟩
      exact overlaps_of_claims inV inW

theorem conflict_eq_none {m : Rmap} (h : m.WindowsApart) {w : Window} (hw : 0 < w.size)
    (apart : ∀ j, ¬ m.Shares w j) : m.conflict w = none :=
  List.find?_eq_none.mpr fun j _ overlaps => apart j ((overlapsAt_iff h hw j).mp overlaps)

theorem conflict_eq_some {m : Rmap} (h : m.WindowsApart) {w : Window} (hw : 0 < w.size) {j : WindowId}
    (shares : m.Shares w j) (first : ∀ k < j, ¬ m.Shares w k) : m.conflict w = some j := by
  rw [conflict_eq]
  refine List.find?_eq_some_iff_getElem.mpr ⟨(overlapsAt_iff h hw j).mpr shares, j.val, by simp, by simp,
    fun k before => ?_⟩
  rw [List.getElem_finRange, Bool.not_eq_true', ← Bool.not_eq_true]
  exact fun overlaps => first ⟨k, by omega⟩ before ((overlapsAt_iff h hw _).mp overlaps)

theorem Window.Fits.size_pos {w : Window} (h : w.Fits) : 0 < w.size := by
  have positive : ∀ lo hi, powerBetween lo hi w.size = true → 0 < w.size := fun lo hi power => by
    obtain ⟨k, -, -, size⟩ := (powerBetween_iff ..).mp power
    exact size ▸ Nat.two_pow_pos k
  have sized := h.sized
  unfold sizeAllowed at sized
  split at sized
  · exact positive _ _ sized
  · exact positive _ _ sized

/-! ## The request -/

theorem exec_mapAdd {s : State} {tag : Half} (h : s.ready .command) (f : WindowFields) :
    exec (.mapAdd tag f) s = .next (mapAddTaken f (s.beginRequest .command 0x28 tag)) :=
  congrArg Host.Outcome.next (offer_ready h rfl (by simp [windowBytes]) (by simp [windowBytes])
    (by simp [windowBytes]) _)

theorem activeId_isSome_iff (m : Rmap) (id : Byte) :
    (m.activeId id).isSome = true ↔ ∃ i : WindowId, id.toNat = i.val ∧ m.windows[i] ≠ none := by
  simp only [Rmap.activeId, Option.isSome_iff_exists, Option.bind_eq_some_iff, readIndex_eq_some_iff,
    Option.map_eq_some_iff, Option.ne_none_iff_exists']
  constructor
  · rintro ⟨_, i, named, w, stored, -⟩
    exact ⟨i, named, w, stored⟩
  · rintro ⟨i, named, w, stored⟩
    exact ⟨_, i, named, w, stored, rfl⟩

section Checks

variable {s : State} {f : WindowFields} {id : WindowId} {w : Window}

theorem mapAddTaken_active (h : (s.rmap.activeId f.id).isSome = true) :
    mapAddTaken f s = s.replyCommand .inUse (windowBytes f ++ [0xFF]) := if_pos h

theorem mapAddTaken_bad (h : ¬ (s.rmap.activeId f.id).isSome = true) (bad : readWindowFields f = none) :
    mapAddTaken f s = s.replyCommand .badArg (windowBytes f ++ [0xFF]) := by
  unfold mapAddTaken
  rw [if_neg h, bad]

theorem mapAddTaken_askew (h : ¬ (s.rmap.activeId f.id).isSome = true) (read : readWindowFields f = some (id, w))
    (askew : w.base % w.size ≠ 0) : mapAddTaken f s = s.replyCommand .badAlign (windowBytes f ++ [0xFF]) := by
  unfold mapAddTaken
  rw [if_neg h, read]
  exact if_pos askew

theorem mapAddTaken_conflict {other : WindowId} (h : ¬ (s.rmap.activeId f.id).isSome = true)
    (read : readWindowFields f = some (id, w)) (aligned : w.base % w.size = 0)
    (conflict : s.rmap.conflict w = some other) :
    mapAddTaken f s = s.replyCommand .overlap (windowBytes f ++ [BitVec.ofNat 8 other.val]) := by
  unfold mapAddTaken
  simp only [if_neg h, read, aligned, conflict, ne_eq, not_true_eq_false, if_false]

theorem mapAddTaken_added (h : ¬ (s.rmap.activeId f.id).isSome = true) (read : readWindowFields f = some (id, w))
    (aligned : w.base % w.size = 0) (apart : s.rmap.conflict w = none) :
    mapAddTaken f s = (s.updRmap fun m => { m with windows := m.windows.set id (some w) }).replyCommand .ok
      (windowBytes f ++ [0xFF]) := by
  unfold mapAddTaken
  simp only [if_neg h, read, aligned, apart, ne_eq, not_true_eq_false, if_false]

end Checks

/-- Settles O36: the checks in their order, each by the lemma on what passes it. -/
theorem mapAddMakesItsChecksInOrder : Obligations.MapAddMakesItsChecksInOrder := by
  intro s tag f h answer active badArg
  have answered (t : State) (ready : t.ml.command = none) (status : Status) (other : Byte) :
      (t.beginRequest .command 0x28 tag).replyCommand status (windowBytes f ++ [other]) = answer t status.code other :=
    replyCommand_begin ready status _
  have isActive : active ↔ ((s.beginRequest .command 0x28 tag).rmap.activeId f.id).isSome = true :=
    (activeId_isSome_iff ..).symm
  rw [exec_mapAdd h]
  refine ⟨fun used => ?_, fun free bad => ?_, fun free good => ?_⟩
  · rw [mapAddTaken_active (isActive.mp used)]
    exact congrArg Host.Outcome.next (answered s h.command .inUse 0xFF)
  · have unread : readWindowFields f = none := by
      refine Option.eq_none_iff_forall_ne_some.mpr fun ⟨id, w⟩ read => ?_
      obtain ⟨names, fits⟩ := readWindowFields_eq_some_iff.mp read
      exact names.badArg_iff.mp bad fits
    rw [mapAddTaken_bad (isActive.not.mp free) unread]
    exact congrArg Host.Outcome.next (answered s h.command .badArg 0xFF)
  · obtain ⟨id, w, names⟩ := exists_fieldsName good
    have fits : w.Fits := not_not.mp (names.badArg_iff.not.mp good)
    have read : readWindowFields f = some (id, w) := readWindowFields_eq_some_iff.mpr ⟨names, fits⟩
    refine ⟨id, w, names.id, names.slot, names.space, names.base, names.size, names.width ▸ (widthCode_eq_iff _).symm,
      names.cls, names.shadow ▸ (yesNo_eq_one_iff _).symm, names.source ▸ (yesNo_eq_one_iff _).symm, ?_, ?_⟩
    · intro askew
      rw [mapAddTaken_askew (isActive.not.mp free) read askew]
      exact congrArg Host.Outcome.next (answered s h.command .badAlign 0xFF)
    · intro aligned sound shares
      have apart : s.rmap.WindowsApart := ⟨sound.aligned, sound.disjoint⟩
      refine ⟨fun j common first => ?_, fun none => ?_⟩
      · have conflict := conflict_eq_some apart fits.size_pos common first
        rw [mapAddTaken_conflict (isActive.not.mp free) read aligned conflict]
        exact congrArg Host.Outcome.next (answered s h.command .overlap _)
      · have conflict := conflict_eq_none apart fits.size_pos none
        rw [mapAddTaken_added (isActive.not.mp free) read aligned conflict]
        exact congrArg Host.Outcome.next (answered (s.updRmap fun m => { m with windows := m.windows.set id (some w) })
          h.command .ok 0xFF)

end Sys2Proof.Machine
end

