-- ==== Sys2Proof/Proofs/MapRequests.lean ====
section
/-! PROOF. MAP_REMOVE, MAP_LIST, SHADOW_READ and SHADOW_CLEAR (O37): what each makes of the records, and its reply. -/

namespace Sys2Proof.Machine

open Sys2Proof

/-! ## The entries of a window, and the entry with a key -/

theorem dropWindow_shadow (m : Rmap) (i : WindowId) :
    (m.dropWindow i).shadow = m.shadow.filter fun e : ShadowEntry => decide (e.window ≠ i) :=
  List.filter_congr fun e _ => by rw [decide_not, bne, beq_eq_decide]

theorem entriesOf_eq (m : Rmap) (i : WindowId) :
    m.entriesOf i = m.shadow.countP fun e : ShadowEntry => decide (e.window = i) := by
  rw [Rmap.entriesOf, ← List.countP_eq_length_filter]
  exact List.countP_congr fun e _ => by simp

/-- The entries removed for a window and those kept are all the entries. -/
theorem entriesOf_add_kept (m : Rmap) (i : WindowId) :
    m.entriesOf i + (m.dropWindow i).shadow.length = m.shadow.length := by
  rw [entriesOf_eq, dropWindow_shadow, ← List.countP_eq_length_filter,
    List.length_eq_countP_add_countP fun e : ShadowEntry => decide (e.window = i)]
  simp

theorem shadowFind_eq_none {m : Rmap} {port : Half} {index : Option Byte}
    (h : ∀ e ∈ m.shadow, ¬ (e.port = port ∧ e.index = index)) : m.shadowFind port index = none :=
  List.find?_eq_none.mpr fun e listed key => h e listed ((hasKey_iff ..).mp key)

theorem shadowFind_eq_some {m : Rmap} {port : Half} {index : Option Byte} {e : ShadowEntry} (listed : e ∈ m.shadow)
    (hport : e.port = port) (hindex : e.index = index)
    (only : ∀ x ∈ m.shadow, x.port = port → x.index = index → x = e) : m.shadowFind port index = some e := by
  cases found : m.shadowFind port index with
  | none => exact absurd ((hasKey_iff ..).mpr ⟨hport, hindex⟩) (List.find?_eq_none.mp found e listed)
  | some x =>
    obtain ⟨xport, xindex⟩ := (hasKey_iff ..).mp (List.find?_some (p := fun e : ShadowEntry => e.hasKey port index) found)
    rw [only x (List.mem_of_find?_eq_some found) xport xindex]

/-! ## The requests -/

section Taken

variable {s : State} {tag : Half} {i : WindowId} {w : Window} {id : Byte}

theorem exec_mapRemove (h : s.ready .command) (id : Byte) :
    exec (.mapRemove tag id) s = .next (mapRemoveTaken id (s.beginRequest .command 0x29 tag)) :=
  congrArg Host.Outcome.next (offer_ready h rfl (by simp) (by simp) (by simp) _)

theorem exec_mapList (h : s.ready .command) :
    exec (.mapList tag) s = .next (mapListTaken (s.beginRequest .command 0x2A tag)) :=
  congrArg Host.Outcome.next (offer_ready h rfl (by simp) (by simp) (by simp) _)

theorem exec_shadowRead (h : s.ready .command) (port : Half) (present index : Byte) :
    exec (.shadowRead tag port present index) s =
      .next (shadowReadTaken port present index (s.beginRequest .command 0x2B tag)) :=
  congrArg Host.Outcome.next (offer_ready h rfl (by simp) (by simp) (by simp) _)

theorem exec_shadowClear (h : s.ready .command) (present id : Byte) :
    exec (.shadowClear tag present id) s = .next (shadowClearTaken present id (s.beginRequest .command 0x2C tag)) :=
  congrArg Host.Outcome.next (offer_ready h rfl (by simp) (by simp) (by simp) _)

theorem mapRemoveTaken_unknown (h : 31 < id.toNat) : mapRemoveTaken id s = s.replyCommand .badArg [id, 0, 0] := by
  unfold mapRemoveTaken
  rw [readIndex_of_le h]
  rfl

theorem mapRemoveTaken_free (named : id.toNat = i.val) (free : s.rmap.windows[i] = none) :
    mapRemoveTaken id s = s.replyCommand .noWindow [id, 0, 0] := by
  unfold mapRemoveTaken
  simp only [readIndex_of_eq named, free]
  rfl

theorem mapRemoveTaken_active (named : id.toNat = i.val) (active : s.rmap.windows[i] = some w) :
    mapRemoveTaken id s = (s.updRmap fun m => ⟨m.windows.set i none, (m.dropWindow i).shadow⟩).replyCommand .ok
      ([id] ++ le 2 (s.rmap.entriesOf i)) := by
  unfold mapRemoveTaken
  simp only [readIndex_of_eq named, active]

/-- What MAP_LIST reports of the record with an id (R72). -/
def Rmap.listed (m : Rmap) (i : WindowId) : List Byte :=
  ((m.windows[i]).map fun w => windowRecord i w ++ le 2 (m.entriesOf i)).getD []

theorem active_length (m : Rmap) : m.active.length = (List.finRange 32).countP fun i => (m.windows[i]).isSome := by
  unfold Rmap.active
  rw [List.length_filterMap_eq_countP]
  exact List.countP_congr fun i _ => by rw [Option.isSome_map]

theorem active_flatMap (m : Rmap) :
    (m.active.flatMap fun p => windowRecord p.1 p.2 ++ le 2 (m.entriesOf p.1)) = (List.finRange 32).flatMap m.listed := by
  unfold Rmap.active
  induction List.finRange 32 with
  | nil => rfl
  | cons i rest ih =>
    rw [List.flatMap_cons, ← ih, List.filterMap_cons]
    unfold Rmap.listed
    cases m.windows[i] with
    | none => rfl
    | some w => rfl

theorem listPayload_eq (m : Rmap) : m.listPayload =
    le 1 ((List.finRange 32).countP fun i => (m.windows[i]).isSome) ++ le 2 m.shadow.length ++
      (List.finRange 32).flatMap m.listed := by
  rw [Rmap.listPayload, active_length, active_flatMap]

theorem shadowReadTaken_badArg {port : Half} {present index : Byte} (h : 1 < present.toNat) :
    shadowReadTaken port present index s =
      s.replyCommand .badArg (le 2 port.toNat ++ [present, index] ++ [0, 0xFF, 0xFF]) := by
  unfold shadowReadTaken
  simp only [readFlag_of_bad h]

theorem shadowReadTaken_found {port : Half} {index : Byte} {p : Bool} {e : ShadowEntry}
    (found : s.rmap.shadowFind port (if p then some index else none) = some e) :
    shadowReadTaken port (yesNo p) index s = s.replyCommand .ok
      (le 2 port.toNat ++ [yesNo p, index] ++ [1, e.value, BitVec.ofNat 8 e.window.val]) := by
  unfold shadowReadTaken
  simp only [readFlag_eq_some_iff.mpr rfl, found]

theorem shadowReadTaken_missed {port : Half} {index : Byte} {p : Bool}
    (missed : s.rmap.shadowFind port (if p then some index else none) = none) :
    shadowReadTaken port (yesNo p) index s = s.replyCommand .ok
      (le 2 port.toNat ++ [yesNo p, index] ++ [0, 0xFF, 0xFF]) := by
  unfold shadowReadTaken
  simp only [readFlag_eq_some_iff.mpr rfl, missed]

theorem shadowClearTaken_badArg {present : Byte} (h : 1 < present.toNat) (id : Byte) :
    shadowClearTaken present id s = s.replyCommand .badArg ([0, 0] ++ le 2 s.rmap.shadow.length) := by
  unfold shadowClearTaken
  simp only [readFlag_of_bad h]
  rfl

theorem shadowClearTaken_all (id : Byte) : shadowClearTaken 0 id s =
    (s.updRmap fun m => { m with shadow := [] }).replyCommand .ok (le 2 s.rmap.shadow.length ++ [0, 0]) := by
  have flag : readFlag 0 = some false := rfl
  unfold shadowClearTaken
  simp only [flag]
  have left : (s.updRmap fun m => { m with shadow := [] }).rmap.shadow.length = 0 := rfl
  rw [State.answerShadowClear, left]
  rfl

theorem shadowClearTaken_unknown (h : 31 < id.toNat) :
    shadowClearTaken 1 id s = s.replyCommand .badArg ([0, 0] ++ le 2 s.rmap.shadow.length) := by
  have flag : readFlag 1 = some true := rfl
  unfold shadowClearTaken
  simp only [flag, readIndex_of_le h]
  rfl

theorem shadowClearTaken_free (named : id.toNat = i.val) (free : s.rmap.windows[i] = none) :
    shadowClearTaken 1 id s = s.replyCommand .noWindow ([0, 0] ++ le 2 s.rmap.shadow.length) := by
  have flag : readFlag 1 = some true := rfl
  unfold shadowClearTaken
  simp only [flag, readIndex_of_eq named, free]
  rfl

theorem shadowClearTaken_active (named : id.toNat = i.val) (active : s.rmap.windows[i] = some w) :
    shadowClearTaken 1 id s = (s.updRmap fun m => m.dropWindow i).replyCommand .ok
      (le 2 (s.rmap.entriesOf i) ++ le 2 (s.rmap.dropWindow i).shadow.length) := by
  have removed : s.rmap.shadow.length - (s.rmap.dropWindow i).shadow.length = s.rmap.entriesOf i := by
    have := entriesOf_add_kept s.rmap i
    omega
  have flag : readFlag 1 = some true := rfl
  unfold shadowClearTaken
  simp only [flag, readIndex_of_eq named, active]
  exact congrArg (fun n => (s.updRmap fun m => m.dropWindow i).replyCommand .ok
    (le 2 n ++ le 2 (s.rmap.dropWindow i).shadow.length)) removed

end Taken

theorem mapRemove_answers {s : State} (tag : Half) (id : Byte) (h : s.ready .command) :
    (31 < id.toNat → exec (.mapRemove tag id) s = .next (s.replyAtOnce ⟨0xA9, 0x13, tag, [id, 0, 0]⟩)) ∧
    ∀ i : WindowId, id.toNat = i.val →
      (s.rmap.windows[i] = none →
        exec (.mapRemove tag id) s = .next (s.replyAtOnce ⟨0xA9, 0x17, tag, [id, 0, 0]⟩)) ∧
      ∀ w, s.rmap.windows[i] = some w → exec (.mapRemove tag id) s = .next (
        { s with rmap := ⟨s.rmap.windows.set i none, (s.rmap.dropWindow i).shadow⟩
          }.replyAtOnce ⟨0xA9, 0x00, tag, [id] ++ le 2 (s.rmap.entriesOf i)⟩) := by
  rw [exec_mapRemove h]
  refine ⟨fun above => ?_, fun i named => ⟨fun free => ?_, fun w active => ?_⟩⟩
  · rw [mapRemoveTaken_unknown above]
    exact congrArg Host.Outcome.next (replyCommand_begin h.command .badArg _)
  · rw [mapRemoveTaken_free (s := s.beginRequest ..) named free]
    exact congrArg Host.Outcome.next (replyCommand_begin h.command .noWindow _)
  · rw [mapRemoveTaken_active (s := s.beginRequest ..) named active]
    exact congrArg Host.Outcome.next (replyCommand_begin
      (s := s.updRmap fun m => ⟨m.windows.set i none, (m.dropWindow i).shadow⟩) h.command .ok _)

/-- Settles O37: each request by its equation for what the id, the flag byte or the key names. -/
theorem mapAndShadowRequestsAnswer : Obligations.MapAndShadowRequestsAnswer := by
  refine ⟨fun s tag id h => ?_, fun s tag h => ?_, fun s tag port present index h => ?_, fun s tag present id h => ?_⟩
  · simpa only [dropWindow_shadow, entriesOf_eq] using mapRemove_answers tag id h
  · rw [exec_mapList h]
    refine congrArg Host.Outcome.next ((replyCommand_begin h.command .ok _).trans ?_)
    have listed (i : WindowId) : s.rmap.listed i = match s.rmap.windows[i] with
        | none => []
        | some w => windowRecord i w ++ le 2 (s.rmap.shadow.countP fun e : ShadowEntry => decide (e.window = i)) := by
      rw [Rmap.listed, entriesOf_eq]
      cases s.rmap.windows[i] <;> rfl
    rw [beginRequest_rmap, listPayload_eq, funext listed]
    rfl
  · intro key answer
    rw [exec_shadowRead h]
    have answered (status : Status) (rest : List Byte) : (s.beginRequest .command 0x2B tag).replyCommand status
        (le 2 port.toNat ++ [present, index] ++ rest) = answer status.code rest := replyCommand_begin h.command status _
    have flag (known : present = 0 ∨ present = 1) : ∃ p, present = yesNo p ∧ key = if p then some index else none :=
      known.elim (by rintro rfl; exact ⟨false, rfl, rfl⟩) (by rintro rfl; exact ⟨true, rfl, rfl⟩)
    refine ⟨fun known e listed hport hindex only => ?_, fun known missed => ?_, fun above => ?_⟩
    · obtain ⟨p, rfl, hkey⟩ := flag known
      rw [shadowReadTaken_found (hkey ▸ shadowFind_eq_some listed hport hindex only)]
      exact congrArg Host.Outcome.next (answered .ok _)
    · obtain ⟨p, rfl, hkey⟩ := flag known
      rw [shadowReadTaken_missed (hkey ▸ shadowFind_eq_none missed)]
      exact congrArg Host.Outcome.next (answered .ok _)
    · rw [shadowReadTaken_badArg above]
      exact congrArg Host.Outcome.next (answered .badArg _)
  · intro refuse
    rw [exec_shadowClear h]
    refine ⟨?_, ?_, fun i => ?_, fun i => ?_, fun above => ?_⟩
    · rintro rfl
      rw [shadowClearTaken_all]
      exact congrArg Host.Outcome.next (replyCommand_begin (s := s.updRmap fun m => { m with shadow := [] })
        h.command .ok _)
    · rintro rfl above
      rw [shadowClearTaken_unknown above]
      exact congrArg Host.Outcome.next (replyCommand_begin h.command .badArg _)
    · rintro rfl named free
      rw [shadowClearTaken_free (s := s.beginRequest ..) named free]
      exact congrArg Host.Outcome.next (replyCommand_begin h.command .noWindow _)
    · rintro rfl named active kept
      obtain ⟨w, active⟩ := Option.ne_none_iff_exists'.mp active
      rw [shadowClearTaken_active (s := s.beginRequest ..) named active, beginRequest_rmap, entriesOf_eq,
        dropWindow_shadow]
      have left : s.rmap.dropWindow i = { s.rmap with shadow := kept } :=
        congrArg (Rmap.mk s.rmap.windows) (dropWindow_shadow s.rmap i)
      refine (congrArg Host.Outcome.next (replyCommand_begin (s := s.updRmap fun m => m.dropWindow i)
        h.command .ok _)).trans ?_
      rw [State.updRmap, left]
      rfl
    · rw [shadowClearTaken_badArg above]
      exact congrArg Host.Outcome.next (replyCommand_begin h.command .badArg _)

end Sys2Proof.Machine
end

