-- ==== Sys2Proof/Proofs/Recording.lean ====
section
/-! PROOF. Recording a byte (O38): an entry moves to the newest end, joins there, or takes the oldest one's place. -/

namespace Sys2Proof.Machine

open Sys2Proof

/-- No entry of the list has the key of the entry. -/
def NewKey (list : List ShadowEntry) (e : ShadowEntry) : Prop :=
  ∀ x ∈ list, ¬ (x.port = e.port ∧ x.index = e.index)

theorem NewKey.any_eq_false {list : List ShadowEntry} {e : ShadowEntry} (h : NewKey list e) :
    (list.any fun x => x.hasKey e.port e.index) = false :=
  List.any_eq_false.mpr fun x listed key => h x listed ((hasKey_iff ..).mp key)

theorem NewKey.filter_eq {list : List ShadowEntry} {e : ShadowEntry} (h : NewKey list e) :
    (list.filter fun x => !x.hasKey e.port e.index) = list :=
  List.filter_eq_self.mpr fun x listed => by
    rw [Bool.not_eq_true', ← Bool.not_eq_true]
    exact fun key => h x listed ((hasKey_iff ..).mp key)

theorem recordShadow_moves {before after : List ShadowEntry} {old e : ShadowEntry} (port : old.port = e.port)
    (index : old.index = e.index) (others : NewKey (before ++ after) e) :
    recordShadow (before ++ old :: after) e = before ++ after ++ [e] := by
  have there : ((before ++ old :: after).any fun x => x.hasKey e.port e.index) = true :=
    (any_hasKey_iff ..).mpr ⟨old, by simp, port, index⟩
  have removed : (!old.hasKey e.port e.index) = false := by rw [(hasKey_iff ..).mpr ⟨port, index⟩, Bool.not_true]
  have kept := others.filter_eq
  rw [List.filter_append] at kept
  rw [recordShadow, if_pos there, List.filter_append, List.filter_cons, if_neg (by simp [removed]), kept]

theorem recordShadow_joins {list : List ShadowEntry} {e : ShadowEntry} (new : NewKey list e)
    (room : list.length < 256) : recordShadow list e = list ++ [e] := by
  rw [recordShadow, if_neg (by simp [new.any_eq_false])]
  exact if_pos room

theorem recordShadow_evicts {oldest : ShadowEntry} {rest : List ShadowEntry} {e : ShadowEntry}
    (new : NewKey (oldest :: rest) e) (full : (oldest :: rest).length = 256) :
    recordShadow (oldest :: rest) e = rest ++ [e] := by
  rw [recordShadow, if_neg (by simp [new.any_eq_false])]
  exact if_neg (full.symm.le.not_gt)

/-- A word of two new keys evicts the two oldest entries of a full list (R84). -/
theorem recordShadow_evicts_two {o p : ShadowEntry} {rest : List ShadowEntry} {lo hi : ShadowEntry}
    (full : (o :: p :: rest).length = 256) (newLo : NewKey (o :: p :: rest) lo) (newHi : NewKey (o :: p :: rest) hi)
    (differ : ¬ (lo.port = hi.port ∧ lo.index = hi.index)) :
    recordShadow (recordShadow (o :: p :: rest) lo) hi = rest ++ [lo, hi] := by
  have new : NewKey (p :: (rest ++ [lo])) hi := by
    intro x listed
    rcases List.mem_append.mp (List.cons_append ▸ listed : x ∈ (p :: rest) ++ [lo]) with stood | last
    · exact newHi x (List.mem_cons_of_mem o stood)
    · exact List.mem_singleton.mp last ▸ differ
  rw [recordShadow_evicts newLo full, List.cons_append, recordShadow_evicts new (by simpa using full),
    List.append_assoc, List.singleton_append]

theorem recordAll_cons (m : Rmap) (e : ShadowEntry) (es : List ShadowEntry) : m.recordAll (e :: es) =
    (if m.keeps e = true then { m with shadow := recordShadow m.shadow e } else m).recordAll es := rfl

/-- Settles O38: the list by what stands under the key, the rest by the equations of recording and of a cycle's
result. -/
theorem recordingAByte : Obligations.RecordingAByte := by
  refine ⟨fun _ _ _ _ port index others => recordShadow_moves port index others, fun _ _ new room =>
    recordShadow_joins new room, fun _ _ _ new full => recordShadow_evicts new full, fun _ _ _ _ _ full newLo newHi =>
    recordShadow_evicts_two full newLo newHi, fun m => rfl, fun m e es => ?_, fun s timedOut data u us p ps units cycles =>
    congrArg State.rmap (takeAccessResult_eq units cycles timedOut data)⟩
  rw [recordAll_cons]
  congr 1
  unfold Rmap.keeps
  cases m.windows[e.window] with
  | none => rfl
  | some w => simp only [Bool.and_eq_true]

end Sys2Proof.Machine
end

