-- ==== Sys2Proof/Proofs/Routing.lean ====
section
/-! PROOF. How a byte position is answered (O39). -/

namespace Sys2Proof.Machine

open Sys2Proof

/-! ## The window that claims an address -/

theorem lookup_eq_none {m : Rmap} {space : Space} {address : Nat}
    (h : ∀ (i : WindowId) (w : Window), m.windows[i] = some w → w.claims space address = false) :
    m.lookup space address = none := by
  refine List.findSome?_eq_none_iff.mpr fun i _ => ?_
  cases stored : m.windows[i] with
  | none => rfl
  | some w => simp [h i w stored]

theorem lookup_sound {m : Rmap} {space : Space} {address : Nat} {i : WindowId} {w : Window}
    (h : m.lookup space address = some (i, w)) : m.windows[i] = some w ∧ w.claims space address = true := by
  obtain ⟨j, -, found⟩ := List.exists_of_findSome?_eq_some h
  split at found
  case h_1 v stored =>
    obtain ⟨claims, same⟩ := Option.ite_none_right_eq_some.mp found
    cases same
    exact ⟨stored, claims⟩
  case h_2 => cases found

theorem lookup_eq_some {m : Rmap} {space : Space} {address : Nat} {i : WindowId} {w : Window}
    (stored : m.windows[i] = some w) (claims : w.claims space address = true)
    (only : ∀ (j : WindowId) (v : Window), m.windows[j] = some v → v.claims space address = true → j = i) :
    m.lookup space address = some (i, w) := by
  cases found : m.lookup space address with
  | none =>
    have unclaimed := List.findSome?_eq_none_iff.mp found i (List.mem_finRange i)
    simp [stored, claims] at unclaimed
  | some p =>
    obtain ⟨j, v⟩ := p
    obtain ⟨storedV, claimsV⟩ := lookup_sound found
    obtain rfl := only j v storedV claimsV
    rw [Option.some.inj (storedV.symm.trans stored)]

/-! ## The four answers (R73) -/

section Answers

variable {s : State} {space : Space} {address : Nat} {read : Bool} {index : Option Byte} {i : WindowId} {w : Window}

theorem routePosition_float (h : s.rmap.lookup space address = none) :
    s.routePosition space address read index = .float := by
  unfold State.routePosition
  rw [h]

theorem routePosition_notReady (h : s.rmap.lookup space address = some (i, w))
    (state : (s.slot w.slot).state ≠ .enabled) : s.routePosition space address read index = .notReady := by
  unfold State.routePosition
  rw [h]
  exact if_pos state

theorem routePosition_cycle (h : s.rmap.lookup space address = some (i, w))
    (state : (s.slot w.slot).state = .enabled) (source : ¬ (read = true ∧ w.fromShadow = true)) :
    s.routePosition space address read index = .cycle i w := by
  unfold State.routePosition
  rw [h]
  dsimp only
  rw [if_neg (not_not.mpr state), if_neg (by simpa using source)]

theorem routePosition_hit {e : ShadowEntry} (h : s.rmap.lookup space address = some (i, w))
    (state : (s.slot w.slot).state = .enabled) (source : read = true ∧ w.fromShadow = true)
    (found : s.rmap.shadowFind (BitVec.ofNat 16 address) index = some e) :
    s.routePosition space address read index = .shadow e.value true := by
  unfold State.routePosition
  rw [h]
  dsimp only
  rw [if_neg (not_not.mpr state), if_pos (by simp [source]), found]

theorem routePosition_miss (h : s.rmap.lookup space address = some (i, w))
    (state : (s.slot w.slot).state = .enabled) (source : read = true ∧ w.fromShadow = true)
    (missed : s.rmap.shadowFind (BitVec.ofNat 16 address) index = none) :
    s.routePosition space address read index = .shadow 0xFF false := by
  unfold State.routePosition
  rw [h]
  dsimp only
  rw [if_neg (not_not.mpr state), if_pos (by simp [source]), missed]

end Answers

/-- Settles O39: no window claims the address, or one alone does, and then its slot and its read source decide. -/
theorem routingAnswersInOrder : Obligations.RoutingAnswersInOrder := by
  intro s space address read index
  refine ⟨fun unclaimed => routePosition_float (lookup_eq_none unclaimed),
    fun i w stored same above below only => ?_, fun b => rfl⟩
  have claims : w.claims space address = true := (claims_iff ..).mpr ⟨same, above, below⟩
  have found : s.rmap.lookup space address = some (i, w) := lookup_eq_some stored claims only
  refine ⟨routePosition_notReady found, fun state reads source => ⟨fun e listed port index only => ?_, fun missed => ?_⟩,
    routePosition_cycle found⟩
  · exact routePosition_hit found state ⟨reads, source⟩ (shadowFind_eq_some listed port index only)
  · exact routePosition_miss found state ⟨reads, source⟩ (shadowFind_eq_none missed)

end Sys2Proof.Machine
end

