-- ==== Sys2Proof/Proofs/Units.lean ====
section
/-! PROOF. How a unit is built from the answers of its byte positions (O40). -/

namespace Sys2Proof.Machine

open Sys2Proof

/-- The next address of a space is the successor, or 0 after the last (R78). -/
theorem nextAddress_eq {space : Space} {address : Nat} (h : address < space.size) :
    nextAddress space address = if address + 1 = space.size then 0 else address + 1 := by
  unfold nextAddress
  split
  case isTrue last => rw [last, Nat.mod_self]
  case isFalse before => exact Nat.mod_eq_of_lt (by omega)

theorem isFloat_iff (a : Answer) : a.isFloat = true ↔ a = .float := by
  cases a <;> simp [Answer.isFloat]

theorem isMiss_iff (a : Answer) : a.isMiss = true ↔ ∃ b, a = .shadow b false := by
  cases a <;> simp [Answer.isMiss]

theorem record_eq (u : UnitRequest) (i : WindowId) (w : Window) (address : Nat) (value : Byte) :
    u.record i w address value =
      if u.write = true ∧ w.shadow = true then [⟨BitVec.ofNat 16 address, u.index, value, i⟩] else [] := by
  simp only [UnitRequest.record, Bool.and_eq_true]

/-! ## Mapped units (R73 to R79) -/

/-- A mapped unit with the cycles it needs, the answers of the positions looked at, and the value before any cycle. -/
def UnitRequest.unit (u : UnitRequest) (cycles : List CyclePlan) (answers : List Answer) (value : Half) : AccessUnit :=
  { read := !u.write, wide := u.wide, cycles := cycles, value := value, unmapped := answers.any Answer.isFloat,
    miss := answers.any Answer.isMiss, timedOut := false }

section Mapped

variable {s : State} {u : UnitRequest} {lo hi : Answer}

theorem routeMapped_byte (width : u.wide = false)
    (atLow : s.routePosition u.space u.address (!u.write) u.index = lo) :
    s.routeMapped u = if lo = .notReady then none
      else some (u.unit (u.byteCycle u.address (lowByte u.value) .low lo) [lo] (joinBytes lo.byte 0)) := by
  unfold State.routeMapped UnitRequest.unit
  simp only [width, atLow, Bool.not_false, if_true]

theorem routeMapped_word {i : WindowId} {w : Window} (width : u.wide = true)
    (atLow : s.routePosition u.space u.address (!u.write) u.index = .cycle i w) (even : u.address % 2 = 0)
    (wide : w.wide = true) :
    s.routeMapped u = some (u.unit [⟨w.slot, cycleKind u.space true u.write, u.address, u.value, w.cls, false, .word,
      u.record i w u.address (lowByte u.value) ++
        u.record i w (nextAddress u.space u.address) (highByte u.value)⟩] [.cycle i w] 0xFFFF) := by
  unfold State.routeMapped UnitRequest.unit
  simp only [width, atLow, even, wide, Bool.not_true, Bool.false_eq_true, if_false, and_self, if_true]

/-- A word unit in no wide window at an even address is built byte by byte (R78). -/
theorem routeMapped_split (width : u.wide = true)
    (atLow : s.routePosition u.space u.address (!u.write) u.index = lo)
    (atHigh : s.routePosition u.space (nextAddress u.space u.address) (!u.write) u.index = hi)
    (split : ¬ ∃ i w, lo = .cycle i w ∧ u.address % 2 = 0 ∧ w.wide = true) :
    s.routeMapped u = if lo = .notReady ∨ hi = .notReady then none
      else some (u.unit (u.byteCycle u.address (lowByte u.value) .low lo ++
        u.byteCycle (nextAddress u.space u.address) (highByte u.value) .high hi) [lo, hi]
        (joinBytes lo.byte hi.byte)) := by
  unfold State.routeMapped UnitRequest.unit
  simp only [width, atLow, atHigh, Bool.not_true, Bool.false_eq_true, if_false]
  cases lo with
  | float | notReady | shadow => rfl
  | cycle i w => exact if_neg fun whole => split ⟨i, w, rfl, whole⟩

end Mapped

/-! ## Slot-direct units (R80) -/

/-- One cycle of a slot-direct unit. -/
def UnitRequest.directCycle (u : UnitRequest) (i : SlotId) (address : Nat) (wide : Bool) (driven : Half)
    (part : UnitPart) : CyclePlan :=
  { slot := i, kind := cycleKind u.space wide u.write, address := address, driven := driven, cls := 3, direct := true,
    part := part, records := [] }

/-- The cycles of a slot-direct unit: its own width, but for a word at an odd address. -/
def UnitRequest.directCycles (u : UnitRequest) (i : SlotId) : List CyclePlan :=
  if u.wide = false then [u.directCycle i u.address false (joinBytes (lowByte u.value) 0) .low]
  else if u.address % 2 = 0 then [u.directCycle i u.address true u.value .word]
  else [u.directCycle i u.address false (joinBytes (lowByte u.value) 0) .low,
    u.directCycle i (nextAddress u.space u.address) false (joinBytes (highByte u.value) 0) .high]

theorem routeDirect_eq (s : State) (i : SlotId) (u : UnitRequest) : s.routeDirect i u =
    if (s.slot i).state = .enabled ∨ (s.slot i).state = .isolated then
      some { read := !u.write, wide := u.wide, cycles := u.directCycles i, value := if u.wide then 0xFFFF else 0x00FF,
             unmapped := false, miss := false, timedOut := false }
    else none := by
  unfold State.routeDirect UnitRequest.directCycles
  cases u.wide <;> rfl

theorem directCycles_direct {u : UnitRequest} {i : SlotId} {p : CyclePlan} (h : p ∈ u.directCycles i) :
    p.slot = i ∧ p.cls = 3 ∧ p.direct = true ∧ p.records = [] := by
  have one : ∀ address wide driven part, p = u.directCycle i address wide driven part →
      p.slot = i ∧ p.cls = 3 ∧ p.direct = true ∧ p.records = [] := by
    rintro _ _ _ _ rfl
    exact ⟨rfl, rfl, rfl, rfl⟩
  unfold UnitRequest.directCycles at h
  split at h
  · exact one _ _ _ _ (List.mem_singleton.mp h)
  · split at h
    · exact one _ _ _ _ (List.mem_singleton.mp h)
    · rcases List.mem_pair.mp h with first | second
      · exact one _ _ _ _ first
      · exact one _ _ _ _ second

/-- Settles O40: the mapped unit by its width and the answers of its positions, the slot-direct one by its cycles. -/
theorem unitsRouteByPosition : Obligations.UnitsRouteByPosition := by
  intro s u next lo hi wholeWord records cycleOf byte inSpace
  have atNext : nextAddress u.space u.address = next := nextAddress_eq inSpace
  have recorded (i : WindowId) (w : Window) (address : Nat) (value : Byte) :
      u.record i w address value = records i w address value := record_eq ..
  have cycled (a : Answer) (address : Nat) (value : Byte) (part : UnitPart) :
      u.byteCycle address value part a = cycleOf a address value part := by
    cases a with
    | float | notReady | shadow => rfl
    | cycle i w => rw [UnitRequest.byteCycle, recorded]
  have byteOf (a : Answer) : a.byte = byte a := by cases a <;> rfl
  have one (width : u.wide = false) := routeMapped_byte (s := s) (lo := lo) width rfl
  have split (width : u.wide = true) (parts : ¬ wholeWord) :=
    routeMapped_split (s := s) (lo := lo) (hi := hi) width rfl (by rw [atNext]) parts
  rw [byteOf, cycled] at one
  rw [atNext, byteOf, byteOf, cycled, cycled] at split
  refine ⟨fun width stops => ?_, fun width runs => ?_, ?_, fun width parts stops => ?_, fun width parts low high => ?_,
    fun i => ⟨fun off isolated => ?_, fun on => ?_⟩⟩
  · exact (one width).trans (if_pos stops)
  · refine ⟨_, (one width).trans (if_neg runs), rfl, rfl, width, rfl, ?_, ?_, rfl⟩
    · simp [UnitRequest.unit, isFloat_iff]
    · simp [UnitRequest.unit, isMiss_iff]
  · rintro width ⟨i, w, atLow, even, wide⟩
    refine ⟨i, w, atLow, (routeMapped_word width atLow even wide).trans ?_⟩
    rw [recorded, recorded, atNext, UnitRequest.unit, width]
    rfl
  · exact (split width parts).trans (if_pos stops)
  · refine ⟨_, (split width parts).trans (if_neg (not_or.mpr ⟨low, high⟩)), rfl, rfl, width, rfl, ?_, ?_, rfl⟩
    · simp [UnitRequest.unit, isFloat_iff]
    · simp [UnitRequest.unit, isMiss_iff]
  · exact (routeDirect_eq s i u).trans (if_neg (not_or.mpr ⟨off, isolated⟩))
  · refine ⟨_, (routeDirect_eq s i u).trans (if_pos on), rfl, rfl, rfl, rfl, rfl, rfl,
      fun p planned => directCycles_direct planned, ?_⟩
    unfold UnitRequest.directCycles
    rw [atNext]
    split
    · rfl
    · split <;> rfl

end Sys2Proof.Machine
end

