-- ==== Sys2Proof/Proofs/AccessChecks.lean ====
section
/-! SUPPORT. The checks of an access request (R90): its routing, its width, its count, and the clock. -/

namespace Sys2Proof.Machine

open Sys2Proof

/-! ## Fields of an access -/

/-- A routing byte that names no routing, or DIRECT with a slot byte that names no slot. -/
def BadRouting (routing slot : Byte) : Prop := 1 < routing.toNat ∨ (routing = 1 ∧ 3 < slot.toNat)

/-- A width byte that is neither 8 nor 16. -/
def BadWidth (width : Byte) : Prop := width ≠ 8 ∧ width ≠ 16

theorem readRouting_of_bad {routing slot : Byte} (h : BadRouting routing slot) : readRouting routing slot = none := by
  unfold readRouting
  rcases h with above | ⟨rfl, above⟩
  · rw [if_neg (by bv_omega), if_neg (by bv_omega)]
  · rw [readIndex_of_le above]
    rfl

theorem readRouting_of_good {routing slot : Byte} (h : ¬ BadRouting routing slot) : readRouting routing slot =
    some (if routing = 0 then none else some ⟨slot.toNat % 4, Nat.mod_lt _ (by omega)⟩) := by
  obtain ⟨known, named⟩ := not_or.mp h
  unfold readRouting
  by_cases mapped : routing = 0
  · rw [if_pos mapped, if_pos mapped]
  · have direct : routing = 1 := by bv_omega
    have below : slot.toNat < 4 := not_lt.mp (not_and.mp named direct) |> Nat.lt_succ_of_le
    have slotRead : readIndex 4 slot = some ⟨slot.toNat % 4, Nat.mod_lt _ (by omega)⟩ :=
      readIndex_of_eq (Nat.mod_eq_of_lt below).symm
    rw [if_neg mapped, if_pos direct, if_neg mapped, slotRead]
    rfl

theorem readWidth_of_bad {width : Byte} (h : BadWidth width) : readWidth width = none := by
  rw [readWidth, if_neg h.1, if_neg h.2]

theorem readWidth_of_good {width : Byte} (h : ¬ BadWidth width) : readWidth width = some (decide (width = 16)) := by
  obtain ⟨wide, rfl⟩ := exists_widthCode h
  rw [readWidth_eq_some_iff.mpr rfl]
  cases wide <;> rfl

theorem readFlag_of_good {b : Byte} (h : ¬ 1 < b.toNat) : readFlag b = some (decide (b = 1)) := by
  obtain ⟨x, rfl⟩ := exists_yesNo h
  rw [readFlag_eq_some_iff.mpr rfl]
  cases x <;> rfl

theorem widthBytes_decide (width : Byte) : widthBytes (decide (width = 16)) = if width = 16 then 2 else 1 := by
  simp only [widthBytes, decide_eq_true_eq]

/-! ## The clock check -/

section Clock

variable {s : State}

theorem clockRefusal_parked (h : s.bcu.clock = .parked ∨ (s.bcu.clock = .run ∧ s.bcu.waiting = some .park)) :
    s.clockRefusal = some .parked := by
  unfold State.clockRefusal
  rcases h with clock | ⟨clock, waiting⟩
  · rw [clock]
  · rw [clock, waiting]

theorem clockRefusal_noClock (h : s.bcu.clock = .stopped ∨ s.bcu.clock = .starting ∨ s.bcu.clock = .retuning ∨
    (s.bcu.clock = .run ∧ s.bcu.waiting = some .clockStop)) : s.clockRefusal = some .noClock := by
  unfold State.clockRefusal
  rcases h with clock | clock | clock | ⟨clock, waiting⟩
  · rw [clock]
  · rw [clock]
  · rw [clock]
  · rw [clock, waiting]

theorem clockRefusal_none (clock : s.bcu.clock = .run) (waiting : s.bcu.waiting = none) : s.clockRefusal = none := by
  unfold State.clockRefusal
  rw [clock, waiting]

theorem startAccess_refused {status : Status} (h : s.clockRefusal = some status) (a : Access) :
    s.startAccess a = s.replyCommand status (List.replicate 16 0) := by
  unfold State.startAccess
  rw [h]
  rfl

theorem startAccess_begins (h : s.clockRefusal = none) (a : Access) : s.startAccess a = (s.beginAccess a).settle := by
  unfold State.startAccess
  rw [h]

end Clock

/-! ## Requests of a single or string access -/

/-- The request of a direction and a space, with the data a write carries. -/
def stringInstr (write : Bool) (space : Space) (tag : Half) (f : AccessFields) (data : List Byte) : Instr :=
  match write, space with
  | false, .io => .ioRead tag f
  | true, .io => .ioWrite tag f data
  | false, .mem => .memRead tag f
  | true, .mem => .memWrite tag f data

/-- The kind of the request (section 10.2). -/
def stringKind (write : Bool) (space : Space) : Byte :=
  match write, space with
  | false, .io => 0x30
  | true, .io => 0x31
  | false, .mem => 0x32
  | true, .mem => 0x33

theorem exec_string {s : State} {tag : Half} {f : AccessFields} {data : List Byte} {write : Bool} {space : Space}
    (h : s.ready .command) (most : data.length ≤ 1024) (read : write = false → data = []) :
    exec (stringInstr write space tag f data) s =
      .next (stringTaken write space f data (s.beginRequest .command (stringKind write space) tag)) := by
  have fields : (accessBytes f).length = 10 := by simp [accessBytes]
  have withData : (accessBytes f ++ data).length = 10 + data.length := by rw [List.length_append, fields]
  cases write with
  | false =>
    obtain rfl := read rfl
    cases space with
    | io | mem =>
      exact congrArg Host.Outcome.next (offer_ready h rfl fields.ge fields.le (fields.le.trans (by omega)) _)
  | true =>
    cases space with
    | io | mem =>
      exact congrArg Host.Outcome.next (offer_ready h rfl (by omega) (by omega) (by omega) _)

/-- R90's BAD_ARG of a single or string access. -/
def BadAccess (space : Space) (f : AccessFields) : Prop :=
  1 < f.routing.toNat ∨ (f.routing = 1 ∧ 3 < f.slot.toNat) ∨ (f.width ≠ 8 ∧ f.width ≠ 16) ∨
    1 < f.step.toNat ∨ (space = .io ∧ 0xFFFF < f.address.toNat) ∨ (space = .mem ∧ 0xFFFFFF < f.address.toNat)

/-- The access that fields in range name. -/
def accessOf (write : Bool) (space : Space) (f : AccessFields) (data : List Byte) : StringAccess :=
  ⟨write, space, if f.routing = 0 then none else some ⟨f.slot.toNat % 4, Nat.mod_lt _ (by omega)⟩,
    f.address.toNat, decide (f.width = 16), decide (f.step = 1), f.count.toNat, data⟩

theorem badAccess_iff (space : Space) (f : AccessFields) : BadAccess space f ↔
    BadRouting f.routing f.slot ∨ BadWidth f.width ∨ 1 < f.step.toNat ∨ ¬ f.address.toNat < space.size := by
  have above : ¬ f.address.toNat < space.size ↔
      (space = .io ∧ 0xFFFF < f.address.toNat) ∨ (space = .mem ∧ 0xFFFFFF < f.address.toNat) := by
    have io : Space.io.size = 0x10000 := rfl
    have mem : Space.mem.size = 0x1000000 := rfl
    cases space with
    | io => exact ⟨fun h => .inl ⟨rfl, by omega⟩, by rintro (⟨-, h⟩ | ⟨⟨⟩, -⟩); omega⟩
    | mem => exact ⟨fun h => .inr ⟨rfl, by omega⟩, by rintro (⟨⟨⟩, -⟩ | ⟨-, h⟩); omega⟩
  rw [above, BadAccess, BadRouting, BadWidth, or_assoc]

theorem readAccessFields_of_bad {write : Bool} {space : Space} {f : AccessFields} {data : List Byte}
    (h : BadAccess space f) : readAccessFields write space f data = none := by
  simp only [readAccessFields, Option.bind_eq_bind, Option.bind_eq_none_iff]
  intro direct routed wide widthRead increment stepRead
  rcases (badAccess_iff space f).mp h with bad | bad | bad | outside
  · rw [readRouting_of_bad bad] at routed
    cases routed
  · rw [readWidth_of_bad bad] at widthRead
    cases widthRead
  · rw [readFlag_of_bad bad] at stepRead
    cases stepRead
  · exact if_neg outside

theorem readAccessFields_of_good {write : Bool} {space : Space} {f : AccessFields} {data : List Byte}
    (h : ¬ BadAccess space f) : readAccessFields write space f data = some (accessOf write space f data) := by
  simp only [badAccess_iff, not_or, not_not] at h
  obtain ⟨routing, width, step, inSpace⟩ := h
  unfold readAccessFields
  rw [readRouting_of_good routing, readWidth_of_good width, readFlag_of_good step]
  exact if_pos inSpace

/-- R90's BAD_LENGTH of a single or string access. -/
def BadLength (write : Bool) (f : AccessFields) (data : List Byte) : Prop :=
  f.count = 0 ∨ 1024 < f.count.toNat * (if f.width = 16 then 2 else 1) ∨
    (write = true ∧ data.length ≠ f.count.toNat * (if f.width = 16 then 2 else 1))

theorem StringAccess.lengthOk_iff (a : StringAccess) : a.lengthOk = true ↔ a.count ≠ 0 ∧
    a.count * widthBytes a.wide ≤ 1024 ∧ (a.write = true → a.data.length = a.count * widthBytes a.wide) := by
  have most : Config.accessBytes = 1024 := rfl
  simp only [StringAccess.lengthOk, most, Bool.and_eq_true, decide_eq_true_eq, and_assoc]
  cases a.write <;> simp

theorem lengthOk_iff (write : Bool) (space : Space) (f : AccessFields) (data : List Byte) :
    (accessOf write space f data).lengthOk = true ↔ ¬ BadLength write f data := by
  have count : f.count = 0 ↔ f.count.toNat = 0 := by bv_omega
  rw [StringAccess.lengthOk_iff, BadLength, count, not_or, not_or, not_and, not_lt, not_not]
  unfold accessOf
  rw [widthBytes_decide]

section Taken

variable {s : State} {write : Bool} {space : Space} {f : AccessFields} {data : List Byte}

theorem stringTaken_badArg (h : BadAccess space f) :
    stringTaken write space f data s = s.replyCommand .badArg (List.replicate 16 0) := by
  unfold stringTaken
  rw [readAccessFields_of_bad h]
  rfl

theorem stringTaken_badLength (h : ¬ BadAccess space f) (bad : BadLength write f data) :
    stringTaken write space f data s = s.replyCommand .badLength (List.replicate 16 0) := by
  unfold stringTaken
  rw [readAccessFields_of_good h]
  exact if_neg fun ok => (lengthOk_iff ..).mp ok bad

theorem stringTaken_passes (h : ¬ BadAccess space f) (fits : ¬ BadLength write f data) :
    stringTaken write space f data s = s.startAccess (.string (accessOf write space f data)) := by
  unfold stringTaken
  rw [readAccessFields_of_good h]
  exact if_pos ((lengthOk_iff ..).mpr fits)

end Taken

end Sys2Proof.Machine
end

