-- ==== Sys2Proof/Proofs/StringAccesses.lean ====
section
/-! PROOF. Single and string accesses (O42): how one goes on from unit to unit, what a unit done adds, and the run of an
access no window claims. -/

namespace Sys2Proof.Machine

open Sys2Proof

/-! ## Units that are done (R93) -/

theorem unitDone_eq {a : Ae} (h : ∀ p, a.command ≠ some (.poll p)) (u : AccessUnit) : a.unitDone u = { a with
    done := a.done + 1
    timedOut := if u.timedOut = true then a.timedOut + 1 else a.timedOut
    unmapped := if u.unmapped = true then a.unmapped + 1 else a.unmapped
    misses := if u.miss = true then a.misses + 1 else a.misses
    readData := if u.read = false then a.readData else if u.wide = true
      then a.readData ++ [lowByte u.value, highByte u.value] else a.readData ++ [lowByte u.value] } := by
  have counted (b : Bool) (n : Nat) : n + (if b = true then 1 else 0) = if b = true then n + 1 else n := by
    cases b <;> rfl
  unfold Ae.unitDone
  simp only [counted]
  rcases command : a.command with _ | (_ | _ | p)
  case some.poll => exact absurd command (h p)
  all_goals
    cases u.read with
    | false => rfl
    | true => cases u.wide <;> rfl

theorem unitDone_unit (e : Ae) (n : Nat) (u : AccessUnit) :
    ({ e with unit := n } : Ae).unitDone u = { e.unitDone u with unit := n } := by
  unfold Ae.unitDone
  rcases command : e.command with _ | (_ | _ | p)
  case some.poll => rfl
  all_goals cases u.read <;> rfl

theorem closeUnits_cons (a : Ae) (u : AccessUnit) (us : List AccessUnit) : closeUnits (u :: us) a =
    if u.cycles = [] then closeUnits us (a.unitDone u) else { a with units := u :: us } := by
  rw [closeUnits]
  exact if_congr List.isEmpty_iff rfl rfl

/-! ## From unit to unit (R92) -/

/-- The state with its Access Engine's record replaced. -/
def State.withAe (s : State) (e : Ae) : State := { s with ae := e }

/-- No ending reads the unit index. -/
theorem endAccess_unit (s : State) (e : Ae) (n : Nat) (status : Status) :
    (s.withAe { e with unit := n }).endAccess status = (s.withAe e).endAccess status := by
  unfold State.endAccess
  simp only [replyCommand_eq, replyStream_eq]
  cases uncancelled : e.cancelTaken <;> simp only [State.withAe, uncancelled] <;> rfl

section Run

variable {s : State} {a : StringAccess} {left : Nat} {u : AccessUnit}

theorem runString_notReady (h : s.routeUnit a.direct (a.unitRequest (a.count - (left + 1))) = none) (e : Ae) :
    runString a (left + 1) (s.withAe e) = (s.withAe e).endAccess .notReady := by
  have routed : (s.withAe e).routeUnit a.direct (a.unitRequest (a.count - (left + 1))) = none := h
  rw [runString]
  dsimp only
  rw [routed]

theorem runString_waits (h : s.routeUnit a.direct (a.unitRequest (a.count - (left + 1))) = some u)
    (cycles : u.cycles ≠ []) (e : Ae) : runString a (left + 1) (s.withAe e) =
      s.withAe { e with phase := .waiting, unit := a.count - (left + 1), units := [u] } := by
  have routed : (s.withAe e).routeUnit a.direct (a.unitRequest (a.count - (left + 1))) = some u := h
  rw [runString]
  dsimp only
  rw [routed]
  exact if_neg fun none => cycles (List.isEmpty_iff.mp none)

theorem runString_done (h : s.routeUnit a.direct (a.unitRequest (a.count - (left + 1))) = some u)
    (cycles : u.cycles = []) (e : Ae) : runString a (left + 1) (s.withAe e) =
      runString a left (s.withAe { e.unitDone u with unit := a.count - (left + 1) + 1 }) := by
  have routed : (s.withAe e).routeUnit a.direct (a.unitRequest (a.count - (left + 1))) = some u := h
  rw [runString]
  dsimp only
  rw [routed]
  exact if_pos (List.isEmpty_iff.mpr cycles)

/-- The unit index is set anew by the next unit. -/
theorem runString_unit (a : StringAccess) (left : Nat) (s : State) (e : Ae) (n : Nat) :
    runString a left (s.withAe { e with unit := n }) = runString a left (s.withAe e) := by
  cases left with
  | zero => exact endAccess_unit s e n .ok
  | succ left =>
    cases routed : s.routeUnit a.direct (a.unitRequest (a.count - (left + 1))) with
    | none => rw [runString_notReady routed, runString_notReady routed, endAccess_unit]
    | some u =>
      by_cases cycles : u.cycles = []
      · rw [runString_done routed cycles, runString_done routed cycles, unitDone_unit]
      · rw [runString_waits routed cycles, runString_waits routed cycles]

theorem accessBoundary_string (h : s.ae.command = some (.string a)) (claim : s.claimLost = false)
    (uncancelled : s.ae.cancelTaken = false) :
    s.accessBoundary = runString a (a.count - (s.ae.unit + 1)) s := by
  unfold State.accessBoundary
  rw [claim, uncancelled, h]
  rfl

theorem claimLost_eq_false (h : ∀ r, s.ml.command = some r → r.claim = true) : s.claimLost = false := by
  unfold State.claimLost
  cases busy : s.ml.command with
  | none => rfl
  | some r => simp [h r busy]

end Run

theorem accessPayload_string {s : State} {a : StringAccess} (h : s.ae.command = some (.string a)) :
    s.accessPayload = le 4 s.ae.done ++ le 4 s.ae.timedOut ++ le 4 s.ae.unmapped ++ le 4 s.ae.misses ++
      s.ae.readData := by
  unfold State.accessPayload
  rw [h]
  rfl

theorem endAccess_uncancelled {s : State} (h : s.ae.cancelTaken = false) (status : Status) :
    s.endAccess status = (s.replyCommand status s.accessPayload).updAe fun _ => {} := by
  unfold State.endAccess
  rw [h]
  rfl

/-! ## An access no window claims (R74) -/

/-- A unit whose every position is FLOAT needs no cycle, and reads as all ones of its width. -/
theorem routeMapped_float {s : State} {u : UnitRequest} (inSpace : u.address < u.space.size)
    (h : ∀ d < widthBytes u.wide, s.rmap.lookup u.space ((u.address + d) % u.space.size) = none) :
    s.routeMapped u = some ⟨!u.write, u.wide, [], allOnes u.wide, true, false, false⟩ := by
  have low : s.routePosition u.space u.address (!u.write) u.index = .float := by
    have := h 0 (by unfold widthBytes; split <;> decide)
    rw [Nat.add_zero, Nat.mod_eq_of_lt inSpace] at this
    exact routePosition_float this
  cases width : u.wide with
  | false =>
    rw [routeMapped_byte width low, UnitRequest.unit, width]
    rfl
  | true =>
    have high : s.routePosition u.space (nextAddress u.space u.address) (!u.write) u.index = .float :=
      routePosition_float (h 1 (by rw [width]; decide))
    rw [routeMapped_split width low high (by rintro ⟨i, w, ⟨⟩, -⟩), UnitRequest.unit, width]
    rfl

theorem unitAddress_lt {a : StringAccess} (h : a.address < a.space.size) (k : Nat) : a.unitAddress k < a.space.size := by
  unfold StringAccess.unitAddress
  split
  · exact Nat.mod_lt _ (by omega)
  · exact h

/-- The unit that every unit of an access becomes when no window claims an address of it. -/
def StringAccess.floatUnit (a : StringAccess) : AccessUnit :=
  ⟨!a.write, a.wide, [], allOnes a.wide, true, false, false⟩

/-- Bytes of all ones that n units read when no window claims them. -/
def StringAccess.floatBytes (a : StringAccess) (n : Nat) : List Byte :=
  if a.write then [] else List.replicate (n * widthBytes a.wide) 0xFF

theorem floatBytes_succ (a : StringAccess) (n : Nat) : a.floatBytes (n + 1) = a.floatBytes 1 ++ a.floatBytes n := by
  unfold StringAccess.floatBytes
  cases a.write with
  | true => rfl
  | false =>
    simp only [Bool.false_eq_true, if_false, List.replicate_append_replicate]
    rw [← Nat.add_mul, Nat.add_comm 1 n]

theorem unitDone_float {e : Ae} {a : StringAccess} (h : e.command = some (.string a)) : e.unitDone a.floatUnit =
    { e with done := e.done + 1, unmapped := e.unmapped + 1, readData := e.readData ++ a.floatBytes 1 } := by
  rw [unitDone_eq (by simp [h])]
  unfold StringAccess.floatUnit StringAccess.floatBytes
  cases a.write with
  | true => simp
  | false => cases a.wide <;> rfl

theorem runString_float {s : State} {a : StringAccess} (inSpace : a.address < a.space.size) (mapped : a.direct = none)
    (unclaimed : ∀ k < a.count, ∀ d < widthBytes a.wide,
      s.rmap.lookup a.space ((a.unitAddress k + d) % a.space.size) = none) (left : Nat) (most : left ≤ a.count) (e : Ae)
    (command : e.command = some (.string a)) (uncancelled : e.cancelTaken = false) :
    runString a left (s.withAe e) = (s.replyCommand .ok (le 4 (e.done + left) ++ le 4 e.timedOut ++
      le 4 (e.unmapped + left) ++ le 4 e.misses ++ (e.readData ++ a.floatBytes left))).withAe {} := by
  induction left generalizing e with
  | zero =>
    have none : a.floatBytes 0 = [] := by simp [StringAccess.floatBytes]
    rw [runString, endAccess_uncancelled uncancelled, accessPayload_string command, none, List.append_nil,
      replyCommand_eq, replyCommand_eq]
    rfl
  | succ left ih =>
    have routed : s.routeUnit a.direct (a.unitRequest (a.count - (left + 1))) = some a.floatUnit := by
      rw [mapped]
      exact routeMapped_float (unitAddress_lt inSpace _) (unclaimed _ (by omega))
    rw [runString_done routed rfl, runString_unit, unitDone_float command]
    refine (ih (by omega) { e with
      done := e.done + 1, unmapped := e.unmapped + 1, readData := e.readData ++ a.floatBytes 1 }
      command uncancelled).trans ?_
    simp only [Nat.add_assoc, Nat.add_comm 1 left, List.append_assoc, floatBytes_succ a left]

/-! ## The parts of O42 -/

theorem beginAccess_string (s : State) (a : StringAccess) : s.beginAccess (.string a) =
    runString a a.count (s.withAe { phase := .routing, command := some (.string a) }) := rfl

/-- A MAPPED access no window claims ends in the event that began it. -/
theorem beginAccess_float {s : State} {a : StringAccess} (inSpace : a.address < a.space.size) (mapped : a.direct = none)
    (unclaimed : ∀ k < a.count, ∀ d < widthBytes a.wide,
      s.rmap.lookup a.space ((a.unitAddress k + d) % a.space.size) = none) :
    s.beginAccess (.string a) = (s.replyCommand .ok (le 4 a.count ++ le 4 0 ++ le 4 a.count ++ le 4 0 ++
      a.floatBytes a.count)).withAe {} := by
  have run := runString_float inSpace mapped unclaimed a.count le_rfl { phase := .routing, command := some (.string a) }
    rfl rfl
  simp only [Nat.zero_add, List.nil_append] at run
  exact run

section Boundary

variable {s : State} {a : StringAccess}

/-- The units left at a boundary, where one is left. -/
theorem exists_left {count k : Nat} (h : k < count) : ∃ left, count - k = left + 1 ∧ count - (left + 1) = k :=
  ⟨count - k - 1, by omega, by omega⟩

theorem accessBoundary_done {u : AccessUnit} (command : s.ae.command = some (.string a)) (claim : s.claimLost = false)
    (uncancelled : s.ae.cancelTaken = false) (more : s.ae.unit + 1 < a.count)
    (routed : s.routeUnit a.direct (a.unitRequest (s.ae.unit + 1)) = some u) (cycles : u.cycles = []) :
    s.accessBoundary = (s.withAe { s.ae.unitDone u with unit := s.ae.unit + 1 }).accessBoundary := by
  obtain ⟨left, count, index⟩ := exists_left more
  obtain ⟨-, sameCommand, -, sameCancel⟩ := unitDone_keeps s.ae u
  have after := accessBoundary_string (s := s.withAe { s.ae.unitDone u with unit := s.ae.unit + 1 })
    (sameCommand.trans command) claim (sameCancel.trans uncancelled)
  have rest : a.count - (s.ae.unit + 1 + 1) = left := by omega
  calc s.accessBoundary
    _ = runString a (left + 1) (s.withAe s.ae) := count ▸ accessBoundary_string command claim uncancelled
    _ = runString a left (s.withAe { s.ae.unitDone u with unit := a.count - (left + 1) + 1 }) :=
      runString_done (by rw [index]; exact routed) cycles s.ae
    _ = runString a left (s.withAe { s.ae.unitDone u with unit := s.ae.unit + 1 }) :=
      (runString_unit ..).trans (runString_unit ..).symm
    _ = (s.withAe { s.ae.unitDone u with unit := s.ae.unit + 1 }).accessBoundary := (rest ▸ after).symm

end Boundary

section Request

variable {s : State} {tag : Half} {f : AccessFields} {data : List Byte} {write : Bool} {space : Space}

/-- A request that passes its checks begins its access, and one of a MAPPED access no window claims ends it as well. -/
theorem stringTaken_begins (h : s.ready .command) (good : ¬ BadAccess space f) (fits : ¬ BadLength write f data)
    (clock : s.bcu.clock = .run) (waiting : s.bcu.waiting = none) (kind : Byte) :
    let a := accessOf write space f data
    stringTaken write space f data (s.beginRequest .command kind tag) =
      ((s.beginRequest .command kind tag).beginAccess (.string a)).settle ∧
    (f.routing = 0 → (∀ k < a.count, ∀ d < (if f.width = 16 then 2 else 1), ∀ (i : WindowId) (w : Window),
        s.rmap.windows[i] = some w → w.claims space ((a.unitAddress k + d) % space.size) = false) →
      stringTaken write space f data (s.beginRequest .command kind tag) =
        ((s.replyAtOnce ⟨kind + 0x80, 0x00, tag, le 4 a.count ++ le 4 0 ++ le 4 a.count ++ le 4 0 ++
          a.floatBytes a.count⟩).withAe {}).settle) := by
  intro a
  have begins : stringTaken write space f data (s.beginRequest .command kind tag) =
      ((s.beginRequest .command kind tag).beginAccess (.string a)).settle := by
    rw [stringTaken_passes good fits]
    exact startAccess_begins (s := s.beginRequest ..) (clockRefusal_none clock waiting) _
  refine ⟨begins, fun mapped unclaimed => begins.trans (congrArg State.settle ?_)⟩
  obtain ⟨-, -, -, inSpace⟩ : ¬ BadRouting f.routing f.slot ∧ ¬ BadWidth f.width ∧ ¬ 1 < f.step.toNat ∧
      ¬ ¬ f.address.toNat < space.size := by simpa only [badAccess_iff, not_or] using good
  rw [beginAccess_float (s := s.beginRequest ..) (a := a) (not_not.mp inSpace) (if_pos mapped) fun k below d part =>
    lookup_eq_none (unclaimed k below d (widthBytes_decide f.width ▸ part))]
  exact congrArg (State.withAe · {}) (replyCommand_begin h.command .ok _)

theorem stringTaken_refused {status : Status} (h : s.ready .command) (good : ¬ BadAccess space f)
    (fits : ¬ BadLength write f data) (clock : s.clockRefusal = some status) (kind : Byte) :
    stringTaken write space f data (s.beginRequest .command kind tag) =
      s.replyAtOnce ⟨kind + 0x80, status.code, tag, List.replicate 16 0⟩ := by
  rw [stringTaken_passes good fits, startAccess_refused (s := s.beginRequest ..) clock]
  exact replyCommand_begin h.command status _

end Request

/-- The first unit of an access that begins is routed like any other (R92). -/
theorem beginAccess_first (s : State) (a : StringAccess) (one : 1 ≤ a.count) :
    (s.routeUnit a.direct (a.unitRequest 0) = none → s.beginAccess (.string a) =
      (s.withAe { phase := .routing, command := some (.string a) }).endAccess .notReady) ∧
    ∀ u, s.routeUnit a.direct (a.unitRequest 0) = some u → u.cycles ≠ [] → s.beginAccess (.string a) =
      s.withAe { phase := .waiting, command := some (.string a), units := [u] } := by
  obtain ⟨left, count, index⟩ := exists_left one
  have all : a.count = left + 1 := count
  rw [beginAccess_string, all]
  refine ⟨fun stops => runString_notReady (by rw [index]; exact stops) _, fun u routed cycles => ?_⟩
  rw [runString_waits (by rw [index]; exact routed) cycles, index]

/-- Settles O42: the checks by their lemmas, the run by its equations from unit to unit. -/
theorem stringAccessesBegin : Obligations.StringAccessesBegin := by
  refine ⟨?_, beginAccess_first, fun a u notPoll => unitDone_eq notPoll u,
    fun a u us => ⟨rfl, closeUnits_cons a u us⟩, fun s a command => ⟨accessPayload_string command, ?_⟩⟩
  · intro s tag f given write space data command kind refuse badArg bytes badLength a h most
    have isCommand : command = stringInstr write space tag f data := by cases write <;> cases space <;> rfl
    have isKind : kind = stringKind write space := by cases write <;> cases space <;> rfl
    have taken : exec command s = .next (stringTaken write space f data (s.beginRequest .command kind tag)) := by
      rw [isCommand, isKind]
      exact exec_string h most (by rintro rfl; rfl)
    have units : a.floatBytes a.count = if write then [] else List.replicate bytes 0xFF :=
      congrArg (fun n => if write then [] else List.replicate (f.count.toNat * n) (0xFF : Byte))
        (widthBytes_decide f.width)
    rw [taken]
    refine ⟨fun bad => ?_, fun good bad => ?_, fun good fits clock => ?_, fun good fits clock => ?_,
      fun good fits clock waiting => ?_⟩
    · rw [stringTaken_badArg bad]
      exact congrArg Host.Outcome.next (replyCommand_begin h.command .badArg _)
    · rw [stringTaken_badLength good bad]
      exact congrArg Host.Outcome.next (replyCommand_begin h.command .badLength _)
    · exact congrArg Host.Outcome.next (stringTaken_refused h good fits (clockRefusal_parked clock) kind)
    · exact congrArg Host.Outcome.next (stringTaken_refused h good fits (clockRefusal_noClock clock) kind)
    · obtain ⟨begins, ends⟩ := stringTaken_begins (tag := tag) h good fits clock waiting kind
      rw [← units]
      exact ⟨congrArg Host.Outcome.next begins, fun mapped unclaimed =>
        congrArg Host.Outcome.next (ends mapped unclaimed)⟩
  · intro claim uncancelled k
    have boundary := accessBoundary_string command (claimLost_eq_false claim) uncancelled
    refine ⟨fun last => ?_, fun more stops => ?_, fun u more routed => ⟨fun cycles => ?_, fun cycles =>
      accessBoundary_done command (claimLost_eq_false claim) uncancelled more routed cycles⟩⟩
    · rw [boundary, Nat.sub_eq_zero_of_le last]
      rfl
    · obtain ⟨left, count, index⟩ := exists_left more
      rw [boundary, count]
      exact runString_notReady (by rw [index]; exact stops) s.ae
    · obtain ⟨left, count, index⟩ := exists_left more
      rw [boundary, count]
      exact (runString_waits (by rw [index]; exact routed) cycles s.ae).trans (by rw [index]; rfl)

end Sys2Proof.Machine
end

