-- ==== Sys2Proof/Proofs/PairAccesses.lean ====
section
/-! PROOF. PAIR accesses (O43): the checks on the request, and the routing of both units before the bus is asked for. -/

namespace Sys2Proof.Machine

open Sys2Proof

/-! ## Requests of a paired access (R90) -/

/-- The request of a direction, with the data a write carries. -/
def pairInstr (write : Bool) (tag : Half) (f : PairFields) (data : List Byte) : Instr :=
  if write then .pairWrite tag f data else .pairRead tag f

/-- The kind of the request (section 10.2). -/
def pairKind (write : Bool) : Byte := if write then 0x34 else 0x35

theorem exec_pair {s : State} {tag : Half} {f : PairFields} {data : List Byte} {write : Bool} (h : s.ready .command)
    (sized : write = true → data.length = 1 ∨ data.length = 2) (read : write = false → data = []) :
    exec (pairInstr write tag f data) s =
      .next (pairTaken write f data (s.beginRequest .command (pairKind write) tag)) := by
  have fields : (pairBytes f).length = 8 := by simp [pairBytes]
  have withData : (pairBytes f ++ data).length = 8 + data.length := by rw [List.length_append, fields]
  cases write with
  | false =>
    obtain rfl := read rfl
    exact congrArg Host.Outcome.next (offer_ready h rfl fields.ge fields.le (fields.le.trans (by omega)) _)
  | true =>
    have bytes := sized rfl
    exact congrArg Host.Outcome.next (offer_ready h rfl (by omega) (by omega) (by omega) _)

/-- R90's BAD_ARG of a paired access. -/
def BadPair (f : PairFields) : Prop :=
  1 < f.routing.toNat ∨ (f.routing = 1 ∧ 3 < f.slot.toNat) ∨ (f.width ≠ 8 ∧ f.width ≠ 16)

/-- R90's BAD_LENGTH of a paired access. -/
def BadPairLength (write : Bool) (f : PairFields) (data : List Byte) : Prop :=
  write = true ∧ data.length ≠ (if f.width = 16 then 2 else 1)

/-- The paired access that fields in range name. -/
def pairOf (write : Bool) (f : PairFields) (data : List Byte) : PairAccess :=
  ⟨write, if f.routing = 0 then none else some ⟨f.slot.toNat % 4, Nat.mod_lt _ (by omega)⟩,
    f.indexPort, f.indexByte, f.dataPort, decide (f.width = 16), data⟩

theorem badPair_iff (f : PairFields) : BadPair f ↔ BadRouting f.routing f.slot ∨ BadWidth f.width := by
  rw [BadPair, BadRouting, BadWidth, or_assoc]

theorem readPairFields_of_bad {write : Bool} {f : PairFields} {data : List Byte} (h : BadPair f) :
    readPairFields write f data = none := by
  simp only [readPairFields, Option.bind_eq_bind, Option.bind_eq_none_iff]
  intro direct routed wide widthRead
  rcases (badPair_iff f).mp h with bad | bad
  · rw [readRouting_of_bad bad] at routed
    cases routed
  · rw [readWidth_of_bad bad] at widthRead
    cases widthRead

theorem readPairFields_of_good {write : Bool} {f : PairFields} {data : List Byte} (h : ¬ BadPair f) :
    readPairFields write f data = some (pairOf write f data) := by
  obtain ⟨routing, width⟩ := not_or.mp (mt (badPair_iff f).mpr h)
  unfold readPairFields
  rw [readRouting_of_good routing, readWidth_of_good width]
  rfl

theorem pairOf_lengthOk_iff (write : Bool) (f : PairFields) (data : List Byte) :
    (pairOf write f data).lengthOk = true ↔ ¬ BadPairLength write f data := by
  rw [BadPairLength, not_and, not_not, ← widthBytes_decide]
  cases write <;> simp [pairOf, PairAccess.lengthOk]

section Taken

variable {s : State} {tag : Half} {write : Bool} {f : PairFields} {data : List Byte}

theorem pairTaken_badArg (h : BadPair f) :
    pairTaken write f data s = s.replyCommand .badArg (List.replicate 16 0) := by
  unfold pairTaken
  rw [readPairFields_of_bad h]
  rfl

theorem pairTaken_badLength (h : ¬ BadPair f) (bad : BadPairLength write f data) :
    pairTaken write f data s = s.replyCommand .badLength (List.replicate 16 0) := by
  unfold pairTaken
  rw [readPairFields_of_good h]
  exact if_neg fun ok => (pairOf_lengthOk_iff ..).mp ok bad

theorem pairTaken_passes (h : ¬ BadPair f) (fits : ¬ BadPairLength write f data) :
    pairTaken write f data s = s.startAccess (.pair (pairOf write f data)) := by
  unfold pairTaken
  rw [readPairFields_of_good h]
  exact if_pos ((pairOf_lengthOk_iff ..).mpr fits)

theorem pairTaken_refused {status : Status} (h : s.ready .command) (good : ¬ BadPair f)
    (fits : ¬ BadPairLength write f data) (clock : s.clockRefusal = some status) (kind : Byte) :
    pairTaken write f data (s.beginRequest .command kind tag) =
      s.replyAtOnce ⟨kind + 0x80, status.code, tag, List.replicate 16 0⟩ := by
  rw [pairTaken_passes good fits, startAccess_refused (s := s.beginRequest ..) clock]
  exact replyCommand_begin h.command status _

theorem pairTaken_begins (good : ¬ BadPair f) (fits : ¬ BadPairLength write f data) (clock : s.bcu.clock = .run)
    (waiting : s.bcu.waiting = none) (kind : Byte) :
    pairTaken write f data (s.beginRequest .command kind tag) =
      ((s.beginRequest .command kind tag).beginAccess (.pair (pairOf write f data))).settle := by
  rw [pairTaken_passes good fits]
  exact startAccess_begins (s := s.beginRequest ..) (clockRefusal_none clock waiting) _

end Taken

/-! ## Both units (R96, R97) -/

section Run

variable {s : State} {a : PairAccess} {u v : AccessUnit}

theorem runPair_notReady (h : s.routeUnit a.direct a.indexUnit = none ∨ s.routeUnit a.direct a.dataUnit = none)
    (e : Ae) : runPair a (s.withAe e) = (s.withAe e).endAccess .notReady := by
  have routed : (s.withAe e).routeUnit a.direct a.indexUnit = none ∨
      (s.withAe e).routeUnit a.direct a.dataUnit = none := h
  unfold runPair
  rcases routed with index | data
  · rw [index]
  · rw [data]
    cases (s.withAe e).routeUnit a.direct a.indexUnit <;> rfl

/-- Both units routed: the leading ones that need no cycle are done, and what is left waits for one grant. -/
theorem runPair_routed (index : s.routeUnit a.direct a.indexUnit = some u)
    (data : s.routeUnit a.direct a.dataUnit = some v) (e : Ae) : runPair a (s.withAe e) =
      if (closeUnits [u, v] e).units = [] then (s.withAe (closeUnits [u, v] e)).endAccess .ok
      else s.withAe { closeUnits [u, v] e with phase := .waiting } := by
  have routedIndex : (s.withAe e).routeUnit a.direct a.indexUnit = some u := index
  have routedData : (s.withAe e).routeUnit a.direct a.dataUnit = some v := data
  unfold runPair
  rw [routedIndex, routedData]
  exact if_congr List.isEmpty_iff rfl rfl

theorem closeUnits_waits (h : u.cycles ≠ []) (us : List AccessUnit) (e : Ae) :
    closeUnits (u :: us) e = { e with units := u :: us } :=
  (closeUnits_cons e u us).trans (if_neg h)

theorem closeUnits_done (h : u.cycles = []) (us : List AccessUnit) (e : Ae) :
    closeUnits (u :: us) e = closeUnits us (e.unitDone u) :=
  (closeUnits_cons e u us).trans (if_pos h)

end Run

theorem beginAccess_pair (s : State) (a : PairAccess) : s.beginAccess (.pair a) =
    runPair a (s.withAe { phase := .routing, command := some (.pair a) }) := rfl

theorem accessPayload_pair {s : State} {a : PairAccess} (h : s.ae.command = some (.pair a)) :
    s.accessPayload = le 4 s.ae.done ++ le 4 s.ae.timedOut ++ le 4 s.ae.unmapped ++ le 4 s.ae.misses ++
      s.ae.readData := by
  unfold State.accessPayload
  rw [h]
  rfl

/-- The grant that carried both units is the last of the access (R97). -/
theorem accessBoundary_pair {s : State} {a : PairAccess} (h : s.ae.command = some (.pair a))
    (claim : s.claimLost = false) (uncancelled : s.ae.cancelTaken = false) : s.accessBoundary = s.endAccess .ok := by
  unfold State.accessBoundary
  rw [claim, uncancelled, h]
  rfl

/-- Settles O43: the checks by their lemmas, then the two units by which of them still need a cycle. -/
theorem pairAccessesBegin : Obligations.PairAccessesBegin := by
  refine ⟨?_, fun a => ⟨rfl, rfl⟩, fun s a command => ⟨accessPayload_pair command, fun claim uncancelled =>
    accessBoundary_pair command (claimLost_eq_false claim) uncancelled⟩, fun s a => ?_⟩
  · intro s tag f given write data command kind refuse badArg badLength a h sized
    have taken : exec command s = .next (pairTaken write f data (s.beginRequest .command kind tag)) :=
      exec_pair h sized (by rintro rfl; rfl)
    rw [taken]
    refine ⟨fun bad => ?_, fun good bad => ?_, fun good fits clock => ?_, fun good fits clock => ?_,
      fun good fits clock waiting => ?_⟩
    · rw [pairTaken_badArg bad]
      exact congrArg Host.Outcome.next (replyCommand_begin h.command .badArg _)
    · rw [pairTaken_badLength good bad]
      exact congrArg Host.Outcome.next (replyCommand_begin h.command .badLength _)
    · exact congrArg Host.Outcome.next (pairTaken_refused h good fits (clockRefusal_parked clock) kind)
    · exact congrArg Host.Outcome.next (pairTaken_refused h good fits (clockRefusal_noClock clock) kind)
    · exact congrArg Host.Outcome.next (pairTaken_begins good fits clock waiting kind)
  · intro begun
    refine ⟨fun stops => runPair_notReady stops begun, fun u v index data => ?_⟩
    rw [beginAccess_pair, runPair_routed index data]
    refine ⟨fun first => ?_, fun first second => ?_, fun first second => ?_⟩
    · rw [closeUnits_waits first]
      exact if_neg (List.cons_ne_nil u [v])
    · rw [closeUnits_done first, closeUnits_waits second]
      exact if_neg (List.cons_ne_nil v [])
    · rw [closeUnits_done first, closeUnits_done second]
      exact if_pos rfl

end Sys2Proof.Machine
end

