-- ==== Sys2Proof/Proofs/Polls.lean ====
section
/-! PROOF. POLL (O44): the checks on the request, one read and its decision, and the wait between reads. -/

namespace Sys2Proof.Machine

open Sys2Proof

/-! ## The request (R90, R99) -/

theorem exec_poll {s : State} (h : s.ready .command) (tag : Half) (f : PollFields) :
    exec (.poll tag f) s = .next (pollTaken f (s.beginRequest .command 0x36 tag)) := by
  have fields : (pollBytes f).length = 19 := by simp [pollBytes]
  exact congrArg Host.Outcome.next (offer_ready h rfl fields.ge fields.le (fields.le.trans (by omega)) _)

/-- R90's BAD_ARG of a POLL. -/
def BadPoll (f : PollFields) : Prop :=
  1 < f.routing.toNat ∨ (f.routing = 1 ∧ 3 < f.slot.toNat) ∨ 1 < f.space.toNat ∨ (f.width ≠ 8 ∧ f.width ≠ 16) ∨
    1 < f.sense.toNat ∨ (f.space = 0 ∧ 0xFFFF < f.address.toNat) ∨ (f.space = 1 ∧ 0xFFFFFF < f.address.toNat)

/-- The space a space byte in range names. -/
def spaceOf (space : Byte) : Space := if space = 0 then .io else .mem

/-- The POLL that fields in range name, its interval and timeout as taken. -/
def pollOf (f : PollFields) : PollAccess :=
  ⟨spaceOf f.space, if f.routing = 0 then none else some ⟨f.slot.toNat % 4, Nat.mod_lt _ (by omega)⟩, f.address.toNat,
    decide (f.width = 16), f.mask, f.wanted, decide (f.sense = 1),
    if 1000 < f.interval.toNat then 1000 else f.interval.toNat,
    if 1000000 < f.timeout.toNat then 1000000 else f.timeout.toNat,
    decide (1000 < f.interval.toNat ∨ 1000000 < f.timeout.toNat)⟩

theorem readSpace_of_bad {b : Byte} (h : 1 < b.toNat) : readSpace b = none := by
  unfold readSpace
  rw [if_neg (by bv_omega), if_neg (by bv_omega)]

theorem readSpace_of_good {b : Byte} (h : ¬ 1 < b.toNat) : readSpace b = some (spaceOf b) := by
  obtain ⟨space, rfl⟩ := exists_space h
  cases space <;> rfl

/-- An address outside the space that a space byte in range names. -/
theorem address_outside_iff {space : Byte} (h : ¬ 1 < space.toNat) (address : Nat) :
    ¬ address < (spaceOf space).size ↔ (space = 0 ∧ 0xFFFF < address) ∨ (space = 1 ∧ 0xFFFFFF < address) := by
  obtain ⟨space, rfl⟩ := exists_space h
  cases space with
  | io => exact ⟨fun outside => .inl ⟨rfl, not_lt.mp outside⟩, by
      rintro (⟨-, above⟩ | ⟨⟨⟩, -⟩); exact not_lt.mpr above⟩
  | mem => exact ⟨fun outside => .inr ⟨rfl, not_lt.mp outside⟩, by
      rintro (⟨⟨⟩, -⟩ | ⟨-, above⟩); exact not_lt.mpr above⟩

theorem badPoll_iff (f : PollFields) : BadPoll f ↔ BadRouting f.routing f.slot ∨ 1 < f.space.toNat ∨ BadWidth f.width ∨
    1 < f.sense.toNat ∨ ¬ f.address.toNat < (spaceOf f.space).size := by
  rw [BadPoll, BadRouting, BadWidth, or_assoc]
  by_cases unnamed : 1 < f.space.toNat
  · simp only [unnamed, true_or, or_true]
  · rw [address_outside_iff unnamed]

theorem readPollFields_of_bad {f : PollFields} (h : BadPoll f) : readPollFields f = none := by
  simp only [readPollFields, Option.bind_eq_bind, Option.bind_eq_none_iff]
  intro direct routed space spaceRead wide widthRead notEqual senseRead
  rcases (badPoll_iff f).mp h with bad | bad | bad | bad | outside
  · rw [readRouting_of_bad bad] at routed
    cases routed
  · rw [readSpace_of_bad bad] at spaceRead
    cases spaceRead
  · rw [readWidth_of_bad bad] at widthRead
    cases widthRead
  · rw [readFlag_of_bad bad] at senseRead
    cases senseRead
  · by_cases unnamed : 1 < f.space.toNat
    · rw [readSpace_of_bad unnamed] at spaceRead
      cases spaceRead
    · rw [readSpace_of_good unnamed] at spaceRead
      cases spaceRead
      exact if_neg outside

theorem readPollFields_of_good {f : PollFields} (h : ¬ BadPoll f) : readPollFields f = some (pollOf f) := by
  simp only [badPoll_iff, not_or, not_not] at h
  obtain ⟨routing, space, width, sense, inSpace⟩ := h
  unfold readPollFields pollOf
  rw [readRouting_of_good routing, readSpace_of_good space, readWidth_of_good width, readFlag_of_good sense,
    min_comm _ 1000, min_def_lt, min_comm _ 1000000, min_def_lt, Bool.decide_or]
  exact if_pos inSpace

/-! ## Refusals (R101, R190) -/

/-- The payload of a refused POLL: zero counts and flags, all ones of the width, and no elapsed time. A width that is
none has a free value in their place (log 11). -/
def pollRefusal (free : Nat) (width : Byte) : List Byte :=
  List.replicate 17 0 ++ (if width = 16 then [0xFF, 0xFF] else if width = 8 then [0xFF, 0]
    else le 2 (Config.refusedPollValue free).toNat) ++ [0, 0, 0, 0]

theorem refusePoll_eq (s : State) (width : Byte) (status : Status) : s.refusePoll width status =
    { s.replyCommand status (pollRefusal s.free width) with
      free := if width = 8 ∨ width = 16 then s.free else s.free + 1 } := by
  unfold State.refusePoll pollRefusal
  by_cases bad : BadWidth width
  · obtain ⟨narrow, wide⟩ := bad
    rw [readWidth_of_bad ⟨narrow, wide⟩, if_neg (not_or.mpr ⟨narrow, wide⟩), if_neg wide, if_neg narrow]
    rfl
  · obtain ⟨wide, rfl⟩ := exists_widthCode bad
    rw [readWidth_eq_some_iff.mpr rfl]
    cases wide <;> rfl

section Taken

variable {s : State} {tag : Half} {f : PollFields}

theorem refusePoll_begin (h : s.ready .command) (width : Byte) (status : Status) :
    (s.beginRequest .command 0x36 tag).refusePoll width status =
      { s.replyAtOnce ⟨0xB6, status.code, tag, pollRefusal s.free width⟩ with
        free := if width = 8 ∨ width = 16 then s.free else s.free + 1 } := by
  rw [refusePoll_eq, replyCommand_begin h.command]
  rfl

theorem pollTaken_badArg (h : BadPoll f) : pollTaken f s = s.refusePoll f.width .badArg := by
  unfold pollTaken
  rw [readPollFields_of_bad h]

/-- A POLL that only the clock refuses has a width, so no free value is used. -/
theorem pollTaken_refused {status : Status} (h : s.ready .command) (good : ¬ BadPoll f)
    (clock : s.clockRefusal = some status) : pollTaken f (s.beginRequest .command 0x36 tag) =
      s.replyAtOnce ⟨0xB6, status.code, tag, pollRefusal s.free f.width⟩ := by
  have width : f.width = 8 ∨ f.width = 16 := by
    by_contra none
    exact good ((badPoll_iff f).mpr (.inr (.inr (.inl (not_or.mp none)))))
  have refused : (s.beginRequest .command 0x36 tag).clockRefusal = some status := clock
  unfold pollTaken
  rw [readPollFields_of_good good]
  dsimp only
  rw [refused]
  exact (refusePoll_begin h f.width status).trans (by rw [if_pos width]; rfl)

theorem pollTaken_begins (good : ¬ BadPoll f) (clock : s.bcu.clock = .run) (waiting : s.bcu.waiting = none) :
    pollTaken f s =
      (runPoll (pollOf f) (s.withAe { phase := .routing, command := some (.poll (pollOf f)) })).settle := by
  unfold pollTaken
  rw [readPollFields_of_good good]
  dsimp only
  rw [clockRefusal_none clock waiting]
  rfl

end Taken

/-! ## One read (R99) -/

/-- The first read that is routed starts the elapsed time (R100). -/
def State.pollStarted (s : State) : State :=
  { s with ae := { s.ae with pollStart := match s.ae.pollStart with
    | some t => some t
    | none => some s.bcu.timeBase } }

theorem pollStarted_eq (s : State) :
    (s.updAe fun e => { e with pollStart := some (e.pollStart.getD s.bcu.timeBase) }) = s.pollStarted := by
  have same : some (s.ae.pollStart.getD s.bcu.timeBase) = match s.ae.pollStart with
      | some t => some t
      | none => some s.bcu.timeBase := by
    cases s.ae.pollStart <;> rfl
  exact congrArg (fun t => s.withAe { s.ae with pollStart := t }) same

section Read

variable {s : State} {a : PollAccess} {u : AccessUnit}

theorem runPoll_notReady (h : s.routeUnit a.direct a.readUnit = none) :
    runPoll a s = s.pollStarted.endAccess .notReady := by
  have routed : s.pollStarted.routeUnit a.direct a.readUnit = none := h
  unfold runPoll
  dsimp only
  rw [pollStarted_eq, routed]

theorem runPoll_waits (h : s.routeUnit a.direct a.readUnit = some u) (cycles : u.cycles ≠ []) :
    runPoll a s = s.pollStarted.withAe { s.pollStarted.ae with phase := .waiting, units := [u] } := by
  have routed : s.pollStarted.routeUnit a.direct a.readUnit = some u := h
  unfold runPoll
  dsimp only
  rw [pollStarted_eq, routed]
  exact if_neg fun none => cycles (List.isEmpty_iff.mp none)

theorem runPoll_done (h : s.routeUnit a.direct a.readUnit = some u) (cycles : u.cycles = []) :
    runPoll a s = decidePoll a (s.pollStarted.withAe (s.pollStarted.ae.unitDone u)) := by
  have routed : s.pollStarted.routeUnit a.direct a.readUnit = some u := h
  unfold runPoll
  dsimp only
  rw [pollStarted_eq, routed]
  exact if_pos (List.isEmpty_iff.mpr cycles)

end Read

/-- A read of a POLL that is done becomes its last value, and adds no read data (R99). -/
theorem unitDone_poll {a : Ae} {p : PollAccess} (h : a.command = some (.poll p)) (u : AccessUnit) :
    a.unitDone u = { a with
      done := a.done + 1
      timedOut := if u.timedOut = true then a.timedOut + 1 else a.timedOut
      unmapped := if u.unmapped = true then a.unmapped + 1 else a.unmapped
      misses := if u.miss = true then a.misses + 1 else a.misses
      lastValue := some u.value } := by
  have counted (b : Bool) (n : Nat) : n + (if b = true then 1 else 0) = if b = true then n + 1 else n := by
    cases b <;> rfl
  unfold Ae.unitDone
  simp only [counted, h]

/-! ## The decision (R100) -/

/-- The bits of a value that a POLL compares. -/
def PollAccess.masked (a : PollAccess) (v : Half) : Half := if a.wide then v &&& a.mask else v &&& a.mask &&& 0x00FF

/-- The masked value meets the sense of the POLL. -/
def PollAccess.Holds (a : PollAccess) (v : Half) : Prop :=
  if a.notEqual then a.masked v ≠ a.masked a.wanted else a.masked v = a.masked a.wanted

theorem met_iff (a : PollAccess) (v : Half) : a.met v = true ↔ a.Holds v := by
  have masks (x : Half) : x &&& (if a.wide then a.mask else a.mask &&& 0x00FF) = a.masked x := by
    unfold PollAccess.masked
    cases a.wide with
    | true => rfl
    | false => exact (BitVec.and_assoc ..).symm
  unfold PollAccess.met PollAccess.Holds
  dsimp only
  rw [masks, masks]
  cases a.notEqual <;> simp

/-- AE waits for the next read of its POLL. -/
def State.pollWaiting (s : State) : State :=
  s.withAe { s.ae with phase := .interval, units := [], decidedAt := s.bcu.timeBase }

section Decision

variable {s : State} {a : PollAccess} {v : Half} {start : Word}

theorem decidePoll_matched (read : s.ae.lastValue = some v) (holds : a.Holds v) :
    decidePoll a s = s.endAccess .matched := by
  unfold decidePoll Ae.finalValue
  rw [read]
  exact if_pos ((met_iff a v).mpr holds)

/-- Without a match the elapsed time decides. -/
theorem decidePoll_unmatched (read : s.ae.lastValue = some v) (started : s.ae.pollStart = some start)
    (fails : ¬ a.Holds v) : decidePoll a s =
      if a.timeout ≤ (s.bcu.timeBase - start).toNat then s.endAccess .timeout else s.pollWaiting := by
  unfold decidePoll Ae.finalValue State.pollElapsed
  rw [read, started]
  exact if_neg (mt (met_iff a v).mp fails)

theorem accessBoundary_poll (h : s.ae.command = some (.poll a)) (claim : s.claimLost = false)
    (uncancelled : s.ae.cancelTaken = false) : s.accessBoundary = continuePoll a s := by
  unfold State.accessBoundary
  rw [claim, uncancelled, h]
  rfl

/-- A decision that ends the access leaves nothing to go on with. -/
theorem continuePoll_ends {status : Status} (h : decidePoll a s = s.endAccess status) :
    continuePoll a s = s.endAccess status := by
  have idle : (s.endAccess status).ae = {} := (endAccess_keeps s status).2.2.1
  unfold continuePoll
  rw [h]
  dsimp only
  rw [idle]
  exact if_neg (by rintro ⟨⟨⟩, -⟩)

theorem continuePoll_waits (h : decidePoll a s = s.pollWaiting) :
    continuePoll a s = if a.interval = 0 then runPoll a s.pollWaiting else s.pollWaiting := by
  unfold continuePoll
  rw [h]
  exact if_congr (and_iff_right rfl) rfl rfl

end Decision

theorem accessPayload_poll {s : State} {a : PollAccess} (h : s.ae.command = some (.poll a)) : s.accessPayload =
    le 4 s.ae.done ++ le 4 s.ae.timedOut ++ le 4 s.ae.unmapped ++ le 4 s.ae.misses ++
    [if a.clamped then (1 : Byte) else 0] ++
    le 2 (match s.ae.lastValue with
      | some v => v.toNat
      | none => if a.wide then 0xFFFF else 0xFF) ++
    le 4 (match s.ae.pollStart with
      | some start => (s.bcu.timeBase - start).toNat
      | none => 0) := by
  have flags : replyFlags a.clamped = if a.clamped then (1 : Byte) else 0 := by cases a.clamped <;> rfl
  have final : (s.ae.finalValue a.wide).toNat = match s.ae.lastValue with
      | some v => v.toNat
      | none => if a.wide then 0xFFFF else 0xFF := by
    unfold Ae.finalValue
    cases s.ae.lastValue with
    | some v => rfl
    | none => cases a.wide <;> rfl
  have elapsed : s.pollElapsed = match s.ae.pollStart with
      | some start => (s.bcu.timeBase - start).toNat
      | none => 0 := rfl
  unfold State.accessPayload
  rw [h, ← flags, ← final, ← elapsed]
  rfl

/-! ## The wait between reads (R100) -/

theorem pollIntervalEnds_waiting {s : State} {a : PollAccess} (phase : s.ae.phase = .interval)
    (command : s.ae.command = some (.poll a)) : pollIntervalEnds s =
      if a.interval ≤ (s.bcu.timeBase - s.ae.decidedAt).toNat then (runPoll a s).settle else s := by
  unfold pollIntervalEnds
  rw [phase, command]

theorem pollIntervalEnds_elsewhere {s : State} (h : s.ae.phase ≠ .interval) : pollIntervalEnds s = s := by
  unfold pollIntervalEnds
  split
  case h_1 phase _ => exact absurd phase h
  case h_2 => rfl

/-- Settles O44: the request by its checks, a read by its routing, and the decision by the last value and the elapsed
time, at a unit boundary as after a read that needs no cycle. -/
theorem pollReadsAndWaits : Obligations.PollReadsAndWaits := by
  refine ⟨?_, ?_, ?_, fun a p u command => unitDone_poll command u, fun s a command => accessPayload_poll command,
    fun s a phase command => ?_, fun s phase => congrArg Host.Outcome.next (pollIntervalEnds_elsewhere phase)⟩
  · intro s tag f refuse badArg a h
    rw [exec_poll h]
    refine ⟨fun bad => ?_, fun good clock => ?_, fun good clock => ?_, fun good clock waiting => ?_⟩
    · rw [pollTaken_badArg bad]
      exact congrArg Host.Outcome.next (refusePoll_begin h f.width .badArg)
    · exact congrArg Host.Outcome.next (pollTaken_refused h good (clockRefusal_parked clock))
    · exact congrArg Host.Outcome.next (pollTaken_refused h good (clockRefusal_noClock clock))
    · exact congrArg Host.Outcome.next (pollTaken_begins (s := s.beginRequest ..) good clock waiting)
  · intro s a u
    exact ⟨runPoll_notReady, fun x routed => ⟨runPoll_waits routed, runPoll_done routed⟩⟩
  · intro s a v start read started masked holds
    have matched : holds → decidePoll a s = s.endAccess .matched := decidePoll_matched read
    have timedOut (fails : ¬ holds) (late : a.timeout ≤ (s.bcu.timeBase - start).toNat) :
        decidePoll a s = s.endAccess .timeout := (decidePoll_unmatched read started fails).trans (if_pos late)
    have waits (fails : ¬ holds) (early : (s.bcu.timeBase - start).toNat < a.timeout) :
        decidePoll a s = s.pollWaiting := (decidePoll_unmatched read started fails).trans (if_neg early.not_ge)
    refine ⟨matched, timedOut, waits, fun command claim uncancelled => ?_⟩
    rw [accessBoundary_poll command (claimLost_eq_false claim) uncancelled]
    exact ⟨fun met => continuePoll_ends (matched met), fun fails late => continuePoll_ends (timedOut fails late),
      fun fails early => continuePoll_waits (waits fails early)⟩
  · have ends := pollIntervalEnds_waiting phase command
    exact ⟨fun due => congrArg Host.Outcome.next (ends.trans (if_pos due)),
      fun early => congrArg Host.Outcome.next (ends.trans (if_neg early.not_ge))⟩

end Sys2Proof.Machine
end

