-- ==== Sys2Proof/Proofs/Cancels.lean ====
section
/-! PROOF. CANCEL (O45): how an access ends with and without its claim to a reply, and the target of a CANCEL. -/

namespace Sys2Proof.Machine

open Sys2Proof

/-! ## Replies with and without a claim (R176, R184) -/

section Answers

variable {m : Ml} {r : Request}

theorem answerCommand_claimed (busy : m.command = some r) (claim : r.claim = true) (status : Status)
    (payload : List Byte) : m.answerCommand status payload =
      { m with
        command := none, reserved := m.reserved - 1, replies := m.replies ++ [replyFrame r status payload] } := by
  unfold Ml.answerCommand Ml.complete
  simp only [busy, claim, if_true]

theorem answerCommand_unclaimed (busy : m.command = some r) (lost : r.claim = false) (status : Status)
    (payload : List Byte) : m.answerCommand status payload = { m with command := none } := by
  unfold Ml.answerCommand Ml.complete
  simp only [busy, lost, Bool.false_eq_true, if_false]

theorem answerStream_claimed (busy : m.stream = some r) (claim : r.claim = true) (status : Status)
    (payload : List Byte) : m.answerStream status payload =
      { m with
        stream := none, reserved := m.reserved - 1, replies := m.replies ++ [replyFrame r status payload] } := by
  unfold Ml.answerStream Ml.complete
  simp only [busy, claim, if_true]

theorem answerStream_unclaimed (lost : ∀ q, m.stream = some q → q.claim = false) (status : Status)
    (payload : List Byte) : m.answerStream status payload = { m with stream := none } := by
  unfold Ml.answerStream Ml.complete
  cases busy : m.stream with
  | none => simp only [← busy]
  | some q => simp only [lost q busy, Bool.false_eq_true, if_false]

end Answers

/-! ## The end of an access (R95, R103, R106) -/

/-- The state in which AE is IDLE again and the link has changed. -/
def State.idleWith (s : State) (m : Ml) : State := { s with ae := {}, ml := m }

section Ends

variable {s : State} {r : Request}

/-- No CANCEL waits: the access alone is answered. -/
theorem endAccess_alone (h : s.ae.cancelTaken = false) (status : Status) :
    s.endAccess status = s.idleWith (s.ml.answerCommand status s.accessPayload) := by
  rw [endAccess_uncancelled h, replyCommand_eq]
  rfl

/-- A CANCEL waits: it is answered OK behind the access (R103). -/
theorem endAccess_cancelled (h : s.ae.cancelTaken = true) (busy : s.ml.command = some r) (status : Status) :
    s.endAccess status = s.idleWith
      ((s.ml.answerCommand status s.accessPayload).answerStream .ok (le 2 r.tag.toNat)) := by
  unfold State.endAccess
  rw [h, busy, replyCommand_eq]
  dsimp only
  rw [if_pos rfl, replyStream_eq]
  rfl

theorem endAccess_claimed_alone (h : s.ae.cancelTaken = false) (busy : s.ml.command = some r) (claim : r.claim = true)
    (status : Status) : s.endAccess status = s.idleWith { s.ml with
      command := none, reserved := s.ml.reserved - 1
      replies := s.ml.replies ++ [replyFrame r status s.accessPayload] } := by
  rw [endAccess_alone h, answerCommand_claimed busy claim]

/-- Both replies stand in the order of R103: the access, then the CANCEL. -/
theorem endAccess_claimed_cancelled {q : Request} (h : s.ae.cancelTaken = true) (busy : s.ml.command = some r)
    (claim : r.claim = true) (waits : s.ml.stream = some q) (cancelClaim : q.claim = true) (status : Status) :
    s.endAccess status = s.idleWith { s.ml with
      command := none, stream := none, reserved := s.ml.reserved - 2
      replies := s.ml.replies ++ [replyFrame r status s.accessPayload, replyFrame q .ok (le 2 r.tag.toNat)] } := by
  rw [endAccess_cancelled h busy, answerCommand_claimed busy claim, answerStream_claimed (by exact waits) cancelClaim]
  dsimp only
  rw [List.append_assoc]
  rfl

/-- Without claims neither is answered (R106). -/
theorem endAccess_unclaimed (busy : s.ml.command = some r) (lost : r.claim = false)
    (cancelLost : ∀ q, s.ml.stream = some q → q.claim = false) (status : Status) :
    s.endAccess status = s.idleWith { s.ml with
      command := none, stream := if s.ae.cancelTaken = true then none else s.ml.stream } := by
  cases taken : s.ae.cancelTaken with
  | false =>
    rw [endAccess_alone taken, answerCommand_unclaimed busy lost]
    rfl
  | true =>
    rw [endAccess_cancelled taken busy, answerCommand_unclaimed busy lost, answerStream_unclaimed (by exact cancelLost)]
    rfl

/-- A command whose CANCEL was taken ends CANCELLED at its unit boundary (R103). -/
theorem accessBoundary_cancelled (claim : s.claimLost = false) (taken : s.ae.cancelTaken = true) :
    s.accessBoundary = s.endAccess .cancelled := by
  unfold State.accessBoundary
  rw [claim, taken]
  rfl

/-- A command without its claim ends at its unit boundary (R106). -/
theorem accessBoundary_claimLost (h : s.claimLost = true) : s.accessBoundary = s.endAccess .ok := by
  unfold State.accessBoundary
  rw [h]
  rfl

theorem claimLost_eq (busy : s.ml.command = some r) : s.claimLost = !r.claim := by
  unfold State.claimLost
  rw [busy]

end Ends

/-! ## CANCEL is taken (R102) -/

/-- The command in progress that a CANCEL names: it has the target tag and its claim to a reply. -/
def State.Named (s : State) (target : Half) : Prop :=
  ∃ r, s.ml.command = some r ∧ r.claim = true ∧ r.tag = target

/-- An access that a CANCEL can reach. -/
def State.Cancellable (s : State) : Prop :=
  ∃ a, s.ae.command = some a ∧ match a with
    | .string x => 1 < x.count
    | .pair _ => False
    | .poll _ => True

theorem cancellable_iff {s : State} : s.Cancellable ↔ ∃ a, s.ae.command = some a ∧ a.cancellable = true := by
  refine exists_congr fun a => and_congr_right fun _ => ?_
  cases a with
  | string x => exact decide_eq_true_iff.symm
  | pair | poll => simp [Access.cancellable]

theorem exec_cancel {s : State} (h : s.ready .stream) (tag target : Half) :
    exec (.cancel tag target) s = .next (cancelTaken target (s.beginRequest .stream 0x6B tag)) := by
  have fields : (le 2 target.toNat).length = 2 := le_length ..
  exact congrArg Host.Outcome.next (offer_ready h rfl fields.ge fields.le (fields.le.trans (by omega)) _)

section Taken

variable {s : State} {target : Half}

theorem cancelTaken_nothing (h : ¬ s.Named target) :
    cancelTaken target s = s.replyStream .nothingToCancel (le 2 target.toNat) := by
  unfold cancelTaken
  cases busy : s.ml.command with
  | none => rfl
  | some r => exact if_neg fun ⟨claim, tag⟩ => h ⟨r, busy, claim, tag⟩

theorem cancelTaken_refused (h : s.Named target) (fixed : ¬ s.Cancellable) :
    cancelTaken target s = s.replyStream .notCancellable (le 2 target.toNat) := by
  obtain ⟨r, busy, claim, tag⟩ := h
  unfold cancelTaken
  rw [busy]
  refine (if_pos ⟨claim, tag⟩).trans ?_
  cases command : s.ae.command with
  | none => rfl
  | some a => exact if_neg fun can => fixed (cancellable_iff.mpr ⟨a, command, can⟩)

/-- AE with the CANCEL of its command taken. -/
def State.cancelling (s : State) : State := s.withAe { s.ae with cancelTaken := true }

theorem cancelTaken_reaches (h : s.Named target) (can : s.Cancellable) :
    cancelTaken target s = if s.ae.phase = .running then s.cancelling else s.cancelling.endAccess .cancelled := by
  obtain ⟨r, busy, claim, tag⟩ := h
  obtain ⟨a, command, reach⟩ := cancellable_iff.mp can
  unfold cancelTaken
  rw [busy]
  refine (if_pos ⟨claim, tag⟩).trans ?_
  rw [command]
  exact if_pos reach

end Taken

/-- Outside RUNNING the access ends in the event that takes the CANCEL: the place that the CANCEL reserved is one of
the two that are filled (R103, R176). -/
theorem cancelTaken_ends {s : State} {r : Request} {tag target : Half} (busy : s.ml.command = some r)
    (claim : r.claim = true) (same : r.tag = target) (can : s.Cancellable) (phase : s.ae.phase ≠ .running) :
    cancelTaken target (s.beginRequest .stream 0x6B tag) = s.idleWith { s.ml with
      command := none, stream := none, reserved := s.ml.reserved - 1
      replies := s.ml.replies ++ [replyFrame r .cancelled s.accessPayload,
        ⟨0xEB, 0x00, tag, le 2 target.toNat⟩] } := by
  refine (cancelTaken_reaches (s := s.beginRequest .stream 0x6B tag) ⟨r, busy, claim, same⟩ can).trans
    ((if_neg phase).trans ?_)
  rw [endAccess_claimed_cancelled (s := (s.beginRequest .stream 0x6B tag).cancelling) rfl busy claim rfl rfl, same]
  rfl

/-- Settles O45: an access ends by its claims and by whether a CANCEL waits, and a CANCEL acts by what it names. -/
theorem cancelByTheCommandInProgress : Obligations.CancelByTheCommandInProgress := by
  refine ⟨fun s r busy claim taken => accessBoundary_cancelled (by rw [claimLost_eq busy, claim]; rfl) taken,
    fun s r busy lost cancelLost => ?_, ?_, ?_⟩
  · rw [accessBoundary_claimLost (by rw [claimLost_eq busy, lost]; rfl)]
    exact endAccess_unclaimed busy lost cancelLost .ok
  · intro s status r busy claim reply
    exact ⟨fun untaken => endAccess_claimed_alone untaken busy claim status,
      fun q taken waits cancelClaim => endAccess_claimed_cancelled taken busy claim waits cancelClaim status⟩
  · intro s tag target h echo named cancellable
    rw [exec_cancel h]
    refine ⟨fun unnamed => ?_, fun isNamed fixed => ?_, fun isNamed can running => ?_,
      fun r busy claim same can phase => congrArg Host.Outcome.next (cancelTaken_ends busy claim same can phase)⟩
    · rw [cancelTaken_nothing (s := s.beginRequest .stream 0x6B tag) unnamed]
      exact congrArg Host.Outcome.next (replyStream_begin h.idle .nothingToCancel echo)
    · rw [cancelTaken_refused (s := s.beginRequest .stream 0x6B tag) isNamed fixed]
      exact congrArg Host.Outcome.next (replyStream_begin h.idle .notCancellable echo)
    · rw [cancelTaken_reaches (s := s.beginRequest .stream 0x6B tag) isNamed can]
      exact congrArg Host.Outcome.next (if_pos running)

end Sys2Proof.Machine
end

