-- ==== Sys2Proof/Proofs/ChannelFigures.lean ====
section
/-! SUPPORT. One channel by itself: when its figures agree with its state and its ring, when it can go on with the
transfer on the bus, and what each operation on a channel makes of the two (R111, R118 to R121, R135, R140). -/

namespace Sys2Proof.Machine

open Sys2Proof

/-! ## The figures -/

/-- The fields of a channel that the rules on its block, its ring and its transfers read. -/
structure ChannelFigures where
  state       : ChannelState
  slot        : SlotId
  direction   : Direction
  blockLength : Nat
  remaining   : Nat
  ring        : Option Ring
  put         : Word
  take        : Word
  policy      : Policy

/-- The figures of a channel. -/
def Channel.figures (c : Channel) : ChannelFigures :=
  ⟨c.state, c.slot, c.direction, c.blockLength, c.remaining, c.ring, c.put, c.take, c.policy⟩

/-- Remaining lies where the state puts it, and the level between 0 and the size of the ring, which every channel has
that is not FREE. -/
structure Channel.Sound (c : Channel) : Prop where
  block : 1 ≤ c.blockLength ∧ c.remaining ≤ c.blockLength
  done  : c.remaining = 0 ↔ c.state = .free ∨ c.state = .ended
  free  : c.state = .free → c.ring = none ∧ c.put = 0 ∧ c.take = 0
  ring  : c.state ≠ .free → ∃ r, c.ring = some r ∧ r.code ≤ 6 ∧ r.first + 2 ^ r.code ≤ 128
  level : c.level ≤ c.ringSize

/-- The page is one of the channel's ring. -/
def Channel.owns (c : Channel) (p : PageId) : Prop :=
  ∃ r, c.ring = some r ∧ r.first ≤ p.val ∧ p.val < r.first + 2 ^ r.code

/-- The channel, with transfers of w bytes, could make the transfer on the bus and still can. -/
structure Channel.Carries (c : Channel) (w : Nat) (x : Cycle) : Prop where
  running   : c.state = .running
  kind      : x.kind ≠ .refresh
  connected : x.connected[c.slot] = true
  able      : c.able w = true
  out       : x.transfer = .real → c.direction = .out → w ≤ c.level
  into      : x.transfer = .real → c.direction = .into → w ≤ c.freeSpace

section Figures

variable {c d : Channel} {w : Nat} {x : Cycle}

theorem Channel.Sound.of_figures (h : c.Sound) (same : d.figures = c.figures) : d.Sound := by
  simp only [Channel.figures, ChannelFigures.mk.injEq] at same
  obtain ⟨state, -, -, length, remaining, ring, put, take, -⟩ := same
  have level : d.level ≤ d.ringSize := by
    unfold Channel.level Channel.ringSize
    rw [put, take, ring]
    exact h.level
  exact ⟨by rw [length, remaining]; exact h.block, by rw [remaining, state]; exact h.done,
    by rw [state, ring, put, take]; exact h.free, by rw [state, ring]; exact h.ring, level⟩

theorem Channel.Carries.of_figures (h : c.Carries w x) (same : d.figures = c.figures) : d.Carries w x := by
  simp only [Channel.figures, ChannelFigures.mk.injEq] at same
  obtain ⟨state, slot, direction, -, -, ring, put, take, policy⟩ := same
  have level : d.level = c.level := by unfold Channel.level; rw [put, take]
  have space : d.freeSpace = c.freeSpace := by unfold Channel.freeSpace Channel.ringSize; rw [level, ring]
  have able : d.able w = c.able w := by unfold Channel.able; rw [direction, level, space, policy]
  exact ⟨by rw [state]; exact h.running, h.kind, by simp only [slot]; exact h.connected, by rw [able]; exact h.able,
    by rw [direction, level]; exact h.out, by rw [direction, space]; exact h.into⟩

/-- A channel in the state holds a part of a block still to be moved (R121). -/
def ChannelState.midBlock (a : ChannelState) : Prop := a ≠ .free ∧ a ≠ .ended

/-- A channel that stays within its block may change its state (R112 to R115, R125 to R128). -/
theorem Channel.Sound.restated {a : ChannelState} (h : c.Sound) (was : c.state.midBlock) (is : a.midBlock) :
    ({ c with state := a } : Channel).Sound where
  block := h.block
  done := h.done.trans ⟨fun e => absurd e (not_or.mpr was), fun e => absurd e (not_or.mpr is)⟩
  free e := absurd e is.1
  ring _ := h.ring was.1
  level := h.level

theorem ChannelState.active.midBlock {a : ChannelState} (h : a.active) : a.midBlock := by
  rcases h with rfl | rfl <;> exact ⟨nofun, nofun⟩

/-- A RUNNING or PAUSED channel that halts stays sound (R125, R126, R128). -/
theorem Channel.Sound.halted (h : c.Sound) (active : c.state.active) (cause : HaltCause) : (c.haltWith cause).Sound :=
  (h.restated active.midBlock (a := .halted) ⟨nofun, nofun⟩).of_figures rfl

/-- A FREE channel with its power-on values is sound (R116, R133). -/
theorem Channel.sound_default : ({} : Channel).Sound where
  block := by decide
  done := by decide
  free _ := ⟨rfl, rfl, rfl⟩
  ring h := absurd rfl h
  level := by decide

/-- A RUNNING channel has a transfer of its block to make. -/
theorem Channel.Sound.remaining_pos (h : c.Sound) (running : c.state = .running) : 0 < c.remaining := by
  have notDone : c.remaining ≠ 0 := fun zero => by
    rcases h.done.mp zero with e | e <;> rw [running] at e <;> cases e
  omega

/-- CH_ARM takes a READY or ENDED channel into its block (R112). -/
theorem Channel.Sound.armed (h : c.Sound) (startable : c.state = .ready ∨ c.state = .ended) :
    ({ c with state := .running, remaining := if c.state = .ended then c.blockLength else c.remaining } :
      Channel).Sound := by
  have notFree : c.state ≠ .free := by rcases startable with e | e <;> rw [e] <;> nofun
  have length := h.block
  have left : 1 ≤ (if c.state = .ended then c.blockLength else c.remaining) ∧
      (if c.state = .ended then c.blockLength else c.remaining) ≤ c.blockLength := by
    split
    case isTrue => exact ⟨length.1, le_rfl⟩
    case isFalse ready =>
      have notDone : c.remaining ≠ 0 := fun zero => (h.done.mp zero).elim notFree ready
      omega
  exact ⟨⟨length.1, left.2⟩, ⟨fun zero => absurd zero (Nat.ne_of_gt left.1), by rintro (e | e) <;> cases e⟩, nofun,
    fun _ => h.ring notFree, h.level⟩

end Figures

/-! ## Ring arithmetic (R140) -/

section Positions

variable {c : Channel} {k : Nat}

/-- A ring holds at most 64 KiB. -/
theorem Channel.Sound.ringSize_le (h : c.Sound) : c.ringSize ≤ 65536 := by
  unfold Channel.ringSize
  cases ring : c.ring with
  | none => exact Nat.zero_le _
  | some r =>
    have notFree : c.state ≠ .free := fun e => by rw [(h.free e).1] at ring; cases ring
    obtain ⟨r', same, code, -⟩ := h.ring notFree
    obtain rfl : r = r' := Option.some.inj (ring.symm.trans same)
    have pages : 2 ^ r.code ≤ 2 ^ 6 := Nat.pow_le_pow_right (by decide) code
    show 1024 * 2 ^ r.code ≤ 65536
    omega

theorem sub_add_ofNat_toNat {put take : Word} (h : k ≤ (put - take).toNat) :
    (put - (take + BitVec.ofNat 32 k)).toNat = (put - take).toNat - k := by
  have bound := (put - take).isLt
  have small : (BitVec.ofNat 32 k).toNat = k := by rw [BitVec.toNat_ofNat, Nat.mod_eq_of_lt (by omega)]
  rw [← BitVec.sub_sub, BitVec.toNat_sub_of_le (by rw [BitVec.le_def, small]; exact h), small]

theorem add_ofNat_sub_toNat {put take : Word} (h : (put - take).toNat + k < 2 ^ 32) :
    (put + BitVec.ofNat 32 k - take).toNat = (put - take).toNat + k := by
  have small : (BitVec.ofNat 32 k).toNat = k := by rw [BitVec.toNat_ofNat, Nat.mod_eq_of_lt (by omega)]
  have moved : put + BitVec.ofNat 32 k - take = put - take + BitVec.ofNat 32 k := add_sub_right_comm ..
  rw [moved, BitVec.toNat_add_of_lt (by rw [small]; exact h), small]

/-- Bytes that leave the ring at take lower the level by as many. -/
theorem Channel.level_taken (h : k ≤ c.level) :
    ({ c with take := c.take + BitVec.ofNat 32 k } : Channel).level = c.level - k := sub_add_ofNat_toNat h

/-- Bytes that find room and join the ring at put raise the level by as many. -/
theorem Channel.Sound.level_stored (h : c.Sound) (room : k ≤ c.freeSpace) :
    ({ c with put := c.put + BitVec.ofNat 32 k } : Channel).level = c.level + k := by
  have size := h.ringSize_le
  have level := h.level
  unfold Channel.freeSpace at room
  exact add_ofNat_sub_toNat (show c.level + k < 2 ^ 32 by omega)

theorem Channel.Sound.taken (h : c.Sound) (held : k ≤ c.level) (notFree : c.state ≠ .free) :
    ({ c with take := c.take + BitVec.ofNat 32 k } : Channel).Sound where
  block := h.block
  done := h.done
  free e := absurd e notFree
  ring := h.ring
  level := by rw [level_taken held]; exact (Nat.sub_le ..).trans h.level

theorem Channel.Sound.stored (h : c.Sound) (room : k ≤ c.freeSpace) (notFree : c.state ≠ .free) :
    ({ c with put := c.put + BitVec.ofNat 32 k } : Channel).Sound where
  block := h.block
  done := h.done
  free e := absurd e notFree
  ring := h.ring
  level := by
    rw [h.level_stored room]
    have level := h.level
    unfold Channel.freeSpace at room
    show c.level + k ≤ c.ringSize
    omega

end Positions

/-! ## A transfer applied (R120, R121) -/

section Transfer

variable {c : Channel}

/-- Counting a transfer leaves everything but the state and remaining, of the figures. -/
theorem Channel.countTransfer_figures (c : Channel) : c.countTransfer.figures = { c.figures with
    state := if c.remaining - 1 = 0 ∧ c.autoReload = false then .ended else c.state
    remaining := if c.remaining - 1 = 0 ∧ c.autoReload = true then c.blockLength else c.remaining - 1 } := by
  unfold Channel.countTransfer
  dsimp only
  by_cases last : c.remaining - 1 = 0
  · cases reload : c.autoReload <;> simp [last, Channel.figures, Channel.raise]
  · simp [last, Channel.figures]

/-- A transfer of a RUNNING channel's block is counted: the block goes on, begins anew, or has ended (R121). -/
theorem Channel.Sound.counted (h : c.Sound) (running : c.state = .running) : c.countTransfer.Sound := by
  have positive := h.remaining_pos running
  have length := h.block
  have moved : ({ c with
      state := if c.remaining - 1 = 0 ∧ c.autoReload = false then .ended else c.state
      remaining := if c.remaining - 1 = 0 ∧ c.autoReload = true then c.blockLength else c.remaining - 1 } :
        Channel).Sound := by
    refine ⟨?block, ?done, ?free, fun _ => h.ring (by rw [running]; nofun), h.level⟩
    case block => dsimp only; split <;> omega
    case done =>
      dsimp only
      cases c.autoReload <;> by_cases last : c.remaining - 1 = 0 <;> simp [last, running]; omega
    case free => intro e; dsimp only at e; split at e <;> simp_all
  exact moved.of_figures c.countTransfer_figures

theorem Channel.checkMark_figures (c : Channel) : c.checkMark.figures = c.figures := by
  unfold Channel.checkMark
  split
  · split <;> split <;> rfl
  · rfl

theorem Channel.rearmMark_figures (c : Channel) : c.rearmMark.figures = c.figures := by
  unfold Channel.rearmMark
  split <;> split <;> rfl

theorem Channel.countFill_figures (c : Channel) : c.countFill.figures = c.figures := by
  unfold Channel.countFill
  dsimp only
  split <;> rfl

theorem Channel.countDrop_figures (c : Channel) : c.countDrop.figures = c.figures := by
  unfold Channel.countDrop
  dsimp only
  split <;> rfl

/-- A channel whose card has taken w bytes of a real OUT transfer (R120, R123). -/
def Channel.delivered (c : Channel) (w : Nat) (driven : Half) : Channel :=
  { c with take := c.take + BitVec.ofNat 32 w, lastDelivered := driven, underrunEpisode := false
           stallEpisode := false }

/-- A channel whose ring has w bytes of a real IN transfer (R120, R124). -/
def Channel.received (c : Channel) (w : Nat) : Channel :=
  { c with put := c.put + BitVec.ofNat 32 w, overrunEpisode := false }

section Kinds

variable {w : Nat} {driven : Half}

theorem applyTransfer_realOut (out : c.direction = .out) :
    c.applyTransfer w .real driven = (c.delivered w driven).countTransfer.checkMark := by
  unfold Channel.applyTransfer
  split <;> simp_all [Channel.delivered]

theorem applyTransfer_realIn (into : c.direction = .into) :
    c.applyTransfer w .real driven = (c.received w).countTransfer.checkMark := by
  unfold Channel.applyTransfer
  split <;> simp_all [Channel.received]

theorem applyTransfer_fill (out : c.direction = .out) :
    c.applyTransfer w .filler driven = c.countFill.countTransfer := by
  unfold Channel.applyTransfer
  split <;> simp_all

theorem applyTransfer_drop (into : c.direction = .into) :
    c.applyTransfer w .filler driven = c.countDrop.countTransfer := by
  unfold Channel.applyTransfer
  split <;> simp_all

end Kinds

/-- A transfer that its channel could make leaves the channel sound (R120, R121). -/
theorem Channel.Sound.applied {w : Nat} {x : Cycle} (h : c.Sound) (carries : c.Carries w x) (driven : Half) :
    (c.applyTransfer w x.transfer driven).Sound := by
  have running := carries.running
  have notFree : c.state ≠ .free := by rw [running]; nofun
  cases kind : x.transfer with
  | real =>
    cases direction : c.direction with
    | out =>
      have taken : (c.delivered w driven).Sound := (h.taken (carries.out kind direction) notFree).of_figures rfl
      rw [applyTransfer_realOut direction]
      exact (taken.counted running).of_figures (checkMark_figures _)
    | into =>
      have stored : (c.received w).Sound := (h.stored (carries.into kind direction) notFree).of_figures rfl
      rw [applyTransfer_realIn direction]
      exact (stored.counted running).of_figures (checkMark_figures _)
  | filler =>
    cases direction : c.direction with
    | out =>
      rw [applyTransfer_fill direction]
      exact (h.of_figures c.countFill_figures).counted (c.countFill_keeps.1.trans running)
    | into =>
      rw [applyTransfer_drop direction]
      exact (h.of_figures c.countDrop_figures).counted (c.countDrop_keeps.1.trans running)

/-- A transfer leaves the ring in its place. -/
theorem Channel.applyTransfer_ring (c : Channel) (w : Nat) (kind : TransferKind) (driven : Half) :
    (c.applyTransfer w kind driven).ring = c.ring := by
  have counted (c : Channel) : c.countTransfer.ring = c.ring := congrArg ChannelFigures.ring c.countTransfer_figures
  have marked (c : Channel) : c.checkMark.ring = c.ring := congrArg ChannelFigures.ring c.checkMark_figures
  unfold Channel.applyTransfer
  split
  · exact (marked _).trans (counted _)
  · exact (marked _).trans (counted _)
  · exact (counted _).trans (congrArg ChannelFigures.ring c.countFill_figures)
  · exact (counted _).trans (congrArg ChannelFigures.ring c.countDrop_figures)

end Transfer

end Sys2Proof.Machine
end

