-- ==== Sys2Proof/Proofs/RingPages.lean ====
section
/-! SUPPORT. Rings in the page map: which starts are usable, the first-fit search, and the pages after a ring is placed
(R136, R137). -/

namespace Sys2Proof.Machine

open Sys2Proof

theorem place_pages (m : Stm) (owner : ChanId) (start n : Nat) (p : PageId) :
    (m.place owner start n).pages[p] =
      if start ≤ p.val ∧ p.val < start + n then some owner
      else if m.pages[p] = some owner then none else m.pages[p] := by
  simp [Stm.place]

theorem usable_iff (m : Stm) (owner : ChanId) (start n : Nat) : m.usable owner start n = true ↔
    ∀ p : PageId, start ≤ p.val → p.val < start + n → m.pages[p] = none ∨ m.pages[p] = some owner := by
  simp only [Stm.usable, List.all_eq_true, List.mem_finRange, true_implies, Bool.or_eq_true, decide_eq_true_eq,
    beq_iff_eq, or_assoc]
  exact forall_congr' fun p => ⟨fun h low high => by rcases h with h | h | h <;> [omega; omega; exact h],
    fun h => by by_cases low : start ≤ p.val <;> by_cases high : p.val < start + n <;> simp_all⟩

/-- A ring of 2^code pages fits at a start: it ends within the storage, and its pages are FREE or the channel's own. -/
def Stm.fits (m : Stm) (owner : ChanId) (code start : Nat) : Prop :=
  start + 2 ^ code ≤ 128 ∧
    ∀ p : PageId, start ≤ p.val → p.val < start + 2 ^ code → m.pages[p] = none ∨ m.pages[p] = some owner

section Search

variable {m : Stm} {owner : ChanId} {code start : Nat}

theorem fits_iff (code_le : code ≤ 6) :
    m.fits owner code start ↔ start < 128 - 2 ^ code + 1 ∧ m.usable owner start (2 ^ code) = true := by
  have pages : 2 ^ code ≤ 2 ^ 6 := Nat.pow_le_pow_right (by decide) code_le
  rw [usable_iff]
  exact and_congr_left fun _ => by omega

/-- The search finds the lowest start at which the ring fits (R136). -/
theorem findRun_eq_some_iff (code_le : code ≤ 6) :
    m.findRun owner code = some start ↔ m.fits owner code start ∧ ∀ k < start, ¬ m.fits owner code k := by
  have total : Config.stagingPages = 128 := rfl
  unfold Stm.findRun
  rw [List.find?_range_eq_some, fits_iff code_le, total, List.mem_range]
  constructor
  · rintro ⟨usable, below, none⟩
    exact ⟨⟨below, usable⟩, fun k before fits => by
      have free := none k before
      rw [((fits_iff code_le).mp fits).2] at free
      cases free⟩
  · rintro ⟨⟨below, usable⟩, none⟩
    refine ⟨usable, below, fun k before => ?_⟩
    have free := none k before
    rw [fits_iff code_le] at free
    simpa using fun usable => free ⟨by omega, usable⟩

theorem findRun_eq_none (code_le : code ≤ 6) (unfit : ∀ k, ¬ m.fits owner code k) :
    m.findRun owner code = none :=
  Option.eq_none_iff_forall_ne_some.mpr fun k found => unfit k ((findRun_eq_some_iff code_le).mp found).1

end Search

end Sys2Proof.Machine
end

