-- ==== Sys2Proof/Proofs/ChannelWork.lean ====
section
/-! SUPPORT. What the shared operations make of the channels: each keeps the channels' figures, their rings in the page
map and the transfer on the bus in agreement (R111, R121, R128, R135 to R140). -/

namespace Sys2Proof.Machine

open Sys2Proof

/-- The rules on channels, by channel, by page and for the transfer on the bus. -/
theorem channelsSound_iff (s : State) : s.ChannelsSound ↔
    (∀ n, (s.chan n).Sound) ∧ (∀ n (p : PageId), s.stm.pages[p] = some n ↔ (s.chan n).owns p) ∧
    ∀ n x, s.sbc.holder = some (.channel n) → s.sbc.cycle = some x → (s.chan n).Carries (chanWidth n) x := by
  constructor
  · intro h
    exact ⟨fun n => ⟨h.block n, h.done n, h.free n, h.ring n, h.level n⟩, h.pages, fun n x holder cycle => by
      obtain ⟨running, kind, connected, able, out, into⟩ := h.inFlight n x holder cycle
      exact ⟨running, kind, connected, able, out, into⟩⟩
  · rintro ⟨sound, pages, flight⟩
    exact {
      block n := (sound n).block
      done n := (sound n).done
      free n := (sound n).free
      ring n := (sound n).ring
      level n := (sound n).level
      pages
      inFlight n x holder cycle := by
        obtain ⟨running, kind, connected, able, out, into⟩ := flight n x holder cycle
        exact ⟨running, kind, connected, able, out, into⟩ }

section Readings

variable {s : State} {n : ChanId}

theorem State.ChannelsSound.chan (h : s.ChannelsSound) (n : ChanId) : (s.chan n).Sound :=
  ((channelsSound_iff s).mp h).1 n

theorem State.ChannelsSound.carries (h : s.ChannelsSound) {x : Cycle} (holder : s.sbc.holder = some (.channel n))
    (cycle : s.sbc.cycle = some x) : (s.chan n).Carries (chanWidth n) x :=
  ((channelsSound_iff s).mp h).2.2 n x holder cycle

theorem transferring_iff : s.transferring n = true ↔ s.sbc.cycle.isSome = true ∧ s.sbc.holder = some (.channel n) := by
  simp [State.transferring]

end Readings

/-- All that the rules on channels read: the channels, the page map, the grant and the cycle on the bus. -/
def State.transferPart (s : State) : Vector Channel 6 × Vector (Option ChanId) 128 × Option Holder × Option Cycle :=
  (s.chans, s.stm.pages, s.sbc.holder, s.sbc.cycle)

theorem updBcu_transferPart (s : State) (f : Bcu → Bcu) : (s.updBcu f).transferPart = s.transferPart := rfl

/-- A new context for a channel is one that its rules allow where its old one stood: sound, with the same ring, and
going on with the transfer on the bus. -/
structure State.Turn (s : State) (n : ChanId) (d : Channel) : Prop where
  sound  : (s.chan n).Sound → d.Sound
  ring   : d.ring = (s.chan n).ring
  flight : ∀ x, s.sbc.holder = some (.channel n) → s.sbc.cycle = some x → (s.chan n).Sound →
    (s.chan n).Carries (chanWidth n) x → d.Carries (chanWidth n) x

namespace State.Turn

variable {s : State} {n : ChanId} {d : Channel}

/-- The figures stay. -/
theorem figures (same : d.figures = (s.chan n).figures) : s.Turn n d :=
  ⟨fun h => h.of_figures same, congrArg ChannelFigures.ring same, fun _ _ _ _ h => h.of_figures same⟩

/-- A channel that is not RUNNING has no transfer on the bus. -/
theorem resting (notRunning : (s.chan n).state ≠ .running) (ring : d.ring = (s.chan n).ring)
    (sound : (s.chan n).Sound → d.Sound) : s.Turn n d :=
  ⟨sound, ring, fun _ _ _ _ h => absurd h.running notRunning⟩

/-- No transfer of the channel is on the bus. -/
theorem grounded (off : s.transferring n = false) (ring : d.ring = (s.chan n).ring)
    (sound : (s.chan n).Sound → d.Sound) : s.Turn n d :=
  ⟨sound, ring, fun x holder cycle => by
    rw [transferring_iff.mpr ⟨by rw [cycle]; rfl, holder⟩] at off
    cases off⟩

end State.Turn

/-- From the first state to the second the channels stay sound. -/
def ChannelWork (s t : State) : Prop := s.ChannelsSound → t.ChannelsSound

namespace ChannelWork

variable {s t u : State}

/-! ## Work in general -/

theorem trans (h : ChannelWork s t) (k : ChannelWork t u) : ChannelWork s u := k ∘ h

theorem foldl {α : Type} {f : α → State → State} (h : ∀ a s, ChannelWork s (f a s)) :
    ∀ (l : List α) (s : State), ChannelWork s (l.foldl (fun s a => f a s) s)
  | [], _ => id
  | a :: l, s => (h a s).trans (foldl h l (f a s))

/-- Work that is made on a condition. -/
theorem ite {p : Prop} [Decidable p] (h : p → ChannelWork s t) (k : ¬ p → ChannelWork s u) :
    ChannelWork s (if p then t else u) := by
  split
  case isTrue yes => exact h yes
  case isFalse no => exact k no

/-- The channels turn to new contexts, with the page map and the bus as they were. -/
theorem turned (pages : t.stm.pages = s.stm.pages) (holder : t.sbc.holder = s.sbc.holder)
    (cycle : t.sbc.cycle = s.sbc.cycle) (turn : ∀ n, s.Turn n (t.chan n)) : ChannelWork s t := fun h => by
  obtain ⟨sound, owned, flight⟩ := (channelsSound_iff s).mp h
  refine (channelsSound_iff t).mpr ⟨fun n => (turn n).sound (sound n), fun n p => ?_, fun n x grant carried => ?_⟩
  · rw [pages, owned]
    unfold Channel.owns
    rw [(turn n).ring]
  · rw [holder] at grant
    rw [cycle] at carried
    exact (turn n).flight x grant carried (sound n) (flight n x grant carried)

theorem same (h : t.transferPart = s.transferPart) : ChannelWork s t := by
  obtain ⟨chans, pages, holder, cycle⟩ : t.chans = s.chans ∧ t.stm.pages = s.stm.pages ∧
      t.sbc.holder = s.sbc.holder ∧ t.sbc.cycle = s.sbc.cycle := by simpa [State.transferPart] using h
  exact turned pages holder cycle fun n => .figures (congrArg (fun v : Vector Channel 6 => v[n].figures) chans)

/-- Work from a state with the same channels, pages and bus. -/
theorem of_same (h : ChannelWork t u) (k : t.transferPart = s.transferPart) : ChannelWork s u := (same k).trans h

/-- One channel turns to a new context. -/
theorem modChan {n : ChanId} {f : Channel → Channel} (turn : s.Turn n (f (s.chan n))) :
    ChannelWork s (s.modChan n f) :=
  turned rfl rfl rfl fun m => by
    rw [State.modChan_chan]
    split
    case isTrue e => exact e ▸ turn
    case isFalse => exact .figures rfl

/-- The bus is given anew: a channel that holds it can make the transfer on it. -/
theorem regranted (chans : t.chans = s.chans) (pages : t.stm.pages = s.stm.pages)
    (carries : ∀ n x, t.sbc.holder = some (.channel n) → t.sbc.cycle = some x → s.ChannelsSound →
      (s.chan n).Carries (chanWidth n) x) : ChannelWork s t := fun h => by
  obtain ⟨sound, owned, -⟩ := (channelsSound_iff s).mp h
  have chan : t.chan = s.chan := by unfold State.chan; rw [chans]
  exact (channelsSound_iff t).mpr ⟨by rwa [chan], by rwa [chan, pages], fun n x grant carried =>
    chan ▸ carries n x grant carried h⟩

/-! ## Replies, inputs and notices -/

theorem answered {status : Status} {payload : List Byte} (h : ChannelWork s t) :
    ChannelWork s (t.replyCommand status payload) := h.trans (same (by simp [State.transferPart]))

theorem answeredStream {status : Status} {payload : List Byte} (h : ChannelWork s t) :
    ChannelWork s (t.replyStream status payload) := h.trans (same (by rw [replyStream_eq]; rfl))

theorem onlyInputs (h : ChannelWork s t) (k : OnlyInputs t u) : ChannelWork s u :=
  h.trans (same (by simp only [State.transferPart, k.keeps]))

/-- Admission empties notice records, and leaves the figures of every channel (R178). -/
theorem admitted (h : ChannelWork s t) : ChannelWork s t.admitOffers := by
  have takes := admitOffers_takes t
  obtain ⟨sbc, -, -, -, -, stm, -⟩ := takes.keeps
  refine h.trans (turned (by rw [stm]) (by rw [← sbc]) (by rw [← sbc]) fun n => .figures ?_)
  rw [takes.chan]
  split <;> rfl

/-! ## Rings placed and freed (R111, R137, R139) -/

/-- A channel that is not RUNNING is configured with a ring of pages that were FREE or its own. -/
theorem placed {n : ChanId} {new : Channel} {start code : Nat} (still : (s.chan n).state ≠ .running)
    (sound : new.Sound) (ring : new.ring = some ⟨start, code⟩) (fits : s.stm.fits n code start) :
    ChannelWork s ((s.updStm fun m => m.place n start (2 ^ code)).modChan n fun _ => new) := fun h => by
  obtain ⟨each, owned, flight⟩ := (channelsSound_iff s).mp h
  have chan : ∀ m, ((s.updStm fun m => m.place n start (2 ^ code)).modChan n fun _ => new).chan m =
      if n = m then new else s.chan m := fun m => by
    rw [State.modChan_chan, State.updStm_chan]
  refine (channelsSound_iff _).mpr ⟨fun m => ?_, fun m p => ?_, fun m x holder cycle => ?_⟩
  · rw [chan]
    split
    · exact sound
    · exact each m
  · rw [chan, State.modChan_stm, State.updStm_stm, place_pages]
    have free := fits.2 p
    by_cases own : n = m
    · subst own
      have owns : new.owns p ↔ start ≤ p.val ∧ p.val < start + 2 ^ code := by simp [Channel.owns, ring]
      rw [if_pos rfl, owns]
      split
      · simp_all
      · split <;> simp_all
    · rw [if_neg own, ← owned]
      split
      · rcases free (by omega) (by omega) with e | e <;> simp [e, own]
      · split
        case isTrue e => simp [e, own]
        case isFalse => rfl
  · have other : n ≠ m := fun e => still (e ▸ (flight m x holder cycle).running)
    rw [chan, if_neg other]
    exact flight m x holder cycle

/-- A channel without a transfer on the bus is released, and its pages with it (R116, R139). -/
theorem released {n : ChanId} (off : s.transferring n = false) : ChannelWork s (s.releaseChannel n) := fun h => by
  obtain ⟨each, owned, flight⟩ := (channelsSound_iff s).mp h
  have holding := releaseChannel_holding s n
  have chan : ∀ m, (s.releaseChannel n).chan m = if n = m then {} else s.chan m := fun m =>
    (congrArg Prod.fst (holding m)).trans (apply_ite Prod.fst ..)
  have owns : ∀ m (p : PageId), (s.releaseChannel n).stm.pages[p] = some m ↔
      ¬ n = m ∧ s.stm.pages[p] = some m := fun m p => by
    have page := congrFun (congrArg Prod.snd (holding m)) p
    refine (iff_of_eq page).trans ?_
    by_cases own : n = m <;> simp [own, State.holding]
  refine (channelsSound_iff _).mpr ⟨fun m => ?_, fun m p => ?_, fun m x holder cycle => ?_⟩
  · rw [chan]
    split
    · exact Channel.sound_default
    · exact each m
  · rw [owns, chan, owned]
    split
    case isTrue own => simp [own, Channel.owns]
    case isFalse other => simp [other]
  · have other : ¬ n = m := by
      rintro rfl
      have on : s.transferring n = true := transferring_iff.mpr ⟨Option.isSome_iff_exists.mpr ⟨x, cycle⟩, holder⟩
      rw [off] at on
      cases on
    rw [chan, if_neg other]
    exact flight m x holder cycle

/-! ## Channels -/

/-- An asking channel that halts for lack of room has no transfer on the bus: it is not able (R118, R125). -/
theorem serveChannel (s : State) (n : ChanId) : ChannelWork s (s.serveChannel n) := by
  rw [serveChannel_eq]
  refine modChan ?_
  unfold Channel.served
  split
  · exact .figures rfl
  · split
    case isTrue overruns =>
      obtain ⟨⟨running, -⟩, into, full, policy⟩ := overruns
      refine ⟨fun h => h.halted (.inl running) _, rfl, fun _ _ _ _ carries => ?_⟩
      have able := carries.able
      simp [Channel.able, into, policy, Nat.not_le.mpr full] at able
    case isFalse => exact .figures rfl

theorem answeredChannel {n : ChanId} (h : ChannelWork s t) : ChannelWork s (t.answerChannel n) :=
  h.trans (same (by simp only [State.transferPart, answerChannel_keeps]))

/-- A waiting release or pause is made while no transfer of its channel is on the bus (R113, R116). -/
theorem chanBoundary (s : State) (n : ChanId) : ChannelWork s (s.chanBoundary n) := by
  unfold State.chanBoundary
  split
  · exact id
  case isFalse off =>
    have off : s.transferring n = false := by simpa using off
    refine ite (fun _ => (released off).answeredChannel) fun _ => ite (fun _ => answeredChannel (modChan ?_)) fun _ => id
    refine .grounded off rfl fun h => ?_
    by_cases running : (s.chan n).state = .running
    · simp only [running, if_true]
      exact (h.restated (a := .paused) (by rw [running]; exact ⟨nofun, nofun⟩) ⟨nofun, nofun⟩).of_figures rfl
    · simp only [running, if_false]
      exact h.of_figures rfl

theorem chanBoundaries (s : State) : ChannelWork s s.chanBoundaries := foldl (fun n s => chanBoundary s n) _ s

theorem serveChannels (s : State) : ChannelWork s s.serveChannels := foldl (fun n s => serveChannel s n) _ s

/-! ## Slots -/

/-- A slot that leaves ENABLED halts its channels; none of them has a transfer on the bus where no cycle connects the
slot (R128). -/
theorem entered {i : SlotId} {new : SlotState} (h : ChannelWork s t)
    (apart : t.connects i = false ∨ (t.slot i).state ≠ .enabled ∨ new = .enabled) :
    ChannelWork s (t.enterState i new) := by
  obtain ⟨-, sbc, -, -, -, stm, -⟩ := (OnlySlotWork.enterState t i new).keeps
  refine h.trans (turned (by rw [stm]) (by rw [sbc]) (by rw [sbc]) fun n => ?_)
  rw [enterState_chan]
  split
  case isTrue halts =>
    obtain ⟨leaves, onSlot, active⟩ := halts
    refine ⟨fun h => h.halted active _, rfl, fun x _ cycle _ carries => ?_⟩
    have open_ : t.connects i = false := apart.resolve_right (by tauto)
    have joined := carries.connected
    simp only [onSlot] at joined
    simp [State.connects, cycle, joined] at open_
  case isFalse => exact .figures rfl

theorem answeredSlot {i : SlotId} {status : Status} (h : ChannelWork s t) : ChannelWork s (t.answerSlot i status) := by
  rw [answerSlot_only]
  exact h.trans (same rfl)

theorem makeChange (i : SlotId) (change : SlotChange) (open_ : s.connects i = false) :
    ChannelWork s (s.makeChange i change) := by
  have left (new : SlotState) : ChannelWork s ((s.modSlot i fun t => { t with waiting := none }).enterState i new) :=
    entered (same rfl) (.inl open_)
  cases change with
  | powerOff | isolate => exact (left _).answeredSlot
  | slotReset width => exact (left _).trans (same rfl)

theorem slotBoundaries (s : State) : ChannelWork s s.slotBoundaries :=
  foldl (fun i s => by
    unfold State.slotBoundary
    split
    · exact ite (fun _ => id) fun open_ => makeChange i _ (by simpa using open_)
    · exact id) _ s

/-! ## The clock, accesses and grants -/

theorem clockBoundary (s : State) : ChannelWork s s.clockBoundary := by
  unfold State.clockBoundary
  split
  · exact id
  · split
    · exact ite (fun _ => same rfl) fun _ => id
    case h_2 w _ _ =>
      have halted := onlyInputs (s := s) (t := s.updBcu fun b => { b with
        clock := if w = .park then .parked else .stopped, waiting := none }) (same rfl) (.suspendSampling _)
      exact ite (fun _ => halted) fun _ => answered (halted.trans (same (updBcu_transferPart ..)))
    · exact id

theorem freed (h : ChannelWork s t) : ChannelWork s t.freeBus := h.trans (regranted rfl rfl nofun)

theorem ended {status : Status} (h : ChannelWork s t) : ChannelWork s (t.endAccess status) :=
  h.trans (same (by simp only [State.transferPart, endAccess_keeps]))

/-- A channel whose request stands is given a transfer that it can make (R118, R119). -/
theorem beginTransfer {n : ChanId} (asks : s.chanRequests n = true) : ChannelWork s (s.beginTransfer n) := by
  obtain ⟨running, -, -, able⟩ := (chanRequests_iff s n).mp asks
  rcases next : s.nextTransfer n with ⟨kind, driven⟩
  rw [beginTransfer_eq rfl next]
  refine regranted rfl rfl fun m x holder cycle _ => ?_
  cases holder
  cases cycle
  refine ⟨running, ?kind, ?connected, able, fun real out => ?out, fun real into => ?into⟩
  case kind => dsimp only; split <;> nofun
  case connected => simp [onlySlot]
  case out =>
    by_contra short
    rw [nextTransfer_out_filler out short] at next
    cases next
    cases real
  case into =>
    by_contra full
    rw [nextTransfer_into into, if_neg full] at next
    cases next
    cases real

theorem beginAccessCycle (s : State) : ChannelWork s s.beginAccessCycle := by
  obtain e | ⟨u, p, -, -, -, e⟩ | ⟨p, e⟩ := beginAccessCycle_cases s
  · exact e ▸ freed id
  · exact e ▸ regranted rfl rfl nofun
  · exact e ▸ ended ((freed id).trans (same rfl))

theorem arbitrate (s : State) : ChannelWork s s.arbitrate := by
  unfold State.arbitrate
  refine ite (fun _ => ?_) fun _ => id
  split
  case h_1 => exact id
  case h_2 => exact regranted rfl rfl nofun
  case h_3 n first => exact beginTransfer (firstRequest_channel first)
  case h_4 => exact beginAccessCycle s

/-- The follow-on work of an event (log 14). -/
theorem settled (h : ChannelWork s t) : ChannelWork s t.settle :=
  admitted (h.trans (((chanBoundaries t).trans (slotBoundaries _)).trans
    (((serveChannels _).trans (clockBoundary _)).trans (arbitrate _))))

/-! ## Cycles end -/

/-- A transfer that ends DONE is applied to a channel that could make it, and off the bus then (R27, R120). -/
theorem applyTransfer {n : ChanId} {x : Cycle} (off : s.transferring n = false)
    (carries : (s.chan n).Carries (chanWidth n) x) (data : Half) :
    ChannelWork s (s.applyTransfer n x.transfer x.driven data) := by
  unfold State.applyTransfer
  dsimp only
  split
  case h_1 =>
    refine of_same (t := s.updStm fun m => { m with
      bytes := storeRing (s.chan n) (s.chan n).put (transferBytes n data) m.bytes }) (modChan ?_) rfl
    exact .grounded off (Channel.applyTransfer_ring ..) fun h => h.applied carries _
  case h_2 => exact modChan (.grounded off (Channel.applyTransfer_ring ..) fun h => h.applied carries _)

/-- The requester takes the result of the cycle that was on the bus (R27). -/
theorem takeResult {x : Cycle} (landed : s.sbc.cycle = none)
    (carries : ∀ n, s.sbc.holder = some (.channel n) → (s.chan n).Carries (chanWidth n) x) (timedOut : Bool)
    (data : Half) : ChannelWork s (s.takeResult x timedOut data) := by
  have off (t : State) (h : t.sbc.cycle = none) (n : ChanId) : t.transferring n = false := by
    simp [State.transferring, h]
  unfold State.takeResult
  split
  case h_1 => exact same rfl
  case h_2 n holder =>
    have carries := carries n holder
    refine ite (fun _ => ?_) fun _ => ?_
    · refine of_same (t := s.updSbc fun b => { b with burst := b.burst + 1 }) (modChan ?_) rfl
      exact .grounded (off _ landed n) rfl fun h => h.halted (.inl carries.running) _
    · exact of_same ((applyTransfer (s := s.updSbc fun b => { b with burst := b.burst + 1 }) (off _ landed n) carries
        data).trans (serveChannel _ n)) rfl
  case h_3 =>
    unfold State.takeAccessResult
    split
    · split
      · exact same rfl
      · exact id
    · exact id
  case h_4 => exact id

theorem runString (a : StringAccess) (left : Nat) (s : State) : ChannelWork s (Machine.runString a left s) := by
  induction left generalizing s with
  | zero => exact ended id
  | succ left ih =>
    unfold Machine.runString
    dsimp only
    split
    · exact ended id
    · exact ite (fun _ => (ih _).of_same rfl) fun _ => same rfl

theorem runPair (a : PairAccess) (s : State) : ChannelWork s (Machine.runPair a s) := by
  unfold Machine.runPair
  split
  · exact ite (fun _ => ended (same rfl)) fun _ => same rfl
  · exact ended id

theorem decidePoll (a : PollAccess) (h : ChannelWork s t) : ChannelWork s (Machine.decidePoll a t) := by
  unfold Machine.decidePoll
  exact ite (fun _ => h.ended) fun _ => ite (fun _ => h.ended) fun _ => h.trans (same rfl)

theorem runPoll (a : PollAccess) (s : State) : ChannelWork s (Machine.runPoll a s) := by
  unfold Machine.runPoll
  dsimp only
  split
  · exact ended (same rfl)
  · exact ite (fun _ => decidePoll a (same rfl)) fun _ => same rfl

theorem beginAccess (s : State) (a : Access) : ChannelWork s (s.beginAccess a) := by
  have begun : ChannelWork s (s.updAe fun _ => { phase := .routing, command := some a }) := same rfl
  cases a with
  | string x => exact begun.trans (runString x x.count _)
  | pair x => exact begun.trans (runPair x _)
  | poll x => exact begun.trans (runPoll x _)

theorem accessBoundary (s : State) : ChannelWork s s.accessBoundary := by
  unfold State.accessBoundary
  refine ite (fun _ => ended id) fun _ => ite (fun _ => ended id) fun _ => ?_
  split
  · exact runString _ _ s
  · exact ended id
  case h_3 x _ =>
    have decided : ChannelWork s (Machine.decidePoll x s) := decidePoll x id
    exact ite (fun _ => decided.trans (runPoll _ _)) fun _ => decided
  · exact id

theorem continueGrant (s : State) : ChannelWork s s.continueGrant := by
  unfold State.continueGrant
  split
  case h_1 n _ =>
    exact ite (fun goesOn => beginTransfer ((burstContinues_iff s n).mp goesOn).2.2.1) fun _ => freed id
  case h_2 => exact ite (fun _ => (freed id).trans (accessBoundary _)) fun _ => beginAccessCycle s
  case h_3 => exact freed id

/-- The cycle on the bus ends, and what follows is done (R27, R50, R113). -/
theorem finishCycle {x : Cycle} (flight : s.sbc.cycle = some x) (timedOut : Bool) (data : Half) (length : Nat) :
    ChannelWork s (s.finishCycle x timedOut data length) := by
  intro sound
  let t := s.handed (endResult x timedOut data length)
  have handed : ChannelWork s t := regranted rfl rfl nofun
  have taken : ChannelWork t (t.takeResult x timedOut data) :=
    takeResult (s := t) rfl (fun n holder => sound.carries (s := s) holder flight) timedOut data
  exact settled (((taken.trans (chanBoundaries _)).trans (slotBoundaries _)).trans (continueGrant _)) (handed sound)

/-! ## Trips -/

/-- The cycle that connects a tripping slot is cut; a refresh, which no channel holds, goes on without it (R26). -/
theorem cutCycle (s : State) (i : SlotId) : ChannelWork s (s.cutCycle i) := by
  unfold State.cutCycle
  split
  · exact id
  case h_2 x flight =>
    refine ite (fun _ => ?_) fun _ => id
    have recorded : ChannelWork s (s.recordFault i .slotLost x) := same rfl
    refine ite (fun refresh => ?_) fun _ => ?_
    · refine regranted rfl rfl fun n _ holder _ sound => ?_
      exact absurd refresh (sound.carries holder flight).kind
    · have cut := (recorded.freed).trans (same (t := { (s.recordFault i .slotLost x).freeBus.handResult
        ⟨.cut, (s.recordFault i .slotLost x).resultData x.kind 0xFFFF, some i,
          Config.cutLength (s.recordFault i .slotLost x).free⟩ with
        free := (s.recordFault i .slotLost x).free + 1 }) rfl)
      exact ite (fun _ => cut.ended) fun _ => cut

theorem tripped {i : SlotId} {kind : TripKind} {reading : Nat} (h : ChannelWork s t) :
    ChannelWork s (t.trip i kind reading) := by
  unfold State.trip
  dsimp only
  have faulted : ChannelWork s ((t.cutCycle i).enterState i .fault) :=
    entered (h.trans (cutCycle t i)) (.inl (Moves.cutCycle_connects t i))
  refine ite (fun _ => answeredSlot (entered (faulted.trans (same rfl)) (.inr (.inl ?_)))) fun _ =>
    answeredSlot (faulted.trans (same rfl))
  simp [enterState_slot]

theorem measured (s : State) (i : SlotId) (draw : Nat) : ChannelWork s (s.measureSlot i draw) := by
  unfold State.measureSlot
  dsimp only
  have read : ChannelWork s (s.modSlot i fun t => { t with
      current := (s.slot i).reading draw, peak := max t.peak ((s.slot i).reading draw) }) := same rfl
  split
  · exact read
  · exact read
  · exact ite (fun _ => read.tripped) fun _ => read
  all_goals
    exact ite (fun _ => read.tripped) fun _ => ite (fun _ => ite (fun _ => read.tripped) fun _ => read.trans (same rfl))
      fun _ => read.trans (same rfl)

end ChannelWork

end Sys2Proof.Machine
end

