-- ==== Sys2Proof/Proofs/ChannelsStaySound.lean ====
section
/-! PROOF. Every request and every event keeps the channels sound, and so does every step (O53). -/

namespace Sys2Proof.Machine

open Sys2Proof

/-! ## Ring traffic (R143 to R148) -/

section Traffic

variable {c : Channel} {w k : Nat} {x : Cycle}

/-- Bytes that join an OUT ring do not hinder the transfer on the bus. -/
theorem Channel.Carries.stored (h : c.Carries w x) (sound : c.Sound) (out : c.direction = .out)
    (room : k ≤ c.freeSpace) : ({ c with put := c.put + BitVec.ofNat 32 k } : Channel).Carries w x := by
  have level := sound.level_stored room
  have able := h.able
  refine ⟨h.running, h.kind, h.connected, ?able, fun real _ => ?level, fun _ into => ?none⟩
  case able =>
    simp only [Channel.able, out, Bool.or_eq_true, decide_eq_true_eq] at able ⊢
    exact able.imp_left fun held => level ▸ held.trans (Nat.le_add_right ..)
  case level => exact level ▸ (h.out real out).trans (Nat.le_add_right ..)
  case none => exact absurd (out.symm.trans into) nofun

/-- Bytes that leave an IN ring do not hinder the transfer on the bus. -/
theorem Channel.Carries.taken (h : c.Carries w x) (into : c.direction = .into) (held : k ≤ c.level) :
    ({ c with take := c.take + BitVec.ofNat 32 k } : Channel).Carries w x := by
  have room : c.freeSpace ≤ ({ c with take := c.take + BitVec.ofNat 32 k } : Channel).freeSpace := by
    unfold Channel.freeSpace
    rw [Channel.level_taken held]
    exact Nat.sub_le_sub_left (Nat.sub_le ..) _
  have able := h.able
  refine ⟨h.running, h.kind, h.connected, ?able, fun _ out => ?none, fun real _ => (h.into real into).trans room⟩
  case able =>
    simp only [Channel.able, into, Bool.or_eq_true, decide_eq_true_eq] at able ⊢
    exact able.imp_left fun fits => fits.trans room
  case none => exact absurd (into.symm.trans out) nofun

/-- A ring request that is not refused names a channel that is not FREE, of its direction (R143, R146). -/
theorem ringRefusal_ok {s : State} {channel : Byte} {direction : Direction} {n : ChanId}
    (h : s.ringRefusal channel direction = .ok n) : (s.chan n).state ≠ .free ∧ (s.chan n).direction = direction := by
  unfold State.ringRefusal at h
  split at h
  · cases h
  · split at h
    · cases h
    case isFalse notFree =>
      split at h
      · cases h
      case isFalse same =>
        cases h
        exact ⟨notFree, not_not.mp same⟩

theorem ringReadCount_le (n : ChanId) (c : Channel) (largest : Nat) : ringReadCount n c largest ≤ c.level := by
  unfold ringReadCount
  dsimp only
  split <;> omega

end Traffic

/-! ## Configured channels (R110, R111) -/

/-- The context that a CH_CONFIGURE asks for is READY, at the start of a block of 1 to 65536 transfers, with an empty
ring. -/
theorem readConfigureFields_some {n : ChanId} {f : ConfigureFields} {c : Channel} {code : Nat}
    (h : readConfigureFields n f = some (c, code)) :
    c.state = .ready ∧ 1 ≤ c.blockLength ∧ c.remaining = c.blockLength ∧ c.put = 0 ∧ c.take = 0 ∧ code ≤ 6 := by
  unfold readConfigureFields at h
  simp only [Option.bind_eq_bind, Option.bind_eq_some_iff] at h
  obtain ⟨_, _, _, _, _, _, _, _, _, _, size, _, _, _, _, _, h⟩ := h
  split at h
  case isTrue inRange =>
    cases h
    exact ⟨rfl, inRange.1, rfl, rfl, rfl, Nat.le_of_lt_succ size.isLt⟩
  case isFalse => cases h

theorem configured_sound {n : ChanId} {f : ConfigureFields} {c : Channel} {code start mark : Nat}
    (h : readConfigureFields n f = some (c, code)) (within : start + 2 ^ code ≤ 128) :
    ({ c with ring := some ⟨start, code⟩, mark := mark } : Channel).Sound := by
  obtain ⟨state, block, remaining, put, take, size⟩ := readConfigureFields_some h
  refine ⟨⟨block, remaining.le⟩, ?done, ?free, fun _ => ⟨_, rfl, size, within⟩, ?level⟩
  case done => simp only [remaining, state]; exact ⟨fun zero => by omega, by rintro (e | e) <;> cases e⟩
  case free => simp only [state]; nofun
  case level => simp [Channel.level, put, take]

/-! ## Requests taken -/

/-- A request's owner keeps the channels sound. -/
def WorksOnChannels (handle : State → State) : Prop := ∀ s, ChannelWork s (handle s)

namespace WorksOnChannels

open ChannelWork

theorem withSlot {slot : Byte} {n : Nat} {f : State → SlotId → State} (h : ∀ i, WorksOnChannels fun s => f s i) :
    WorksOnChannels fun s => s.withSlot slot n (f s) := by
  intro s
  dsimp only [State.withSlot]
  split
  · exact h _ s
  · exact answered id

theorem withChan {channel : Byte} {n : Nat} {f : State → ChanId → State} (h : ∀ c, WorksOnChannels fun s => f s c) :
    WorksOnChannels fun s => s.withChan channel n (f s) := by
  intro s
  dsimp only [State.withChan]
  split
  · exact h _ s
  · exact answered id

/-! ### The clock and the slot bus (chapters 1 and 2) -/

theorem setClock (target : Half) : WorksOnChannels (setClockTaken target) := by
  intro s
  unfold setClockTaken
  refine ite (fun _ => answered id) fun _ => ?_
  split
  · exact same rfl
  · exact ite (fun _ => answered id) fun _ => ite (fun _ => answered id) fun _ => settled (same rfl)
  all_goals exact answered id

theorem park : WorksOnChannels parkTaken := by
  intro s
  unfold parkTaken
  split
  · exact ite (fun _ => answered id) fun _ => settled (same rfl)
  all_goals exact answered id

theorem wake : WorksOnChannels wakeTaken := by
  intro s
  unfold wakeTaken
  split
  · exact same rfl
  · exact same rfl
  all_goals exact answered id

theorem clockStop : WorksOnChannels clockStopTaken := by
  intro s
  unfold clockStopTaken
  split
  · exact ite (fun _ => answered id) fun _ => settled (same rfl)
  · exact ite (fun _ => answered (same rfl)) fun _ => answered id
  all_goals exact answered id

theorem setTiming (cls ioWs memWs : Byte) : WorksOnChannels (setTimingTaken cls ioWs memWs) := by
  intro s
  unfold setTimingTaken
  split
  · exact answered id
  · exact ite (fun _ => answered id) fun _ => answered (same rfl)

/-! ### Slot power (chapter 3): only a slot that no cycle connects leaves ENABLED -/

theorem powerOn (slot : Byte) : WorksOnChannels (powerOnTaken slot) :=
  withSlot fun i s => by
    dsimp only
    split
    case h_6 off =>
      exact ite (fun _ => answered id) fun _ => ite (fun _ => answered id) fun _ =>
        (entered id (.inr (.inl (by rw [off]; nofun)))).trans (same rfl)
    all_goals exact answered id

theorem powerOff (slot : Byte) : WorksOnChannels (powerOffTaken slot) :=
  withSlot fun i s => by
    have stopped (notEnabled : (s.slot i).state ≠ .enabled) :
        ChannelWork s ((s.enterState i .off).modSlot i fun t => { t with sequence := none }) :=
      (entered id (.inr (.inl notEnabled))).trans (same rfl)
    dsimp only
    refine ite (fun _ => answered id) fun _ => ?_
    split
    case h_1 | h_2 => exact settled (same rfl)
    case h_3 e | h_4 e | h_5 e => exact answered (stopped (by rw [e]; nofun))
    case h_6 => exact answered id

theorem isolate (slot : Byte) : WorksOnChannels (isolateTaken slot) :=
  withSlot fun i s => by
    refine ite (fun _ => answered id) fun _ => ?_
    split
    · exact settled (same rfl)
    all_goals exact answered id

theorem connect (slot : Byte) : WorksOnChannels (connectTaken slot) :=
  withSlot fun i s => by
    dsimp only
    split
    · exact admitted (answered (entered id (.inr (.inr rfl))))
    all_goals exact answered id

theorem slotReset (slot width : Byte) : WorksOnChannels (slotResetTaken slot width) := by
  intro s
  unfold slotResetTaken
  split
  · exact answered id
  · refine ite (fun _ => answered id) fun _ => ite (fun _ => answered id) fun _ => ?_
    split
    case h_1 | h_2 => exact settled (same rfl)
    all_goals exact answered id

/-! ### The Resource Map (chapter 4) -/

theorem mapAdd (f : WindowFields) : WorksOnChannels (mapAddTaken f) := by
  intro s
  unfold mapAddTaken
  refine ite (fun _ => answered id) fun _ => ?_
  split
  · exact answered id
  · refine ite (fun _ => answered id) fun _ => ?_
    split
    · exact answered id
    · exact answered (same rfl)

theorem mapRemove (id : Byte) : WorksOnChannels (mapRemoveTaken id) := by
  intro s
  unfold mapRemoveTaken
  split
  · exact answered (same rfl)
  · split
    · exact answered (same rfl)
    · exact answered (same rfl)

theorem shadowRead (port : Half) (present index : Byte) : WorksOnChannels (shadowReadTaken port present index) := by
  intro s
  unfold shadowReadTaken
  dsimp only
  split
  · exact answered id
  · split <;> exact answered id

theorem shadowClear (present id : Byte) : WorksOnChannels (shadowClearTaken present id) := by
  intro s
  unfold shadowClearTaken
  split
  · exact answered (same rfl)
  · exact answered (same rfl)
  · split
    · exact answered (same rfl)
    · split <;> exact answered (same rfl)

/-! ### Accesses (chapter 5) -/

theorem startAccess (a : Access) : WorksOnChannels fun s => s.startAccess a := by
  intro s
  dsimp only [State.startAccess]
  split
  · exact answered id
  · exact settled (beginAccess s a)

theorem string (write : Bool) (space : Space) (f : AccessFields) (data : List Byte) :
    WorksOnChannels (stringTaken write space f data) := by
  intro s
  unfold stringTaken
  split
  · exact answered id
  · exact ite (fun _ => startAccess _ s) fun _ => answered id

theorem pair (write : Bool) (f : PairFields) (data : List Byte) : WorksOnChannels (pairTaken write f data) := by
  intro s
  unfold pairTaken
  split
  · exact answered id
  · exact ite (fun _ => startAccess _ s) fun _ => answered id

theorem refusePoll (width : Byte) (status : Status) : WorksOnChannels fun s => s.refusePoll width status := by
  intro s
  dsimp only [State.refusePoll]
  split <;> exact (answered id).trans (same rfl)

theorem poll (f : PollFields) : WorksOnChannels (pollTaken f) := by
  intro s
  unfold pollTaken
  split
  · exact refusePoll _ _ s
  · split
    · exact refusePoll _ _ s
    · exact settled (beginAccess s _)

theorem cancel (target : Half) : WorksOnChannels (cancelTaken target) := by
  intro s
  unfold cancelTaken
  dsimp only
  split
  · exact answeredStream id
  · refine ite (fun _ => ?_) fun _ => answeredStream id
    split
    · exact answeredStream id
    · exact ite (fun _ => ite (fun _ => same rfl) fun _ => ended (same rfl)) fun _ => answeredStream id

/-! ### Channels and rings (chapters 6 and 7) -/

theorem chConfigure (channel : Byte) (f : ConfigureFields) : WorksOnChannels (chConfigureTaken channel f) :=
  withChan fun n s => by
    dsimp only
    refine ite (fun _ => answered id) fun still => ?_
    split
    · exact answered id
    case h_2 new code read =>
      split
      · exact answered id
      case h_2 start found =>
        obtain ⟨fits, -⟩ := (findRun_eq_some_iff (readConfigureFields_some read).2.2.2.2.2).mp found
        exact answered (placed (fun running => still (.inl running)) (configured_sound read fits.1) rfl fits)

theorem chArm (channel : Byte) : WorksOnChannels (chArmTaken channel) :=
  withChan fun n s => by
    dsimp only
    split
    case h_5 e | h_6 e =>
      split
      · exact answered id
      · exact settled (answered (modChan (.resting (by rw [e]; nofun) rfl fun h => h.armed (by simp [e]))))
    all_goals exact answered id

theorem chPause (channel : Byte) : WorksOnChannels (chPauseTaken channel) :=
  withChan fun n s => by
    dsimp only
    split
    case h_2 =>
      have waits : ChannelWork s (s.modChan n fun c => { c with pauseWaits := true }) := modChan (.figures rfl)
      exact settled (waits.trans (same rfl))
    all_goals exact answered id

theorem chResume (channel : Byte) : WorksOnChannels (chResumeTaken channel) :=
  withChan fun n s => by
    dsimp only
    split
    case h_2 paused =>
      have resumes : s.Turn n { s.chan n with state := .running } :=
        .resting (by rw [paused]; nofun) rfl fun h => h.restated (by rw [paused]; exact ⟨nofun, nofun⟩) ⟨nofun, nofun⟩
      exact ite (fun _ => answered id) fun _ => ite (fun _ => answered id) fun _ => settled (answered (modChan resumes))
    all_goals exact answered id

theorem chClear (channel : Byte) : WorksOnChannels (chClearTaken channel) :=
  withChan fun n s => by
    refine ite (fun halted => answered (modChan (.resting (by rw [halted]; nofun) rfl fun h => ?_))) fun _ => answered id
    exact (h.restated (a := .ready) (by rw [halted]; exact ⟨nofun, nofun⟩) ⟨nofun, nofun⟩).of_figures rfl

theorem chRelease (channel : Byte) : WorksOnChannels (chReleaseTaken channel) :=
  withChan fun n s => by
    have waits : ChannelWork s (s.modChan n fun c => { c with releaseWaits := true }) := modChan (.figures rfl)
    exact ite (fun _ => answered id) fun _ => settled (waits.trans (same rfl))

theorem chStatus (channel : Byte) : WorksOnChannels (chStatusTaken channel) :=
  withChan fun _ _ => (answered id).trans (same rfl)

theorem ringWrite (channel : Byte) (data : List Byte) : WorksOnChannels (ringWriteTaken channel data) := by
  intro s
  unfold ringWriteTaken
  split
  · exact answeredStream id
  case h_2 n allowed =>
    obtain ⟨notFree, out⟩ := ringRefusal_ok allowed
    have room : min data.length (s.chan n).freeSpace ≤ (s.chan n).freeSpace := Nat.min_le_right ..
    refine settled (answeredStream (of_same (modChan (s := s.updStm _) ?_) rfl))
    exact ⟨fun h => (h.stored room notFree).of_figures (Channel.rearmMark_figures _),
      congrArg ChannelFigures.ring (Channel.rearmMark_figures _),
      fun _ _ _ h carries => (carries.stored h out room).of_figures (Channel.rearmMark_figures _)⟩

theorem ringRead (channel : Byte) (largest : Half) : WorksOnChannels (ringReadTaken channel largest) := by
  intro s
  unfold ringReadTaken
  split
  · exact answeredStream id
  case h_2 n allowed =>
    obtain ⟨notFree, into⟩ := ringRefusal_ok allowed
    have held := ringReadCount_le n (s.chan n) largest.toNat
    refine settled (answeredStream (modChan ?_))
    exact ⟨fun h => (h.taken held notFree).of_figures (Channel.rearmMark_figures _),
      congrArg ChannelFigures.ring (Channel.rearmMark_figures _),
      fun _ _ _ _ carries => (carries.taken into held).of_figures (Channel.rearmMark_figures _)⟩

/-! ### Interrupts and the link (chapters 8 and 9) -/

theorem intConfigure (slot line : Byte) (f : InputFields) : WorksOnChannels (intConfigureTaken slot line f) := by
  intro s
  unfold intConfigureTaken
  split
  · exact answered id
  case h_2 i l _ =>
    split
    · exact answered id
    case h_2 new _ =>
      have watched := ((OnlyInputs.withdraw s (inputId i l)).trans (.modInput _ (inputId i l) fun _ => new)).trans
        (.beginWatch _ (inputId i l))
      exact admitted (answered (onlyInputs id watched))

theorem intMask (slot line mask : Byte) : WorksOnChannels (intMaskTaken slot line mask) := by
  intro s
  unfold intMaskTaken
  split
  · exact answered id
  · split
    · exact answered id
    · exact admitted (answered (same rfl))

theorem intStatus (slot : Byte) : WorksOnChannels (intStatusTaken slot) := by
  intro s
  unfold intStatusTaken
  split <;> exact answered id

theorem intAck (slot line : Byte) : WorksOnChannels (intAckTaken slot line) := by
  intro s
  unfold intAckTaken
  split
  · exact answeredStream id
  · exact ite (fun _ => admitted (answeredStream (onlyInputs id (.acknowledge s _)))) fun _ => answeredStream id

theorem resetPart : WorksOnChannels resetPartTaken := by
  intro s
  unfold resetPartTaken
  split <;> exact same rfl

/-! ### Frames taken (R174, R175) -/

/-- Every owner keeps the channels sound. -/
theorem handOver (kind : Byte) (p : List Byte) : WorksOnChannels (Machine.handOver kind p) := by
  unfold Machine.handOver
  split
  · exact setClock _
  · exact park
  · exact wake
  · exact clockStop
  · exact setTiming _ _ _
  · exact fun _ => answered (same rfl)
  · exact fun _ => answered (same rfl)
  · exact fun _ => answered id
  · exact powerOn _
  · exact powerOff _
  · exact isolate _
  · exact connect _
  · exact slotReset _ _
  · exact withSlot fun _ _ => answered (same rfl)
  · exact withSlot fun _ _ => answered id
  · exact mapAdd _
  · exact mapRemove _
  · exact fun _ => answered id
  · exact shadowRead _ _ _
  · exact shadowClear _ _
  · exact string _ _ _ _
  · exact string _ _ _ _
  · exact string _ _ _ _
  · exact string _ _ _ _
  · exact pair _ _ _
  · exact pair _ _ _
  · exact poll _
  · exact chConfigure _ _
  · exact chArm _
  · exact chPause _
  · exact chResume _
  · exact chClear _
  · exact chRelease _
  · exact chStatus _
  · exact intConfigure _ _ _
  · exact intMask _ _ _
  · exact intStatus _
  · exact fun _ => answered id
  · exact resetPart
  · exact ringWrite _ _
  · exact ringRead _ _
  · exact intAck _ _
  · exact cancel _
  · exact fun _ => id

theorem takeRequest {handle : State → State} (works : WorksOnChannels handle) (s : State) (p : Pipe) (kind : Byte)
    (tag : Half) (declared : Nat) (payload : List Byte) :
    ChannelWork s (s.takeRequest p kind tag declared payload handle) := by
  unfold State.takeRequest
  split
  · exact same rfl
  · exact ite (fun _ => same rfl) fun _ => ite (fun _ => same rfl) fun _ =>
      (works (s.beginRequest p kind tag)).of_same rfl

/-- A request command is taken in its step, or joins its intake queue (log 1). -/
theorem offer {handle : State → State} (works : WorksOnChannels handle) {s : State} {p : Pipe} {kind : Byte}
    {tag : Half} {payload : List Byte} : ChannelWork s (s.offer p kind tag payload handle) := by
  unfold State.offer
  exact ite (fun _ => takeRequest works _ _ _ _ _ _) fun _ => same rfl

end WorksOnChannels

/-! ## Events -/

namespace ChannelWork

/-- The part with its values after power-on is sound (R133, R139). -/
theorem reset (s : State) : ChannelWork s s.powerOnValues := fun _ => same (s := State.reset) rfl reset_channelsSound

theorem frameTakes (p : Pipe) (s : State) : ChannelWork s (Machine.frameTakes p s) := by
  unfold Machine.frameTakes
  split
  · refine ite (fun _ => ?_) fun _ => id
    unfold State.takeBytes
    exact ite (fun _ => same rfl) fun _ => (WorksOnChannels.takeRequest (WorksOnChannels.handOver _ _) _ _ _ _ _ _).of_same rfl
  · exact id

theorem frameTransmits (s : State) : ChannelWork s (Machine.frameTransmits s) := by
  have unqueued : ChannelWork s s.unqueue := by
    unfold State.unqueue
    split <;> exact same rfl
  unfold Machine.frameTransmits
  refine ite (fun _ => ?_) fun _ => id
  split
  · exact admitted (same rfl)
  · exact admitted (unqueued.trans (same rfl))
  · exact id

theorem framesSent (s : State) : ChannelWork s (Machine.framesSent s) := by
  unfold Machine.framesSent
  split
  · exact ite (fun _ => (reset s).trans (same rfl)) fun _ => same rfl
  · exact id

theorem linkComesUp (s : State) : ChannelWork s (Machine.linkComesUp s) := by
  unfold Machine.linkComesUp
  exact ite (fun _ => id) fun _ => admitted (same rfl)

/-- A link reset pauses RUNNING channels at their transfer boundaries (R134). -/
theorem linkResets (s : State) : ChannelWork s (Machine.linkResets s) := by
  have unlinked : ChannelWork s s.unlinked := same (by rw [unlinked_eq]; rfl)
  have paused (t : State) : ChannelWork t t.pauseChannels :=
    (foldl (fun n t => ite (fun _ => modChan (.figures rfl)) fun _ => id) _ t).trans (chanBoundaries _)
  have renotified (t : State) : ChannelWork t t.renotify := same (by rw [renotify_eq]; rfl)
  unfold Machine.linkResets
  exact ite (fun _ => (unlinked.trans (paused _)).trans (renotified _)) fun _ => id

theorem answeredClock {s t : State} (h : ChannelWork s t) : ChannelWork s t.answerClock := by
  unfold State.answerClock
  dsimp only
  split
  · exact answered (h.trans (same rfl))
  · exact answered (h.trans (same rfl))
  · exact h.trans (same rfl)

theorem startingEnds (s : State) : ChannelWork s (Machine.startingEnds s) := by
  unfold Machine.startingEnds
  exact ite (fun _ => settled (answeredClock (same rfl))) fun _ => id

theorem retuneEnds (s : State) : ChannelWork s (Machine.retuneEnds s) := by
  unfold Machine.retuneEnds
  exact ite (fun _ => settled (answeredClock (same rfl))) fun _ => id

theorem refreshTicks (s : State) : ChannelWork s (Machine.refreshTicks s) := by
  have ticked : (s.updSbc Sbc.tick).transferPart = s.transferPart := by
    unfold Sbc.tick State.transferPart
    dsimp only [State.updSbc]
    split <;> rfl
  unfold Machine.refreshTicks
  exact ite (fun _ => settled (same ticked)) fun _ => id

theorem cycleEnds (extension : Nat) (card : CardData) (s : State) :
    ChannelWork s (Machine.cycleEnds extension card s) := by
  unfold Machine.cycleEnds
  split
  · exact id
  case h_2 flight => exact ite (fun _ => finishCycle flight _ _ _) fun _ => id

theorem readyTimesOut (s : State) : ChannelWork s (Machine.readyTimesOut s) := by
  unfold Machine.readyTimesOut
  split
  case h_1 x i flight _ =>
    have recorded : ChannelWork s (s.recordFault i .readyTimeout x) := same rfl
    have flight : (s.recordFault i .readyTimeout x).sbc.cycle = some x := flight
    exact recorded.trans (finishCycle flight _ _ _)
  · exact id

theorem measuresCurrents (draw : Vector Nat 4) (s : State) : ChannelWork s (Machine.measuresCurrents draw s) := by
  unfold Machine.measuresCurrents
  refine ite (fun _ => settled ?_) fun _ => id
  exact (foldl (fun i t => measured t i draw[i]) (List.finRange 4) _).of_same rfl

theorem poweringEnds (i : SlotId) (s : State) : ChannelWork s (Machine.poweringEnds i s) := by
  unfold Machine.poweringEnds
  exact ite (fun due => (entered id (.inr (.inl (by rw [due.1]; nofun)))).trans (same rfl)) fun _ => id

theorem resettingEnds (i : SlotId) (s : State) : ChannelWork s (Machine.resettingEnds i s) := by
  unfold Machine.resettingEnds
  exact ite (fun _ => admitted (answeredSlot (entered (same rfl) (.inr (.inr rfl))))) fun _ => id

theorem slotResetEnds (i : SlotId) (s : State) : ChannelWork s (Machine.slotResetEnds i s) := by
  unfold Machine.slotResetEnds
  refine ite (fun due => admitted (answeredSlot (entered (same rfl) (.inr (.inl ?_))))) fun _ => id
  rw [State.modSlot_slot, if_pos rfl]
  simp [due.1]

theorem pollIntervalEnds (s : State) : ChannelWork s (Machine.pollIntervalEnds s) := by
  unfold Machine.pollIntervalEnds
  split
  · exact ite (fun _ => settled (runPoll _ s)) fun _ => id
  · exact id

theorem countedChange {s t : State} (h : ChannelWork s t) (i : InputId) (active : Bool) :
    ChannelWork s (t.countChange i active) := by
  unfold State.countChange State.activation State.wakeRequest
  dsimp only
  have counted : ChannelWork s (t.modInput i fun x => { x with active := active, run := 0, changeDue := false }) :=
    h.trans (same rfl)
  have applied := counted.onlyInputs (.applyActivation _ i)
  exact ite (fun _ => ite (fun _ => ite (fun _ => applied.trans (same rfl)) fun _ => applied) fun _ => applied)
    fun _ => counted

theorem irlChanges (slot : SlotId) (line : LineId) (high : Bool) (s : State) :
    ChannelWork s (Machine.irlChanges slot line high s) := by
  unfold Machine.irlChanges
  exact ite (fun _ => admitted (of_same (countedChange (s := s.updCards _) id _ _) rfl)) fun _ => same rfl

theorem irlFilterChanges (slot : SlotId) (line : LineId) (s : State) :
    ChannelWork s (Machine.irlFilterChanges slot line s) := by
  unfold Machine.irlFilterChanges
  exact ite (fun _ => admitted (countedChange id _ _)) fun _ => id

theorem timeBaseAdvances (s : State) : ChannelWork s (Machine.timeBaseAdvances s) := by
  have counted (t : State) (runs : Bool) : ChannelWork t (t.updSbc fun b => b.advance runs) := by
    obtain ⟨holder, -, cycle, -⟩ := t.sbc.advance_keeps runs
    exact same (by simp [State.transferPart, holder, cycle])
  have aged (t : State) : ChannelWork t (forSlots (fun i s => s.modSlot i Slot.advance) t) :=
    foldl (f := fun i s => s.modSlot i Slot.advance) (fun _ _ => same rfl) _ t
  have timed (f : Bcu → Bcu) : ChannelWork s (s.updBcu f) := same rfl
  have measuring (t : State) : ChannelWork t (t.updMeasure Measure.advance) := same rfl
  exact onlyInputs ((((timed _).trans (counted _ _)).trans (aged _)).trans (measuring _)) (.sampleInputs _)

end ChannelWork

/-- Every command keeps the channels sound. -/
theorem exec_channelWork {c : Instr} {s t : State} (h : exec c s = .next t) : ChannelWork s t := by
  have next : ∀ {u : State}, ChannelWork s u → exec c s = .next u → ChannelWork s t := fun work e => by
    rw [e] at h
    cases h
    exact work
  have taken : ∀ {p : Pipe} {kind : Byte} {tag : Half} {payload : List Byte} {handle : State → State},
      WorksOnChannels handle → exec c s = .next (s.offer p kind tag payload handle) → ChannelWork s t :=
    fun works e => next (WorksOnChannels.offer works) e
  cases c with
  | partPowerOn => exact next (ChannelWork.reset s) rfl
  | linkUp => exact next (ChannelWork.linkComesUp s) rfl
  | linkReset => exact next (ChannelWork.linkResets s) rfl
  | frameReceive p bytes => exact next (u := s.updMl fun m => m.receive p bytes) (ChannelWork.same rfl) rfl
  | frameTake p => exact next (ChannelWork.frameTakes p s) rfl
  | frameTransmit => exact next (ChannelWork.frameTransmits s) rfl
  | frameSent => exact next (ChannelWork.framesSent s) rfl
  | noticeAdmission => exact next (u := s.admitOffers) (ChannelWork.admitted id) rfl
  | startingEnd => exact next (ChannelWork.startingEnds s) rfl
  | retuneEnd => exact next (ChannelWork.retuneEnds s) rfl
  | refreshTick => exact next (ChannelWork.refreshTicks s) rfl
  | cycleEnd extension card => exact next (ChannelWork.cycleEnds extension card s) rfl
  | readyTimeout => exact next (ChannelWork.readyTimesOut s) rfl
  | currentMeasurement draw => exact next (ChannelWork.measuresCurrents draw s) rfl
  | cooldownEnd i => exact next (u := cooldownEnds i s) (.ite (fun _ => .same rfl) fun _ => id) rfl
  | poweringEnd i => exact next (ChannelWork.poweringEnds i s) rfl
  | resettingEnd i => exact next (ChannelWork.resettingEnds i s) rfl
  | slotResetEnd i => exact next (ChannelWork.slotResetEnds i s) rfl
  | pollIntervalEnd => exact next (ChannelWork.pollIntervalEnds s) rfl
  | trqAssert i n => exact next (u := trqAsserts i n s) (ChannelWork.settled (.same rfl)) rfl
  | trqDeassert i n => exact next (u := trqDeasserts i n s) (ChannelWork.same rfl) rfl
  | irlChange i l high => exact next (ChannelWork.irlChanges i l high s) rfl
  | irlFilterChange i l => exact next (ChannelWork.irlFilterChanges i l s) rfl
  | timeBaseAdvance => exact next (ChannelWork.timeBaseAdvances s) rfl
  | setClock => exact taken (.setClock _) rfl
  | park => exact taken .park rfl
  | wake => exact taken .wake rfl
  | clockStop => exact taken .clockStop rfl
  | setTiming => exact taken (.setTiming _ _ _) rfl
  | setReadyLimit tag limit => exact taken (handle := setReadyLimitTaken limit) (fun _ => .answered (.same rfl)) rfl
  | setRefresh tag interval => exact taken (handle := setRefreshTaken interval) (fun _ => .answered (.same rfl)) rfl
  | busStatus => exact taken (handle := busStatusTaken) (fun _ => .answered id) rfl
  | powerOn => exact taken (.powerOn _) rfl
  | powerOff => exact taken (.powerOff _) rfl
  | isolate => exact taken (.isolate _) rfl
  | connect => exact taken (.connect _) rfl
  | slotReset => exact taken (.slotReset _ _) rfl
  | setLimit tag slot limit =>
    exact taken (handle := setLimitTaken slot limit) (.withSlot fun _ _ => .answered (.same rfl)) rfl
  | slotStatus tag slot => exact taken (handle := slotStatusTaken slot) (.withSlot fun _ _ => .answered id) rfl
  | mapAdd => exact taken (.mapAdd _) rfl
  | mapRemove => exact taken (.mapRemove _) rfl
  | mapList => exact taken (handle := mapListTaken) (fun _ => .answered id) rfl
  | shadowRead => exact taken (.shadowRead _ _ _) rfl
  | shadowClear => exact taken (.shadowClear _ _) rfl
  | ioRead | ioWrite | memRead | memWrite => exact taken (.string _ _ _ _) rfl
  | pairWrite | pairRead => exact taken (.pair _ _ _) rfl
  | poll => exact taken (.poll _) rfl
  | cancel => exact taken (.cancel _) rfl
  | chConfigure => exact taken (.chConfigure _ _) rfl
  | chArm => exact taken (.chArm _) rfl
  | chPause => exact taken (.chPause _) rfl
  | chResume => exact taken (.chResume _) rfl
  | chClear => exact taken (.chClear _) rfl
  | chRelease => exact taken (.chRelease _) rfl
  | chStatus => exact taken (.chStatus _) rfl
  | ringWrite => exact taken (.ringWrite _ _) rfl
  | ringRead => exact taken (.ringRead _ _) rfl
  | intConfigure => exact taken (.intConfigure _ _ _) rfl
  | intMask => exact taken (.intMask _ _ _) rfl
  | intStatus => exact taken (.intStatus _) rfl
  | intAck => exact taken (.intAck _ _) rfl
  | info => exact taken (handle := infoTaken) (fun _ => .answered id) rfl
  | resetPart => exact taken .resetPart rfl

/-- Settles O53: the invariant is kept by every command. -/
theorem channelsStaySound : Obligations.ChannelsStaySound := fun _ _ sound hs =>
  step_keeps (P := State.ChannelsSound) (fun _ _ => ChannelWork.same rfl) (fun _ _ _ h e => exec_channelWork e h) sound hs

end Sys2Proof.Machine
end

