-- ==== Sys2Proof/Proofs/Transfers.lean ====
section
/-! PROOF. A transfer that ended DONE: the parts that make it up, each written out as the fields it changes, and their
sum (O51). -/

namespace Sys2Proof.Machine

open Sys2Proof

/-! ## The parts of a transfer -/

section Parts

variable (c : Channel)

/-- One more transfer ends the channel's block (R121). -/
abbrev Channel.atLast (c : Channel) : Prop := c.remaining - 1 = 0

/-- The level meets an armed mark whose notices are on (R129). -/
abbrev Channel.meetsMark (c : Channel) : Prop :=
  c.markNotices = true ∧ c.markArmed = true ∧
    ((c.direction = .out ∧ c.level ≤ c.mark) ∨ (c.direction = .into ∧ c.mark ≤ c.level))

theorem Channel.countTransfer_eq : c.countTransfer = { c with
    transfers := c.transfers + 1
    remaining := if c.atLast ∧ c.autoReload = true then c.blockLength else c.remaining - 1
    blocksEnded := if c.atLast then c.blocksEnded + 1 else c.blocksEnded
    lastBlockEnd := if c.atLast then c.transfers + 1 else c.lastBlockEnd
    state := if c.atLast ∧ c.autoReload = false then .ended else c.state
    notice := {
      raised := c.notice.raised || decide c.atLast
      stalled := c.notice.stalled
      events := { c.notice.events with
        blockEnd := c.notice.events.blockEnd || decide (c.atLast ∧ c.autoReload = true)
        ended := c.notice.events.ended || decide (c.atLast ∧ c.autoReload = false) } } } := by
  unfold Channel.countTransfer
  dsimp only
  by_cases last : c.remaining - 1 = 0
  · cases reload : c.autoReload <;> simp [last, Channel.atLast, Channel.raise, EventSet.add]
  · simp [last, Channel.atLast]

theorem Channel.checkMark_eq : c.checkMark = { c with
    markArmed := if c.meetsMark then false else c.markArmed
    notice := {
      raised := c.notice.raised || decide c.meetsMark
      stalled := c.notice.stalled
      events := { c.notice.events with
        lowMark := c.notice.events.lowMark || decide (c.meetsMark ∧ c.direction = .out)
        highMark := c.notice.events.highMark || decide (c.meetsMark ∧ c.direction = .into) } } } := by
  have unmet (no : ¬ c.meetsMark) : c.checkMark = c := by
    unfold Channel.checkMark
    split
    case isTrue watched =>
      obtain ⟨notices, armed⟩ := Bool.and_eq_true .. ▸ watched
      split
      case h_1 out => exact if_neg fun low => no ⟨notices, armed, .inl ⟨out, low⟩⟩
      case h_2 into => exact if_neg fun high => no ⟨notices, armed, .inr ⟨into, high⟩⟩
    case isFalse => rfl
  by_cases met : c.meetsMark
  · obtain ⟨notices, armed, ⟨direction, level⟩ | ⟨direction, level⟩⟩ := id met
    · simp [met, Channel.checkMark, direction, level, Channel.raise, EventSet.add]
    · simp [met, Channel.checkMark, direction, level, Channel.raise, EventSet.add]
  · rw [unmet met]
    simp [met]

theorem Channel.countFill_eq : c.countFill = { c with
    underruns := c.underruns + 1
    underrunEpisode := true
    notice := {
      raised := c.notice.raised || decide (c.underrunEpisode = false)
      stalled := c.notice.stalled
      events := { c.notice.events with
        underrun := c.notice.events.underrun || decide (c.underrunEpisode = false) } } } := by
  unfold Channel.countFill
  cases episode : c.underrunEpisode <;> simp [Channel.raise, EventSet.add]

theorem Channel.countDrop_eq : c.countDrop = { c with
    overruns := c.overruns + 1
    overrunEpisode := true
    notice := {
      raised := c.notice.raised || decide (c.overrunEpisode = false)
      stalled := c.notice.stalled
      events := { c.notice.events with
        overrun := c.notice.events.overrun || decide (c.overrunEpisode = false) } } } := by
  unfold Channel.countDrop
  cases episode : c.overrunEpisode <;> simp [Channel.raise, EventSet.add]

end Parts

/-! ## The whole transfer -/

/-- A transfer changes its channel, and the storage where it is a real IN transfer (R120). -/
theorem applyTransfer_eq (s : State) (n : ChanId) (kind : TransferKind) (driven sampled : Half) :
    s.applyTransfer n kind driven sampled = { s with
      stm := ⟨s.stm.pages, if kind = .real ∧ (s.chan n).direction = .into then
        storeRing (s.chan n) (s.chan n).put (transferBytes n sampled) s.stm.bytes else s.stm.bytes⟩
      chans := s.chans.set n ((s.chan n).applyTransfer (chanWidth n) kind driven) } := by
  unfold State.applyTransfer
  dsimp only
  split
  case h_1 into => rw [if_pos ⟨rfl, into⟩]; rfl
  case h_2 other => rw [if_neg fun ⟨real, into⟩ => other real into]; rfl

/-- What a transfer makes of the channel, m telling whether an armed mark is met after it (R120 to R124, R129). -/
def Channel.transferred (c : Channel) (w : Nat) (kind : TransferKind) (driven : Half) (m : Prop) [Decidable m] :
    Channel :=
  let realOut : Prop := kind = .real ∧ c.direction = .out
  let realIn : Prop := kind = .real ∧ c.direction = .into
  let fill : Prop := kind = .filler ∧ c.direction = .out
  let drop : Prop := kind = .filler ∧ c.direction = .into
  { c with
    take := if realOut then c.take + BitVec.ofNat 32 w else c.take
    put := if realIn then c.put + BitVec.ofNat 32 w else c.put
    lastDelivered := if realOut then driven else c.lastDelivered
    underrunEpisode := if realOut then false else if fill then true else c.underrunEpisode
    stallEpisode := if realOut then false else c.stallEpisode
    overrunEpisode := if realIn then false else if drop then true else c.overrunEpisode
    underruns := if fill then c.underruns + 1 else c.underruns
    overruns := if drop then c.overruns + 1 else c.overruns
    transfers := c.transfers + 1
    remaining := if c.atLast ∧ c.autoReload = true then c.blockLength else c.remaining - 1
    blocksEnded := if c.atLast then c.blocksEnded + 1 else c.blocksEnded
    lastBlockEnd := if c.atLast then c.transfers + 1 else c.lastBlockEnd
    state := if c.atLast ∧ c.autoReload = false then .ended else c.state
    markArmed := if m then false else c.markArmed
    notice := {
      raised := c.notice.raised || decide (c.atLast ∨ (fill ∧ c.underrunEpisode = false) ∨
        (drop ∧ c.overrunEpisode = false) ∨ m)
      stalled := c.notice.stalled
      events := { c.notice.events with
        blockEnd := c.notice.events.blockEnd || decide (c.atLast ∧ c.autoReload = true)
        ended := c.notice.events.ended || decide (c.atLast ∧ c.autoReload = false)
        underrun := c.notice.events.underrun || decide (fill ∧ c.underrunEpisode = false)
        overrun := c.notice.events.overrun || decide (drop ∧ c.overrunEpisode = false)
        lowMark := c.notice.events.lowMark || decide (m ∧ c.direction = .out)
        highMark := c.notice.events.highMark || decide (m ∧ c.direction = .into) } } }

/-- The transfer is a real one, and its armed mark is met at the level. -/
abbrev Channel.marks (c : Channel) (kind : TransferKind) (level : Nat) : Prop :=
  kind = .real ∧ c.markNotices = true ∧ c.markArmed = true ∧
    ((c.direction = .out ∧ level ≤ c.mark) ∨ (c.direction = .into ∧ c.mark ≤ level))

/-- Watching the mark leaves the level. -/
theorem Channel.checkMark_level (c : Channel) : c.checkMark.level = c.level := by
  rw [Channel.checkMark_eq]
  rfl

/-- Counting a transfer leaves what the mark is watched by. -/
theorem Channel.countTransfer_meetsMark (c : Channel) : c.countTransfer.meetsMark = c.meetsMark := by
  rw [Channel.countTransfer_eq]
  rfl

theorem Channel.countTransfer_level (c : Channel) : c.countTransfer.level = c.level := by
  rw [Channel.countTransfer_eq]
  rfl

theorem Channel.applyTransfer_eq (c : Channel) (w : Nat) (kind : TransferKind) (driven : Half) (m : Prop)
    [Decidable m] (met : m ↔ c.marks kind (c.applyTransfer w kind driven).level) :
    c.applyTransfer w kind driven = c.transferred w kind driven m := by
  have direction : c.direction = .out ∨ c.direction = .into := by cases c.direction <;> simp
  cases kind with
  | real =>
    obtain out | into := direction
    · rw [applyTransfer_realOut out, checkMark_level, countTransfer_level] at met
      have met : m ↔ (c.delivered w driven).countTransfer.meetsMark := by
        rw [met, countTransfer_meetsMark]
        exact ⟨And.right, .intro rfl⟩
      rw [applyTransfer_realOut out, checkMark_eq]
      simp only [← met]
      rw [countTransfer_eq]
      simp [Channel.transferred, Channel.delivered, Channel.atLast, out, Bool.or_assoc]
    · rw [applyTransfer_realIn into, checkMark_level, countTransfer_level] at met
      have met : m ↔ (c.received w).countTransfer.meetsMark := by
        rw [met, countTransfer_meetsMark]
        exact ⟨And.right, .intro rfl⟩
      rw [applyTransfer_realIn into, checkMark_eq]
      simp only [← met]
      rw [countTransfer_eq]
      simp [Channel.transferred, Channel.received, Channel.atLast, into, Bool.or_assoc]
  | filler =>
    have unmarked : ¬ m := fun marked => nomatch (met.mp marked).1
    obtain out | into := direction
    · rw [applyTransfer_fill out, countTransfer_eq, countFill_eq]
      simp [Channel.transferred, Channel.atLast, out, unmarked, Bool.or_assoc, Bool.or_comm]
    · rw [applyTransfer_drop into, countTransfer_eq, countDrop_eq]
      simp [Channel.transferred, Channel.atLast, into, unmarked, Bool.or_assoc, Bool.or_comm]

/-- Settles O51: the channel by the kind of the transfer and its direction, as the sum of its parts, and the storage. -/
theorem transferApplied : Obligations.TransferApplied := by
  intro s n kind driven sampled c t x w realOut realIn fill drop ends marked e
  have whole : t = _ := applyTransfer_eq s n kind driven sampled
  have channel : x = c.applyTransfer w kind driven := by
    show t.chan n = _
    rw [whole]
    exact Vector.getElem_set_self ..
  have bytes : t.stm.bytes = _ := congrArg (fun u : State => u.stm.bytes) whole
  have stored : transferBytes n sampled =
      if n.val < 4 then [lowByte sampled] else [lowByte sampled, highByte sampled] := by
    unfold transferBytes chanWidth
    split <;> rfl
  refine ⟨by rw [bytes, stored], ?_, ?_⟩
  · rw [bytes, channel]
    exact whole
  · have level : x.level = (c.applyTransfer w kind driven).level := congrArg Channel.level channel
    have met : marked ↔ c.marks kind (c.applyTransfer w kind driven).level := by rw [← level]; rfl
    exact channel.trans (c.applyTransfer_eq w kind driven marked met)

end Sys2Proof.Machine
end

