-- ==== Sys2Proof/Proofs/ChannelRequests.lean ====
section
/-! PROOF. CH_STATUS (O49), and CH_ARM, CH_RESUME and CH_CLEAR by the channel's state (O47). -/

namespace Sys2Proof.Machine

open Sys2Proof

/-! ## Requests taken at once -/

section Taken

variable {s : State} {tag : Half}

theorem exec_chConfigure (h : s.ready .command) (channel : Byte) (f : ConfigureFields) :
    exec (.chConfigure tag channel f) s = .next (chConfigureTaken channel f (s.beginRequest .command 0x38 tag)) :=
  congrArg Host.Outcome.next (offer_ready h rfl (by simp [configureBytes]) (by simp [configureBytes])
    (by simp [configureBytes]) _)

theorem exec_chArm (h : s.ready .command) (channel : Byte) :
    exec (.chArm tag channel) s = .next (chArmTaken channel (s.beginRequest .command 0x39 tag)) :=
  congrArg Host.Outcome.next (offer_ready h rfl (by simp) (by simp) (by simp) _)

theorem exec_chPause (h : s.ready .command) (channel : Byte) :
    exec (.chPause tag channel) s = .next (chPauseTaken channel (s.beginRequest .command 0x3A tag)) :=
  congrArg Host.Outcome.next (offer_ready h rfl (by simp) (by simp) (by simp) _)

theorem exec_chResume (h : s.ready .command) (channel : Byte) :
    exec (.chResume tag channel) s = .next (chResumeTaken channel (s.beginRequest .command 0x3B tag)) :=
  congrArg Host.Outcome.next (offer_ready h rfl (by simp) (by simp) (by simp) _)

theorem exec_chClear (h : s.ready .command) (channel : Byte) :
    exec (.chClear tag channel) s = .next (chClearTaken channel (s.beginRequest .command 0x3C tag)) :=
  congrArg Host.Outcome.next (offer_ready h rfl (by simp) (by simp) (by simp) _)

theorem exec_chRelease (h : s.ready .command) (channel : Byte) :
    exec (.chRelease tag channel) s = .next (chReleaseTaken channel (s.beginRequest .command 0x3D tag)) :=
  congrArg Host.Outcome.next (offer_ready h rfl (by simp) (by simp) (by simp) _)

theorem exec_chStatus (h : s.ready .command) (channel : Byte) :
    exec (.chStatus tag channel) s = .next (chStatusTaken channel (s.beginRequest .command 0x3E tag)) :=
  congrArg Host.Outcome.next (offer_ready h rfl (by simp) (by simp) (by simp) _)

/-- A channel above 5 is refused with BAD_ARG (R190, log 17). -/
theorem withChan_above (h : s.ready .command) {channel : Byte} (above : 5 < channel.toNat) (kind : Byte) (n : Nat)
    (f : ChanId → State) : (s.beginRequest .command kind tag).withChan channel n f =
      s.replyAtOnce ⟨kind + 0x80, 0x13, tag, [channel] ++ List.replicate n 0⟩ := by
  unfold State.withChan
  rw [readIndex_of_le above]
  exact replyCommand_begin h.command .badArg _

end Taken

section Named

variable {channel : Byte} {n : ChanId}

theorem withChan_named (named : channel.toNat = n.val) (s : State) (k : Nat) (f : ChanId → State) :
    s.withChan channel k f = f n := by
  unfold State.withChan
  rw [readIndex_of_eq named]

theorem channelReport_named (named : channel.toNat = n.val) (s : State) : s.channelReport n =
    [channel, (s.chan n).state.code, (s.chan n).cause.code] ++ le 4 (s.chan n).remaining ++
      le 4 ((s.chan n).put - (s.chan n).take).toNat := by
  have echoed : BitVec.ofNat 8 n.val = channel := by rw [← named, BitVec.ofNat_toNat, BitVec.setWidth_eq]
  unfold State.channelReport
  rw [echoed]
  rfl

end Named

/-! ## CH_STATUS -/

/-- A bit below the bits of a byte. -/
theorem shiftLeft_or_yesNo (x : Byte) (b : Bool) : x <<< 1 ||| yesNo b = BitVec.ofNat 8 (2 * x.toNat + b.toNat) := by
  have bit : (yesNo b).toNat = b.toNat := by cases b <;> rfl
  have sum : x.toNat <<< 1 + b.toNat = x.toNat <<< 1 ||| b.toNat := Nat.shiftLeft_add_eq_or_of_lt b.toNat_lt _
  have fits : b.toNat % 2 ^ 8 = b.toNat := by cases b <;> rfl
  apply BitVec.eq_of_toNat_eq
  calc (x <<< 1 ||| yesNo b).toNat
    _ = x.toNat <<< 1 % 2 ^ 8 ||| b.toNat % 2 ^ 8 := by rw [BitVec.toNat_or, BitVec.toNat_shiftLeft, bit, fits]
    _ = (x.toNat <<< 1 ||| b.toNat) % 2 ^ 8 := Nat.or_mod_two_pow.symm
    _ = (BitVec.ofNat 8 (2 * x.toNat + b.toNat)).toNat := by
      rw [← sum, BitVec.toNat_ofNat, Nat.shiftLeft_eq, Nat.mul_comm]

/-- The byte of a list of bits, as a number (section 10.3). -/
theorem bitsByte_eq (l : List Bool) : bitsByte l = BitVec.ofNat 8 (l.foldr (fun b k => 2 * k + b.toNat) 0) := by
  induction l with
  | nil => rfl
  | cons b bs ih =>
    show bitsByte bs <<< 1 ||| yesNo b = BitVec.ofNat 8 (2 * _ + b.toNat)
    rw [shiftLeft_or_yesNo, ih]
    apply BitVec.eq_of_toNat_eq
    simp only [BitVec.toNat_ofNat]
    omega

theorem yesNo_eq_bits (b : Bool) : yesNo b = BitVec.ofNat 8 ([b].foldr (fun b k => 2 * k + b.toNat) 0) := by
  cases b <;> rfl

theorem ringReport_eq (ring : Option Ring) : ringReport ring = match ring with
    | some r => [BitVec.ofNat 8 r.first, BitVec.ofNat 8 r.code]
    | none => [0xFF, 0xFF] := by
  cases ring <;> rfl

/-- A CH_STATUS of a channel that exists is answered at once. -/
theorem chStatusTaken_named {s : State} {tag : Half} {channel : Byte} {n : ChanId} (h : s.ready .command)
    (named : channel.toNat = n.val) : chStatusTaken channel (s.beginRequest .command 0x3E tag) =
      { s.replyAtOnce ⟨0xBE, 0x00, tag, s.chStatusPayload n⟩ with free := (s.trqReport n).2 } :=
  (withChan_named named ..).trans
    (congrArg (fun t : State => { t with free := (s.trqReport n).2 }) (replyCommand_begin h.command .ok _))

/-- Settles O49: the payload is the context's fields in turn, with the level of the line by whether it floats. -/
theorem chStatusReportsTheContext : Obligations.ChStatusReportsTheContext := by
  refine ⟨fun s tag channel h above => ?_, ?_⟩
  · rw [exec_chStatus h]
    exact congrArg Host.Outcome.next (withChan_above h above ..)
  · intro s tag n channel h named c e bits floats report
    have payload (trq : Bool) (line : (s.trqReport n).1 = trq) :
        (⟨0xBE, 0x00, tag, s.chStatusPayload n⟩ : Frame) = report trq := by
      unfold State.chStatusPayload
      simp only [line, channelReport_named named, ringReport_eq, yesNo_eq_bits, episodeByte, eventByte, bitsByte_eq]
      rfl
    rw [exec_chStatus h, chStatusTaken_named h named]
    constructor
    · intro steady
      have line : s.trqReport n = (s.trq c.slot n, s.free) := if_neg steady
      rw [payload _ (congrArg Prod.fst line), line]
      rfl
    · intro floating
      have line : s.trqReport n = (Config.floatingTrq s.free, s.free + 1) := if_pos floating
      rw [payload _ (congrArg Prod.fst line), line]

/-! ## CH_ARM, CH_RESUME and CH_CLEAR -/

section States

variable {s : State} {tag : Half} {channel : Byte} {n : ChanId}

/-- A channel that its request finds is answered with its report at once. -/
theorem chanReport_begun (h : s.ready .command) (kind : Byte) (status : Status) :
    (s.beginRequest .command kind tag).replyCommand status ((s.beginRequest .command kind tag).channelReport n) =
      s.replyAtOnce ⟨kind + 0x80, status.code, tag, s.channelReport n⟩ :=
  replyCommand_begin h.command status _

/-- A channel that its request changes is answered with its report as it then stands. -/
theorem chanReport_changed (h : s.ready .command) (kind : Byte) (f : Channel → Channel) :
    ((s.beginRequest .command kind tag).modChan n f).replyCommand .ok
        (((s.beginRequest .command kind tag).modChan n f).channelReport n) =
      (s.modChan n f).replyAtOnce ⟨kind + 0x80, 0x00, tag, (s.modChan n f).channelReport n⟩ :=
  replyCommand_begin (s := s.modChan n f) h.command .ok _

/-- CH_ARM's clock and slot checks, first match (R112). -/
theorem armRefusal_eq_some (s : State) (i : SlotId) :
    let stopped : Prop := s.bcu.clock = .stopped ∨ s.bcu.waiting = some .clockStop
    let parked : Prop := s.bcu.clock = .parked ∨ s.bcu.waiting = some .park
    (stopped → s.armRefusal i = some .noClock) ∧
    (¬ stopped → parked → s.armRefusal i = some .parked) ∧
    (¬ stopped → ¬ parked → (s.slot i).state ≠ .enabled → s.armRefusal i = some .notReady) ∧
    (¬ stopped → ¬ parked → (s.slot i).state = .enabled → s.armRefusal i = none) := by
  intro stopped parked
  unfold State.armRefusal
  exact ⟨fun a => if_pos a, fun a b => (if_neg a).trans (if_pos b),
    fun a b c => (if_neg a).trans ((if_neg b).trans (if_pos c)),
    fun a b c => (if_neg a).trans ((if_neg b).trans (if_neg (not_not.mpr c)))⟩

/-- A READY or ENDED channel that CH_ARM starts: from ENDED with a new block (R112). -/
def Channel.started (c : Channel) : Channel :=
  { c with state := .running, remaining := if c.state = .ready then c.remaining else c.blockLength }

/-- What CH_ARM tells in the states in which it does nothing (R112). -/
def ChannelState.armStatus : ChannelState → Option Status
  | .free => some .noChannel
  | .running => some .ok
  | .paused => some .busy
  | .halted => some .halted
  | .ready | .ended => none

/-- What CH_RESUME tells in the states in which it does nothing (R114). -/
def ChannelState.resumeStatus : ChannelState → Option Status
  | .free => some .noChannel
  | .ready | .running | .halted | .ended => some .ok
  | .paused => none

theorem modChan_congr {f g : Channel → Channel} (same : f (s.chan n) = g (s.chan n)) :
    s.modChan n f = s.modChan n g :=
  congrArg (fun c => { s with chans := s.chans.set n c }) same

variable {status : Status}

theorem chArmTaken_tells (named : channel.toNat = n.val) (tells : (s.chan n).state.armStatus = some status) :
    chArmTaken channel s = s.replyCommand status (s.channelReport n) := by
  unfold chArmTaken
  rw [withChan_named named]
  cases e : (s.chan n).state <;> rw [e] at tells <;> cases tells <;> simp only [e]

theorem chArmTaken_refused (named : channel.toNat = n.val)
    (startable : (s.chan n).state = .ready ∨ (s.chan n).state = .ended)
    (refused : s.armRefusal (s.chan n).slot = some status) :
    chArmTaken channel s = s.replyCommand status (s.channelReport n) := by
  unfold chArmTaken
  rw [withChan_named named]
  dsimp only
  rcases startable with e | e <;> rw [e, refused]

theorem chArmTaken_started (named : channel.toNat = n.val)
    (startable : (s.chan n).state = .ready ∨ (s.chan n).state = .ended)
    (allowed : s.armRefusal (s.chan n).slot = none) :
    chArmTaken channel s =
      ((s.modChan n Channel.started).replyCommand .ok ((s.modChan n Channel.started).channelReport n)).settle := by
  have started : (s.modChan n fun c => { c with
      state := .running, remaining := if c.state = .ended then c.blockLength else c.remaining }) =
      s.modChan n Channel.started := by
    apply modChan_congr
    rcases startable with e | e <;> simp [Channel.started, e]
  unfold chArmTaken
  rw [withChan_named named]
  dsimp only
  rcases startable with e | e <;> rw [e, allowed, ← started]

theorem chResumeTaken_tells (named : channel.toNat = n.val) (tells : (s.chan n).state.resumeStatus = some status) :
    chResumeTaken channel s = s.replyCommand status (s.channelReport n) := by
  unfold chResumeTaken
  rw [withChan_named named]
  cases e : (s.chan n).state <;> rw [e] at tells <;> cases tells <;> rfl

/-- CH_RESUME of a PAUSED channel makes its checks in turn (R114). -/
theorem chResumeTaken_paused (named : channel.toNat = n.val) (paused : (s.chan n).state = .paused) :
    chResumeTaken channel s =
      if s.bcu.clock = .parked ∨ s.bcu.waiting = some .park then s.replyCommand .parked (s.channelReport n)
      else if s.bcu.clock = .stopped then s.replyCommand .noClock (s.channelReport n)
      else ((s.modChan n fun c => { c with state := .running }).replyCommand .ok
        ((s.modChan n fun c => { c with state := .running }).channelReport n)).settle := by
  unfold chResumeTaken
  rw [withChan_named named]
  dsimp only
  rw [paused]

theorem chClearTaken_named (named : channel.toNat = n.val) (s : State) : chClearTaken channel s =
    if (s.chan n).state = .halted then
      let t := s.modChan n fun c => { c with
        state := .ready, cause := .none, underrunEpisode := false, stallEpisode := false, overrunEpisode := false }
      t.replyCommand .ok (t.channelReport n)
    else s.replyCommand .ok (s.channelReport n) :=
  withChan_named named ..

/-- A request that tells the channel's report and changes nothing. -/
theorem next_chanReport {kind : Byte} {t : State} (h : s.ready .command)
    (told : t = (s.beginRequest .command kind tag).replyCommand status
      ((s.beginRequest .command kind tag).channelReport n)) :
    (.next t : Host.Outcome State Fault Refusal) =
      .next (s.replyAtOnce ⟨kind + 0x80, status.code, tag, s.channelReport n⟩) :=
  congrArg _ (told.trans (chanReport_begun h kind status))

end States

/-- Settles O47: each request by the state of the channel it finds, CH_ARM and CH_RESUME by their checks in turn. -/
theorem chArmResumeClearByState : Obligations.ChArmResumeClearByState := by
  refine ⟨fun s tag channel h above => ?_, ?_⟩
  · rw [exec_chArm h, exec_chResume h, exec_chClear h]
    exact ⟨congrArg Host.Outcome.next (withChan_above h above ..),
      congrArg Host.Outcome.next (withChan_above h above ..),
      congrArg Host.Outcome.next (withChan_above h above ..)⟩
  · intro s tag n channel h named c arm resume clear stopped parked startable
    rw [exec_chArm h, exec_chResume h, exec_chClear h]
    obtain ⟨noClock, isParked, notReady, allowed⟩ := armRefusal_eq_some s c.slot
    have armTells {status : Status} (tells : c.state.armStatus = some status) :=
      next_chanReport h (chArmTaken_tells (s := s.beginRequest .command 0x39 tag) named tells)
    have armRefused {status : Status} (start : startable) (refused : s.armRefusal c.slot = some status) :=
      next_chanReport h (chArmTaken_refused (s := s.beginRequest .command 0x39 tag) named start refused)
    have resumeTells {status : Status} (tells : c.state.resumeStatus = some status) :=
      next_chanReport h (chResumeTaken_tells (s := s.beginRequest .command 0x3B tag) named tells)
    have resumePaused (paused : c.state = .paused) :=
      chResumeTaken_paused (s := s.beginRequest .command 0x3B tag) named paused
    have clearTaken := chClearTaken_named named (s.beginRequest .command 0x3C tag)
    refine ⟨fun e => armTells (status := .noChannel) (congrArg _ e), fun e => armTells (status := .ok) (congrArg _ e),
      fun e => armTells (status := .busy) (congrArg _ e), fun e => armTells (status := .halted) (congrArg _ e),
      fun start a => armRefused start (noClock a), fun start a b => armRefused start (isParked a b),
      fun start a b e => armRefused start (notReady a b e),
      fun start a b e => ?started, fun e => resumeTells (status := .noChannel) (congrArg _ e),
      fun e a => next_chanReport h ((resumePaused e).trans (if_pos a)),
      fun e a b => next_chanReport h ((resumePaused e).trans ((if_neg a).trans (if_pos b))),
      fun e a b => ?resumed, fun e => resumeTells (status := .ok)
        (by rcases e with e | e | e | e <;> exact congrArg _ e),
      fun e => ?cleared, fun e => next_chanReport h (clearTaken.trans (if_neg e))⟩
    case started =>
      rw [chArmTaken_started (s := s.beginRequest .command 0x39 tag) named start (allowed a b e)]
      exact congrArg (fun t => Host.Outcome.next t.settle) (chanReport_changed h 0x39 _)
    case resumed =>
      exact congrArg _ (((resumePaused e).trans ((if_neg a).trans (if_neg b))).trans
        (congrArg State.settle (chanReport_changed h 0x3B _)))
    case cleared =>
      exact congrArg _ ((clearTaken.trans (if_pos e)).trans (chanReport_changed h 0x3C _))

end Sys2Proof.Machine
end

