-- ==== Sys2Proof/Proofs/ChannelConfigure.lean ====
section
/-! PROOF. CH_CONFIGURE (O46): the readers of its fields, the context they ask for, and the place of its ring. -/

namespace Sys2Proof.Machine

open Sys2Proof

/-! ## Bytes and what they name (R188) -/

theorem readDirection_of_le {b : Byte} (h : ¬ 1 < b.toNat) : readDirection b = some (if b = 0 then .out else .into) := by
  have two : b = 0 ∨ b = 1 := by bv_omega
  rcases two with rfl | rfl <;> rfl

theorem readPolicy_of_le {b : Byte} (h : ¬ 3 < b.toNat) : readPolicy b =
    some (if b = 0 then .hold else if b = 1 then .stall else if b = 2 then .drop else .halt) := by
  have four : b = 0 ∨ b = 1 ∨ b = 2 ∨ b = 3 := by bv_omega
  rcases four with rfl | rfl | rfl | rfl <;> rfl

theorem readFlag_of_le {b : Byte} (h : ¬ 1 < b.toNat) : readFlag b = some (decide (b = 1)) := by
  have two : b = 0 ∨ b = 1 := by bv_omega
  rcases two with rfl | rfl <;> rfl

theorem readDirection_eq_some_iff {b : Byte} {d : Direction} : readDirection b = some d ↔ b = d.code := by
  unfold readDirection
  cases d <;> grind [Direction.code]

theorem readPolicy_eq_some_iff {b : Byte} {p : Policy} : readPolicy b = some p ↔ b = p.code := by
  unfold readPolicy
  cases p <;> grind [Policy.code]

/-! ## The fields (R110) -/

section Fields

variable {n : ChanId} {f : ConfigureFields}

/-- R110's BAD_ARG: a field out of range, a policy of the other direction, or a fill value too wide for the channel. -/
def BadConfigureFields (n : ChanId) (f : ConfigureFields) : Prop :=
  3 < f.slot.toNat ∨ 1 < f.direction.toNat ∨ 1 < f.service.toNat ∨ 3 < f.cls.toNat ∨
    f.blockLength.toNat = 0 ∨ 65536 < f.blockLength.toNat ∨ 1 < f.autoReload.toNat ∨ 6 < f.sizeCode.toNat ∨
    1 < f.markNotices.toNat ∨ 3 < f.policy.toNat ∨ (f.direction = 1 ∧ f.policy.toNat < 2) ∨
    (f.direction = 0 ∧ 2 ≤ f.policy.toNat) ∨ (n.val < 4 ∧ 0xFF < f.fill.toNat)

/-- The context the fields ask for, with the slot and class they name, less its ring's place (R111). -/
def askedChannel (f : ConfigureFields) (slot : SlotId) (cls : ClassId) : Channel where
  state := .ready
  slot := slot
  direction := if f.direction = 0 then .out else .into
  demand := decide (f.service = 1)
  cls := cls
  blockLength := f.blockLength.toNat
  remaining := f.blockLength.toNat
  autoReload := decide (f.autoReload = 1)
  mark := f.mark.toNat
  markNotices := decide (f.markNotices = 1)
  markArmed := true
  policy := if f.policy = 0 then .hold else if f.policy = 1 then .stall else if f.policy = 2 then .drop else .halt
  fill := f.fill
  lastDelivered := f.fill

theorem Policy.fits_iff (p : Policy) (d : Direction) : p.fits d = true ↔
    ¬ (d.code = 1 ∧ p.code.toNat < 2) ∧ ¬ (d.code = 0 ∧ 2 ≤ p.code.toNat) := by
  cases p <;> cases d <;> decide

/-- A byte channel's fill value is a byte. -/
theorem fill_fits_iff : (chanWidth n = 2 ∨ f.fill.toNat ≤ 0xFF) ↔ ¬ (n.val < 4 ∧ 0xFF < f.fill.toNat) := by
  have width : chanWidth n = if n.val < 4 then 1 else 2 := rfl
  rw [width]
  split <;> omega

theorem flag_le (x : Bool) : ¬ 1 < (yesNo x).toNat := not_lt.mpr (yesNo_toNat_le x)

/-- Fields that break R110 name no context. -/
theorem readConfigureFields_bad (bad : BadConfigureFields n f) : readConfigureFields n f = none := by
  refine Option.eq_none_iff_forall_ne_some.mpr fun x read => absurd bad ?_
  unfold readConfigureFields at read
  simp only [Option.bind_eq_bind, Option.bind_eq_some_iff, readIndex_eq_some_iff, readDirection_eq_some_iff,
    readPolicy_eq_some_iff, readFlag_eq_some_iff, Option.ite_none_right_eq_some] at read
  obtain ⟨slot, hslot, direction, hdirection, service, hservice, cls, hcls, reload, hreload, code, hcode, notices,
    hnotices, policy, hpolicy, ⟨positive, most, fits, fill⟩, -⟩ := read
  rw [Policy.fits_iff, ← hdirection, ← hpolicy] at fits
  have flags := And.intro (flag_le service) (And.intro (flag_le reload) (flag_le notices))
  rw [← hservice, ← hreload, ← hnotices] at flags
  obtain ⟨service, reload, notices⟩ := flags
  have directions : ¬ 1 < f.direction.toNat := by rw [hdirection]; cases direction <;> decide
  have policies : ¬ 3 < f.policy.toNat := by rw [hpolicy]; cases policy <;> decide
  unfold BadConfigureFields
  simp only [not_or]
  exact ⟨by omega, directions, service, by omega, by omega, by omega, reload, by omega, notices, policies, fits.1,
    fits.2, fill_fits_iff.mp fill⟩

/-- Fields that keep R110 name the context they ask for. -/
theorem readConfigureFields_good (good : ¬ BadConfigureFields n f) : ∃ (slot : SlotId) (cls : ClassId),
    slot.val = f.slot.toNat ∧ cls.val = f.cls.toNat ∧ f.sizeCode.toNat ≤ 6 ∧
      readConfigureFields n f = some (askedChannel f slot cls, f.sizeCode.toNat) := by
  unfold BadConfigureFields at good
  simp only [not_or] at good
  obtain ⟨slot, direction, service, cls, positive, most, reload, code, notices, policy, outPolicy, inPolicy, fill⟩ := good
  refine ⟨⟨f.slot.toNat, by omega⟩, ⟨f.cls.toNat, by omega⟩, rfl, rfl, by omega, ?_⟩
  have slotIs : readIndex 4 f.slot = some ⟨f.slot.toNat, by omega⟩ := readIndex_of_eq rfl
  have clsIs : readIndex 4 f.cls = some ⟨f.cls.toNat, by omega⟩ := readIndex_of_eq rfl
  have codeIs : readIndex 7 f.sizeCode = some ⟨f.sizeCode.toNat, by omega⟩ := readIndex_of_eq rfl
  have directionIs := readDirection_of_le direction
  have policyIs := readPolicy_of_le policy
  have fits := (Policy.fits_iff _ _).mpr
    ⟨readPolicy_eq_some_iff.mp policyIs ▸ readDirection_eq_some_iff.mp directionIs ▸ outPolicy,
      readPolicy_eq_some_iff.mp policyIs ▸ readDirection_eq_some_iff.mp directionIs ▸ inPolicy⟩
  unfold readConfigureFields
  rw [slotIs, directionIs, readFlag_of_le service, clsIs, readFlag_of_le reload, codeIs, readFlag_of_le notices,
    policyIs]
  exact if_pos ⟨Nat.pos_of_ne_zero positive, not_lt.mp most, fits, fill_fits_iff.mpr fill⟩

end Fields

/-! ## CH_CONFIGURE -/

section Taken

variable {s : State} {tag : Half} {channel : Byte} {n : ChanId} {f : ConfigureFields}

/-- The CLAMPED byte of CH_CONFIGURE's reply. -/
def markClamped (f : ConfigureFields) : Byte := if 1024 * 2 ^ f.sizeCode.toNat < f.mark.toNat then 1 else 0

/-- The channel, its ring and mark as they stand, and the reply flags (R111, R190). -/
def State.configureReport (s : State) (n : ChanId) (flags : Byte) : List Byte :=
  s.channelReport n ++ ringReport (s.chan n).ring ++ le 4 (s.chan n).mark ++ [flags]

theorem configurePayload_eq (s : State) (n : ChanId) (clamped : Bool) :
    s.configurePayload n clamped = s.configureReport n (if clamped then 1 else 0) := by
  unfold State.configurePayload
  rw [replyFlags_eq]
  rfl

/-- A CH_CONFIGURE that is refused tells the ring and mark in force. -/
theorem configure_told (h : s.ml.command = none) (status : Status) (clamped : Bool) :
    (s.beginRequest .command 0x38 tag).replyCommand status
        ((s.beginRequest .command 0x38 tag).configurePayload n clamped) =
      s.replyAtOnce ⟨0xB8, status.code, tag, s.configureReport n (if clamped then 1 else 0)⟩ := by
  rw [configurePayload_eq]
  exact replyCommand_begin h status _

theorem chConfigureTaken_busy (h : s.ready .command) (named : channel.toNat = n.val)
    (busy : (s.chan n).state = .running ∨ (s.chan n).state = .paused) :
    chConfigureTaken channel f (s.beginRequest .command 0x38 tag) =
      s.replyAtOnce ⟨0xB8, 0x20, tag, s.configureReport n 0⟩ :=
  (withChan_named named ..).trans ((if_pos busy).trans (configure_told h.command .busy false))

theorem chConfigureTaken_bad (h : s.ready .command) (named : channel.toNat = n.val)
    (idle : ¬ ((s.chan n).state = .running ∨ (s.chan n).state = .paused)) (bad : BadConfigureFields n f) :
    chConfigureTaken channel f (s.beginRequest .command 0x38 tag) =
      s.replyAtOnce ⟨0xB8, 0x13, tag, s.configureReport n 0⟩ := by
  refine (withChan_named named ..).trans ((if_neg idle).trans ?_)
  rw [readConfigureFields_bad bad]
  exact configure_told h.command .badArg false

variable {slot : SlotId} {cls : ClassId}

theorem chConfigureTaken_noSpace (h : s.ready .command) (named : channel.toNat = n.val)
    (idle : ¬ ((s.chan n).state = .running ∨ (s.chan n).state = .paused))
    (read : readConfigureFields n f = some (askedChannel f slot cls, f.sizeCode.toNat))
    (full : s.stm.findRun n f.sizeCode.toNat = none) :
    chConfigureTaken channel f (s.beginRequest .command 0x38 tag) =
      s.replyAtOnce ⟨0xB8, 0x19, tag, s.configureReport n (markClamped f)⟩ := by
  refine (withChan_named named ..).trans ((if_neg idle).trans ?_)
  have full : (s.beginRequest .command 0x38 tag).stm.findRun n f.sizeCode.toNat = none := full
  rw [read]
  dsimp only
  rw [full]
  refine (configure_told h.command .noSpace _).trans ?_
  simp only [decide_eq_true_eq]
  rfl

/-- The state with the ring placed at a start and the channel's context set (R111, R136 to R138). -/
def State.configured (s : State) (n : ChanId) (start code : Nat) (c : Channel) : State :=
  { s with stm := s.stm.place n start (2 ^ code), chans := s.chans.set n c }

/-- The context set: its ring at the start, its mark clamped to the size of the ring. -/
def configuredChannel (f : ConfigureFields) (slot : SlotId) (cls : ClassId) (start : Nat) : Channel :=
  { askedChannel f slot cls with
    ring := some ⟨start, f.sizeCode.toNat⟩
    mark := if 1024 * 2 ^ f.sizeCode.toNat < f.mark.toNat then 1024 * 2 ^ f.sizeCode.toNat else f.mark.toNat }

theorem chConfigureTaken_placed {start : Nat} (h : s.ready .command) (named : channel.toNat = n.val)
    (idle : ¬ ((s.chan n).state = .running ∨ (s.chan n).state = .paused))
    (read : readConfigureFields n f = some (askedChannel f slot cls, f.sizeCode.toNat))
    (found : s.stm.findRun n f.sizeCode.toNat = some start) :
    let t := s.configured n start f.sizeCode.toNat (configuredChannel f slot cls start)
    chConfigureTaken channel f (s.beginRequest .command 0x38 tag) =
      t.replyAtOnce ⟨0xB8, 0x00, tag, t.configureReport n (markClamped f)⟩ := by
  intro t
  have context : ({ askedChannel f slot cls with
      ring := some ⟨start, f.sizeCode.toNat⟩, mark := min f.mark.toNat (ringBytes f.sizeCode.toNat) } : Channel) =
      configuredChannel f slot cls start := by
    have size : ringBytes f.sizeCode.toNat = 1024 * 2 ^ f.sizeCode.toNat := rfl
    have clamped : min f.mark.toNat (1024 * 2 ^ f.sizeCode.toNat) =
        if 1024 * 2 ^ f.sizeCode.toNat < f.mark.toNat then 1024 * 2 ^ f.sizeCode.toNat else f.mark.toNat := by
      split <;> omega
    rw [size, clamped]
    rfl
  have found : (s.beginRequest .command 0x38 tag).stm.findRun n f.sizeCode.toNat = some start := found
  refine (withChan_named named ..).trans ((if_neg idle).trans ?_)
  rw [read]
  dsimp only
  rw [found]
  dsimp only
  simp only [show (askedChannel f slot cls).mark = f.mark.toNat from rfl]
  rw [context]
  refine (configure_told (s := t) h.command .ok _).trans ?_
  simp only [decide_eq_true_eq]
  rfl

end Taken

/-- Settles O46: by CH_CONFIGURE's checks in turn, the ring at the lowest start at which it fits. -/
theorem chConfigureByItsChecks : Obligations.ChConfigureByItsChecks := by
  refine ⟨?_, fun s tag channel f h above => ?_⟩
  · intro s tag n channel f h named report clamped refuse busy block badArg size usable command
    have told (u : State) (flags : Byte) : report u flags = u.configureReport n flags :=
      congrArg (fun ring => u.channelReport n ++ ring ++ le 4 (u.chan n).mark ++ [flags]) (ringReport_eq _).symm
    refine ⟨fun found => ?_, fun idle bad => ?_, fun idle good full => ?_, fun start idle good fits lowest => ?_⟩
    · simp only [command, refuse, told]
      rw [exec_chConfigure h, chConfigureTaken_busy h named found]
    · simp only [command, refuse, told]
      rw [exec_chConfigure h, chConfigureTaken_bad h named idle bad]
    · obtain ⟨slot, cls, -, -, code, read⟩ := readConfigureFields_good good
      simp only [command, refuse, told]
      rw [exec_chConfigure h, chConfigureTaken_noSpace h named idle read (findRun_eq_none code full)]
      rfl
    · obtain ⟨slot, cls, slotIs, clsIs, code, read⟩ := readConfigureFields_good good
      have found : s.stm.findRun n f.sizeCode.toNat = some start := (findRun_eq_some_iff code).mpr ⟨fits, lowest⟩
      refine ⟨slot, cls, slotIs, clsIs, s.configured n start f.sizeCode.toNat (configuredChannel f slot cls start),
        ?_, rfl, place_pages s.stm n start _⟩
      simp only [command, told]
      rw [exec_chConfigure h, chConfigureTaken_placed h named idle read found]
      rfl
  · rw [exec_chConfigure h]
    exact congrArg Host.Outcome.next (withChan_above h above ..)

end Sys2Proof.Machine
end

