-- ==== Sys2Proof/Proofs/Aftermath.lean ====
section
/-! SUPPORT. What follows the transfer boundaries of the channels in the same event (log 14): it takes back no reply,
frees no page, and leaves a channel that is not RUNNING and whose slot is not about to change. -/

namespace Sys2Proof.Machine

open Sys2Proof

/-! ## The link and the pages -/

/-- The pages and the deferred channel reply stay, a command that has ended is not begun again, and the replies made
stay in the queue. -/
structure Onward (s t : State) : Prop where
  owed    : t.chanReply = s.chanReply
  storage : t.stm = s.stm
  done    : s.ml.command = none → t.ml.command = none
  replies : s.ml.replies ⊆ t.ml.replies

namespace Onward

variable {s t u : State}

theorem refl (s : State) : Onward s s := ⟨rfl, rfl, id, List.Subset.refl _⟩

theorem trans (h : Onward s t) (k : Onward t u) : Onward s u :=
  ⟨k.owed.trans h.owed, k.storage.trans h.storage, k.done ∘ h.done, List.Subset.trans h.replies k.replies⟩

theorem sameLink (ml : t.ml = s.ml) (owed : t.chanReply = s.chanReply) (storage : t.stm = s.stm) : Onward s t :=
  ⟨owed, storage, fun h => by rw [ml, h], by rw [ml]; exact List.Subset.refl _⟩

theorem slotWork (h : OnlySlotWork s t) : Onward s t := by
  obtain ⟨-, -, -, -, owed, storage, -, -, -, command, -, replies, -⟩ := h.keeps
  exact ⟨owed, storage, fun none => command.trans none, by rw [replies]; exact List.Subset.refl _⟩

end Onward

theorem answerCommand_command (m : Ml) (status : Status) (payload : List Byte) :
    (m.answerCommand status payload).command = none := by
  unfold Ml.answerCommand
  split
  · rfl
  · assumption

theorem complete_replies (m : Ml) (r : Request) (status : Status) (payload : List Byte) :
    m.replies ⊆ (m.complete r status payload).replies := by
  unfold Ml.complete
  split
  · exact List.subset_append_left ..
  · exact List.Subset.refl _

theorem answerCommand_replies (m : Ml) (status : Status) (payload : List Byte) :
    m.replies ⊆ (m.answerCommand status payload).replies := by
  unfold Ml.answerCommand
  split
  · exact complete_replies ..
  · exact List.Subset.refl _

theorem answerStream_replies (m : Ml) (status : Status) (payload : List Byte) :
    m.replies ⊆ (m.answerStream status payload).replies := by
  unfold Ml.answerStream
  split
  · exact complete_replies ..
  · exact List.Subset.refl _

theorem answerStream_command (m : Ml) (status : Status) (payload : List Byte) :
    (m.answerStream status payload).command = m.command := by
  unfold Ml.answerStream Ml.complete
  split
  · split <;> rfl
  · rfl

namespace Onward

variable {s t : State}

theorem answered (h : Onward s t) (status : Status) (payload : List Byte) :
    Onward s (t.replyCommand status payload) := by
  rw [replyCommand_eq]
  exact h.trans ⟨rfl, rfl, fun _ => answerCommand_command .., answerCommand_replies ..⟩

theorem answeredSlot (h : Onward s t) (i : SlotId) (status : Status) : Onward s (t.answerSlot i status) := by
  obtain ⟨-, same⟩ | ⟨-, payload, answer⟩ := answerSlot_eq t i status
  · rwa [same]
  · rw [answer]
    have cleared : Onward s (t.modSlot i fun x => { x with deferred := none }) := h.trans (sameLink rfl rfl rfl)
    exact cleared.answered ..

theorem ended (h : Onward s t) (status : Status) : Onward s (t.endAccess status) := by
  obtain ⟨payload, echo, e⟩ := endAccess_eq t status
  rw [e]
  refine h.trans ⟨rfl, rfl, fun _ => ?_, ?_⟩
  · show (if t.ae.cancelTaken = true then _ else _ : Ml).command = none
    split
    · exact (answerStream_command ..).trans (answerCommand_command ..)
    · exact answerCommand_command ..
  · show t.ml.replies ⊆ (if t.ae.cancelTaken = true then _ else _ : Ml).replies
    split
    · exact List.Subset.trans (answerCommand_replies ..) (answerStream_replies ..)
    · exact answerCommand_replies ..

theorem makeChange (s : State) (i : SlotId) (change : SlotChange) : Onward s (s.makeChange i change) := by
  have entered (new : SlotState) : Onward s ((s.modSlot i fun t => { t with waiting := none }).enterState i new) :=
    (sameLink rfl rfl rfl).trans (slotWork (.enterState _ i new))
  cases change with
  | powerOff | isolate => exact (entered _).answeredSlot ..
  | slotReset width => exact (entered _).trans (sameLink rfl rfl rfl)

end Onward

/-! ## The channels at rest -/

/-- The channel is not RUNNING, and if it is PAUSED its slot is not about to change. -/
def State.Resting (s : State) (n : ChanId) : Prop :=
  (s.chan n).state ≠ .running ∧ ((s.chan n).state = .paused → (s.slot (s.chan n).slot).waiting = none)

/-- The channel with its record perhaps emptied. -/
def Channel.Kept (c d : Channel) : Prop := d = c ∨ d = { c with notice := {} }

theorem Channel.Kept.trans {c d e : Channel} (h : c.Kept d) (k : d.Kept e) : c.Kept e := by
  rcases h with rfl | rfl
  · exact k
  · exact k.elim .inr .inr

/-- Work that leaves the waits of every channel and, but for its record, a channel at rest. -/
structure Aftermath (s t : State) : Prop extends Onward s t where
  waits : ∀ n, (t.chan n).pauseWaits = (s.chan n).pauseWaits ∧ (t.chan n).releaseWaits = (s.chan n).releaseWaits
  rests : ∀ n, s.Resting n → t.Resting n ∧ (s.chan n).Kept (t.chan n)

namespace Aftermath

variable {s t u : State}

theorem refl (s : State) : Aftermath s s :=
  ⟨.refl s, fun _ => ⟨rfl, rfl⟩, fun _ h => ⟨h, .inl rfl⟩⟩

theorem trans (h : Aftermath s t) (k : Aftermath t u) : Aftermath s u where
  toOnward := h.toOnward.trans k.toOnward
  waits n := ⟨(k.waits n).1.trans (h.waits n).1, (k.waits n).2.trans (h.waits n).2⟩
  rests n resting := by
    obtain ⟨stays, kept⟩ := h.rests n resting
    obtain ⟨stays', kept'⟩ := k.rests n stays
    exact ⟨stays', kept.trans kept'⟩

theorem foldl {α : Type} {f : α → State → State} (h : ∀ a s, Aftermath s (f a s)) :
    ∀ (l : List α) (s : State), Aftermath s (l.foldl (fun s a => f a s) s)
  | [], s => refl s
  | a :: l, s => (h a s).trans (foldl h l (f a s))

/-- Work that leaves the slots and the channels. -/
theorem elsewhere (h : Onward s t) (chans : t.chans = s.chans) (slots : t.slots = s.slots) : Aftermath s t := by
  have chan (n : ChanId) : t.chan n = s.chan n := congrArg (fun v : Vector Channel 6 => v[n]) chans
  have slot (i : SlotId) : t.slot i = s.slot i := congrArg (fun v : Vector Slot 4 => v[i]) slots
  exact ⟨h, fun n => by rw [chan]; exact ⟨rfl, rfl⟩, fun n resting => by
    unfold State.Resting
    rw [chan, slot]
    exact ⟨resting, .inl rfl⟩⟩

/-! ### Slots -/

/-- An orderly change takes its slot out of ENABLED or ISOLATED, and halts what runs there (R128). -/
theorem makeChange_chan (s : State) (i : SlotId) (change : SlotChange) (n : ChanId) :
    (s.makeChange i change).chan n = s.chan n ∨
      (((s.chan n).slot = i ∧ (s.chan n).state.active) ∧ ∃ cause, (s.makeChange i change).chan n =
        (s.chan n).haltWith cause) := by
  have entered (new : SlotState) :
      ((s.modSlot i fun t => { t with waiting := none }).enterState i new).chan n = s.chan n ∨
      (((s.chan n).slot = i ∧ (s.chan n).state.active) ∧ ∃ cause,
        ((s.modSlot i fun t => { t with waiting := none }).enterState i new).chan n = (s.chan n).haltWith cause) := by
    rw [enterState_chan]
    split
    case isTrue halts => exact .inr ⟨halts.2, _, rfl⟩
    case isFalse => exact .inl rfl
  have answered (t : State) : (t.answerSlot i .ok).chan n = t.chan n := (answerSlot_keeps t i .ok).2.2.2.2.2.1 n
  cases change with
  | powerOff | isolate =>
    unfold State.makeChange
    simp only [answered]
    exact entered _
  | slotReset width => exact entered _

theorem slotBoundary (i : SlotId) (s : State) : Aftermath s (s.slotBoundary i) := by
  cases waiting : (s.slot i).waiting with
  | none => rw [slotBoundary_idle waiting]; exact refl s
  | some change =>
    cases connects : s.connects i with
    | true => rw [slotBoundary_connected waiting connects]; exact refl s
    | false =>
      rw [slotBoundary_made waiting connects]
      refine ⟨.makeChange s i change, fun n => ?_, fun n ⟨idle, paused⟩ => ?_⟩
      · obtain same | ⟨-, cause, halted⟩ := makeChange_chan s i change n
        · rw [same]; exact ⟨rfl, rfl⟩
        · rw [halted]; exact ⟨rfl, rfl⟩
      · have same : (s.makeChange i change).chan n = s.chan n := by
          refine (makeChange_chan s i change n).resolve_right fun ⟨⟨there, active⟩, _⟩ => ?_
          have steady := paused (active.resolve_left idle)
          rw [there, waiting] at steady
          cases steady
        unfold State.Resting
        rw [same, makeChange_slot]
        refine ⟨⟨idle, fun e => ?_⟩, .inl rfl⟩
        split
        case isTrue there =>
          have steady := paused e
          rw [← there, waiting] at steady
          cases steady
        case isFalse => exact paused e

theorem slotBoundaries (s : State) : Aftermath s s.slotBoundaries := foldl slotBoundary _ s

/-! ### Channels, the clock, grants and admission -/

theorem serveChannels (s : State) : Aftermath s s.serveChannels := by
  have link : Onward s s.serveChannels := by
    rw [serveChannels_only]
    exact .sameLink rfl rfl rfl
  have slot (i : SlotId) : s.serveChannels.slot i = s.slot i :=
    congrArg (fun v : Vector Slot 4 => v[i]) (serveChannels_slots s)
  refine ⟨link, fun n => ?_, fun n resting => ?_⟩
  · rw [serveChannels_chan]
    unfold Channel.served
    split
    · exact ⟨rfl, rfl⟩
    · split <;> exact ⟨rfl, rfl⟩
  · have same : s.serveChannels.chan n = s.chan n :=
      (serveChannels_chan s n).trans (served_rests (fun h => resting.1 h.1.1) fun h => resting.1 h.1.1)
    unfold State.Resting
    rw [same, slot]
    exact ⟨resting, .inl rfl⟩

theorem clockBoundary (s : State) : Aftermath s s.clockBoundary := by
  unfold State.clockBoundary
  split
  · exact refl s
  · split
    · split
      · exact elsewhere (.sameLink rfl rfl rfl) rfl rfl
      · exact refl s
    case h_2 w _ _ =>
      rw [suspendSampling_eq]
      dsimp only
      generalize (if w = .park then ClockState.parked else .stopped) = rest
      split
      · exact elsewhere (.sameLink rfl rfl rfl) rfl rfl
      · rw [replyCommand_eq]
        exact elsewhere ⟨rfl, rfl, fun _ => answerCommand_command .., answerCommand_replies ..⟩ rfl rfl
    · exact refl s

theorem beginAccessCycle (s : State) : Aftermath s s.beginAccessCycle := by
  obtain e | ⟨u, p, -, -, -, e⟩ | ⟨p, e⟩ := beginAccessCycle_cases s
  · exact e ▸ elsewhere (.sameLink rfl rfl rfl) rfl rfl
  · exact e ▸ elsewhere (.sameLink rfl rfl rfl) rfl rfl
  · have freed : Onward s (s.freeBus.handResult ⟨.refused, 0, some p.slot, 0⟩) := .sameLink rfl rfl rfl
    obtain ⟨-, -, -, slots, chans, -⟩ := endAccess_keeps (s.freeBus.handResult ⟨.refused, 0, some p.slot, 0⟩) .notReady
    exact e ▸ elsewhere (freed.ended _) chans slots

theorem arbitrate (s : State) : Aftermath s s.arbitrate := by
  unfold State.arbitrate
  split
  · split
    · exact refl s
    · exact elsewhere (.sameLink rfl rfl rfl) rfl rfl
    · exact elsewhere (.sameLink rfl rfl rfl) rfl rfl
    · exact beginAccessCycle s
  · exact refl s

theorem admitOffers (s : State) : Aftermath s s.admitOffers := by
  have takes := admitOffers_takes s
  obtain ⟨-, -, -, -, owed, storage, -⟩ := takes.keeps
  have link : Onward s s.admitOffers :=
    ⟨owed, storage, fun none => by rw [takes.ml]; exact none, by rw [takes.ml]; exact List.Subset.refl _⟩
  have kept (n : ChanId) : (s.chan n).Kept (s.admitOffers.chan n) := by
    rw [takes.chan]
    split
    · exact .inr rfl
    · exact .inl rfl
  have waiting (i : SlotId) : (s.admitOffers.slot i).waiting = (s.slot i).waiting := by
    rw [takes.slot]
    split <;> rfl
  refine ⟨link, fun n => ?_, fun n resting => ⟨?_, kept n⟩⟩
  · rcases kept n with e | e <;> rw [e] <;> exact ⟨rfl, rfl⟩
  · unfold State.Resting
    rw [waiting]
    rcases kept n with e | e <;> rw [e] <;> exact resting

/-- All that follows the transfer boundaries in an event. -/
theorem settle (s : State) : Aftermath s.chanBoundaries s.settle :=
  ((((slotBoundaries _).trans (serveChannels _)).trans (clockBoundary _)).trans (arbitrate _)).trans (admitOffers _)

end Aftermath

end Sys2Proof.Machine
end

