-- ==== Sys2Proof/Proofs/PauseAndRelease.lean ====
section
/-! PROOF. CH_PAUSE and CH_RELEASE (O48): one transfer boundary, the six of an event, and what follows them. -/

namespace Sys2Proof.Machine

open Sys2Proof

/-! ## One transfer boundary (R113, R116) -/

section Boundary

variable {s : State} {n : ChanId}

/-- A release empties the context and frees the channel's pages (R116, R139). -/
theorem releaseChannel_eq (s : State) (n : ChanId) : s.releaseChannel n = { s with
    stm := { s.stm with pages := s.stm.pages.map fun o => if o = some n then none else o }
    chans := s.chans.set n (State.reset.chan n) } := by
  have pages : (Vector.ofFn fun p : PageId => if s.stm.pages[p] = some n then none else s.stm.pages[p]) =
      s.stm.pages.map fun o => if o = some n then none else o := by
    ext i h : 1
    simp
  unfold State.releaseChannel State.updStm State.modChan Stm.release
  dsimp only
  rw [reset_chan, pages]

theorem releaseChannel_keeps (s : State) (n : ChanId) :
    (s.releaseChannel n).chanReply = s.chanReply ∧ (s.releaseChannel n).ml = s.ml := by
  simp [State.releaseChannel]

theorem chanBoundary_rests
    (h : s.transferring n = true ∨ ((s.chan n).pauseWaits = false ∧ (s.chan n).releaseWaits = false)) :
    s.chanBoundary n = s := by
  unfold State.chanBoundary
  rcases h with transfers | ⟨pause, release⟩
  · exact if_pos transfers
  · simp [pause, release]

theorem chanBoundary_releases (off : s.transferring n = false) (waits : (s.chan n).releaseWaits = true) :
    s.chanBoundary n = (s.releaseChannel n).answerChannel n := by
  simp [State.chanBoundary, off, waits]

/-- A channel whose waiting pause is made (R113). -/
def Channel.paused (c : Channel) : Channel :=
  { c with pauseWaits := false, state := if c.state = .running then .paused else c.state }

theorem chanBoundary_pauses (off : s.transferring n = false) (kept : (s.chan n).releaseWaits = false)
    (waits : (s.chan n).pauseWaits = true) : s.chanBoundary n = (s.modChan n Channel.paused).answerChannel n := by
  simp [State.chanBoundary, off, kept, waits]
  rfl

theorem answerChannel_unowed (h : s.chanReply ≠ some n) : s.answerChannel n = s := if_neg h

theorem answerChannel_owed (h : s.chanReply = some n) :
    s.answerChannel n = (s.setChanReply none).replyCommand .ok (s.channelReport n) := if_pos h

/-- Where a boundary is none, or another channel's reply is owed, it leaves the link and what is owed. -/
theorem chanBoundary_unowed (h : s.chanReply ≠ some n ∨ s.transferring n = true) :
    (s.chanBoundary n).chanReply = s.chanReply ∧ (s.chanBoundary n).ml = s.ml := by
  unfold State.chanBoundary
  split
  · exact ⟨rfl, rfl⟩
  case isFalse off =>
    have unowed := h.resolve_right off
    split
    · obtain ⟨sameReply, sameMl⟩ := releaseChannel_keeps s n
      rw [answerChannel_unowed (by rwa [sameReply])]
      exact ⟨sameReply, sameMl⟩
    · split
      · rw [answerChannel_unowed (by exact unowed)]
        exact ⟨rfl, rfl⟩
      · exact ⟨rfl, rfl⟩

/-- Off the bus, a channel for which something waits is answered at its boundary, with its report as it then stands. -/
theorem chanBoundary_answers {kind : Byte} {tag : Half} (owed : s.chanReply = some n)
    (command : s.ml.command = some ⟨kind, tag, true⟩) (off : s.transferring n = false)
    (waits : (s.chan n).pauseWaits = true ∨ (s.chan n).releaseWaits = true) :
    (s.chanBoundary n).chanReply = none ∧ (s.chanBoundary n).ml.command = none ∧
    (⟨kind + 0x80, 0x00, tag, (s.chanBoundary n).channelReport n⟩ : Frame) ∈ (s.chanBoundary n).ml.replies := by
  have answered {t : State} (sameReply : t.chanReply = s.chanReply) (sameMl : t.ml = s.ml) :
      (t.answerChannel n).chanReply = none ∧ (t.answerChannel n).ml.command = none ∧
      (⟨kind + 0x80, 0x00, tag, (t.answerChannel n).channelReport n⟩ : Frame) ∈ (t.answerChannel n).ml.replies := by
    have report : (t.answerChannel n).channelReport n = t.channelReport n := by
      unfold State.channelReport State.chan
      rw [(answerChannel_keeps t n).2.2.2.2.1]
    have link : t.ml.answerCommand .ok (t.channelReport n) =
        { t.ml.complete ⟨kind, tag, true⟩ .ok (t.channelReport n) with command := none } := by
      unfold Ml.answerCommand
      rw [sameMl, command]
    rw [report, answerChannel_owed (sameReply.trans owed), replyCommand_eq]
    refine ⟨rfl, answerCommand_command .., ?_⟩
    show _ ∈ (t.ml.answerCommand .ok (t.channelReport n)).replies
    rw [link]
    exact List.mem_append_right _ (List.mem_singleton.mpr rfl)
  cases release : (s.chan n).releaseWaits with
  | true =>
    obtain ⟨sameReply, sameMl⟩ := releaseChannel_keeps s n
    rw [chanBoundary_releases off release]
    exact answered sameReply sameMl
  | false =>
    rw [chanBoundary_pauses off release (waits.resolve_right (by rw [release]; nofun))]
    exact answered rfl rfl

end Boundary

/-! ## The six boundaries of an event -/

/-- A fold whose list holds an element whose turn takes the state from one condition to another ends in the other,
where the rest of the elements keep both. -/
theorem foldl_turn {α σ : Type} [DecidableEq α] {f : α → σ → σ} {Before After : σ → Prop} {a : α}
    (before : ∀ b s, b ≠ a → Before s → Before (f b s)) (turn : ∀ s, Before s → After (f a s))
    (after : ∀ b s, After s → After (f b s)) :
    ∀ (l : List α) (s : σ), a ∈ l → Before s → After (l.foldl (fun s b => f b s) s)
  | b :: l, s, mem, h => by
    by_cases same : b = a
    · subst same
      exact List.foldlRecOn l _ (turn s h) fun s h b _ => after b s h
    · exact foldl_turn before turn after l _ ((List.mem_cons.mp mem).resolve_left (Ne.symm same)) (before b s same h)

section Boundaries

variable {u : State} {n : ChanId}

theorem chanBoundary_chan_ne {m : ChanId} (other : m ≠ n) (s : State) : (s.chanBoundary m).chan n = s.chan n :=
  congrArg Prod.fst ((chanBoundary_holding m s n).trans (if_neg other))

theorem chanBoundary_chan (s : State) (n : ChanId) :
    (s.chanBoundary n).chan n = (s.chan n).atBoundary (s.transferring n) :=
  congrArg Prod.fst ((chanBoundary_holding n s n).trans (if_pos rfl))

theorem transferring_congr {s t : State} (bus : t.sbc = s.sbc) : t.transferring n = s.transferring n := by
  unfold State.transferring
  rw [bus]

theorem chanBoundaries_chan (u : State) (n : ChanId) :
    u.chanBoundaries.chan n = (u.chan n).atBoundary (u.transferring n) :=
  congrArg Prod.fst (chanBoundaries_holding u n)

theorem chanBoundaries_page (u : State) (n : ChanId) (p : PageId) : u.chanBoundaries.stm.pages[p] = some n ↔
    ¬ (u.transferring n = false ∧ (u.chan n).releaseWaits = true) ∧ u.stm.pages[p] = some n :=
  (congrFun (congrArg Prod.snd (chanBoundaries_holding u n)) p).to_iff

/-- The boundaries answer the channel whose reply is owed, where it is off the bus and something waits for it. -/
theorem chanBoundaries_answers {kind : Byte} {tag : Half} (owed : u.chanReply = some n)
    (command : u.ml.command = some ⟨kind, tag, true⟩) (off : u.transferring n = false)
    (waits : (u.chan n).pauseWaits = true ∨ (u.chan n).releaseWaits = true) :
    u.chanBoundaries.chanReply = none ∧ u.chanBoundaries.ml.command = none ∧
    (⟨kind + 0x80, 0x00, tag, u.chanBoundaries.channelReport n⟩ : Frame) ∈ u.chanBoundaries.ml.replies := by
  have report : u.chanBoundaries.channelReport n = (u.chanBoundary n).channelReport n := by
    unfold State.channelReport
    rw [chanBoundaries_chan, chanBoundary_chan]
  rw [report]
  refine foldl_turn (f := fun m s => s.chanBoundary m) (a := n)
    (Before := fun s => s.sbc = u.sbc ∧ s.chanReply = some n ∧ s.ml = u.ml ∧ s.chan n = u.chan n)
    (After := fun s => s.chanReply = none ∧ s.ml.command = none ∧
      (⟨kind + 0x80, 0x00, tag, (u.chanBoundary n).channelReport n⟩ : Frame) ∈ s.ml.replies)
    ?before ?turn ?after (List.finRange 6) u (List.mem_finRange n) ⟨rfl, owed, rfl, rfl⟩
  case before =>
    intro m s other ⟨bus, reply, link, chan⟩
    obtain ⟨sameReply, sameMl⟩ := chanBoundary_unowed (s := s) (n := m)
      (.inl (by rw [reply]; exact fun e => other (Option.some.inj e).symm))
    exact ⟨(chanBoundary_keeps s m).2.1.trans bus, sameReply.trans reply, sameMl.trans link,
      (chanBoundary_chan_ne other s).trans chan⟩
  case turn =>
    intro s ⟨bus, reply, link, chan⟩
    have sameReport : (s.chanBoundary n).channelReport n = (u.chanBoundary n).channelReport n := by
      unfold State.channelReport
      rw [chanBoundary_chan, chanBoundary_chan, chan, transferring_congr bus]
    rw [← sameReport]
    exact chanBoundary_answers reply (by rw [link, command]) (by rw [transferring_congr bus, off]) (by rwa [chan])
  case after =>
    intro m s ⟨reply, done, sent⟩
    obtain ⟨sameReply, sameMl⟩ := chanBoundary_unowed (s := s) (n := m) (.inl (by rw [reply]; nofun))
    rw [sameReply, sameMl]
    exact ⟨reply, done, sent⟩

/-- The boundaries answer nobody while the channel whose reply is owed has its cycle on the bus. -/
theorem chanBoundaries_defers (owed : u.chanReply = some n) (transfers : u.transferring n = true) :
    u.chanBoundaries.chanReply = some n ∧ u.chanBoundaries.ml = u.ml := by
  have kept := List.foldlRecOn (motive := fun s : State => s.sbc = u.sbc ∧ s.chanReply = some n ∧ s.ml = u.ml)
    (List.finRange 6) (fun s m => s.chanBoundary m) ⟨rfl, owed, rfl⟩ fun s ⟨bus, reply, link⟩ m _ => by
      have unowed : s.chanReply ≠ some m ∨ s.transferring m = true := by
        by_cases same : m = n
        · subst same; exact .inr ((transferring_congr bus).trans transfers)
        · exact .inl (by rw [reply]; exact fun e => same (Option.some.inj e).symm)
      obtain ⟨sameReply, sameMl⟩ := chanBoundary_unowed unowed
      exact ⟨(chanBoundary_keeps s m).2.1.trans bus, sameReply.trans reply, sameMl.trans link⟩
  exact kept.2

theorem serveChannels_ml (s : State) : s.serveChannels.ml = s.ml := by
  rw [serveChannels_only]

/-- With no slot about to change, an event that leaves the bus granted to a channel that is owed a reply makes none. -/
theorem settle_replies (owed : u.chanReply = some n) (transfers : u.transferring n = true)
    (slots : ∀ i, (u.slot i).waiting = none) : u.settle.ml.replies = u.ml.replies := by
  obtain ⟨-, bus, sameSlots⟩ := chanBoundaries_keeps u
  have holder : u.sbc.holder = some (.channel n) := (transferring_iff.mp transfers).2
  have still : u.chanBoundaries.slotBoundaries = u.chanBoundaries := slotBoundaries_rests fun i => by
    rw [show u.chanBoundaries.slot i = u.slot i from congrArg (fun v : Vector Slot 4 => v[i]) sameSlots]
    exact slots i
  have held : u.chanBoundaries.serveChannels.sbc.holder = some (.channel n) := by
    rw [(serveChannels_keeps _).2, bus, holder]
  have clock : u.chanBoundaries.serveChannels.clockBoundary = u.chanBoundaries.serveChannels := by
    unfold State.clockBoundary
    rw [if_pos (by rw [held]; nofun)]
  have grant : u.chanBoundaries.serveChannels.arbitrate = u.chanBoundaries.serveChannels := by
    unfold State.arbitrate
    rw [if_neg fun h => Option.some_ne_none _ (held.symm.trans h.1)]
  unfold State.settle
  rw [still, clock, grant, (admitOffers_takes _).ml]
  dsimp only
  rw [serveChannels_ml, (chanBoundaries_defers owed transfers).2]

end Boundaries

/-! ## CH_PAUSE and CH_RELEASE -/

section Taken

variable {s : State} {tag : Half} {channel : Byte} {n : ChanId}

/-- The part with a request taken whose reply the channel's boundary owes. -/
def State.boundaryOwed (s : State) (kind : Byte) (tag : Half) (n : ChanId) (f : Channel → Channel) : State :=
  ((s.beginRequest .command kind tag).modChan n f).setChanReply (some n)

theorem boundaryOwed_chan (s : State) (kind : Byte) (tag : Half) (n : ChanId) (f : Channel → Channel) :
    (s.boundaryOwed kind tag n f).chan n = f (s.chan n) := (State.modChan_chan ..).trans (if_pos rfl)

/-- What CH_PAUSE tells in the states in which it does nothing (R113). -/
def ChannelState.pauseStatus : ChannelState → Option Status
  | .free => some .noChannel
  | .ready | .paused | .halted | .ended => some .ok
  | .running => none

theorem chPauseTaken_tells {status : Status} (named : channel.toNat = n.val)
    (tells : (s.chan n).state.pauseStatus = some status) :
    chPauseTaken channel s = s.replyCommand status (s.channelReport n) := by
  unfold chPauseTaken
  rw [withChan_named named]
  cases e : (s.chan n).state <;> rw [e] at tells <;> cases tells <;> rfl

theorem chPauseTaken_running (named : channel.toNat = n.val) (running : (s.chan n).state = .running) :
    chPauseTaken channel (s.beginRequest .command 0x3A tag) =
      (s.boundaryOwed 0x3A tag n fun c => { c with pauseWaits := true }).settle := by
  have running : ((s.beginRequest .command 0x3A tag).chan n).state = .running := running
  unfold chPauseTaken
  rw [withChan_named named, running]
  rfl

theorem chReleaseTaken_named (named : channel.toNat = n.val) :
    chReleaseTaken channel (s.beginRequest .command 0x3D tag) =
    if (s.chan n).state = .free then
      (s.beginRequest .command 0x3D tag).replyCommand .ok ((s.beginRequest .command 0x3D tag).channelReport n)
    else (s.boundaryOwed 0x3D tag n fun c => { c with releaseWaits := true }).settle :=
  withChan_named named ..

variable {kind : Byte} {f : Channel → Channel}

/-- Off the bus, the request is answered in its own event. -/
theorem boundaryOwed_answered (off : s.transferring n = false)
    (waits : (f (s.chan n)).pauseWaits = true ∨ (f (s.chan n)).releaseWaits = true) :
    let t := (s.boundaryOwed kind tag n f).settle
    t.chanReply = none ∧ t.ml.command = none ∧
    (⟨kind + 0x80, 0x00, tag, (s.boundaryOwed kind tag n f).chanBoundaries.channelReport n⟩ : Frame) ∈ t.ml.replies := by
  obtain ⟨reply, done, sent⟩ := chanBoundaries_answers (u := s.boundaryOwed kind tag n f) (n := n) rfl rfl off
    (by rwa [boundaryOwed_chan])
  have after := Aftermath.settle (s.boundaryOwed kind tag n f)
  exact ⟨after.owed.trans reply, after.done done, after.replies sent⟩

/-- Off the bus, a pause makes a RUNNING channel PAUSED; with no change of its slot waiting it stays so. -/
theorem pauseOwed_chan (off : s.transferring n = false) (running : (s.chan n).state = .running)
    (kept : (s.chan n).releaseWaits = false) (steady : (s.slot (s.chan n).slot).waiting = none) :
    let u := s.boundaryOwed 0x3A tag n fun c => { c with pauseWaits := true }
    let paused := { s.chan n with state := .paused, pauseWaits := false }
    u.chanBoundaries.chan n = paused ∧ paused.Kept (u.settle.chan n) := by
  intro u paused
  have chan : u.chanBoundaries.chan n = paused := by
    have own : u.transferring n = false := off
    rw [chanBoundaries_chan, boundaryOwed_chan, own]
    simp [Channel.atBoundary, kept, running, paused]
  have slot (i : SlotId) : u.chanBoundaries.slot i = s.slot i :=
    congrArg (fun v : Vector Slot 4 => v[i]) (chanBoundaries_keeps u).2.2
  have resting : u.chanBoundaries.Resting n := by
    unfold State.Resting
    rw [chan, slot]
    exact ⟨nofun, fun _ => steady⟩
  exact ⟨chan, chan ▸ ((Aftermath.settle u).rests n resting).2⟩

/-- Off the bus, a release leaves a channel with its power-on values and no page. -/
theorem releaseOwed_chan (off : s.transferring n = false) :
    let u := s.boundaryOwed 0x3D tag n fun c => { c with releaseWaits := true }
    u.chanBoundaries.chan n = {} ∧ u.settle.chan n = {} ∧ ∀ p : PageId, u.settle.stm.pages[p] ≠ some n := by
  intro u
  have off : u.transferring n = false := off
  have chan : u.chanBoundaries.chan n = {} := by
    rw [chanBoundaries_chan, boundaryOwed_chan, off]
    rfl
  have resting : u.chanBoundaries.Resting n := by
    unfold State.Resting
    rw [chan]
    exact ⟨nofun, nofun⟩
  have after := Aftermath.settle u
  have kept : Channel.Kept {} (u.settle.chan n) := chan ▸ (after.rests n resting).2
  refine ⟨chan, kept.elim id id, fun p owned => ?_⟩
  rw [after.storage] at owned
  refine ((chanBoundaries_page u n p).mp owned).1 ⟨off, ?_⟩
  rw [boundaryOwed_chan]

/-- What waits for a channel on the bus goes on waiting. -/
theorem boundaryOwed_waits (transfers : s.transferring n = true) :
    let t := (s.boundaryOwed kind tag n f).settle
    t.chanReply = some n ∧ (t.chan n).pauseWaits = (f (s.chan n)).pauseWaits ∧
    (t.chan n).releaseWaits = (f (s.chan n)).releaseWaits ∧
    ∀ p : PageId, s.stm.pages[p] = some n → t.stm.pages[p] = some n := by
  have after := Aftermath.settle (s.boundaryOwed kind tag n f)
  have transfers : (s.boundaryOwed kind tag n f).transferring n = true := transfers
  have chan : (s.boundaryOwed kind tag n f).chanBoundaries.chan n = f (s.chan n) := by
    rw [chanBoundaries_chan, boundaryOwed_chan, transfers]
    rfl
  obtain ⟨pause, release⟩ := after.waits n
  rw [chan] at pause release
  refine ⟨after.owed.trans (chanBoundaries_defers rfl transfers).1, pause, release, fun p owned => ?_⟩
  rw [after.storage]
  exact (chanBoundaries_page _ n p).mpr ⟨by rw [transfers]; nofun, owned⟩

end Taken

/-- Settles O48: the boundary by what waits there; the requests by the channel's state, and once taken by whether the
channel's cycle is on the bus, as the six boundaries and the work after them leave it. -/
theorem chPauseAndRelease : Obligations.ChPauseAndRelease := by
  refine ⟨fun s tag channel h above => ?_, fun s n => ?_, ?_⟩
  · rw [exec_chPause h, exec_chRelease h]
    exact ⟨congrArg Host.Outcome.next (withChan_above h above ..),
      congrArg Host.Outcome.next (withChan_above h above ..)⟩
  · intro c
    refine ⟨chanBoundary_rests, fun off waits => ?_, chanBoundary_pauses, answerChannel_unowed, answerChannel_owed⟩
    rw [chanBoundary_releases off waits, releaseChannel_eq]
  · intro s tag n channel h named c pausing releasing
    rw [exec_chPause h, exec_chRelease h, chReleaseTaken_named named]
    have pauseTells {status : Status} (tells : c.state.pauseStatus = some status) :=
      next_chanReport h (chPauseTaken_tells (s := s.beginRequest .command 0x3A tag) named tells)
    have pausingIs : pausing = (s.boundaryOwed 0x3A tag n fun c => { c with pauseWaits := true }).settle := rfl
    have releasingIs : releasing = (s.boundaryOwed 0x3D tag n fun c => { c with releaseWaits := true }).settle := rfl
    refine ⟨fun e => pauseTells (status := .noChannel) (congrArg _ e),
      fun e => pauseTells (status := .ok) (by rcases e with e | e | e | e <;> exact congrArg _ e),
      fun e => congrArg _ (chPauseTaken_running named e), fun e kept steady off => ?paused,
      fun e slots transfers => ?pauseWaits,
      fun e => next_chanReport h (if_pos e), fun e => congrArg _ (if_neg e), fun e off => ?released,
      fun e transfers => ?releaseWaits⟩
    case paused =>
      rw [pausingIs]
      obtain ⟨chan, kept⟩ := pauseOwed_chan (tag := tag) off e kept steady
      obtain ⟨reply, done, sent⟩ := boundaryOwed_answered (kind := 0x3A) (tag := tag)
        (f := fun c => { c with pauseWaits := true }) off (.inl rfl)
      rw [channelReport_named named, chan] at sent
      refine ⟨?_, ?_, reply, done, sent⟩
      · rcases kept with e | e <;> rw [e]
      · rcases kept with e | e <;> rw [e]
    case pauseWaits =>
      rw [pausingIs]
      obtain ⟨reply, pause, -, -⟩ := boundaryOwed_waits (kind := 0x3A) (tag := tag)
        (f := fun c => { c with pauseWaits := true }) transfers
      exact ⟨pause, reply, settle_replies rfl transfers slots⟩
    case released =>
      rw [releasingIs]
      obtain ⟨chan, free, pages⟩ := releaseOwed_chan (tag := tag) off
      obtain ⟨reply, done, sent⟩ := boundaryOwed_answered (kind := 0x3D) (tag := tag)
        (f := fun c => { c with releaseWaits := true }) off (.inr rfl)
      rw [channelReport_named named, chan] at sent
      exact ⟨free.trans (reset_chan n).symm, pages, reply, done, sent⟩
    case releaseWaits =>
      rw [releasingIs]
      obtain ⟨reply, -, release, pages⟩ := boundaryOwed_waits (kind := 0x3D) (tag := tag)
        (f := fun c => { c with releaseWaits := true }) transfers
      exact ⟨release, reply, pages⟩

end Sys2Proof.Machine
end

