-- ==== Sys2Proof/Proofs/RingTraffic.lean ====
section
/-! PROOF. RING_WRITE and RING_READ, and the bytes of a ring in the staging storage (O54). -/

namespace Sys2Proof.Machine

open Sys2Proof

/-! ## The addresses of a ring (R141) -/

section Addresses

variable {c : Channel} {r : Ring}

theorem Channel.address_of_ring (ring : c.ring = some r) (p : Word) :
    c.address p = 1024 * r.first + p.toNat % (1024 * 2 ^ r.code) := by
  unfold Channel.address
  rw [ring]
  rfl

/-- Within its page a ring byte stands at its position modulo the page: rings begin at page starts and hold whole
pages. -/
theorem Channel.address_mod_page (ring : c.ring = some r) (p : Word) : c.address p % 1024 = p.toNat % 1024 := by
  rw [address_of_ring ring, Nat.mul_add_mod, Nat.mod_mod_of_dvd _ (Nat.dvd_mul_right ..)]

/-- Positions less than a page apart have different addresses, wherever the ring or the position wraps. -/
theorem Channel.address_ne_ahead (ring : c.ring = some r) (p : Word) {k : Nat} (ahead : 0 < k) (near : k < 1024) :
    c.address p ≠ c.address (p + BitVec.ofNat 32 k) := by
  intro same
  have offset : p.toNat % 1024 = (p + BitVec.ofNat 32 k).toNat % 1024 := by
    rw [← address_mod_page ring, same, address_mod_page ring]
  rw [BitVec.toNat_add, BitVec.toNat_ofNat] at offset
  omega

/-- The ring is the run of its pages, and a position stands at its offset in it (R141). -/
theorem Channel.address_in_ring (ring : c.ring = some r) (p : Word) :
    1024 * r.first ≤ c.address p ∧ c.address p < 1024 * r.first + 1024 * 2 ^ r.code ∧
      c.address p = 1024 * r.first + p.toNat % (1024 * 2 ^ r.code) := by
  have offset : p.toNat % (1024 * 2 ^ r.code) < 1024 * 2 ^ r.code := Nat.mod_lt _ (by positivity)
  rw [address_of_ring ring]
  exact ⟨Nat.le_add_right .., Nat.add_lt_add_left offset _, rfl⟩

end Addresses

/-! ## Bytes stored and bytes read back -/

section Bytes

variable {c : Channel}

theorem position_succ (p : Word) (k : Nat) : p + 1 + BitVec.ofNat 32 k = p + BitVec.ofNat 32 (k + 1) := by
  rw [Nat.add_comm, BitVec.ofNat_add, ← BitVec.add_assoc]
  rfl

/-- A byte at none of the addresses stored to is kept. -/
theorem read_storeRing_of_ne {data : List Byte} {p : Word} {m : Memory} {x : Nat} (wf : Memory.wf m = true)
    (apart : ∀ k < data.length, x ≠ c.address (p + BitVec.ofNat 32 k)) :
    Memory.read (storeRing c p data m) x = Memory.read m x := by
  induction data generalizing p m with
  | nil => rfl
  | cons b bs ih =>
    have first : x ≠ c.address p := by simpa using apart 0 (Nat.succ_pos _)
    have rest : ∀ k < bs.length, x ≠ c.address (p + 1 + BitVec.ofNat 32 k) := fun k below =>
      position_succ p k ▸ apart (k + 1) (Nat.succ_lt_succ below)
    calc Memory.read (storeRing c (p + 1) bs (Memory.write m (c.address p) b)) x
      _ = Memory.read (Memory.write m (c.address p) b) x := ih (Memory.write_wf wf ..) rest
      _ = Memory.read m x := by rw [Storage.read_write wf, if_neg first]

/-- As many bytes as a page holds are read back as they were stored: no byte is stored over another. -/
theorem loadRing_storeRing {r : Ring} (ring : c.ring = some r) {data : List Byte} {p : Word} {m : Memory}
    (wf : Memory.wf m = true) (fits : data.length ≤ 1024) :
    loadRing c (storeRing c p data m) data.length p = data := by
  induction data generalizing p m with
  | nil => rfl
  | cons b bs ih =>
    have fits : bs.length < 1024 := fits
    have stored := Memory.write_wf wf (c.address p) b
    have apart : ∀ k < bs.length, c.address p ≠ c.address (p + 1 + BitVec.ofNat 32 k) := fun k below =>
      position_succ p k ▸ Channel.address_ne_ahead ring p k.succ_pos (by omega)
    have head : Memory.read (storeRing c p (b :: bs) m) (c.address p) = b :=
      (read_storeRing_of_ne stored apart).trans (by rw [Storage.read_write wf, if_pos rfl])
    exact congrArg₂ List.cons head (ih stored fits.le)

end Bytes

/-! ## Requests taken at once, and their refusals (R143, R146) -/

section Taken

variable {s : State} {tag : Half} {channel : Byte}

theorem exec_ringWrite (h : s.ready .stream) {data : List Byte} (fits : data.length ≤ 1024) :
    exec (.ringWrite tag channel data) s = .next (ringWriteTaken channel data (s.beginRequest .stream 0x68 tag)) := by
  have length : ([channel] ++ data).length = data.length + 1 := rfl
  exact congrArg Host.Outcome.next (offer_ready h rfl (by omega) (by omega) (by omega) _)

theorem exec_ringRead (h : s.ready .stream) (largest : Half) :
    exec (.ringRead tag channel largest) s =
      .next (ringReadTaken channel largest (s.beginRequest .stream 0x69 tag)) :=
  congrArg Host.Outcome.next (offer_ready h rfl (by simp) (by simp) (by simp) _)

variable {direction : Direction} {n : ChanId} {status : Status} {level : Nat}

theorem ringRefusal_above (above : 5 < channel.toNat) : s.ringRefusal channel direction = .error (.badArg, 0) := by
  unfold State.ringRefusal
  rw [readIndex_of_le above]

/-- The checks on a channel that exists, in turn. -/
theorem ringRefusal_named (named : channel.toNat = n.val) : s.ringRefusal channel direction =
    if (s.chan n).state = .free then .error (.noChannel, 0)
    else if (s.chan n).direction ≠ direction then .error (.wrongDirection, (s.chan n).level)
    else .ok n := by
  unfold State.ringRefusal
  rw [readIndex_of_eq named]

theorem ringRefusal_free (named : channel.toNat = n.val) (free : (s.chan n).state = .free) :
    s.ringRefusal channel direction = .error (.noChannel, 0) :=
  (ringRefusal_named named).trans (if_pos free)

theorem ringRefusal_direction (named : channel.toNat = n.val) (notFree : (s.chan n).state ≠ .free)
    (other : (s.chan n).direction ≠ direction) :
    s.ringRefusal channel direction = .error (.wrongDirection, (s.chan n).level) :=
  (ringRefusal_named named).trans ((if_neg notFree).trans (if_pos other))

theorem ringRefusal_none (named : channel.toNat = n.val) (notFree : (s.chan n).state ≠ .free)
    (same : (s.chan n).direction = direction) : s.ringRefusal channel direction = .ok n :=
  (ringRefusal_named named).trans ((if_neg notFree).trans (if_neg (not_not.mpr same)))

/-- A refused RING_WRITE is answered with count 0 and changes nothing else. -/
theorem ringWrite_refused (h : s.ready .stream) {data : List Byte} (fits : data.length ≤ 1024)
    (refused : s.ringRefusal channel .out = .error (status, level)) :
    exec (.ringWrite tag channel data) s =
      .next (s.replyAtOnce ⟨0xE8, status.code, tag, ringReply channel 0 level⟩) := by
  have checks : (s.beginRequest .stream 0x68 tag).ringRefusal channel .out = .error (status, level) := refused
  rw [exec_ringWrite h fits, ringWriteTaken, checks]
  exact congrArg Host.Outcome.next (replyStream_begin h.idle status _)

/-- A refused RING_READ is answered with count 0 and no data and changes nothing else. -/
theorem ringRead_refused (h : s.ready .stream) {largest : Half}
    (refused : s.ringRefusal channel .into = .error (status, level)) :
    exec (.ringRead tag channel largest) s =
      .next (s.replyAtOnce ⟨0xE9, status.code, tag, ringReply channel 0 level⟩) := by
  have checks : (s.beginRequest .stream 0x69 tag).ringRefusal channel .into = .error (status, level) := refused
  rw [exec_ringRead h, ringReadTaken, checks]
  exact congrArg Host.Outcome.next (replyStream_begin h.idle status _)

end Taken

/-! ## The mark (R148) -/

theorem Channel.rearmMark_out {c : Channel} (out : c.direction = .out) :
    c.rearmMark = { c with markArmed := c.markArmed || decide (c.mark < c.level) } := by
  unfold Channel.rearmMark
  simp only [out]
  by_cases beyond : c.mark < c.level
  · simp [beyond]
  · rw [if_neg beyond, decide_eq_false beyond, Bool.or_false, ← out]

theorem Channel.rearmMark_into {c : Channel} (into : c.direction = .into) :
    c.rearmMark = { c with markArmed := c.markArmed || decide (c.level < c.mark) } := by
  unfold Channel.rearmMark
  simp only [into]
  by_cases beyond : c.level < c.mark
  · simp [beyond]
  · rw [if_neg beyond, decide_eq_false beyond, Bool.or_false, ← into]

/-! ## Traffic (R144, R146) -/

/-- The channel of an OUT ring once k bytes have joined it at put. -/
def Channel.afterWrite (c : Channel) (k : Nat) : Channel :=
  { c with
    put := c.put + BitVec.ofNat 32 k
    markArmed := c.markArmed || decide (c.mark < (c.put + BitVec.ofNat 32 k - c.take).toNat) }

/-- The channel of an IN ring once k bytes have left it at take. -/
def Channel.afterRead (c : Channel) (k : Nat) : Channel :=
  { c with
    take := c.take + BitVec.ofNat 32 k
    markArmed := c.markArmed || decide ((c.put - (c.take + BitVec.ofNat 32 k)).toNat < c.mark) }

/-- The count of a RING_READ is the greatest that its largest count, the level, 1024 and the channel's width allow
(R146). -/
theorem le_ringReadCount_iff (n : ChanId) (c : Channel) (largest k : Nat) : k ≤ ringReadCount n c largest ↔
    ∃ j, k ≤ j ∧ j ≤ largest ∧ j ≤ c.level ∧ j ≤ 1024 ∧ (4 ≤ n.val → j % 2 = 0) := by
  have most : Config.ringRequestBytes = 1024 := rfl
  have wide : chanWidth n = 2 ↔ 4 ≤ n.val := by unfold chanWidth; split <;> omega
  simp only [ringReadCount, wide, most]
  constructor
  · intro within
    refine ⟨_, within, ?_⟩
    split <;> omega
  · rintro ⟨j, within, asked, held, page, whole⟩
    split <;> omega

section Traffic

variable {s : State} {tag : Half} {channel : Byte} {n : ChanId}

/-- The state once a RING_WRITE has stored the first k bytes of its data. -/
def State.ringWritten (s : State) (n : ChanId) (data : List Byte) (k : Nat) : State :=
  (s.updStm fun m => { m with bytes := storeRing (s.chan n) (s.chan n).put (data.take k) m.bytes }).modChan n
    fun c => c.afterWrite k

theorem ringWriteTaken_allowed {data : List Byte} (allowed : s.ringRefusal channel .out = .ok n) :
    let accepted := min data.length (s.chan n).freeSpace
    ringWriteTaken channel data s = ((s.ringWritten n data accepted).replyStream
      (if accepted = data.length then .ok else .partialOk)
      (ringReply channel accepted ((s.chan n).afterWrite accepted).level)).settle := by
  intro accepted
  have rearmed : ({ s.chan n with put := (s.chan n).put + BitVec.ofNat 32 accepted } : Channel).rearmMark =
      (s.chan n).afterWrite accepted := Channel.rearmMark_out (ringRefusal_ok allowed).2
  have written : ((s.updStm fun m => { m with
      bytes := storeRing (s.chan n) (s.chan n).put (data.take accepted) m.bytes }).modChan n
        fun c => { c with put := c.put + BitVec.ofNat 32 accepted }.rearmMark) = s.ringWritten n data accepted :=
    modChan_congr rearmed
  have level : (s.ringWritten n data accepted).chan n = (s.chan n).afterWrite accepted := by
    simp [State.ringWritten]
  unfold ringWriteTaken
  rw [allowed]
  dsimp only
  rw [written, level]

theorem ringReadTaken_allowed {largest : Half} (allowed : s.ringRefusal channel .into = .ok n) :
    let count := ringReadCount n (s.chan n) largest.toNat
    ringReadTaken channel largest s = ((s.modChan n fun c => c.afterRead count).replyStream .ok
      (ringReply channel count ((s.chan n).afterRead count).level ++
        loadRing (s.chan n) s.stm.bytes count (s.chan n).take)).settle := by
  intro count
  have rearmed : ({ s.chan n with take := (s.chan n).take + BitVec.ofNat 32 count } : Channel).rearmMark =
      (s.chan n).afterRead count := Channel.rearmMark_into (ringRefusal_ok allowed).2
  have read : (s.modChan n fun c => { c with take := c.take + BitVec.ofNat 32 count }.rearmMark) =
      s.modChan n fun c => c.afterRead count := modChan_congr rearmed
  have level : (s.modChan n fun c => c.afterRead count).chan n = (s.chan n).afterRead count := by simp
  unfold ringReadTaken
  rw [allowed]
  dsimp only
  rw [read, level]

/-- A RING_WRITE that is not refused stores what finds room and is answered with the level it leaves. -/
theorem ringWrite_allowed (h : s.ready .stream) {data : List Byte} (fits : data.length ≤ 1024)
    (allowed : s.ringRefusal channel .out = .ok n) {accepted : Nat}
    (room : min data.length (s.chan n).freeSpace = accepted) :
    exec (.ringWrite tag channel data) s = .next ((s.ringWritten n data accepted).replyAtOnce
      ⟨0xE8, if accepted = data.length then 0x00 else 0x01, tag,
        ringReply channel accepted ((s.chan n).afterWrite accepted).level⟩).settle := by
  have code : (if accepted = data.length then Status.ok else .partialOk).code =
      if accepted = data.length then 0x00 else 0x01 := apply_ite ..
  subst room
  rw [← code, exec_ringWrite h fits, ringWriteTaken_allowed (s := s.beginRequest .stream 0x68 tag) allowed]
  exact congrArg (fun t => Host.Outcome.next (State.settle t))
    (replyStream_begin (s := s.ringWritten ..) h.idle _ _)

/-- A RING_READ that is not refused is answered with the bytes from take onward and the level it leaves. -/
theorem ringRead_allowed (h : s.ready .stream) {largest : Half} (allowed : s.ringRefusal channel .into = .ok n) :
    let count := ringReadCount n (s.chan n) largest.toNat
    exec (.ringRead tag channel largest) s = .next ((s.modChan n fun c => c.afterRead count).replyAtOnce
      ⟨0xE9, Status.ok.code, tag, ringReply channel count ((s.chan n).afterRead count).level ++
        loadRing (s.chan n) s.stm.bytes count (s.chan n).take⟩).settle := by
  intro count
  rw [exec_ringRead h, ringReadTaken_allowed (s := s.beginRequest .stream 0x69 tag) allowed]
  exact congrArg (fun t => Host.Outcome.next (State.settle t))
    (replyStream_begin (s := s.modChan n fun c => c.afterRead count) h.idle _ _)

end Traffic

/-- Settles O54: the requests by what their checks answer, and the storage by the addresses of the ring's positions. -/
theorem ringTrafficMovesData : Obligations.RingTrafficMovesData := by
  refine ⟨fun s tag channel data h fits => ?writes, fun s tag largest channel h => ?reads,
    fun c r m p data ring wf fits => ⟨loadRing_storeRing ring wf fits, fun x apart => read_storeRing_of_ne wf apart,
      Channel.address_in_ring ring⟩⟩
  case writes =>
    intro answer
    refine ⟨fun above => ringWrite_refused h fits (ringRefusal_above above), fun n named => ?_⟩
    intro c accepted
    refine ⟨fun free => ringWrite_refused h fits (ringRefusal_free named free),
      fun notFree into => ringWrite_refused h fits (ringRefusal_direction named notFree (by rw [into]; nofun)),
      fun notFree out => ringWrite_allowed h fits (ringRefusal_none named notFree out) (min_def ..)⟩
  case reads =>
    intro answer
    refine ⟨fun above => ringRead_refused h (ringRefusal_above above), fun n named => ?_⟩
    intro c
    exact ⟨fun free => ringRead_refused h (ringRefusal_free named free),
      fun notFree out => ringRead_refused h (ringRefusal_direction named notFree (by rw [out]; nofun)),
      fun notFree into => ⟨ringReadCount n c largest.toNat, le_ringReadCount_iff n c largest.toNat,
        ringRead_allowed h (ringRefusal_none named notFree into)⟩⟩

end Sys2Proof.Machine
end

