-- ==== Sys2Proof/Proofs/ReportPipe.lean ====
section
/-! PROOF. The report pipe sends replies and notices in turn (O5). -/

namespace Sys2Proof.Machine

open Sys2Proof

/-- The part once a reply has left its queue for the report pipe. -/
def State.sendsReply (s : State) (f : Frame) (rest : List Frame) : State :=
  { s with ml := { s.ml with sending := some f, replies := rest, lastClass := .reply } }

/-- The part once a notice has left its queue for the report pipe: its input is no longer queued (R161). -/
def State.sendsNotice (s : State) (n : Notice) (rest : List Notice) : State :=
  { (match n.input with
      | some i => s.modInput i fun x => { x with queued := false }
      | none => s) with
    ml := { s.ml with sending := some n.frame, notices := rest, lastClass := .notice } }

/-- The pipe's turn (R179): a reply where there is one, and of two heads the class other than the one sent last. -/
theorem nextClass_reply {m : Ml} {f : Frame} {rest : List Frame} (replies : m.replies = f :: rest)
    (turn : m.notices = [] ∨ m.lastClass = .notice) : m.nextClass = some .reply := by
  unfold Ml.nextClass
  rw [replies]
  cases notices : m.notices with
  | nil => rfl
  | cons n ns => exact if_pos (turn.resolve_left (by simp [notices]))

theorem nextClass_notice {m : Ml} {n : Notice} {rest : List Notice} (notices : m.notices = n :: rest)
    (turn : m.replies = [] ∨ m.lastClass = .reply) : m.nextClass = some .notice := by
  unfold Ml.nextClass
  rw [notices]
  cases replies : m.replies with
  | nil => rfl
  | cons f fs => exact if_neg (by simp [turn.resolve_left (by simp [replies])])

theorem nextClass_none {m : Ml} (replies : m.replies = []) (notices : m.notices = []) : m.nextClass = none := by
  unfold Ml.nextClass
  rw [replies, notices]

theorem transmit_reply {m : Ml} {f : Frame} {rest : List Frame} (replies : m.replies = f :: rest) :
    m.transmit .reply = { m with sending := some f, replies := rest, lastClass := .reply } := by
  unfold Ml.transmit
  rw [replies]

theorem transmit_notice {m : Ml} {n : Notice} {rest : List Notice} (notices : m.notices = n :: rest) :
    m.transmit .notice = { m with sending := some n.frame, notices := rest, lastClass := .notice } := by
  unfold Ml.transmit
  rw [notices]

/-- The notice that leaves takes its input out of the queued ones, and all else that changes is the link. -/
theorem unqueue_transmit {s : State} {n : Notice} {rest : List Notice} (notices : s.ml.notices = n :: rest) :
    (s.unqueue.updMl fun m => m.transmit .notice) = s.sendsNotice n rest := by
  have link {t : State} (ml : t.ml = s.ml) : (t.updMl fun m => m.transmit .notice) =
      { t with ml := { s.ml with sending := some n.frame, notices := rest, lastClass := .notice } } := by
    unfold State.updMl
    rw [ml, ← transmit_notice notices]
  have head : s.ml.notices.head?.bind (·.input) = n.input := by rw [notices]; rfl
  unfold State.unqueue State.sendsNotice
  rw [head]
  cases n.input with
  | none => exact link rfl
  | some i => exact link rfl

section Transmits

variable {s : State}

/-- The pipe is open for a frame: none is in transmission and the link is UP (R179). -/
theorem frameTransmits_open (up : s.ml.up = true) (idle : s.ml.sending = none) : frameTransmits s =
    match s.ml.nextClass with
    | some .reply => (s.updMl fun m => m.transmit .reply).admitOffers
    | some .notice => (s.unqueue.updMl fun m => m.transmit .notice).admitOffers
    | none => s :=
  if_pos ⟨up, idle⟩

theorem frameTransmits_reply {f : Frame} {rest : List Frame} (up : s.ml.up = true) (idle : s.ml.sending = none)
    (replies : s.ml.replies = f :: rest) (turn : s.ml.notices = [] ∨ s.ml.lastClass = .notice) :
    frameTransmits s = (s.sendsReply f rest).admitOffers := by
  rw [frameTransmits_open up idle, nextClass_reply replies turn]
  exact congrArg (fun m => State.admitOffers { s with ml := m }) (transmit_reply replies)

theorem frameTransmits_notice {n : Notice} {rest : List Notice} (up : s.ml.up = true) (idle : s.ml.sending = none)
    (notices : s.ml.notices = n :: rest) (turn : s.ml.replies = [] ∨ s.ml.lastClass = .reply) :
    frameTransmits s = (s.sendsNotice n rest).admitOffers := by
  rw [frameTransmits_open up idle, nextClass_notice notices turn]
  exact congrArg State.admitOffers (unqueue_transmit notices)

theorem frameTransmits_closed (h : s.ml.up = false ∨ s.ml.sending ≠ none ∨ (s.ml.replies = [] ∧ s.ml.notices = [])) :
    frameTransmits s = s := by
  by_cases free : s.ml.up = true ∧ s.ml.sending = none
  case neg => exact if_neg free
  case pos =>
    obtain ⟨up, idle⟩ := free
    obtain ⟨replies, notices⟩ := (h.resolve_left (by simp [up])).resolve_left (by simp [idle])
    rw [frameTransmits_open up idle, nextClass_none replies notices]

end Transmits

/-- Settles O5, by whose turn it is. -/
theorem reportPipeAlternates : Obligations.ReportPipeAlternates :=
  ⟨fun _ _ _ up idle replies turn => congrArg Host.Outcome.next (frameTransmits_reply up idle replies turn),
    fun _ _ _ up idle notices turn => congrArg Host.Outcome.next (frameTransmits_notice up idle notices turn),
    fun _ h => congrArg Host.Outcome.next (frameTransmits_closed h)⟩

end Sys2Proof.Machine
end

