-- ==== Sys2Proof/Proofs/Notices.lean ====
section
/-! SUPPORT. The inputs and their notices in the queue agree (R153, R157, R160, R161): which work leaves both alone, and
why the work that touches either keeps the agreement. -/

namespace Sys2Proof.Machine

open Sys2Proof

/-! ## One input and its notices -/

/-- An input agrees with the number of its notices in the queue. -/
structure Input.Agrees (x : Input) (notices : Nat) : Prop where
  queued   : notices = if x.queued then 1 else 0
  notified : x.queued = true → x.state = .notified
  off      : x.mode = .off → x.state = .idle
  lost     : x.lost ≤ 65535

/-- The notices of an input in the queue. -/
def Ml.noticesOf (m : Ml) (i : InputId) : Nat := m.notices.countP fun n => n.input == some i

theorem noticesSound_iff (s : State) : s.NoticesSound ↔ ∀ i, (s.input i).Agrees (s.ml.noticesOf i) :=
  ⟨fun h i => ⟨h.queued i, h.notified i, h.off i, h.lost i⟩,
    fun h => ⟨fun i => (h i).queued, fun i => (h i).notified, fun i => (h i).off, fun i => (h i).lost⟩⟩

namespace Input.Agrees

variable {x y : Input} {n : Nat}

/-- The agreement is about these four fields. -/
theorem congr (h : x.Agrees n) (queued : y.queued = x.queued) (state : y.state = x.state) (mode : y.mode = x.mode)
    (lost : y.lost = x.lost) : y.Agrees n :=
  ⟨by rw [queued]; exact h.queued, by rw [queued, state]; exact h.notified, by rw [mode, state]; exact h.off,
    by rw [lost]; exact h.lost⟩

theorem unqueued (h : x.Agrees n) (state : x.state ≠ .notified) : x.queued = false :=
  Bool.eq_false_iff.mpr fun queued => state (h.notified queued)

/-- An input that is not queued has no notice, and may change to any other that is not. -/
theorem changed (h : x.Agrees n) (before : x.queued = false) (after : y.queued = false)
    (off : y.mode = .off → y.state = .idle) (lost : y.lost ≤ 65535) : y.Agrees n :=
  ⟨by rw [h.queued, before, after], by rw [after]; nofun, off, lost⟩

/-- A capture of an IDLE input (R157, R158). -/
theorem captured (h : x.Agrees n) (idle : x.state = .idle) (on : x.mode ≠ .off) (mode : y.mode = x.mode)
    (queued : y.queued = x.queued) (lost : y.lost = x.lost) : y.Agrees n := by
  have before := h.unqueued (by rw [idle]; nofun)
  exact h.changed before (queued.trans before) (fun off => absurd (mode.symm.trans off) on) (lost ▸ h.lost)

theorem activated (h : x.Agrees n) (time : Word) (snapshot : List SnapshotEntry) :
    (x.activated time snapshot).Agrees n := by
  have loses : { x with lost := if x.lost < 65535 then x.lost + 1 else x.lost }.Agrees n :=
    ⟨h.queued, h.notified, h.off, by have := h.lost; dsimp only; split <;> omega⟩
  unfold Input.activated
  split
  case h_1 on idle | h_4 on idle => exact h.captured idle (by rw [on]; nofun) rfl rfl rfl
  case h_2 => exact loses
  case h_3 => split; exacts [loses, h.congr rfl rfl rfl rfl]
  case h_5 | h_6 | h_7 => exact h

theorem watchedFrom (h : x.Agrees n) (active : Bool) (time : Word) (snapshot : List SnapshotEntry) :
    (x.watchedFrom active time snapshot).Agrees n := by
  unfold Input.watchedFrom
  split
  case isTrue captures =>
    obtain ⟨level, -, idle⟩ := captures
    exact h.captured idle (by rw [level]; nofun) rfl rfl rfl
  case isFalse => exact h.congr rfl rfl rfl rfl

theorem sampled (h : x.Agrees n) (slots : Vector Slot 4) (cards : Cards) (i : InputId) :
    (x.sampled slots cards i).Agrees n := by
  unfold Input.sampled
  split
  · split
    · exact h.congr rfl rfl rfl rfl
    · split <;> exact h.congr rfl rfl rfl rfl
  · exact h

/-- A link reset, which empties the queue (R170). -/
theorem renotified (h : x.Agrees n) : x.renotify.Agrees 0 := by
  unfold Input.renotify
  split
  case isTrue notified =>
    have on : x.mode ≠ .off := fun off => by rw [h.off off] at notified; cases notified
    exact ⟨rfl, nofun, fun off => absurd off on, h.lost⟩
  case isFalse other =>
    have unqueued := h.unqueued other
    exact ⟨by rw [unqueued]; rfl, h.notified, h.off, h.lost⟩

end Input.Agrees

/-! ## Work that leaves the inputs and the notices -/

section Elsewhere

variable {s t : State}

theorem noticesSound_congr (inputs : t.inputs = s.inputs) (notices : t.ml.notices = s.ml.notices) :
    t.NoticesSound ↔ s.NoticesSound := by
  have input : t.input = s.input := by unfold State.input; rw [inputs]
  simp only [noticesSound_iff, Ml.noticesOf, input, notices]

variable (s)

@[simp] theorem updBcu_noticesSound (f : Bcu → Bcu) : (s.updBcu f).NoticesSound ↔ s.NoticesSound :=
  noticesSound_congr rfl rfl
@[simp] theorem updSbc_noticesSound (f : Sbc → Sbc) : (s.updSbc f).NoticesSound ↔ s.NoticesSound :=
  noticesSound_congr rfl rfl
@[simp] theorem updRmap_noticesSound (f : Rmap → Rmap) : (s.updRmap f).NoticesSound ↔ s.NoticesSound :=
  noticesSound_congr rfl rfl
@[simp] theorem updAe_noticesSound (f : Ae → Ae) : (s.updAe f).NoticesSound ↔ s.NoticesSound :=
  noticesSound_congr rfl rfl
@[simp] theorem updStm_noticesSound (f : Stm → Stm) : (s.updStm f).NoticesSound ↔ s.NoticesSound :=
  noticesSound_congr rfl rfl
@[simp] theorem updCards_noticesSound (f : Cards → Cards) : (s.updCards f).NoticesSound ↔ s.NoticesSound :=
  noticesSound_congr rfl rfl
@[simp] theorem updMeasure_noticesSound (f : Measure → Measure) : (s.updMeasure f).NoticesSound ↔ s.NoticesSound :=
  noticesSound_congr rfl rfl
@[simp] theorem setChanReply_noticesSound (r : Option ChanId) : (s.setChanReply r).NoticesSound ↔ s.NoticesSound :=
  noticesSound_congr rfl rfl
@[simp] theorem setFree_noticesSound (n : Nat) : ({ s with free := n } : State).NoticesSound ↔ s.NoticesSound :=
  noticesSound_congr rfl rfl
@[simp] theorem modSlot_noticesSound (i : SlotId) (f : Slot → Slot) : (s.modSlot i f).NoticesSound ↔ s.NoticesSound :=
  noticesSound_congr rfl rfl
@[simp] theorem modChan_noticesSound (n : ChanId) (f : Channel → Channel) :
    (s.modChan n f).NoticesSound ↔ s.NoticesSound :=
  noticesSound_congr rfl rfl
@[simp] theorem beginRequest_noticesSound (p : Pipe) (kind : Byte) (tag : Half) :
    (s.beginRequest p kind tag).NoticesSound ↔ s.NoticesSound :=
  noticesSound_congr rfl (by cases p <;> rfl)
@[simp] theorem replyAtOnce_noticesSound (f : Frame) : (s.replyAtOnce f).NoticesSound ↔ s.NoticesSound :=
  noticesSound_congr rfl rfl
@[simp] theorem replyCommand_noticesSound (status : Status) (payload : List Byte) :
    (s.replyCommand status payload).NoticesSound ↔ s.NoticesSound :=
  noticesSound_congr (by simp) (by simp [replyCommand_eq])
@[simp] theorem replyStream_noticesSound (status : Status) (payload : List Byte) :
    (s.replyStream status payload).NoticesSound ↔ s.NoticesSound :=
  noticesSound_congr (by simp [replyStream_eq]) (by simp [replyStream_eq])

@[simp] theorem answerSlot_noticesSound (i : SlotId) (status : Status) :
    (s.answerSlot i status).NoticesSound ↔ s.NoticesSound := by
  obtain ⟨-, e⟩ | ⟨-, payload, e⟩ := answerSlot_eq s i status <;> simp [e]

@[simp] theorem answerChannel_noticesSound (n : ChanId) : (s.answerChannel n).NoticesSound ↔ s.NoticesSound := by
  obtain ⟨-, e⟩ | ⟨-, payload, e⟩ := answerChannel_eq s n <;> simp [e]

@[simp] theorem answerClock_noticesSound : s.answerClock.NoticesSound ↔ s.NoticesSound := by
  obtain ⟨-, e⟩ | ⟨-, payload, e⟩ := answerClock_eq s <;> simp [e]

@[simp] theorem endAccess_noticesSound (status : Status) : (s.endAccess status).NoticesSound ↔ s.NoticesSound := by
  unfold State.endAccess
  dsimp only
  split <;> simp

@[simp] theorem freeBus_noticesSound : s.freeBus.NoticesSound ↔ s.NoticesSound := noticesSound_congr rfl rfl
@[simp] theorem handResult_noticesSound (r : CycleResult) : (s.handResult r).NoticesSound ↔ s.NoticesSound :=
  noticesSound_congr rfl rfl
@[simp] theorem recordFault_noticesSound (i : SlotId) (kind : FaultKind) (c : Cycle) :
    (s.recordFault i kind c).NoticesSound ↔ s.NoticesSound :=
  noticesSound_congr rfl rfl
@[simp] theorem beginTransfer_noticesSound (n : ChanId) : (s.beginTransfer n).NoticesSound ↔ s.NoticesSound :=
  noticesSound_congr rfl rfl
@[simp] theorem serveChannel_noticesSound (n : ChanId) : (s.serveChannel n).NoticesSound ↔ s.NoticesSound := by
  simp [serveChannel_eq]

@[simp] theorem serveChannels_noticesSound : s.serveChannels.NoticesSound ↔ s.NoticesSound := by
  rw [serveChannels_only]
  exact noticesSound_congr rfl rfl

@[simp] theorem beginAccessCycle_noticesSound : s.beginAccessCycle.NoticesSound ↔ s.NoticesSound := by
  obtain e | ⟨u, p, -, -, -, e⟩ | ⟨p, e⟩ := beginAccessCycle_cases s
  · simp [e]
  · simp [e, State.runPlan]
  · simp [e]

@[simp] theorem arbitrate_noticesSound : s.arbitrate.NoticesSound ↔ s.NoticesSound := by
  unfold State.arbitrate
  split
  · split
    · rfl
    · exact noticesSound_congr rfl rfl
    · simp
    · simp
  · rfl

@[simp] theorem decidePoll_noticesSound (a : PollAccess) : (decidePoll a s).NoticesSound ↔ s.NoticesSound := by
  unfold decidePoll
  split
  · simp
  · split <;> simp

@[simp] theorem runPoll_noticesSound (a : PollAccess) : (runPoll a s).NoticesSound ↔ s.NoticesSound := by
  unfold runPoll
  dsimp only
  split
  · simp
  · split <;> simp

@[simp] theorem runPair_noticesSound (a : PairAccess) : (runPair a s).NoticesSound ↔ s.NoticesSound := by
  unfold runPair
  split
  · dsimp only; split <;> simp
  · simp

@[simp] theorem runString_noticesSound (a : StringAccess) (left : Nat) :
    (runString a left s).NoticesSound ↔ s.NoticesSound := by
  induction left generalizing s with
  | zero => exact endAccess_noticesSound s .ok
  | succ left ih =>
    unfold runString
    dsimp only
    split
    · simp
    · split <;> simp [ih]

@[simp] theorem beginAccess_noticesSound (a : Access) : (s.beginAccess a).NoticesSound ↔ s.NoticesSound := by
  cases a <;> simp [State.beginAccess]

@[simp] theorem accessBoundary_noticesSound : s.accessBoundary.NoticesSound ↔ s.NoticesSound := by
  unfold State.accessBoundary continuePoll
  split
  · simp
  · split
    · simp
    · split
      · simp
      · simp
      · dsimp only; split <;> simp
      · rfl

@[simp] theorem continueGrant_noticesSound : s.continueGrant.NoticesSound ↔ s.NoticesSound := by
  unfold State.continueGrant
  split
  · split <;> simp
  · split <;> simp
  · simp

@[simp] theorem takeResult_noticesSound (c : Cycle) (timedOut : Bool) (data : Half) :
    (s.takeResult c timedOut data).NoticesSound ↔ s.NoticesSound := by
  unfold State.takeResult State.applyTransfer State.takeAccessResult
  split
  · simp
  · dsimp only
    split
    · simp
    · split <;> simp
  · split
    · split <;> simp
    · rfl
  · rfl

@[simp] theorem cutCycle_noticesSound (i : SlotId) : (s.cutCycle i).NoticesSound ↔ s.NoticesSound := by
  unfold State.cutCycle
  split
  · rfl
  · split
    · dsimp only
      split
      · simp
      · split <;> simp
    · rfl

end Elsewhere

/-! ## Work on the inputs and their notices -/

namespace State.NoticesSound

variable {s : State}

theorem elsewhere {t : State} (h : s.NoticesSound) (inputs : t.inputs = s.inputs)
    (notices : t.ml.notices = s.ml.notices) : t.NoticesSound := (noticesSound_congr inputs notices).mpr h

theorem agrees (h : s.NoticesSound) (i : InputId) : (s.input i).Agrees (s.ml.noticesOf i) := (noticesSound_iff s).mp h i

/-- What every update of a fold keeps, the fold keeps. -/
theorem foldl {α : Type} {f : α → State → State} (h : s.NoticesSound)
    (each : ∀ a s, s.NoticesSound → (f a s).NoticesSound) (l : List α) :
    (l.foldl (fun s a => f a s) s).NoticesSound :=
  List.foldlRecOn l _ h fun s hs a _ => each a s hs

/-- An input changes to one that agrees with as many notices. -/
theorem modInput (h : s.NoticesSound) {i : InputId} {f : Input → Input}
    (agree : ∀ n, (s.input i).Agrees n → (f (s.input i)).Agrees n) : (s.modInput i f).NoticesSound := by
  refine (noticesSound_iff _).mpr fun j => ?_
  rw [State.modInput_input]
  split
  case isTrue own => exact own ▸ agree _ (h.agrees i)
  case isFalse => exact h.agrees j

/-- A withdrawn notice leaves the queue, and its input is no longer queued (R161). -/
theorem withdraw (h : s.NoticesSound) (i : InputId) : (s.withdraw i).NoticesSound := by
  cases queued : (s.input i).queued with
  | false =>
    have same : s.withdraw i = s := if_neg (by simp [queued])
    rwa [same]
  | true =>
    refine (noticesSound_iff _).mpr fun j => ?_
    have count : (s.withdraw i).ml.noticesOf j = if i = j then 0 else s.ml.noticesOf j := by
      unfold Ml.noticesOf
      rw [withdraw_notices, List.countP_filter]
      split
      case isTrue own => subst own; simp [queued]
      case isFalse other =>
        refine List.countP_congr fun n _ => ?_
        have apart : n.input = some j → n.input ≠ some i := fun e e' => other (Option.some.inj (e'.symm.trans e))
        simp only [Bool.and_eq_true, beq_iff_eq, decide_eq_true_eq]
        exact ⟨And.left, fun e => ⟨e, fun both => apart e both.2⟩⟩
    rw [withdraw_input, count]
    split
    case isTrue own => exact ⟨rfl, nofun, (h.agrees i).off, (h.agrees i).lost⟩
    case isFalse => exact h.agrees j

theorem withdraw_unqueued (s : State) (i : InputId) : ((s.withdraw i).input i).queued = false := by
  rw [withdraw_input, if_pos rfl]

/-- An input whose notice is withdrawn may change to any other that is not queued. -/
theorem withdrawn (h : s.NoticesSound) {i : InputId} {f : Input → Input}
    (queued : (f ((s.withdraw i).input i)).queued = false)
    (off : (f ((s.withdraw i).input i)).mode = .off → (f ((s.withdraw i).input i)).state = .idle)
    (lost : (f ((s.withdraw i).input i)).lost ≤ 65535) : ((s.withdraw i).modInput i f).NoticesSound :=
  (h.withdraw i).modInput fun _ agrees => agrees.changed (withdraw_unqueued s i) queued off lost

theorem releaseInput (h : s.NoticesSound) (i : InputId) : (s.releaseInput i).NoticesSound :=
  h.withdrawn (withdraw_unqueued s i) (fun _ => rfl) (Nat.zero_le _)

theorem beginWatch (h : s.NoticesSound) (i : InputId) : (s.beginWatch i).NoticesSound := by
  by_cases watched : s.watched i = true
  · rw [beginWatch_watched watched]
    exact h.modInput fun _ agrees => agrees.watchedFrom ..
  · have same : s.beginWatch i = s := if_neg watched
    rwa [same]

theorem suspendSampling (h : s.NoticesSound) : s.suspendSampling.NoticesSound :=
  h.foldl (fun i s h => by
    split
    · exact h.modInput fun _ agrees => agrees.congr rfl rfl rfl rfl
    · exact h) _

theorem sampleInputs (h : s.NoticesSound) : s.sampleInputs.NoticesSound := by
  unfold State.sampleInputs
  split
  · exact h.foldl (fun i s h => sampleInput_eq s i ▸ h.modInput fun _ agrees => agrees.sampled ..) _
  · exact h

/-- An activation captures or counts a lost edge, and can wake the clock (R157, R158, R168). -/
theorem activation (h : s.NoticesSound) (i : InputId) : (s.activation i).NoticesSound := by
  have applied : (s.applyActivation i).NoticesSound := by
    rw [applyActivation_eq]
    exact h.modInput fun _ agrees => agrees.activated ..
  exact applied.elsewhere (by rw [activation_eq]) (by rw [activation_eq])

theorem countChange (h : s.NoticesSound) (i : InputId) (active : Bool) : (s.countChange i active).NoticesSound := by
  have counted : (s.modInput i fun x => { x with active := active, run := 0, changeDue := false }).NoticesSound :=
    h.modInput fun _ agrees => agrees.congr rfl rfl rfl rfl
  unfold State.countChange
  dsimp only
  split
  · exact counted.activation i
  · exact counted

/-- An acknowledged input becomes PENDING or IDLE, its notice withdrawn (R163). -/
theorem acknowledge (h : s.NoticesSound) (i : InputId) : (s.acknowledge i).NoticesSound := by
  have unqueued := withdraw_unqueued s i
  have mode : ((s.withdraw i).input i).mode = (s.input i).mode := by rw [withdraw_input, if_pos rfl]
  have lost := ((h.withdraw i).agrees i).lost
  unfold State.acknowledge State.capture
  dsimp only
  split
  case isTrue edge =>
    rw [modInput_modInput]
    exact h.withdrawn unqueued (fun off => by rw [mode, edge.1] at off; cases off) lost
  case isFalse =>
    split
    case isTrue level => exact h.withdrawn unqueued (fun off => by rw [mode, level.1] at off; cases off) lost
    case isFalse => exact h.withdrawn unqueued (fun _ => rfl) lost

/-! ### Admission (R160, R178) -/

theorem noticeOf_input (s : State) (a : Source) (i : InputId) : (s.noticeOf a).input = some i ↔ .input i = a := by
  cases a with
  | input j => simp [State.noticeOf, State.interruptNotice, eq_comm]
  | slotFault | busFault | channel => simp [State.noticeOf, State.slotFaultNotice, State.busFaultNotice, State.channelNotice]
  | woke => unfold State.noticeOf; cases s.bcu.woke <;> simp

/-- An admitted input was PENDING, so it had no notice in the queue; now it has one. -/
theorem takeOffer (h : s.NoticesSound) {a : Source} (offered : s.offers a = true) : (s.takeOffer a).NoticesSound := by
  refine (noticesSound_iff _).mpr fun i => ?_
  have count : (s.takeOffer a).ml.noticesOf i = s.ml.noticesOf i + if .input i = a then 1 else 0 := by
    unfold Ml.noticesOf
    simp [takeOffer_ml, List.countP_append, List.countP_singleton, noticeOf_input]
  have agrees := h.agrees i
  rw [count, takeOffer_input]
  split
  case isTrue own =>
    subst own
    have pending : (s.input i).state = .pending := by
      simp only [State.offers, Bool.and_eq_true, beq_iff_eq] at offered
      exact offered.1
    have none := agrees.queued
    rw [agrees.unqueued (by rw [pending]; nofun)] at none
    have on : (s.input i).mode ≠ .off := fun off => by rw [agrees.off off] at pending; cases pending
    exact ⟨by rw [none]; rfl, fun _ => rfl, fun off => absurd off on, Nat.zero_le _⟩
  case isFalse => exact agrees

@[simp] theorem admitted (h : s.NoticesSound) : s.admitOffers.NoticesSound := by
  rw [admitOffers_eq_foldl]
  refine List.foldlRecOn _ _ h fun s h a _ => ?_
  rw [admit_eq]
  split
  case isTrue taken => exact h.takeOffer taken.2
  case isFalse => exact h

/-! ### Slots, the clock and the follow-on work of an event -/

theorem halted (h : s.NoticesSound) (i : SlotId) (cause : HaltCause) : (s.haltSlotChannels i cause).NoticesSound :=
  h.foldl (fun n s h => by split <;> simp [h]) _

theorem released (h : s.NoticesSound) (i : SlotId) : (s.releaseSlotInputs i).NoticesSound :=
  h.foldl (fun j s h => by split; exacts [h.releaseInput j, h]) _

theorem watched (h : s.NoticesSound) (i : SlotId) : (s.watchSlot i).NoticesSound :=
  h.foldl (fun j s h => by split; exacts [h.beginWatch j, h]) _

/-- Work that is made on a condition. -/
theorem ite {p : Prop} [Decidable p] {t u : State} (h : p → t.NoticesSound) (k : ¬ p → u.NoticesSound) :
    (if p then t else u).NoticesSound := by
  split
  case isTrue yes => exact h yes
  case isFalse no => exact k no

@[simp] theorem entered (h : s.NoticesSound) (i : SlotId) (new : SlotState) : (s.enterState i new).NoticesSound := by
  have entered : (s.modSlot i fun t => { t with state := new, softRun := 0 }).NoticesSound := by simp [h]
  have left (p : Prop) [Decidable p] {t : State} (h : t.NoticesSound) :
      (if p then (t.haltSlotChannels i (leaveCause new)).releaseSlotInputs i else t).NoticesSound :=
    ite (fun _ => (h.halted i _).released i) fun _ => h
  have cleared (p : Prop) [Decidable p] {t : State} (h : t.NoticesSound) :
      (if p then t.updRmap fun m => m.clearSlot i else t).NoticesSound := ite (fun _ => by simp [h]) fun _ => h
  have told := cleared (new = .resetting ∨ new = .off ∨ new = .fault)
    (left ((s.slot i).state = .enabled ∧ new ≠ .enabled) entered)
  exact ite (fun _ => told.watched i) fun _ => told

@[simp] theorem madeChange (h : s.NoticesSound) (i : SlotId) (change : SlotChange) :
    (s.makeChange i change).NoticesSound := by
  cases change <;> simp [State.makeChange, h]

theorem chanBoundaries (h : s.NoticesSound) : s.chanBoundaries.NoticesSound :=
  h.foldl (fun n s h => by
    unfold State.chanBoundary State.releaseChannel
    simp [apply_ite State.NoticesSound, h]) _

theorem slotBoundaries (h : s.NoticesSound) : s.slotBoundaries.NoticesSound :=
  h.foldl (fun i s h => by
    unfold State.slotBoundary
    split
    · simp [apply_ite State.NoticesSound, h]
    · exact h) _

theorem clockBoundary (h : s.NoticesSound) : s.clockBoundary.NoticesSound := by
  unfold State.clockBoundary
  split
  · exact h
  · split
    · simp [apply_ite State.NoticesSound, h]
    · simp [apply_ite State.NoticesSound, suspendSampling, h]
    · exact h

/-- The follow-on work of an event (log 14). -/
@[simp] theorem settled (h : s.NoticesSound) : s.settle.NoticesSound :=
  admitted (by simpa using (serveChannels_noticesSound _).mpr h.chanBoundaries.slotBoundaries |>.clockBoundary)

@[simp] theorem finished (h : s.NoticesSound) (c : Cycle) (timedOut : Bool) (data : Half) (length : Nat) :
    (s.finishCycle c timedOut data length).NoticesSound := by
  unfold State.finishCycle
  have taken (t : State) (ht : t.NoticesSound) : (t.takeResult c timedOut data).chanBoundaries.slotBoundaries.NoticesSound :=
    ((takeResult_noticesSound t ..).mpr ht).chanBoundaries.slotBoundaries
  simp [taken, h]

@[simp] theorem tripped (h : s.NoticesSound) (i : SlotId) (kind : TripKind) (reading : Nat) :
    (s.trip i kind reading).NoticesSound := by
  unfold State.trip
  simp [apply_ite State.NoticesSound, h]

theorem measured (h : s.NoticesSound) (i : SlotId) (draw : Nat) : (s.measureSlot i draw).NoticesSound := by
  unfold State.measureSlot
  dsimp only
  split <;> simp [apply_ite State.NoticesSound, h]

end State.NoticesSound

end Sys2Proof.Machine
end

