-- ==== Sys2Proof/Proofs/NoticesStaySound.lean ====
section
/-! PROOF. Every request and every event keeps the inputs and their notices in agreement, and so does every step
(O60). -/

namespace Sys2Proof.Machine

open Sys2Proof

/-- A request's owner keeps the inputs and their notices in agreement. -/
def KeepsNotices (handle : State → State) : Prop := ∀ s, s.NoticesSound → (handle s).NoticesSound

namespace KeepsNotices

open State.NoticesSound

/-! ## Requests taken: answers, settled work, and the requests on slots and inputs -/

theorem withSlot {slot : Byte} {n : Nat} {f : State → SlotId → State} (each : ∀ i, KeepsNotices fun s => f s i) :
    KeepsNotices fun s => s.withSlot slot n (f s) := fun s h => by
  dsimp only [State.withSlot]
  split
  · exact each _ s h
  · simp [h]

theorem withChan {channel : Byte} {n : Nat} {f : State → ChanId → State} (each : ∀ c, KeepsNotices fun s => f s c) :
    KeepsNotices fun s => s.withChan channel n (f s) := fun s h => by
  dsimp only [State.withChan]
  split
  · exact each _ s h
  · simp [h]

/-! ### The clock and the slot bus (chapters 1 and 2) -/

theorem setClock (target : Half) : KeepsNotices (setClockTaken target) := fun s h => by
  unfold setClockTaken State.refuseSetClock
  dsimp only
  split
  · simp [h]
  · split <;> simp [apply_ite State.NoticesSound, h]

theorem park : KeepsNotices parkTaken := fun s h => by
  unfold parkTaken
  split <;> simp [apply_ite State.NoticesSound, h]

theorem wake : KeepsNotices wakeTaken := fun s h => by
  unfold wakeTaken
  split <;> simp [h]

theorem clockStop : KeepsNotices clockStopTaken := fun s h => by
  unfold clockStopTaken
  split <;> simp [apply_ite State.NoticesSound, h]

theorem setTiming (cls ioWs memWs : Byte) : KeepsNotices (setTimingTaken cls ioWs memWs) := fun s h => by
  unfold setTimingTaken
  split <;> simp [apply_ite State.NoticesSound, h]

theorem setReadyLimit (limit : Byte) : KeepsNotices (setReadyLimitTaken limit) := fun s h => by
  simp [setReadyLimitTaken, h]

theorem setRefresh (interval : Byte) : KeepsNotices (setRefreshTaken interval) := fun s h => by
  simp [setRefreshTaken, h]

theorem busStatus : KeepsNotices busStatusTaken := fun s h => by simp [busStatusTaken, h]

/-! ### Slot power (chapter 3) -/

theorem powerOn (slot : Byte) : KeepsNotices (powerOnTaken slot) := withSlot fun i s h => by
  dsimp only
  split <;> simp [apply_ite State.NoticesSound, h]

theorem powerOff (slot : Byte) : KeepsNotices (powerOffTaken slot) := withSlot fun i s h => by
  dsimp only
  split
  · simp [h]
  · split <;> simp [h]

theorem isolate (slot : Byte) : KeepsNotices (isolateTaken slot) := withSlot fun i s h => by
  dsimp only
  split
  · simp [h]
  · split <;> simp [h]

theorem connect (slot : Byte) : KeepsNotices (connectTaken slot) := withSlot fun i s h => by
  dsimp only
  split <;> simp [h]

theorem slotReset (slot width : Byte) : KeepsNotices (slotResetTaken slot width) := fun s h => by
  unfold slotResetTaken State.refuseReset
  split
  · simp [h]
  · dsimp only
    split
    · simp [h]
    · split
      · simp [h]
      · split <;> simp [h]

theorem setLimit (slot : Byte) (limit : Half) : KeepsNotices (setLimitTaken slot limit) :=
  withSlot fun i s h => by simp [h]

theorem slotStatus (slot : Byte) : KeepsNotices (slotStatusTaken slot) := withSlot fun i s h => by simp [h]

/-! ### The Resource Map (chapter 4) -/

theorem mapAdd (f : WindowFields) : KeepsNotices (mapAddTaken f) := fun s h => by
  unfold mapAddTaken
  split
  · simp [h]
  · split
    · simp [h]
    · split
      · simp [h]
      · split <;> simp [h]

theorem mapRemove (id : Byte) : KeepsNotices (mapRemoveTaken id) := fun s h => by
  unfold mapRemoveTaken
  split
  · simp [h]
  · split <;> simp [h]

theorem mapList : KeepsNotices mapListTaken := fun s h => by simp [mapListTaken, h]

theorem shadowRead (port : Half) (present index : Byte) : KeepsNotices (shadowReadTaken port present index) :=
  fun s h => by
  unfold shadowReadTaken
  dsimp only
  split
  · simp [h]
  · split <;> simp [h]

theorem shadowClear (present id : Byte) : KeepsNotices (shadowClearTaken present id) := fun s h => by
  unfold shadowClearTaken State.refuseShadowClear State.answerShadowClear
  split
  · simp [h]
  · simp [h]
  · split
    · simp [h]
    · split <;> simp [h]

/-! ### Accesses (chapter 5) -/

theorem startAccess (a : Access) : KeepsNotices fun s => s.startAccess a := fun s h => by
  dsimp only [State.startAccess, State.refuseAccess]
  split <;> simp [h]

theorem string (write : Bool) (space : Space) (f : AccessFields) (data : List Byte) :
    KeepsNotices (stringTaken write space f data) := fun s h => by
  unfold stringTaken State.refuseAccess
  split
  · simp [h]
  · split
    · exact startAccess _ s h
    · simp [h]

theorem pair (write : Bool) (f : PairFields) (data : List Byte) : KeepsNotices (pairTaken write f data) :=
  fun s h => by
  unfold pairTaken State.refuseAccess
  split
  · simp [h]
  · split
    · exact startAccess _ s h
    · simp [h]

theorem poll (f : PollFields) : KeepsNotices (pollTaken f) := fun s h => by
  have refused (s : State) (h : s.NoticesSound) (width : Byte) (status : Status) :
      (s.refusePoll width status).NoticesSound :=
    ((replyCommand_noticesSound s ..).mpr h).elsewhere (by simp [State.refusePoll]) rfl
  unfold pollTaken
  split
  · exact refused s h ..
  · split
    · exact refused s h ..
    · simp [h]

theorem cancel (target : Half) : KeepsNotices (cancelTaken target) := fun s h => by
  unfold cancelTaken
  dsimp only
  split
  · simp [h]
  · split
    · split
      · simp [h]
      · split
        · split <;> simp [h]
        · simp [h]
    · simp [h]

/-! ### Channels and rings (chapters 6 and 7) -/

theorem chConfigure (channel : Byte) (f : ConfigureFields) : KeepsNotices (chConfigureTaken channel f) :=
  withChan fun n s h => by
    dsimp only
    split
    · simp [h]
    · split
      · simp [h]
      · split <;> simp [h]

theorem chArm (channel : Byte) : KeepsNotices (chArmTaken channel) := withChan fun n s h => by
  dsimp only
  split
  case h_5 | h_6 => split <;> simp [h]
  all_goals simp [h]

theorem chPause (channel : Byte) : KeepsNotices (chPauseTaken channel) := withChan fun n s h => by
  dsimp only
  split <;> simp [h]

theorem chResume (channel : Byte) : KeepsNotices (chResumeTaken channel) := withChan fun n s h => by
  dsimp only
  split <;> simp [apply_ite State.NoticesSound, h]

theorem chClear (channel : Byte) : KeepsNotices (chClearTaken channel) := withChan fun n s h => by
  simp [apply_ite State.NoticesSound, h]

theorem chRelease (channel : Byte) : KeepsNotices (chReleaseTaken channel) := withChan fun n s h => by
  simp [apply_ite State.NoticesSound, h]

theorem chStatus (channel : Byte) : KeepsNotices (chStatusTaken channel) := withChan fun n s h =>
  ((replyCommand_noticesSound s .ok (s.chStatusPayload n)).mpr h).elsewhere (by simp) rfl

theorem ringWrite (channel : Byte) (data : List Byte) : KeepsNotices (ringWriteTaken channel data) := fun s h => by
  unfold ringWriteTaken
  split <;> simp [h]

theorem ringRead (channel : Byte) (largest : Half) : KeepsNotices (ringReadTaken channel largest) := fun s h => by
  unfold ringReadTaken
  split <;> simp [h]

/-! ### Interrupts and the link (chapters 8 and 9) -/

/-- A configuration that is read begins IDLE, with no notice and nothing lost (R164). -/
theorem readInputFields_begins {f : InputFields} {x : Input} (h : readInputFields f = some x) :
    x.queued = false ∧ x.state = .idle ∧ x.lost = 0 := by
  unfold readInputFields at h
  simp only [Option.bind_eq_bind, Option.bind_eq_some_iff] at h
  obtain ⟨mode, -, activeLow, -, filter, -, mask, -, wake, -, h⟩ := h
  split at h
  · cases h
  · cases h
    exact ⟨rfl, rfl, rfl⟩

theorem intConfigure (slot line : Byte) (f : InputFields) : KeepsNotices (intConfigureTaken slot line f) :=
  fun s h => by
  unfold intConfigureTaken
  split
  · simp [h]
  · split
    · simp [h]
    case h_2 i l _ _ new read =>
      obtain ⟨unqueued, idle, lost⟩ := readInputFields_begins read
      have configured := h.withdrawn (i := inputId i l) (f := fun _ => new) unqueued (fun _ => idle) (lost ▸ Nat.zero_le _)
      simp [configured.beginWatch]

theorem intMask (slot line mask : Byte) : KeepsNotices (intMaskTaken slot line mask) := fun s h => by
  unfold intMaskTaken
  split
  · simp [h]
  · split
    · simp [h]
    case h_2 i l _ _ m _ =>
      have masked : (s.modInput (inputId i l) fun x => { x with mask := m }).NoticesSound :=
        h.modInput fun _ agrees => agrees.congr rfl rfl rfl rfl
      simp [masked]

theorem intStatus (slot : Byte) : KeepsNotices (intStatusTaken slot) := fun s h => by
  unfold intStatusTaken
  split <;> simp [h]

theorem intAck (slot line : Byte) : KeepsNotices (intAckTaken slot line) := fun s h => by
  unfold intAckTaken
  split
  · simp [h]
  · split
    · simp [h.acknowledge]
    · simp [h]

theorem info : KeepsNotices infoTaken := fun s h => by simp [infoTaken, h]

theorem resetPart : KeepsNotices resetPartTaken := fun s h => by
  have notices (m : Ml) (r : Request) : (m.complete r .ok []).notices = m.notices := by
    unfold Ml.complete
    split <;> rfl
  unfold resetPartTaken
  split
  · exact h.elsewhere rfl (notices ..)
  · exact h

/-! ### Frames taken (R174, R175) -/

/-- Every owner keeps the agreement. -/
theorem handOver (kind : Byte) (p : List Byte) : KeepsNotices (Machine.handOver kind p) := by
  unfold Machine.handOver
  split
  · exact setClock _
  · exact park
  · exact wake
  · exact clockStop
  · exact setTiming _ _ _
  · exact setReadyLimit _
  · exact setRefresh _
  · exact busStatus
  · exact powerOn _
  · exact powerOff _
  · exact isolate _
  · exact connect _
  · exact slotReset _ _
  · exact setLimit _ _
  · exact slotStatus _
  · exact mapAdd _
  · exact mapRemove _
  · exact mapList
  · exact shadowRead _ _ _
  · exact shadowClear _ _
  · exact string _ _ _ _
  · exact string _ _ _ _
  · exact string _ _ _ _
  · exact string _ _ _ _
  · exact pair _ _ _
  · exact pair _ _ _
  · exact poll _
  · exact chConfigure _ _
  · exact chArm _
  · exact chPause _
  · exact chResume _
  · exact chClear _
  · exact chRelease _
  · exact chStatus _
  · exact intConfigure _ _ _
  · exact intMask _ _ _
  · exact intStatus _
  · exact info
  · exact resetPart
  · exact ringWrite _ _
  · exact ringRead _ _
  · exact intAck _ _
  · exact cancel _
  · exact fun _ h => h

end KeepsNotices

namespace State.NoticesSound

variable {s : State}

theorem requestTaken (h : s.NoticesSound) {handle : State → State} (keeps : KeepsNotices handle) (p : Pipe) (kind : Byte)
    (tag : Half) (declared : Nat) (payload : List Byte) :
    (s.takeRequest p kind tag declared payload handle).NoticesSound := by
  have handled : (handle (s.beginRequest p kind tag)).NoticesSound := keeps _ (by simp [h])
  unfold State.takeRequest
  split <;> simp [apply_ite State.NoticesSound, h, handled]

theorem received (h : s.NoticesSound) (p : Pipe) (bytes : List Byte) :
    (s.updMl fun m => m.receive p bytes).NoticesSound := by
  refine h.elsewhere rfl ?_
  obtain e | ⟨-, e⟩ := s.ml.receive_cases p bytes
  · exact congrArg Ml.notices e
  · exact (congrArg Ml.notices e).trans (by cases p <;> rfl)

/-- A request command is taken in its step, or joins its intake queue (log 1). -/
theorem offered (h : s.NoticesSound) {handle : State → State} (keeps : KeepsNotices handle) (p : Pipe) (kind : Byte)
    (tag : Half) (payload : List Byte) : (s.offer p kind tag payload handle).NoticesSound := by
  unfold State.offer
  split
  · exact h.requestTaken keeps ..
  · exact h.received ..

/-! ## Events -/

theorem frameTakes (h : s.NoticesSound) (p : Pipe) : (Machine.frameTakes p s).NoticesSound := by
  unfold Machine.frameTakes
  split
  case h_1 bytes rest _ =>
    have taken : (s.updMl fun m => m.setIntake p rest).NoticesSound :=
      h.elsewhere rfl (by cases p <;> rfl)
    split
    · unfold State.takeBytes
      split
      · simp [taken]
      · exact taken.requestTaken (KeepsNotices.handOver _ _) ..
    · exact h
  case h_2 => exact h

/-- The notice that leaves the queue is its input's only one (R161). -/
theorem sendsNotice (h : s.NoticesSound) {n : Notice} {rest : List Notice} (notices : s.ml.notices = n :: rest) :
    (s.sendsNotice n rest).NoticesSound := by
  refine (noticesSound_iff _).mpr fun i => ?_
  have agrees := h.agrees i
  have count : s.ml.noticesOf i = (s.sendsNotice n rest).ml.noticesOf i + if n.input = some i then 1 else 0 := by
    unfold Ml.noticesOf
    rw [notices, List.countP_cons]
    simp only [beq_iff_eq]
    rfl
  have input : (s.sendsNotice n rest).input i =
      if n.input = some i then { s.input i with queued := false } else s.input i := by
    unfold State.sendsNotice
    cases n.input with
    | none => rfl
    | some j =>
      have read := State.modInput_input s j (fun x => { x with queued := false }) i
      simp only [Option.some.injEq]
      refine Eq.trans read ?_
      split
      case isTrue own => rw [own]
      case isFalse => rfl
  rw [input]
  split
  case isTrue own =>
    have one := agrees.queued
    rw [count, if_pos own] at one
    exact ⟨by split at one <;> simp_all, nofun, agrees.off, agrees.lost⟩
  case isFalse other =>
    rw [count, if_neg other] at agrees
    exact agrees

theorem sendsReply (h : s.NoticesSound) (f : Frame) (rest : List Frame) : (s.sendsReply f rest).NoticesSound :=
  h.elsewhere rfl rfl

theorem frameTransmits (h : s.NoticesSound) : (Machine.frameTransmits s).NoticesSound := by
  by_cases free : s.ml.up = true ∧ s.ml.sending = none
  case neg =>
    have closed : Machine.frameTransmits s = s := if_neg free
    rwa [closed]
  case pos =>
    obtain ⟨up, idle⟩ := free
    cases replies : s.ml.replies with
    | nil =>
      cases notices : s.ml.notices with
      | nil => rwa [frameTransmits_closed (.inr (.inr ⟨replies, notices⟩))]
      | cons n ns => exact frameTransmits_notice up idle notices (.inl replies) ▸ (h.sendsNotice notices).admitted
    | cons f fs =>
      cases last : s.ml.lastClass with
      | notice => exact frameTransmits_reply up idle replies (.inr last) ▸ (h.sendsReply f fs).admitted
      | reply =>
        cases notices : s.ml.notices with
        | nil => exact frameTransmits_reply up idle replies (.inl notices) ▸ (h.sendsReply f fs).admitted
        | cons n ns => exact frameTransmits_notice up idle notices (.inr last) ▸ (h.sendsNotice notices).admitted

theorem noticesSound_reset : State.reset.NoticesSound := by
  obtain ⟨-, -, -, -, -, -, -, -, -, -, notices⟩ := invariantsHoldAtReset
  exact notices

theorem powerOnValues (s : State) : s.powerOnValues.NoticesSound :=
  (noticesSound_reset).elsewhere rfl rfl

theorem framesSent (h : s.NoticesSound) : (Machine.framesSent s).NoticesSound := by
  unfold Machine.framesSent
  split
  · split
    · exact (powerOnValues s).elsewhere rfl rfl
    · exact h.elsewhere rfl rfl
  · exact h

theorem linkComesUp (h : s.NoticesSound) : (Machine.linkComesUp s).NoticesSound := by
  have up : (s.updMl fun m => { m with up := true }).NoticesSound := h.elsewhere rfl rfl
  simp [Machine.linkComesUp, apply_ite State.NoticesSound, h, up]

/-- A link reset empties the queue and returns every NOTIFIED input to PENDING (R170, R183). -/
theorem linkResets (h : s.NoticesSound) : (Machine.linkResets s).NoticesSound := by
  by_cases up : s.ml.up = true
  · have reset := linkResets_up up
    refine (noticesSound_iff _).mpr fun i => ?_
    have input : (Machine.linkResets s).input i = (s.input i).renotify := by
      unfold State.input
      rw [reset.inputs]
      exact Vector.getElem_map ..
    rw [input, reset.ml]
    exact (h.agrees i).renotified
  · have same : Machine.linkResets s = s := if_neg up
    rwa [same]

theorem startingEnds (h : s.NoticesSound) : (Machine.startingEnds s).NoticesSound := by
  simp [Machine.startingEnds, apply_ite State.NoticesSound, h]

theorem retuneEnds (h : s.NoticesSound) : (Machine.retuneEnds s).NoticesSound := by
  simp [Machine.retuneEnds, apply_ite State.NoticesSound, h]

theorem refreshTicks (h : s.NoticesSound) : (Machine.refreshTicks s).NoticesSound := by
  simp [Machine.refreshTicks, apply_ite State.NoticesSound, h]

theorem cycleEnds (h : s.NoticesSound) (extension : Nat) (card : CardData) :
    (Machine.cycleEnds extension card s).NoticesSound := by
  unfold Machine.cycleEnds
  split
  · exact h
  · simp [apply_ite State.NoticesSound, h]

theorem readyTimesOut (h : s.NoticesSound) : (Machine.readyTimesOut s).NoticesSound := by
  unfold Machine.readyTimesOut
  split <;> simp [h]

theorem measuresCurrents (h : s.NoticesSound) (draw : Vector Nat 4) :
    (Machine.measuresCurrents draw s).NoticesSound := by
  have each : (forSlots (fun i s => s.measureSlot i draw[i]) (s.updMeasure fun m => { m with due := false })).NoticesSound :=
    ((updMeasure_noticesSound s _).mpr h).foldl (fun i s h => h.measured i _) _
  exact ite (fun _ => each.settled) fun _ => h

theorem cooldownEnds (h : s.NoticesSound) (i : SlotId) : (Machine.cooldownEnds i s).NoticesSound := by
  simp [Machine.cooldownEnds, apply_ite State.NoticesSound, h]

theorem poweringEnds (h : s.NoticesSound) (i : SlotId) : (Machine.poweringEnds i s).NoticesSound := by
  simp [Machine.poweringEnds, apply_ite State.NoticesSound, h]

theorem resettingEnds (h : s.NoticesSound) (i : SlotId) : (Machine.resettingEnds i s).NoticesSound := by
  simp [Machine.resettingEnds, apply_ite State.NoticesSound, h]

theorem slotResetEnds (h : s.NoticesSound) (i : SlotId) : (Machine.slotResetEnds i s).NoticesSound := by
  simp [Machine.slotResetEnds, apply_ite State.NoticesSound, h]

theorem pollIntervalEnds (h : s.NoticesSound) : (Machine.pollIntervalEnds s).NoticesSound := by
  unfold Machine.pollIntervalEnds
  split
  · simp [apply_ite State.NoticesSound, h]
  · exact h

theorem irlChanges (h : s.NoticesSound) (slot : SlotId) (line : LineId) (high : Bool) :
    (Machine.irlChanges slot line high s).NoticesSound := by
  have driven : (s.drive (inputId slot line) high).NoticesSound := h.elsewhere rfl rfl
  rw [irlChanges_eq]
  simp [apply_ite State.NoticesSound, driven, driven.countChange]

theorem irlFilterChanges (h : s.NoticesSound) (slot : SlotId) (line : LineId) :
    (Machine.irlFilterChanges slot line s).NoticesSound := by
  rw [irlFilterChanges_eq]
  simp [apply_ite State.NoticesSound, h, h.countChange]

theorem timeBaseAdvances (h : s.NoticesSound) : (Machine.timeBaseAdvances s).NoticesSound := by
  rw [timeBaseAdvances_eq]
  exact sampleInputs (s := s.timersOn) (h.elsewhere rfl rfl)

end State.NoticesSound

/-- Every command keeps the inputs and their notices in agreement. -/
theorem exec_noticesSound {c : Instr} {s t : State} (h : s.NoticesSound) (e : exec c s = .next t) : t.NoticesSound := by
  have next {u : State} (sound : u.NoticesSound) (e' : exec c s = .next u) : t.NoticesSound := by
    rw [e'] at e
    cases e
    exact sound
  have taken {p : Pipe} {kind : Byte} {tag : Half} {payload : List Byte} {handle : State → State}
      (keeps : KeepsNotices handle) (e' : exec c s = .next (s.offer p kind tag payload handle)) : t.NoticesSound :=
    next (h.offered keeps ..) e'
  cases c with
  | partPowerOn => exact next (.powerOnValues s) rfl
  | linkUp => exact next h.linkComesUp rfl
  | linkReset => exact next h.linkResets rfl
  | frameReceive p bytes => exact next (h.received p bytes) rfl
  | frameTake p => exact next (h.frameTakes p) rfl
  | frameTransmit => exact next h.frameTransmits rfl
  | frameSent => exact next h.framesSent rfl
  | noticeAdmission => exact next h.admitted rfl
  | startingEnd => exact next h.startingEnds rfl
  | retuneEnd => exact next h.retuneEnds rfl
  | refreshTick => exact next h.refreshTicks rfl
  | cycleEnd extension card => exact next (h.cycleEnds extension card) rfl
  | readyTimeout => exact next h.readyTimesOut rfl
  | currentMeasurement draw => exact next (h.measuresCurrents draw) rfl
  | cooldownEnd i => exact next (h.cooldownEnds i) rfl
  | poweringEnd i => exact next (h.poweringEnds i) rfl
  | resettingEnd i => exact next (h.resettingEnds i) rfl
  | slotResetEnd i => exact next (h.slotResetEnds i) rfl
  | pollIntervalEnd => exact next h.pollIntervalEnds rfl
  | trqAssert i n => exact next (u := trqAsserts i n s) (by simp [trqAsserts, h]) rfl
  | trqDeassert i n => exact next (u := trqDeasserts i n s) (by simp [trqDeasserts, h]) rfl
  | irlChange i l high => exact next (h.irlChanges i l high) rfl
  | irlFilterChange i l => exact next (h.irlFilterChanges i l) rfl
  | timeBaseAdvance => exact next h.timeBaseAdvances rfl
  | setClock => exact taken (.setClock _) rfl
  | park => exact taken .park rfl
  | wake => exact taken .wake rfl
  | clockStop => exact taken .clockStop rfl
  | setTiming => exact taken (.setTiming _ _ _) rfl
  | setReadyLimit => exact taken (.setReadyLimit _) rfl
  | setRefresh => exact taken (.setRefresh _) rfl
  | busStatus => exact taken .busStatus rfl
  | powerOn => exact taken (.powerOn _) rfl
  | powerOff => exact taken (.powerOff _) rfl
  | isolate => exact taken (.isolate _) rfl
  | connect => exact taken (.connect _) rfl
  | slotReset => exact taken (.slotReset _ _) rfl
  | setLimit => exact taken (.setLimit _ _) rfl
  | slotStatus => exact taken (.slotStatus _) rfl
  | mapAdd => exact taken (.mapAdd _) rfl
  | mapRemove => exact taken (.mapRemove _) rfl
  | mapList => exact taken .mapList rfl
  | shadowRead => exact taken (.shadowRead _ _ _) rfl
  | shadowClear => exact taken (.shadowClear _ _) rfl
  | ioRead | ioWrite | memRead | memWrite => exact taken (.string _ _ _ _) rfl
  | pairWrite | pairRead => exact taken (.pair _ _ _) rfl
  | poll => exact taken (.poll _) rfl
  | cancel => exact taken (.cancel _) rfl
  | chConfigure => exact taken (.chConfigure _ _) rfl
  | chArm => exact taken (.chArm _) rfl
  | chPause => exact taken (.chPause _) rfl
  | chResume => exact taken (.chResume _) rfl
  | chClear => exact taken (.chClear _) rfl
  | chRelease => exact taken (.chRelease _) rfl
  | chStatus => exact taken (.chStatus _) rfl
  | ringWrite => exact taken (.ringWrite _ _) rfl
  | ringRead => exact taken (.ringRead _ _) rfl
  | intConfigure => exact taken (.intConfigure _ _ _) rfl
  | intMask => exact taken (.intMask _ _ _) rfl
  | intStatus => exact taken (.intStatus _) rfl
  | intAck => exact taken (.intAck _ _) rfl
  | info => exact taken .info rfl
  | resetPart => exact taken .resetPart rfl

/-- Settles O60: the agreement is kept by every command. -/
theorem noticesStaySound : Obligations.NoticesStaySound := fun _ _ sound hs =>
  step_keeps (P := State.NoticesSound) (fun _ _ h => h.elsewhere rfl rfl) (fun _ _ _ => exec_noticesSound)
    sound hs

end Sys2Proof.Machine
end

