-- ==== Sys2Proof/Proofs/InputRequests.lean ====
section
/-! PROOF. INT_CONFIGURE and INT_MASK set their input (O57). -/

namespace Sys2Proof.Machine

open Sys2Proof

/-! ## The input a request names, and what the reply tells of it (R162) -/

section Named

variable {slot line : Byte} {i : SlotId} {l : LineId}

theorem readInputName_unnamed (h : 3 < slot.toNat ∨ 11 < line.toNat) : readInputName slot line = none := by
  unfold readInputName
  by_cases hs : 3 < slot.toNat
  case pos =>
    rw [readIndex_of_le hs]
    rfl
  case neg =>
    rw [readIndex_of_le (h.resolve_left hs)]
    cases readIndex 4 slot <;> rfl

theorem readInputName_named (hs : slot.toNat = i.val) (hl : line.toNat = l.val) :
    readInputName slot line = some (i, l) := by
  unfold readInputName
  rw [readIndex_of_eq hs, readIndex_of_eq hl]
  rfl

/-- A byte that names a slot or a line is its number's byte. -/
theorem ofNat_of_named {n : Nat} {b : Byte} {k : Fin n} (named : b.toNat = k.val) : BitVec.ofNat 8 k.val = b := by
  rw [← named, BitVec.ofNat_toNat, BitVec.setWidth_eq]

/-- The input report with the slot and line bytes of the request. -/
def State.inputTold (s : State) (slot line : Byte) (k : InputId) : List Byte :=
  [slot, line, (s.input k).state.code, if (s.input k).mask then 1 else 0] ++ le 2 (s.input k).lost

/-- The input report, and the configuration in force (R164). -/
def State.configTold (s : State) (slot line : Byte) (k : InputId) : List Byte :=
  s.inputTold slot line k ++ [(s.input k).mode.code, if (s.input k).activeLow then 1 else 0,
    BitVec.ofNat 8 (s.input k).filter.val, if (s.input k).wake then 1 else 0]

theorem inputReport_eq (s : State) (hs : slot.toNat = i.val) (hl : line.toNat = l.val) :
    s.inputReport i l = s.inputTold slot line (inputId i l) := by
  unfold State.inputReport
  rw [ofNat_of_named hs, ofNat_of_named hl]
  rfl

theorem intConfigurePayload_eq (s : State) (hs : slot.toNat = i.val) (hl : line.toNat = l.val) :
    s.intConfigurePayload i l = s.configTold slot line (inputId i l) := by
  unfold State.intConfigurePayload
  rw [inputReport_eq s hs hl]
  rfl

/-- Work on the inputs starts and ends no request. -/
theorem OnlyInputs.idle {s t : State} {p : Pipe} (h : OnlyInputs s t) (ready : s.ready p) : t.ml.inProgress p = none :=
  inProgress_of_canTake ((h.canTake p).trans ready.1)

end Named

/-! ## The fields of INT_CONFIGURE (R162, R164) -/

section Fields

variable {f : InputFields}

/-- R162's BAD_ARG: a field outside its set, or wake on with a filter. -/
def BadInputFields (f : InputFields) : Prop :=
  2 < f.mode.toNat ∨ 1 < f.polarity.toNat ∨ 3 < f.filter.toNat ∨ 1 < f.mask.toNat ∨ 1 < f.wake.toNat ∨
    (f.wake = 1 ∧ f.filter ≠ 0)

/-- The input the fields ask for, with its capture cleared (R164). -/
def askedInput (f : InputFields) (filter : Fin 4) : Input where
  mode := if f.mode = 0 then .off else if f.mode = 1 then .edge else .level
  activeLow := decide (f.polarity = 1)
  filter := filter
  mask := decide (f.mask = 1)
  wake := decide (f.wake = 1)

theorem readMode_eq_some_iff {b : Byte} {m : InputMode} : readMode b = some m ↔ b = m.code := by
  unfold readMode
  cases m <;> grind [InputMode.code]

theorem readMode_of_le {b : Byte} (h : ¬ 2 < b.toNat) : readMode b =
    some (if b = 0 then .off else if b = 1 then .edge else .level) := by
  have three : b = 0 ∨ b = 1 ∨ b = 2 := by bv_omega
  rcases three with rfl | rfl | rfl <;> rfl

theorem readInputFields_bad (bad : BadInputFields f) : readInputFields f = none := by
  refine Option.eq_none_iff_forall_ne_some.mpr fun x read => absurd bad ?_
  unfold readInputFields at read
  simp only [Option.bind_eq_bind, Option.bind_eq_some_iff, readMode_eq_some_iff, readFlag_eq_some_iff,
    readIndex_eq_some_iff, Option.ite_none_left_eq_some] at read
  obtain ⟨mode, hmode, activeLow, hpolarity, filter, hfilter, mask, hmask, wake, hwake, unfiltered, -⟩ := read
  have modes : ¬ 2 < f.mode.toNat := by rw [hmode]; cases mode <;> decide
  have wakes : ¬ (f.wake = 1 ∧ f.filter ≠ 0) := by
    rintro ⟨on, filtered⟩
    refine unfiltered ⟨(yesNo_eq_one_iff wake).mp (hwake ▸ on), fun zero => filtered ?_⟩
    exact BitVec.eq_of_toNat_eq (hfilter.trans (congrArg Fin.val zero))
  unfold BadInputFields
  simp only [not_or]
  exact ⟨modes, hpolarity ▸ flag_le _, by omega, hmask ▸ flag_le _, hwake ▸ flag_le _, wakes⟩

theorem readInputFields_good (good : ¬ BadInputFields f) :
    ∃ filter : Fin 4, filter.val = f.filter.toNat ∧ readInputFields f = some (askedInput f filter) := by
  unfold BadInputFields at good
  simp only [not_or] at good
  obtain ⟨mode, polarity, filter, mask, wake, wakes⟩ := good
  refine ⟨⟨f.filter.toNat, by omega⟩, rfl, ?_⟩
  have filterIs : readIndex 4 f.filter = some ⟨f.filter.toNat, by omega⟩ := readIndex_of_eq rfl
  unfold readInputFields
  rw [readMode_of_le mode, readFlag_of_le polarity, filterIs, readFlag_of_le mask, readFlag_of_le wake]
  refine if_neg fun ⟨on, filtered⟩ => wakes ⟨of_decide_eq_true on, fun zero => filtered ?_⟩
  exact Fin.ext (congrArg BitVec.toNat zero : f.filter.toNat = 0)

end Fields

/-! ## INT_CONFIGURE and INT_MASK taken -/

section Taken

variable {s : State} {tag : Half} {slot line : Byte} {i : SlotId} {l : LineId}

theorem exec_intConfigure (h : s.ready .command) (f : InputFields) : exec (.intConfigure tag slot line f) s =
    .next (intConfigureTaken slot line f (s.beginRequest .command 0x40 tag)) :=
  congrArg Host.Outcome.next (offer_ready h rfl (by simp [inputBytes]) (by simp [inputBytes]) (by simp [inputBytes]) _)

theorem exec_intMask (h : s.ready .command) (mask : Byte) : exec (.intMask tag slot line mask) s =
    .next (intMaskTaken slot line mask (s.beginRequest .command 0x41 tag)) :=
  congrArg Host.Outcome.next (offer_ready h rfl (by simp) (by simp) (by simp) _)

/-- The part once an INT_CONFIGURE has set an input's record (R161, R164). -/
def State.withInput (s : State) (k : InputId) (new : Input) : State :=
  ((s.withdraw k).modInput k fun _ => new).beginWatch k

theorem OnlyInputs.withInput (s : State) (k : InputId) (new : Input) : OnlyInputs s (s.withInput k new) :=
  ((OnlyInputs.withdraw s k).trans (.modInput _ k fun _ => new)).trans (.beginWatch _ k)

theorem withInput_beginRequest (s : State) (p : Pipe) (kind : Byte) (tag : Half) (k : InputId) (new : Input) :
    (s.beginRequest p kind tag).withInput k new = (s.withInput k new).beginRequest p kind tag := by
  unfold State.withInput
  rw [withdraw_beginRequest, beginRequest_modInput, beginWatch_beginRequest]

/-- INT_CONFIGURE's reply tells the input as it then stands. -/
theorem configure_answered (idle : s.ml.command = none) (hs : slot.toNat = i.val) (hl : line.toNat = l.val)
    (status : Status) :
    (s.beginRequest .command 0x40 tag).replyCommand status
        ((s.beginRequest .command 0x40 tag).intConfigurePayload i l) =
      s.replyAtOnce ⟨0xC0, status.code, tag, s.configTold slot line (inputId i l)⟩ := by
  rw [intConfigurePayload_eq _ hs hl]
  exact replyCommand_begin idle status _

/-- INT_MASK's reply tells the input as it then stands. -/
theorem mask_answered (idle : s.ml.command = none) (hs : slot.toNat = i.val) (hl : line.toNat = l.val)
    (status : Status) :
    (s.beginRequest .command 0x41 tag).replyCommand status ((s.beginRequest .command 0x41 tag).inputReport i l) =
      s.replyAtOnce ⟨0xC1, status.code, tag, s.inputTold slot line (inputId i l)⟩ := by
  rw [inputReport_eq _ hs hl]
  exact replyCommand_begin idle status _

theorem intConfigureTaken_unnamed (h : s.ready .command) (outside : 3 < slot.toNat ∨ 11 < line.toNat)
    (f : InputFields) :
    intConfigureTaken slot line f (s.beginRequest .command 0x40 tag) =
      s.replyAtOnce ⟨0xC0, 0x13, tag, [slot, line] ++ List.replicate 8 0⟩ := by
  unfold intConfigureTaken
  rw [readInputName_unnamed outside]
  exact replyCommand_begin h.command .badArg _

theorem intMaskTaken_unnamed (h : s.ready .command) (outside : 3 < slot.toNat ∨ 11 < line.toNat) (mask : Byte) :
    intMaskTaken slot line mask (s.beginRequest .command 0x41 tag) =
      s.replyAtOnce ⟨0xC1, 0x13, tag, [slot, line] ++ List.replicate 4 0⟩ := by
  unfold intMaskTaken
  rw [readInputName_unnamed outside]
  exact replyCommand_begin h.command .badArg _

section Named

variable (h : s.ready .command) (hs : slot.toNat = i.val) (hl : line.toNat = l.val)
include h hs hl

theorem intConfigureTaken_bad {f : InputFields} (bad : BadInputFields f) :
    intConfigureTaken slot line f (s.beginRequest .command 0x40 tag) =
      s.replyAtOnce ⟨0xC0, 0x13, tag, s.configTold slot line (inputId i l)⟩ := by
  unfold intConfigureTaken
  rw [readInputName_named hs hl, readInputFields_bad bad]
  exact configure_answered h.command hs hl .badArg

theorem intConfigureTaken_good {f : InputFields} {new : Input} (read : readInputFields f = some new) :
    let t := s.withInput (inputId i l) new
    intConfigureTaken slot line f (s.beginRequest .command 0x40 tag) =
      (t.replyAtOnce ⟨0xC0, 0x00, tag, t.configTold slot line (inputId i l)⟩).admitOffers := by
  have set := withInput_beginRequest s .command 0x40 tag (inputId i l) new
  have idle := (OnlyInputs.withInput s (inputId i l) new).idle h
  unfold State.withInput at set
  unfold intConfigureTaken
  rw [readInputName_named hs hl, read]
  dsimp only
  rw [set]
  exact congrArg State.admitOffers (configure_answered idle hs hl .ok)

theorem intMaskTaken_bad {mask : Byte} (bad : 1 < mask.toNat) :
    intMaskTaken slot line mask (s.beginRequest .command 0x41 tag) =
      s.replyAtOnce ⟨0xC1, 0x13, tag, s.inputTold slot line (inputId i l)⟩ := by
  unfold intMaskTaken
  rw [readInputName_named hs hl, readFlag_of_bad bad]
  exact mask_answered h.command hs hl .badArg

theorem intMaskTaken_good {mask : Byte} (good : mask.toNat ≤ 1) :
    let t := s.modInput (inputId i l) fun x => { x with mask := decide (mask = 1) }
    intMaskTaken slot line mask (s.beginRequest .command 0x41 tag) =
      (t.replyAtOnce ⟨0xC1, 0x00, tag, t.inputTold slot line (inputId i l)⟩).admitOffers := by
  unfold intMaskTaken
  rw [readInputName_named hs hl, readFlag_of_le (not_lt.mpr good)]
  exact congrArg State.admitOffers (mask_answered
    (s := s.modInput (inputId i l) fun x => { x with mask := decide (mask = 1) }) h.command hs hl .ok)

end Named

end Taken

/-! ## Notices withdrawn, and watching begun -/

section Watching

variable {s : State} {k : InputId}

theorem withdraw_of_unqueued (queued : (s.input k).queued = false) : s.withdraw k = s :=
  if_neg (by simp [queued])

theorem withdraw_of_queued (queued : (s.input k).queued = true) : s.withdraw k = { s with
    ml := { s.ml with notices := s.ml.notices.filter fun n => decide (n.input ≠ some k) }
    inputs := s.inputs.set k { s.input k with queued := false } } := by
  have others : (s.ml.notices.filter fun n => n.input != some k) =
      s.ml.notices.filter fun n => decide (n.input ≠ some k) :=
    List.filter_congr fun n _ => by simp [bne, beq_eq_decide]
  rw [← others]
  exact if_pos queued

theorem beginWatch_unwatched (h : (s.input k).mode = .off ∨ (s.slot (inputSlot k)).state ≠ .enabled) :
    s.beginWatch k = s :=
  if_neg fun watched => by
    obtain ⟨on, enabled⟩ := (watched_iff s k).mp watched
    exact h.elim on fun other => other enabled

theorem beginWatch_of_enabled (on : (s.input k).mode ≠ .off) (enabled : (s.slot (inputSlot k)).state = .enabled) :
    s.beginWatch k = s.modInput k fun _ => (s.input k).watchedFrom (s.irlHigh k != (s.input k).activeLow)
      s.bcu.timeBase (s.takeSnapshot (inputSlot k)) :=
  beginWatch_watched ((watched_iff s k).mpr ⟨on, enabled⟩)

end Watching

/-- A LEVEL input found ACTIVE is stored with the level ACTIVE. -/
theorem watchedFrom_eq (x : Input) (active : Bool) (time : Word) (snapshot : List SnapshotEntry) :
    x.watchedFrom active time snapshot =
      if x.mode = .level ∧ active = true ∧ x.state = .idle then
        { x with active := true, run := 0, changeDue := false, state := .pending, captureTime := time
                 snapshot := snapshot, repeated := false }
      else { x with active := active, run := 0, changeDue := false } := by
  unfold Input.watchedFrom
  split
  case isTrue captures =>
    obtain ⟨-, found, -⟩ := captures
    rw [found]
  case isFalse => rfl

/-- Settles O57: each request by what its fields name, and then by what it does to the input's notice and watching. -/
theorem intConfigureAndIntMask : Obligations.IntConfigureAndIntMask := by
  refine ⟨fun s tag slot line mask f h outside => ⟨?_, ?_⟩, fun s tag slot line i l f h hs hl => ⟨fun bad => ?_,
    fun good => ?_⟩, fun s tag slot line mask i l h hs hl => ⟨fun bad => ?_, fun good => ?_⟩, fun s k =>
    ⟨withdraw_of_unqueued, withdraw_of_queued, beginWatch_unwatched, fun on enabled => ?_⟩⟩
  · exact (exec_intConfigure h f).trans (congrArg _ (intConfigureTaken_unnamed h outside f))
  · exact (exec_intMask h mask).trans (congrArg _ (intMaskTaken_unnamed h outside mask))
  · exact (exec_intConfigure h f).trans (congrArg _ (intConfigureTaken_bad h hs hl bad))
  · obtain ⟨filter, asked, read⟩ := readInputFields_good good
    exact ⟨filter, asked, (exec_intConfigure h f).trans (congrArg _ (intConfigureTaken_good h hs hl read))⟩
  · exact (exec_intMask h mask).trans (congrArg _ (intMaskTaken_bad h hs hl bad))
  · exact (exec_intMask h mask).trans (congrArg _ (intMaskTaken_good h hs hl good))
  · exact (beginWatch_of_enabled on enabled).trans (congrArg (fun y => s.modInput k fun _ => y) (watchedFrom_eq ..))

end Sys2Proof.Machine
end

