-- ==== Sys2Proof/Proofs/InputAcknowledged.lean ====
section
/-! PROOF. INT_STATUS reports a slot's inputs, and INT_ACK acknowledges a capture (O58). -/

namespace Sys2Proof.Machine

open Sys2Proof

section Requests

variable {s : State} {tag : Half} {slot line : Byte} {i : SlotId} {l : LineId}

theorem exec_intStatus (h : s.ready .command) : exec (.intStatus tag slot) s =
    .next (intStatusTaken slot (s.beginRequest .command 0x42 tag)) :=
  congrArg Host.Outcome.next (offer_ready h rfl (by simp) (by simp) (by simp) _)

theorem exec_intAck (h : s.ready .stream) : exec (.intAck tag slot line) s =
    .next (intAckTaken slot line (s.beginRequest .stream 0x6A tag)) :=
  congrArg Host.Outcome.next (offer_ready h rfl (by simp) (by simp) (by simp) _)

/-! ## INT_STATUS -/

/-- The record of an input in an INT_STATUS reply, by whether it is watched (R166). -/
def Input.record (x : Input) (watched : Prop) [Decidable watched] : List Byte :=
  let bit (b : Bool) : Byte := if b then 1 else 0
  [x.mode.code, bit x.activeLow, BitVec.ofNat 8 x.filter.val, bit x.mask, bit x.wake, x.state.code,
    if watched ∧ x.active = true then 1 else 0] ++ le 4 x.captureTime.toNat ++ [bit x.again] ++
  le 4 x.againTime.toNat ++ le 2 x.lost ++ [bit x.repeated, bit x.queued, BitVec.ofNat 8 x.snapshot.length]

theorem inputRecord_eq (s : State) (i : SlotId) (l : LineId) : s.inputRecord (inputId i l) =
    (s.input (inputId i l)).record ((s.input (inputId i l)).mode ≠ .off ∧ (s.slot i).state = .enabled) := by
  have level : yesNo (s.watched (inputId i l) && (s.input (inputId i l)).active) =
      if ((s.input (inputId i l)).mode ≠ .off ∧ (s.slot i).state = .enabled) ∧ (s.input (inputId i l)).active = true
      then 1 else 0 :=
    if_congr (by rw [Bool.and_eq_true, watched_iff, inputSlot_inputId]) rfl rfl
  unfold State.inputRecord
  dsimp only
  rw [level]
  rfl

theorem intStatusTaken_unnamed (h : s.ready .command) (outside : 3 < slot.toNat) :
    intStatusTaken slot (s.beginRequest .command 0x42 tag) =
      s.replyAtOnce ⟨0xC2, 0x13, tag, [slot] ++ List.replicate 253 0⟩ := by
  unfold intStatusTaken
  rw [readIndex_of_le outside]
  exact replyCommand_begin h.command .badArg _

theorem intStatusTaken_named (h : s.ready .command) (hs : slot.toNat = i.val) :
    intStatusTaken slot (s.beginRequest .command 0x42 tag) =
      s.replyAtOnce ⟨0xC2, 0x00, tag, [slot, (s.slot i).state.code] ++ (List.finRange 12).flatMap fun l =>
        (s.input (inputId i l)).record ((s.input (inputId i l)).mode ≠ .off ∧ (s.slot i).state = .enabled)⟩ := by
  unfold intStatusTaken
  rw [readIndex_of_eq hs]
  simp only [inputRecord_eq]
  exact replyCommand_begin h.command .ok _

/-! ## INT_ACK -/

/-- An acknowledged input: PENDING again with a new snapshot, or IDLE without one (R163). -/
def Input.acknowledged (x : Input) (time : Word) (snapshot : List SnapshotEntry) : Input :=
  if x.mode = .edge ∧ x.again = true then
    { x with queued := false, state := .pending, captureTime := x.againTime, snapshot := snapshot
             again := false, againTime := 0, repeated := true }
  else if x.mode = .level ∧ x.active = true then
    { x with queued := false, state := .pending, captureTime := time, snapshot := snapshot, repeated := false }
  else { x with queued := false, state := .idle, snapshot := [], repeated := false }

/-- The part once an input is acknowledged, its notice withdrawn (R161, R163). -/
def State.acked (s : State) (k : InputId) : State :=
  (s.withdraw k).modInput k fun _ => (s.input k).acknowledged s.bcu.timeBase (s.takeSnapshot (inputSlot k))

/-- Withdrawing a notice leaves the channels, and so the snapshot. -/
theorem withdraw_takeSnapshot (s : State) (k : InputId) (slot : SlotId) :
    (s.withdraw k).takeSnapshot slot = s.takeSnapshot slot := by
  obtain ⟨inputs, notices, same, -⟩ := OnlyInputs.withdraw s k
  rw [same]
  rfl

/-- An input whose notice is withdrawn is set from what it was before. -/
theorem withdraw_modInput (s : State) (k : InputId) (f : Input → Input) :
    (s.withdraw k).modInput k f = (s.withdraw k).modInput k fun _ => f { s.input k with queued := false } := by
  have was : (s.withdraw k).input k = { s.input k with queued := false } := by rw [withdraw_input, if_pos rfl]
  exact congrArg (fun y => (s.withdraw k).modInput k fun _ => f y) was

theorem acknowledge_eq (s : State) (k : InputId) : s.acknowledge k = s.acked k := by
  have becomes {f : Input → Input} {y : Input} (set : f { s.input k with queued := false } = y)
      (acked : (s.input k).acknowledged s.bcu.timeBase (s.takeSnapshot (inputSlot k)) = y) :
      (s.withdraw k).modInput k f = s.acked k := by
    unfold State.acked
    rw [withdraw_modInput, set, acked]
  unfold State.acknowledge State.capture
  dsimp only
  rw [withdraw_takeSnapshot]
  split
  case isTrue again =>
    rw [modInput_modInput]
    exact becomes rfl (if_pos again)
  case isFalse once =>
    split
    case isTrue level => exact becomes rfl ((if_neg once).trans (if_pos level))
    case isFalse ends => exact becomes rfl ((if_neg once).trans (if_neg ends))

/-- INT_ACK's reply tells the input as it then stands. -/
theorem ack_answered (idle : s.ml.stream = none) (hs : slot.toNat = i.val) (hl : line.toNat = l.val) (status : Status) :
    (s.beginRequest .stream 0x6A tag).replyStream status ((s.beginRequest .stream 0x6A tag).inputReport i l) =
      s.replyAtOnce ⟨0xEA, status.code, tag, s.inputTold slot line (inputId i l)⟩ := by
  rw [inputReport_eq _ hs hl]
  exact replyStream_begin idle status _

theorem intAckTaken_unnamed (h : s.ready .stream) (outside : 3 < slot.toNat ∨ 11 < line.toNat) :
    intAckTaken slot line (s.beginRequest .stream 0x6A tag) =
      s.replyAtOnce ⟨0xEA, 0x13, tag, [slot, line] ++ List.replicate 4 0⟩ := by
  unfold intAckTaken
  rw [readInputName_unnamed outside]
  exact replyStream_begin h.idle .badArg _

theorem intAckTaken_refused (h : s.ready .stream) (hs : slot.toNat = i.val) (hl : line.toNat = l.val)
    (other : (s.input (inputId i l)).state ≠ .notified) :
    intAckTaken slot line (s.beginRequest .stream 0x6A tag) =
      s.replyAtOnce ⟨0xEA, 0x27, tag, s.inputTold slot line (inputId i l)⟩ := by
  unfold intAckTaken
  rw [readInputName_named hs hl]
  exact (if_neg other).trans (ack_answered h.idle hs hl .notNotified)

theorem intAckTaken_notified (h : s.ready .stream) (hs : slot.toNat = i.val) (hl : line.toNat = l.val)
    (notified : (s.input (inputId i l)).state = .notified) :
    let t := s.acked (inputId i l)
    intAckTaken slot line (s.beginRequest .stream 0x6A tag) =
      (t.replyAtOnce ⟨0xEA, 0x00, tag, t.inputTold slot line (inputId i l)⟩).admitOffers := by
  have idle := (OnlyInputs.acknowledge s (inputId i l)).idle h
  rw [acknowledge_eq] at idle
  unfold intAckTaken
  rw [readInputName_named hs hl]
  refine (if_pos notified).trans ?_
  dsimp only
  rw [acknowledge_beginRequest, acknowledge_eq]
  exact congrArg State.admitOffers (ack_answered idle hs hl .ok)

end Requests

/-! ## Snapshots (R159) -/

/-- A channel's entry in a snapshot. -/
def State.snapshotOf (s : State) (n : ChanId) : SnapshotEntry :=
  ⟨n, (s.chan n).state, (s.chan n).remaining, (s.chan n).transfers, (s.chan n).level⟩

theorem takeSnapshot_eq (s : State) (i : SlotId) : s.takeSnapshot i =
    ((List.finRange 6).filter fun n => decide ((s.chan n).slot = i ∧ (s.chan n).state ≠ .free)).map s.snapshotOf := by
  rw [← List.filterMap_eq_map, List.filterMap_filter]
  unfold State.takeSnapshot
  refine List.filterMap_congr fun n _ => ?_
  simp only [decide_eq_true_eq]
  rfl

/-- Settles O58, with the snapshot as the list of the bound channels' entries. -/
theorem intStatusAndIntAck : Obligations.IntStatusAndIntAck := by
  refine ⟨fun s tag slot h => ⟨fun outside => ?_, fun i hs => ?_⟩, fun s tag slot line h outside => ?_,
    fun s tag slot line i l h hs hl => ⟨fun other => ?_, fun notified => ?_⟩, fun s i => ⟨?_, fun e entry => ?_⟩⟩
  · exact (exec_intStatus h).trans (congrArg _ (intStatusTaken_unnamed h outside))
  · exact (exec_intStatus h).trans (congrArg _ (intStatusTaken_named h hs))
  · exact (exec_intAck h).trans (congrArg _ (intAckTaken_unnamed h outside))
  · exact (exec_intAck h).trans (congrArg _ (intAckTaken_refused h hs hl other))
  · have acked := intAckTaken_notified (tag := tag) h hs hl notified
    unfold State.acked at acked
    rw [inputSlot_inputId] at acked
    exact (exec_intAck h).trans (congrArg _ acked)
  · rw [takeSnapshot_eq, List.map_map]
    exact List.map_id _
  · rw [takeSnapshot_eq] at entry
    obtain ⟨n, -, rfl⟩ := List.mem_map.mp entry
    rfl

end Sys2Proof.Machine
end

