-- ==== Sys2Proof/Proofs/FrameFields.lean ====
section
/-! SUPPORT. The fields of a payload read back: what a reader finds behind the bytes before it, and each record of a
request read from the payload that spells it (sections 10.1, 10.3, 10.5). -/

namespace Sys2Proof.Machine

open Sys2Proof

/-! ## One field -/

section Fields

variable (b : Byte) (payload rest : List Byte) (n k : Nat)

@[simp] theorem field_cons_succ : field (b :: payload) (k + 1) n = field payload k n := rfl
@[simp] theorem byteAt_cons_succ : byteAt (b :: payload) (k + 1) = byteAt payload k := rfl
@[simp] theorem halfAt_cons_succ : halfAt (b :: payload) (k + 1) = halfAt payload k := rfl
@[simp] theorem wordAt_cons_succ : wordAt (b :: payload) (k + 1) = wordAt payload k := rfl

/-- The bytes before a field are passed over. -/
theorem field_append_right {before : List Byte} (h : before.length ≤ k) :
    field (before ++ rest) k n = field rest (k - before.length) n := by
  rw [field, field, List.drop_append, List.drop_of_length_le h, List.nil_append]

/-- The number in a field of n bytes is the number written there, modulo 256^n. -/
theorem field_le (v : Nat) : field (le n v ++ rest) 0 n = v % 256 ^ n := by
  have read := field_append [] (le n v) rest
  rw [List.nil_append, List.length_nil, le_length] at read
  rw [read, unle_le]

/-- A field of m bytes before a one-, two- or four-byte field is passed over. -/
@[simp] theorem byteAt_le_append {m : Nat} (v : Nat) (h : m ≤ k) :
    byteAt (le m v ++ rest) k = byteAt rest (k - m) := by
  unfold byteAt
  rw [field_append_right rest 1 k (by rwa [le_length]), le_length]

@[simp] theorem halfAt_le_append {m : Nat} (v : Nat) (h : m ≤ k) :
    halfAt (le m v ++ rest) k = halfAt rest (k - m) := by
  unfold halfAt
  rw [field_append_right rest 2 k (by rwa [le_length]), le_length]

@[simp] theorem wordAt_le_append {m : Nat} (v : Nat) (h : m ≤ k) :
    wordAt (le m v ++ rest) k = wordAt rest (k - m) := by
  unfold wordAt
  rw [field_append_right rest 4 k (by rwa [le_length]), le_length]

/-- A byte, a half and a word written are the byte, the half and the word read. -/
@[simp] theorem byteAt_cons_zero : byteAt (b :: payload) 0 = b := by
  refine BitVec.eq_of_toNat_eq ?_
  simp [byteAt, field, unle]

@[simp] theorem halfAt_le (h : Half) : halfAt (le 2 h.toNat ++ rest) 0 = h := by
  refine BitVec.eq_of_toNat_eq ?_
  simpa [halfAt, field_le] using h.isLt

@[simp] theorem wordAt_le (w : Word) : wordAt (le 4 w.toNat ++ rest) 0 = w := by
  refine BitVec.eq_of_toNat_eq ?_
  simpa [wordAt, field_le] using w.isLt

/-- The same for a half or a word that ends its payload. -/
@[simp] theorem halfAt_le_last (h : Half) : halfAt (le 2 h.toNat) 0 = h := by
  simpa using halfAt_le [] h

@[simp] theorem wordAt_le_last (w : Word) : wordAt (le 4 w.toNat) 0 = w := by
  simpa using wordAt_le [] w

end Fields

/-! ## Fields of any bytes -/

/-- A byte past the end of a payload reads 0. -/
theorem byteAt_eq_getD (bytes : List Byte) (k : Nat) : byteAt bytes k = bytes.getD k 0 := by
  induction bytes generalizing k with
  | nil => simp [byteAt, field, unle]
  | cons b bytes ih =>
    cases k with
    | zero => simp
    | succ k => rw [byteAt_cons_succ, ih, List.getD_cons_succ]

theorem field_two_eq_getD (bytes : List Byte) (k : Nat) :
    field bytes k 2 = (bytes.getD k 0).toNat + 256 * (bytes.getD (k + 1) 0).toNat := by
  induction bytes generalizing k with
  | nil => simp [field, unle]
  | cons b bytes ih =>
    cases k with
    | zero => cases bytes <;> simp [field, unle]
    | succ k => rw [field_cons_succ, ih, List.getD_cons_succ, List.getD_cons_succ]

theorem halfAt_eq_getD (bytes : List Byte) (k : Nat) : halfAt bytes k = bytes.getD (k + 1) 0 ++ bytes.getD k 0 := by
  unfold halfAt
  rw [field_two_eq_getD]
  refine BitVec.eq_of_toNat_eq ?_
  rw [BitVec.toNat_append, ← Nat.shiftLeft_add_eq_or_of_lt (BitVec.isLt _), Nat.shiftLeft_eq, BitVec.toNat_ofNat]
  omega

/-! ## The header of a frame (section 10.1) -/

section Header

variable (kind status : Byte) (tag : Half) (payload : List Byte)

@[simp] theorem frameBytes_length : (frameBytes kind status tag payload).length = 6 + payload.length :=
  List.length_append

/-- Each field of the header reads as it was written (R187). -/
@[simp] theorem frameBytes_kind : byteAt (frameBytes kind status tag payload) 0 = kind := byteAt_cons_zero _ _

@[simp] theorem frameBytes_tag : halfAt (frameBytes kind status tag payload) 2 = tag :=
  halfAt_le (le 2 payload.length ++ payload) tag

@[simp] theorem frameBytes_payload : (frameBytes kind status tag payload).drop 6 = payload := rfl

/-- The length field is two bytes wide, which a payload that fits a frame does not exceed (R187). -/
theorem frameBytes_declared {payload : List Byte} (fits : payload.length ≤ 1040) :
    field (frameBytes kind status tag payload) 4 2 = payload.length :=
  (field_le payload 2 payload.length).trans (Nat.mod_eq_of_lt (by omega))

end Header

/-! ## The records of the requests -/

@[simp] theorem readAccess_accessBytes (f : AccessFields) (data : List Byte) :
    readAccess (accessBytes f ++ data) = f := by
  simp [readAccess, accessBytes]

@[simp] theorem readAccess_accessBytes_only (f : AccessFields) : readAccess (accessBytes f) = f := by
  simpa using readAccess_accessBytes f []

@[simp] theorem readPair_pairBytes (f : PairFields) (data : List Byte) : readPair (pairBytes f ++ data) = f := by
  simp [readPair, pairBytes]

@[simp] theorem readPair_pairBytes_only (f : PairFields) : readPair (pairBytes f) = f := by
  simpa using readPair_pairBytes f []

@[simp] theorem readPoll_pollBytes (f : PollFields) : readPoll (pollBytes f) = f := by
  simp [readPoll, pollBytes]

@[simp] theorem readWindow_windowBytes (f : WindowFields) : readWindow (windowBytes f) = f := by
  simp [readWindow, windowBytes]

@[simp] theorem readConfigure_configureBytes (channel : Byte) (f : ConfigureFields) :
    readConfigure (channel :: configureBytes f) = f := by
  simp [readConfigure, configureBytes]

@[simp] theorem readInput_inputBytes (slot line : Byte) (f : InputFields) :
    readInput (slot :: line :: inputBytes f) = f := by
  simp [readInput, inputBytes]

/-- The payload of an access before its data has ten bytes, that of a PAIR request eight. -/
@[simp] theorem accessBytes_length (f : AccessFields) : (accessBytes f).length = 10 := by simp [accessBytes]
@[simp] theorem pairBytes_length (f : PairFields) : (pairBytes f).length = 8 := by simp [pairBytes]

end Sys2Proof.Machine
end

