-- ==== Sys2Proof/Proofs/RequestFrames.lean ====
section
/-! PROOF. The intake queues (O3), and a request command as its frame (O2). -/

namespace Sys2Proof.Machine

open Sys2Proof

/-! ## The intake queues -/

section Intake

variable {s : State} {p : Pipe}

theorem intake_setIntake (m : Ml) (p : Pipe) (frames : List (List Byte)) : (m.setIntake p frames).intake p = frames := by
  cases p <;> rfl

theorem setIntake_setIntake (m : Ml) (p : Pipe) (frames frames' : List (List Byte)) :
    (m.setIntake p frames).setIntake p frames' = m.setIntake p frames' := by
  cases p <;> rfl

theorem setIntake_intake (m : Ml) (p : Pipe) : m.setIntake p (m.intake p) = m := by
  cases p <;> rfl

/-- When a pipe may take a frame (R173). -/
theorem canTake_iff (m : Ml) (p : Pipe) : m.canTake p = true ↔
    m.up = true ∧ m.inProgress p = none ∧ m.replies.length + m.reserved < 16 ∧ m.resetPending = false := by
  have places : Config.replyPlaces = 16 := rfl
  simp [Ml.canTake, places, and_assoc]

theorem receive_eq (m : Ml) (p : Pipe) (bytes : List Byte) : m.receive p bytes =
    if m.up = true ∧ (m.intake p).length < 16 then m.setIntake p (m.intake p ++ [bytes]) else m := by
  have depth : Config.intakeDepth = 16 := rfl
  simp [Ml.receive, depth]

/-- The frame at the head of the queue is taken (R173). -/
theorem frameTakes_head {bytes : List Byte} {rest : List (List Byte)} (can : s.ml.canTake p = true)
    (head : s.ml.intake p = bytes :: rest) :
    frameTakes p s = (s.updMl fun m => m.setIntake p rest).takeBytes p bytes := by
  unfold frameTakes
  rw [head]
  exact if_pos can

theorem frameTakes_nothing (h : s.ml.canTake p = false ∨ s.ml.intake p = []) : frameTakes p s = s := by
  unfold frameTakes
  cases queue : s.ml.intake p with
  | nil => rfl
  | cons bytes rest => exact if_neg (by simp [h.resolve_right (by simp [queue])])

/-- A frame alone in the queue of a pipe that was ready before is taken, and leaves the part as it was before. -/
theorem frameTakes_only (h : s.ready p) (bytes : List Byte) :
    frameTakes p (s.updMl fun m => m.setIntake p [bytes]) = s.takeBytes p bytes := by
  have can : (s.updMl fun m => m.setIntake p [bytes]).ml.canTake p = true := (canTake_setIntake ..).trans h.1
  have emptied : (s.ml.setIntake p [bytes]).setIntake p [] = s.ml := by
    rw [setIntake_setIntake, ← h.2, setIntake_intake]
  rw [frameTakes_head can (intake_setIntake ..)]
  exact congrArg (fun m => State.takeBytes { s with ml := m } p bytes) emptied

end Intake

/-! ## A request command offers its frame -/

section Requests

variable {i : Instr} {kind : Byte} {tag : Half} {payload : List Byte} {p : Pipe} {least most : Nat} {s : State}

/-- What an owner does in two spellings makes one offer. -/
theorem offer_congr {handle handle' : State → State} (h : handle = handle') :
    (Host.Outcome.next (s.offer p kind tag payload handle) : Host.Outcome State Fault Refusal) =
      .next (s.offer p kind tag payload handle') := by rw [h]

/-- A request command offers its frame to its pipe, and its owner does what it does with the frame's payload: each
field is read back as it was written (R175, log 1). -/
theorem exec_request (spelled : requestOf i = some (kind, tag, payload))
    (known : requestKind kind = some (p, least, most)) (s : State) :
    exec i s = .next (s.offer p kind tag payload (handOver kind payload)) := by
  cases i with
  | partPowerOn | linkUp | linkReset | frameReceive | frameTake | frameTransmit | frameSent | noticeAdmission
  | startingEnd | retuneEnd | refreshTick | cycleEnd | readyTimeout | currentMeasurement | cooldownEnd | poweringEnd
  | resettingEnd | slotResetEnd | pollIntervalEnd | trqAssert | trqDeassert | irlChange | irlFilterChange
  | timeBaseAdvance => cases spelled
  | park | wake | clockStop | busStatus | mapList | info | resetPart => cases spelled; cases known; rfl
  | setClock | setTiming | setReadyLimit | setRefresh | powerOn | powerOff | isolate | connect | slotReset | setLimit
  | slotStatus | mapAdd | mapRemove | shadowRead | shadowClear | ioRead | ioWrite | memRead | memWrite | pairWrite
  | pairRead | poll | cancel | chConfigure | chArm | chPause | chResume | chClear | chRelease | chStatus | ringWrite
  | ringRead | intConfigure | intMask | intStatus | intAck =>
    cases spelled; cases known; exact offer_congr (by simp [handOver])

/-- The payload of a command that can be sent fits a frame (R187, R189). -/
theorem payload_fits (sendable : i.wellFormed = true) (spelled : requestOf i = some (kind, tag, payload)) :
    payload.length ≤ 1040 := by
  cases i with
  | ioWrite _ f data | memWrite _ f data =>
    have short : data.length ≤ 1024 := of_decide_eq_true sendable
    cases spelled
    rw [List.length_append, accessBytes_length]
    omega
  | ringWrite _ channel data =>
    have short : data.length ≤ 1024 := of_decide_eq_true sendable
    cases spelled
    rw [List.length_append, List.length_singleton]
    omega
  | pairWrite _ f data =>
    have short : data.length = 1 ∨ data.length = 2 := by simpa [Instr.wellFormed] using sendable
    cases spelled
    rw [List.length_append, pairBytes_length]
    omega
  | _ => cases spelled <;> simp [pollBytes, windowBytes, configureBytes, inputBytes]

/-- A request command on a ready pipe is validated as its frame is (R174, log 1). -/
theorem offer_taken (h : s.ready p) (handle : State → State) :
    s.offer p kind tag payload handle = s.takeRequest p kind tag payload.length payload handle :=
  if_pos (by simp [h.1, h.2])

end Requests

/-- Settles O3: the queues by what joins and leaves them, a request command by its offer. -/
theorem intakeHoldsFramesInOrder : Obligations.IntakeHoldsFramesInOrder := by
  refine ⟨fun s p bytes => congrArg Host.Outcome.next ?_, fun s p h => congrArg Host.Outcome.next (frameTakes_nothing h),
    fun s p => canTake_iff s.ml p, fun i s p kind tag payload least most spelled known busy => ?_⟩
  · refine (congrArg (fun m => { s with ml := m }) (receive_eq s.ml p bytes)).trans ?_
    split
    · rfl
    · rfl
  · exact (exec_request spelled known s).trans (congrArg Host.Outcome.next (offer_not_ready busy _))

/-! ## The frame read back -/

/-- The header of a request's frame spells its kind, its tag and its payload's length, and the payload is the rest
(R187). -/
theorem takeBytes_requestBytes (s : State) (p : Pipe) (kind : Byte) (tag : Half) {payload : List Byte}
    (fits : payload.length ≤ 1040) : s.takeBytes p (requestBytes kind tag payload) =
      s.takeRequest p kind tag payload.length payload (handOver kind payload) := by
  have whole : ¬ (frameBytes kind 0 tag payload).length < 6 := by simp
  rw [requestBytes, State.takeBytes, if_neg whole, frameBytes_kind, frameBytes_tag, frameBytes_declared kind 0 tag fits,
    frameBytes_payload]

/-- Settles O2: both are the validation of the frame's fields, handed to the owner of its kind. -/
theorem requestCommandIsItsFrame : Obligations.RequestCommandIsItsFrame := by
  intro i s p kind tag payload least most sendable spelled known ready
  rw [exec_request spelled known, offer_taken ready]
  refine congrArg Host.Outcome.next (Eq.symm ?_)
  rw [frameTakes_only ready, takeBytes_requestBytes s p kind tag (payload_fits sendable spelled)]

end Sys2Proof.Machine
end

