-- ==== Sys2Proof/Proofs/TakenFrames.lean ====
section
/-! PROOF. The validation of a taken frame and the completion of a request (O4), and what INFO and RESET_PART answer
(O10). -/

namespace Sys2Proof.Machine

open Sys2Proof

/-! ## Validation (R174) -/

section Validation

variable {s : State} {p q : Pipe} {bytes payload : List Byte} {kind : Byte} {tag : Half} {declared least most : Nat}
  {handle : State → State}

/-- Check 1: a frame without its header. -/
theorem takeBytes_short (short : bytes.length < 6) :
    s.takeBytes p bytes = s.replyAtOnce ⟨0xF0, 0x12, 0, [bytes.getD 0 0]⟩ := by
  rw [State.takeBytes, if_pos short, byteAt_eq_getD]
  rfl

/-- The header's fields of a frame that has its header (R187). -/
theorem takeBytes_whole (whole : ¬ bytes.length < 6) : s.takeBytes p bytes =
    s.takeRequest p (bytes.getD 0 0) (bytes.getD 3 0 ++ bytes.getD 2 0)
      ((bytes.getD 4 0).toNat + 256 * (bytes.getD 5 0).toNat) (bytes.drop 6)
      (handOver (bytes.getD 0 0) (bytes.drop 6)) := by
  rw [State.takeBytes, if_neg whole, byteAt_eq_getD, halfAt_eq_getD, field_two_eq_getD]

/-- Check 2: a code that is no request kind. -/
theorem takeRequest_unknown (unknown : requestKind kind = none) :
    s.takeRequest p kind tag declared payload handle = s.replyAtOnce ⟨0xF0, 0x10, tag, [kind]⟩ := by
  unfold State.takeRequest
  rw [unknown]
  rfl

/-- Checks 3 and 4: the kind's pipe, and the payload's length. -/
theorem takeRequest_known (known : requestKind kind = some (q, least, most)) :
    s.takeRequest p kind tag declared payload handle =
      if q ≠ p then s.replyAtOnce ⟨kind + 0x80, 0x11, tag, []⟩
      else if declared = payload.length ∧ payload.length ≤ 1040 ∧ least ≤ payload.length ∧ payload.length ≤ most then
        handle (s.beginRequest p kind tag)
      else s.replyAtOnce ⟨kind + 0x80, 0x12, tag, []⟩ := by
  have largest : Config.maxPayload = 1040 := rfl
  have allowed : ¬ (declared ≠ payload.length ∨ Config.maxPayload < payload.length ∨ payload.length < least ∨
      most < payload.length) ↔
      declared = payload.length ∧ payload.length ≤ 1040 ∧ least ≤ payload.length ∧ payload.length ≤ most := by omega
  unfold State.takeRequest
  rw [known]
  refine if_congr Iff.rfl rfl ?_
  rw [← ite_not]
  exact if_congr allowed rfl rfl

theorem requestKind_reply (reply : 0x80 ≤ kind.toNat) : requestKind kind = none := by
  unfold requestKind
  split
  case h_44 => rfl
  all_goals omega

end Validation

/-! ## Completion (R176, R184) -/

section Completion

variable {s : State} {r : Request} (status : Status) (payload : List Byte)

theorem complete_eq (m : Ml) (r : Request) : m.complete r status payload =
    { m with
      replies := if r.claim = true then m.replies ++ [⟨r.kind + 0x80, status.code, r.tag, payload⟩] else m.replies
      reserved := if r.claim = true then m.reserved - 1 else m.reserved } := by
  unfold Ml.complete
  split
  · rfl
  · rfl

theorem replyCommand_none (h : s.ml.command = none) : s.replyCommand status payload = s := by
  rw [State.replyCommand, h]

theorem replyStream_none (h : s.ml.stream = none) : s.replyStream status payload = s := by
  rw [State.replyStream, h]

theorem replyCommand_some (h : s.ml.command = some r) : s.replyCommand status payload =
    { s with ml := { s.ml.complete r status payload with command := none } } := by
  rw [State.replyCommand, h]
  rfl

theorem replyStream_some (h : s.ml.stream = some r) : s.replyStream status payload =
    { s with ml := { s.ml.complete r status payload with stream := none } } := by
  rw [State.replyStream, h]
  rfl

end Completion

/-- Settles O4: the checks in their order, and the completion on either pipe. -/
theorem takenFramesAreValidated : Obligations.TakenFramesAreValidated := by
  refine ⟨fun s p bytes rest can head => congrArg Host.Outcome.next ?_, fun _ => requestKind_reply,
    fun s status payload => ⟨replyCommand_none status payload, replyStream_none status payload, fun r =>
      ⟨fun h => ?_, fun h => ?_⟩⟩⟩
  · rw [frameTakes_head can head]
    by_cases short : bytes.length < 6
    case pos => rw [takeBytes_short short, if_pos short]
    case neg =>
      rw [takeBytes_whole short, if_neg short]
      cases known : requestKind (bytes.getD 0 0) with
      | none => exact takeRequest_unknown known
      | some pipe => exact takeRequest_known known
  · rw [replyCommand_some status payload h, complete_eq]
  · rw [replyStream_some status payload h, complete_eq]

/-! ## INFO and RESET_PART -/

/-- Settles O10: each request by the reply it makes in the event in which it is taken. -/
theorem infoAndResetPartAnswerAtOnce : Obligations.InfoAndResetPartAnswerAtOnce := by
  refine ⟨fun s tag ready => ?_, fun s tag ready => ?_, fun s p pending => ?_⟩
  · have taken : exec (.info tag) s = .next (infoTaken (s.beginRequest .command 0x48 tag)) :=
      congrArg Host.Outcome.next (offer_ready ready rfl (Nat.zero_le _) (Nat.zero_le _) (Nat.zero_le _) _)
    exact taken.trans (congrArg Host.Outcome.next (replyCommand_begin ready.command .ok s.infoPayload))
  · exact congrArg Host.Outcome.next (offer_ready ready rfl (Nat.zero_le _) (Nat.zero_le _) (Nat.zero_le _) _)
  · exact congrArg Host.Outcome.next (frameTakes_nothing (.inl (by simp [Ml.canTake, pending])))

end Sys2Proof.Machine
end

