-- ==== Sys2Proof/Proofs/SentFrames.lean ====
section
/-! PROOF. The bytes of a sent frame, and what its leaving brings (O6). -/

namespace Sys2Proof.Machine

open Sys2Proof

/-- A half as a field is its low byte and its high byte. -/
theorem le_two_half (h : Half) : le 2 h.toNat = [h.setWidth 8, (h >>> 8).setWidth 8] := by
  have high : (BitVec.ofNat 8 (h.toNat / 256) : Byte) = (h >>> 8).setWidth 8 := by
    refine BitVec.eq_of_toNat_eq ?_
    simp [Nat.shiftRight_eq_div_pow]
  exact congrArg (fun b => [h.setWidth 8, b]) high

theorem bytes_eq (f : Frame) : f.bytes = [f.kind, f.status, f.tag.setWidth 8, (f.tag >>> 8).setWidth 8,
    BitVec.ofNat 8 f.payload.length, BitVec.ofNat 8 (f.payload.length / 256)] ++ f.payload := by
  rw [Frame.bytes, frameBytes, le_two_half]
  rfl

theorem isResetReply_iff (f : Frame) : f.isResetReply = true ↔ f.kind = 0xC9 ∧ f.status = 0x00 := by
  simp [Frame.isResetReply, Status.code]

/-- FRAME_SENT with a frame in transmission (R179, R181). -/
theorem framesSent_some {s : State} {f : Frame} (h : s.ml.sending = some f) : framesSent s =
    if s.ml.resetPending = true ∧ f.kind = 0xC9 ∧ f.status = 0x00 then s.resetEvent
    else { s with ml := { s.ml with sending := none } } := by
  unfold framesSent
  rw [h]
  exact if_congr ((Bool.and_eq_true_iff ..).trans (and_congr Iff.rfl (isResetReply_iff f))) rfl rfl

/-- Settles O6: the event by what is in transmission, the frame by the fields of its bytes. -/
theorem sentFrameLeavesThePart : Obligations.SentFrameLeavesThePart := by
  refine ⟨fun s => congrArg Host.Outcome.next ?_, fun m h => by rw [Ml.reportPipe, h]; rfl,
    fun m f h => by rw [Ml.reportPipe, h, Option.map_some, bytes_eq], fun f fits => ?_⟩
  · cases h : s.ml.sending with
    | none => unfold framesSent; rw [h]
    | some f => exact framesSent_some h
  · refine ⟨frameBytes_length .., frameBytes_payload .., ?_, ?_⟩
    · exact (halfAt_eq_getD f.bytes 2).symm.trans (frameBytes_tag ..)
    · exact (field_two_eq_getD f.bytes 4).symm.trans (frameBytes_declared _ _ _ fits)

end Sys2Proof.Machine
end

