-- ==== Sys2Proof/Proofs/Steps.lean ====
section
/-! PROOF. The step on the queue of commands, and a next state for every command (O1). -/

namespace Sys2Proof.Machine

open Sys2Proof

/-! ## The step by its queue -/

/-- The front command is run with the queue's rest. -/
theorem step_of_cons {s : State} {c : Instr} {rest : List Instr} (h : s.pending = c :: rest) :
    step s = exec c { s with pending := rest } := by
  unfold step
  rw [h]

/-- On an empty queue the part idles (log 3). -/
theorem step_of_nil {s : State} (h : s.pending = []) : step s = .next s := by
  unfold step
  rw [h]

/-! ## Every command answers a next state -/

/-- An event is carried out whole, and a request command is an offer to its pipe, which answers a next state whether
or not the pipe takes it (log 1, log 22). -/
theorem exec_answers_next (c : Instr) (s : State) : ∃ t, exec c s = .next t := by
  cases c with
  | partPowerOn | linkUp | linkReset | frameReceive | frameTake | frameTransmit | frameSent | noticeAdmission
  | startingEnd | retuneEnd | refreshTick | cycleEnd | readyTimeout | currentMeasurement | cooldownEnd | poweringEnd
  | resettingEnd | slotResetEnd | pollIntervalEnd | trqAssert | trqDeassert | irlChange | irlFilterChange
  | timeBaseAdvance => exact ⟨_, rfl⟩
  | setClock | park | wake | clockStop | setTiming | setReadyLimit | setRefresh | busStatus | powerOn | powerOff
  | isolate | connect | slotReset | setLimit | slotStatus | mapAdd | mapRemove | mapList | shadowRead | shadowClear
  | ioRead | ioWrite | memRead | memWrite | pairWrite | pairRead | poll | cancel | chConfigure | chArm | chPause
  | chResume | chClear | chRelease | chStatus | ringWrite | ringRead | intConfigure | intMask | intStatus | intAck
  | info | resetPart => exact ⟨_, exec_request rfl rfl s⟩

/-- Settles O1: the step by its queue, and the answer by the kind of command. -/
theorem stepRunsTheFrontCommand : Obligations.StepRunsTheFrontCommand :=
  ⟨fun _ _ _ => step_of_cons rfl, fun _ => step_of_nil, exec_answers_next⟩

end Sys2Proof.Machine
end
